-- ==== Sys2Proof/Word.lean ====
section
/-! DEFINITION. The widths of the core's values (R5, R6): bytes, the 16-bit LEN and dimension fields, 32-bit
registers and output-memory addresses. -/

namespace Sys2Proof

/-- A u8: a payload or ECS byte, a sample, an opcode, a cause code. -/
abbrev Byte := BitVec 8

/-- A u16: LEN, X, Y, `fe_count`. -/
abbrev Half := BitVec 16

/-- A u32: every register and register-port transfer (`REG_WIDTH`), every output-memory address (`ADDR_WIDTH`). -/
abbrev Word := BitVec 32

end Sys2Proof
end

