-- ==== Sys2Proof/Config.lean ====
section
/-! DEFINITION. The free values of the model. The parameters of R5 that the spec leaves OPEN (`IN_FIFO_DEPTH`, `BUS_ERR`,
`REG_BASE`) are plain data of State (Platform), so that a statement about every state is about every value of them. -/

namespace Sys2Proof

/-- "Any value" of one byte (20_memory.md R55, R57, R58; 70_reset_and_hazards.md R138): a host read of an output-memory
byte whose value nothing fixes answers this at the counter `State.freeCount`, which the read advances. No body: nothing
can be proved of its value (log 7). -/
opaque Config.freeByte : Nat → Byte

end Sys2Proof
end

