-- ==== Sys2Proof/Syntax.lean ====
section
/-! DEFINITION. The encoded forms the core decodes: one constructor of `Instr` for each row of spec/opcode_table.json,
the coded words they are read from, and the decoder's rejections. -/

namespace Sys2Proof

/-- Commands (a word written to CMD, R62, R63), byte pairs of the entropy-coded segment (R72), DC symbols (R74) and AC
symbols (R75). A field is named as the table names it; `lo` is the part of OP a row of illegal opcodes leaves free. -/
inductive Instr
  | loadDqt (arg : Byte) (len : Half)
  | loadDht (arg : Byte) (len : Half)
  | loadSof (arg : Byte) (len : Half)
  | startScan (arg : Byte) (len : Half)
  | illegal00 (arg : Byte) (len : Half)
  | illegal05 (arg : Byte) (len : Half)
  | illegal0607 (lo : BitVec 1) (arg : Byte) (len : Half)
  | illegal080F (lo : BitVec 3) (arg : Byte) (len : Half)
  | illegal101F (lo : BitVec 4) (arg : Byte) (len : Half)
  | illegal203F (lo : BitVec 5) (arg : Byte) (len : Half)
  | illegal407F (lo : BitVec 6) (arg : Byte) (len : Half)
  | illegal80FF (lo : BitVec 7) (arg : Byte) (len : Half)
  | ecsStuffed
  | ecsRst (n : BitVec 3)
  | ecsMarker (x : Byte)
  /-- `t` is the whole symbol (90_conflicts.md C8): 0 to 11 a category, any other byte raises `DC_CATEGORY`. -/
  | dcCategory (t : Byte)
  | acEob
  | acZrl
  | acRunSize (r s : BitVec 4)
  | acIllegalR0 (r : BitVec 4)
  deriving DecidableEq, Repr

/-- A coded word with where the core meets it, which decides how it is read: a command word; a byte pair of the ECS, at
an MCU boundary or where a coded bit is needed; a symbol that a DC or an AC table decoded. -/
inductive Coded
  | command (w : Word)
  | pair (atBoundary : Bool) (b0 b1 : Byte)
  | dcSymbol (t : Byte)
  | acSymbol (rs : Byte)
  deriving DecidableEq, Repr

/-- Why a coded word is no instruction: a pair that does not begin with FF is data; a pair at an MCU boundary that is no
restart marker is left for the bit reader (R109). -/
inductive Reject
  | dataByte
  | noRestartMarker
  deriving DecidableEq, Repr

end Sys2Proof
end

