-- ==== Sys2Proof/Machine/State.lean ====
section
/-! DEFINITION. The state of the core, of the host that drives it and of the output memory, as plain data (10_state.md),
the reasons a step can stop, and the state after reset (70_reset_and_hazards.md R138). -/

namespace Sys2Proof.Machine

/-- The core has no traps (60_exceptions.md, introduction): an error is a next state in `seq = ERROR`. So no step ends in
a fault, and this type has no constructor (safe: nothing is left out by it). -/
inductive Fault
  deriving DecidableEq, Repr

/-- Why a step has no meaning. -/
inductive Refusal
  /-- An arm of `exec` without a meaning (none is left). Safe: it stops where the hardware goes on. -/
  | notModelled (mnemonic : String)
  /-- Raised by a host turn whose register access is not a 32-bit access at a 4-byte-aligned offset inside the window:
  "The core gives no meaning to any other access ... a model refuses it" (R45). Safe: the spec's own refusal. -/
  | accessOutsideWindow
  deriving DecidableEq, Repr

/-- Huffman table class (R34). -/
inductive TableClass
  | dc
  | ac
  deriving DecidableEq, Repr

/-- Error causes (60_exceptions.md R126), in the order of its table. -/
inductive Cause
  | illegalCommand | sequence | badArg
  | dqtTruncated | dqtBadId | dqtZeroCoef
  | dhtTruncated | dhtBadClass | dhtBadId | dhtTooManySymbols | dhtOverfull
  | sofLength | sofBadDimension | sofBadComponentCount | sofDupId | sofBadSampling | sofBadQuantId
  | sosBadCount | sosLength | sosBadComponent | sosBadTable | tableNotLoaded
  | huffNoCode | endOfSegment | dcCategory | acBadSymbol | acOverrun | coefRange
  | sofVariant | precision | dqtPrecision | dnl | componentCount | sampling | scanSubset | progressive
  | busError | outRange
  deriving DecidableEq, Repr

/-- An entry of the command FIFO (R31). -/
inductive FifoEntry
  | cmd (op arg : Byte) (len : Half) (ob : Word)
  | data (b : Byte)
  deriving DecidableEq, Repr

/-- The front-end mode `fe_mode` (R32). -/
inductive FeMode
  | none
  | count
  | stream
  deriving DecidableEq, Repr

/-- A stored Huffman table: `BITS[1..16]` (index 0 holds `BITS[1]`) and `HUFFVAL` (R34). -/
structure HuffTable where
  bits : Vector Byte 16
  vals : List Byte
  deriving DecidableEq, Repr

/-- A frame component: identifier `C`, effective sampling factors `H`, `V`, quantization table id `TQ` (R35). -/
structure Component where
  id : Byte
  h  : BitVec 3
  v  : BitVec 3
  tq : Fin 4
  deriving DecidableEq, Repr

/-- The frame registers (R35) with the derived geometry of R106. -/
structure Frame where
  valid    : Bool
  x        : Half
  y        : Half
  nf       : BitVec 2
  comps    : Vector Component 3
  hmax     : BitVec 3
  vmax     : BitVec 3
  mcux     : Nat
  mcuy     : Nat
  mcuTotal : Nat
  deriving DecidableEq, Repr

/-- Where a command that waits for a payload byte stands (R89, R90: it "resumes where it waited"): the loops of R95 to
R98, with the bytes collected so far in payload order (log 19). `rem` is the pseudocode's `rem`, the payload bytes left
counted from the start of the current unit or table. -/
inductive LoadPos
  | dqtId (rem : Nat)
  | dqtCoef (rem : Nat) (tq : Fin 4) (q : List Byte)
  | dhtId (rem : Nat)
  | dhtBits (rem : Nat) (tc : TableClass) (th : Fin 4) (bits : List Byte)
  | dhtVals (rem : Nat) (tc : TableClass) (th : Fin 4) (bits : Vector Byte 16) (vals : List Byte)
  | sofHeader (len : Nat) (got : List Byte)
  | sofComp (j : Nat) (got : List Byte)
  | sosCount (len : Nat) (ob : Word)
  | sosComp (j : Nat) (ob : Word) (got : List Byte)
  | sosTail (ob : Word) (got : List Byte)
  deriving DecidableEq, Repr

/-- Where the scan program of R108 stands (log 19). The MCU is `State.m`, the block of the MCU `State.blk`, the
coefficient `State.k`. In the `Huff` positions `l` bits with value `c` of a code word are read (R104); in the `Bits`
positions `n` of the extra bits are still to be read and `v` is the value of those read (R103). -/
inductive ScanPos
  | mcuStart
  | dcHuff (l c : Nat)
  | dcSymbol (t : Byte)
  | dcBits (t n v : Nat)
  | acHuff (l c : Nat)
  | acSymbol (rs : Byte)
  | acBits (s n v : Nat)
  | transform
  | commit (i : Nat) (c : Fin 3)
  | mcuEnd
  deriving DecidableEq, Repr

/-- The sequencer state `seq` (R10); the two working states carry their position. -/
inductive Seq
  | idle
  | payload (l : LoadPos)
  | scan (q : ScanPos)
  | done
  | error
  deriving DecidableEq, Repr

/-- A range of output-memory addresses, `lo` to `hi - 1`. -/
structure Span where
  lo : Nat
  hi : Nat
  deriving DecidableEq, Repr

/-- The parameters of R5 that the spec leaves OPEN: `IN_FIFO_DEPTH` is `fifoExtra + 2` (at least 2, R88), `busErr` the
addresses for which `BUS_ERR` holds, `regBase` is `REG_BASE` (log 4). The width of a platform address is not in the spec:
32 bits is the model's DESIGN CHOICE (log 23). -/
structure Platform where
  fifoExtra : Nat
  busErr    : List Span
  regBase   : Word
  deriving DecidableEq, Repr

/-- An operation of the host (R81, R57, R55): an access of `bytes` bytes to the register window at a platform address, a
read or write of a byte of output memory, or the pseudo-instruction WAIT of R80. -/
inductive HostOp
  | regRead (bytes : Nat) (addr : Word)
  | regWrite (bytes : Nat) (addr v : Word)
  | memRead (addr : Word)
  | memWrite (addr : Word) (v : Byte)
  | wait
  deriving DecidableEq, Repr

/-- What a read of the host answered. -/
inductive HostRead
  | reg (addr v : Word)
  | mem (addr : Word) (v : Byte)
  deriving DecidableEq, Repr

/-- Who moves: the core, the host, or the platform with its hardware reset input (R137). -/
inductive Turn
  | core
  | host
  | hwReset
  deriving DecidableEq, Repr

/-- How much one back-end step does (93 row 27): until its instruction ends, raises or holds; or one elementary operation,
the dispatch alone, one payload byte or one coded bit (log 3). -/
inductive Pace
  | whole
  | single
  deriving DecidableEq, Repr

/-- The machine. -/
structure State where
  -- sequencing and the command FIFO (R10, R31, R32)
  seq          : Seq
  fifo         : List FifoEntry
  feMode       : FeMode
  feCount      : Half
  feThenStream : Bool
  -- stores (R33, R34)
  qt           : Vector (Vector Byte 64) 4
  qtValid      : Vector Bool 4
  htDc         : Vector HuffTable 4
  htAc         : Vector HuffTable 4
  htDcValid    : Vector Bool 4
  htAcValid    : Vector Bool 4
  -- frame and scan registers (R35, R36)
  frame        : Frame
  td           : Vector (Fin 4) 3
  ta           : Vector (Fin 4) 3
  ob           : Word
  -- entropy decoder (R11, R25, R37); `blk` is the block of the MCU in the order of R107
  cur          : Byte
  nbits        : Nat
  p            : Nat
  pred         : Vector Int 3
  m            : Nat
  blk          : Nat
  k            : Nat
  rst          : Nat
  mcuDone      : Nat
  -- working buffers (R38; unspecified after reset and between MCUs: log 6); `samples[j][4v + h]` is block (j, h, v), row by row
  zz           : Vector Int 64
  b            : Vector Int 64
  ws           : Vector Int 64
  samples      : Vector (Vector (Vector Byte 64) 16) 3
  -- remaining core state (R39)
  dropped      : Bool
  doneEvt      : Bool
  errEvt       : Bool
  doneIe       : Bool
  errIe        : Bool
  outBase      : Word
  errClass     : BitVec 2
  errCause     : Byte
  errOp        : Byte
  curOp        : Byte
  -- output memory (R44, R48, R55, R58)
  mem          : List Host.Cell
  indet        : List Span
  clobbered    : List Span
  -- the platform, the host and the model's own fields (logs 1, 3, 4, 17, 21)
  platform     : Platform
  hostOps      : List HostOp
  stalled      : Bool
  reads        : List HostRead
  sched        : List Turn
  pace         : Pace
  freeCount    : Nat
  deriving DecidableEq, Repr

/-- A Huffman table with no code word: what an invalid slot holds at reset (log 5). -/
def HuffTable.empty : HuffTable := { bits := Vector.replicate 16 0, vals := [] }

/-- The frame registers at reset: all 0 (R138). -/
def Frame.zero : Frame :=
  { valid := false, x := 0, y := 0, nf := 0, comps := Vector.replicate 3 { id := 0, h := 0, v := 0, tq := 0 },
    hmax := 0, vmax := 0, mcux := 0, mcuy := 0, mcuTotal := 0 }

/-- The machine right after reset (R138). What R138 calls unspecified is 0 (logs 5 and 6); the output memory lists nothing
(log 7); the platform has a FIFO of 16 entries, no bus error and `REG_BASE` 0 (log 4). -/
def State.reset : State :=
  { seq := .idle, fifo := [], feMode := .none, feCount := 0, feThenStream := false,
    qt := Vector.replicate 4 (Vector.replicate 64 0), qtValid := Vector.replicate 4 false,
    htDc := Vector.replicate 4 HuffTable.empty, htAc := Vector.replicate 4 HuffTable.empty,
    htDcValid := Vector.replicate 4 false, htAcValid := Vector.replicate 4 false,
    frame := Frame.zero, td := Vector.replicate 3 0, ta := Vector.replicate 3 0, ob := 0,
    cur := 0, nbits := 0, p := 0, pred := Vector.replicate 3 0, m := 0, blk := 0, k := 0, rst := 0, mcuDone := 0,
    zz := Vector.replicate 64 0, b := Vector.replicate 64 0, ws := Vector.replicate 64 0,
    samples := Vector.replicate 3 (Vector.replicate 16 (Vector.replicate 64 0)),
    dropped := false, doneEvt := false, errEvt := false, doneIe := false, errIe := false, outBase := 0,
    errClass := 0, errCause := 0, errOp := 0, curOp := 0,
    mem := [], indet := [], clobbered := [],
    platform := { fifoExtra := 14, busErr := [], regBase := 0 },
    hostOps := [], stalled := false, reads := [], sched := [], pace := .whole, freeCount := 0 }

end Sys2Proof.Machine
end

