-- ==== Sys2Proof/Machine/Memory.lean ====
section
/-! DEFINITION. Output memory (20_memory.md): a list of (address, byte) in one canonical form, and ranges of addresses.
An unlisted address has no value of its own (log 7). -/

namespace Sys2Proof.Machine

/-- The canonical form: addresses strictly rising, all below 2^32 (R40). An unlisted address reads as no value, so no
entry can equal what it reads as. -/
def Memory.wf (mem : List Host.Cell) : Bool :=
  decide (mem.Pairwise (fun c d => c.1 < d.1) ∧ ∀ c ∈ mem, c.1 < 2 ^ 32)

/-- The byte written at `a`, or none. -/
def Memory.read : List Host.Cell → Nat → Option Byte
  | [], _ => none
  | (x, v) :: rest, a => if x = a then some v else Memory.read rest a

/-- Writes `v` at `a`, keeping the list sorted. -/
def Memory.write : List Host.Cell → Nat → Byte → List Host.Cell
  | [], a, v => [(a, v)]
  | (x, w) :: rest, a, v =>
    if a < x then (a, v) :: (x, w) :: rest
    else if a = x then (a, v) :: rest
    else (x, w) :: Memory.write rest a v

/-- `a` lies in the range. -/
def Span.has (r : Span) (a : Nat) : Bool := decide (r.lo ≤ a ∧ a < r.hi)

/-- `a` lies in one of the ranges. -/
def inSpans (rs : List Span) (a : Nat) : Bool := rs.any (fun r => r.has a)

/-- The range less the addresses of `cut`. -/
def Span.minus (cut r : Span) : List Span := [⟨r.lo, min r.hi cut.lo⟩, ⟨max r.lo cut.hi, r.hi⟩].filter (fun q => q.lo < q.hi)

/-- The ranges less the addresses of `cut`. -/
def minusSpan (rs : List Span) (cut : Span) : List Span := rs.flatMap (fun r => cut.minus r)

/-- The output region `[base, base + 3*X*Y)` of a scan of the frame `f` (R44). -/
def regionAt (base : Word) (f : Frame) : Span :=
  { lo := base.toNat, hi := base.toNat + 3 * f.x.toNat * f.y.toNat }

/-- The output region `[OB, OB + 3*X*Y)` of the running scan (R44). -/
def region (s : State) : Span := regionAt s.ob s.frame

/-- The output base of the START_SCAN command that is being executed: the one its entry carries while its header is read,
and then OB (R85, R98). -/
def scanBase (s : State) : Option Word :=
  match s.seq with
  | .payload (.sosCount _ ob) => some ob
  | .payload (.sosComp _ ob _) => some ob
  | .payload (.sosTail ob _) => some ob
  | .scan _ => some s.ob
  | _ => none

/-- The region that belongs to the core: "From the execution of a START_SCAN command until `seq` enters `DONE`" (R55), at
most one (log 8). -/
def owned (s : State) : List Span := (scanBase s).toList.map (fun base => regionAt base s.frame)

/-- The ranges whose bytes hold any value once the START_SCAN that may be in execution is given up: by an error (R55, R58)
or by a reset (R138). -/
def indetAfterAbort (s : State) : List Span := owned s ++ s.indet

/-- The ranges whose bytes hold any value once the scan is complete: its own region is written (R50) but for the bytes the
host wrote meanwhile (R55). -/
def indetAfterDone (s : State) : List Span := s.clobbered ++ minusSpan s.indet (region s)

/-- The host reads a byte of output memory (R57): inside the region that belongs to the core (R55), in a range of
any value, or where nothing was written, a free value; elsewhere the byte written. -/
def hostMemRead (a : Word) (s : State) : Byte × State :=
  let free : Byte × State := (Config.freeByte s.freeCount, { s with freeCount := s.freeCount + 1 })
  if inSpans (owned s) a.toNat || inSpans s.indet a.toNat then free
  else
    match Memory.read s.mem a.toNat with
    | some v => (v, s)
    | none => free

/-- The host writes a byte of output memory: inside the region that belongs to the core the byte holds any value at the end
of the scan (R55); elsewhere memory takes the value (log 9). -/
def hostMemWrite (a : Word) (v : Byte) (s : State) : State :=
  if inSpans (owned s) a.toNat then
    { s with clobbered := ⟨a.toNat, a.toNat + 1⟩ :: s.clobbered }
  else
    { s with mem := Memory.write s.mem a.toNat v, indet := minusSpan s.indet ⟨a.toNat, a.toNat + 1⟩ }

/-- The platform's oracle `BUS_ERR(addr)` (R5, R48). -/
def busErr (s : State) (a : Nat) : Bool := inSpans s.platform.busErr a

end Sys2Proof.Machine
end

