-- ==== Sys2Proof/WellFormed.lean ====
section
/-! DEFINITION. Which terms of `Instr` stand for a word of their own row of the opcode table. -/

namespace Sys2Proof

/-- The side conditions of the rows: `ECS.MARKER` x is not 00 (that pair is `ECS.STUFFED_FF`), `AC.RUN_SIZE` has a size
other than 0, `AC.ILLEGAL_R0` a run of 1 to 14 (R72, R75). -/
def Instr.wf : Instr → Bool
  | .loadDqt _ _ | .loadDht _ _ | .loadSof _ _ | .startScan _ _ => true
  | .illegal00 _ _ | .illegal05 _ _ | .illegal0607 _ _ _ | .illegal080F _ _ _ => true
  | .illegal101F _ _ _ | .illegal203F _ _ _ | .illegal407F _ _ _ | .illegal80FF _ _ _ => true
  | .ecsStuffed | .ecsRst _ => true
  | .ecsMarker x => x != 0#8
  | .dcCategory _ | .acEob | .acZrl => true
  | .acRunSize _ s => s != 0#4
  | .acIllegalR0 r => r != 0#4 && r != 15#4

end Sys2Proof
end

