-- ==== Sys2Proof/Decode.lean ====
section
/-! DEFINITION. Decoding: from a command word, an ECS byte pair or a Huffman symbol to an instruction, and the encoder
written from the same tables (30_encoding.md R62, R63, R72, R74, R75). -/

namespace Sys2Proof

/-- OP, bits 7:0 of a command word (R62). -/
def opField (w : Word) : Byte := w.extractLsb' 0 8

/-- ARG, bits 15:8 (R62). -/
def argField (w : Word) : Byte := w.extractLsb' 8 8

/-- LEN, bits 31:16 (R62). -/
def lenField (w : Word) : Half := w.extractLsb' 16 16

/-- The command word with the three fields of R62, `(n << 16) | (a << 8) | opcode` (R80). -/
def cmdWord (op arg : Byte) (len : Half) : Word :=
  (len.setWidth 32 <<< 16) ||| (arg.setWidth 32 <<< 8) ||| op.setWidth 32

/-- bits 7:4 of a byte. -/
def hiNibble (b : Byte) : BitVec 4 := b.extractLsb' 4 4

/-- bits 3:0 of a byte. -/
def loNibble (b : Byte) : BitVec 4 := b.extractLsb' 0 4

/-- The byte with bits 7:4 `hi` and bits 3:0 `lo`. -/
def joinNibbles (hi lo : BitVec 4) : Byte := (hi.setWidth 8 <<< 4) ||| lo.setWidth 8

/-- The opcode map R63, row by row of the opcode table: every byte is the opcode of exactly one row. -/
def decodeFields (op arg : Byte) (len : Half) : Instr :=
  if op = 0x01#8 then .loadDqt arg len
  else if op = 0x02#8 then .loadDht arg len
  else if op = 0x03#8 then .loadSof arg len
  else if op = 0x04#8 then .startScan arg len
  else if op = 0x00#8 then .illegal00 arg len
  else if op = 0x05#8 then .illegal05 arg len
  else if op.extractLsb' 1 7 = 0x03#7 then .illegal0607 (op.extractLsb' 0 1) arg len
  else if op.extractLsb' 3 5 = 0x01#5 then .illegal080F (op.extractLsb' 0 3) arg len
  else if op.extractLsb' 4 4 = 0x01#4 then .illegal101F (op.extractLsb' 0 4) arg len
  else if op.extractLsb' 5 3 = 0x01#3 then .illegal203F (op.extractLsb' 0 5) arg len
  else if op.extractLsb' 6 2 = 0x01#2 then .illegal407F (op.extractLsb' 0 6) arg len
  else .illegal80FF (op.extractLsb' 0 7) arg len

/-- A command word, R62 and R63. -/
def decodeCommand (w : Word) : Instr := decodeFields (opField w) (argField w) (lenField w)

/-- A byte is the second byte of RST0 to RST7: D0 to D7 (R67, R72). -/
def isRstByte (b : Byte) : Bool := b.extractLsb' 3 5 == 0b11010#5

/-- A byte pair of the ECS (R72): at an MCU boundary only a restart marker is taken (R109); elsewhere FF 00 is a stuffed
byte and FF with any other byte, a restart marker included, is a marker (R101). -/
def decodePair (atBoundary : Bool) (b0 b1 : Byte) : Except Reject Instr :=
  if b0 ≠ 0xFF#8 then .error .dataByte
  else if atBoundary then
    if isRstByte b1 then .ok (.ecsRst (b1.extractLsb' 0 3)) else .error .noRestartMarker
  else if b1 = 0x00#8 then .ok .ecsStuffed
  else .ok (.ecsMarker b1)

/-- A symbol of a DC table (R74): the whole byte is the category. -/
def decodeDc (t : Byte) : Instr := .dcCategory t

/-- A symbol of an AC table, `{R, S}` (R75). -/
def decodeAc (rs : Byte) : Instr :=
  if loNibble rs = 0#4 then
    if hiNibble rs = 0#4 then .acEob
    else if hiNibble rs = 15#4 then .acZrl
    else .acIllegalR0 (hiNibble rs)
  else .acRunSize (hiNibble rs) (loNibble rs)

/-- The decoder, total on coded words, rejecting by name. -/
def decode : Coded → Except Reject Instr
  | .command w => .ok (decodeCommand w)
  | .pair atBoundary b0 b1 => decodePair atBoundary b0 b1
  | .dcSymbol t => .ok (decodeDc t)
  | .acSymbol rs => .ok (decodeAc rs)

/-- The opcode of a command, from the table's match value and the row's free bits; 0 for what is no command. -/
def opcodeOf : Instr → Byte
  | .loadDqt _ _ => 0x01#8
  | .loadDht _ _ => 0x02#8
  | .loadSof _ _ => 0x03#8
  | .startScan _ _ => 0x04#8
  | .illegal00 _ _ => 0x00#8
  | .illegal05 _ _ => 0x05#8
  | .illegal0607 lo _ _ => 0x06#8 ||| lo.setWidth 8
  | .illegal080F lo _ _ => 0x08#8 ||| lo.setWidth 8
  | .illegal101F lo _ _ => 0x10#8 ||| lo.setWidth 8
  | .illegal203F lo _ _ => 0x20#8 ||| lo.setWidth 8
  | .illegal407F lo _ _ => 0x40#8 ||| lo.setWidth 8
  | .illegal80FF lo _ _ => 0x80#8 ||| lo.setWidth 8
  | .ecsStuffed | .ecsRst _ | .ecsMarker _ | .dcCategory _ | .acEob | .acZrl | .acRunSize _ _ | .acIllegalR0 _ => 0#8

/-- The encoder: the coded word of an instruction, with where the core meets it. -/
def encode : Instr → Coded
  | .loadDqt arg len => .command (cmdWord 0x01#8 arg len)
  | .loadDht arg len => .command (cmdWord 0x02#8 arg len)
  | .loadSof arg len => .command (cmdWord 0x03#8 arg len)
  | .startScan arg len => .command (cmdWord 0x04#8 arg len)
  | .illegal00 arg len => .command (cmdWord 0x00#8 arg len)
  | .illegal05 arg len => .command (cmdWord 0x05#8 arg len)
  | .illegal0607 lo arg len => .command (cmdWord (opcodeOf (.illegal0607 lo arg len)) arg len)
  | .illegal080F lo arg len => .command (cmdWord (opcodeOf (.illegal080F lo arg len)) arg len)
  | .illegal101F lo arg len => .command (cmdWord (opcodeOf (.illegal101F lo arg len)) arg len)
  | .illegal203F lo arg len => .command (cmdWord (opcodeOf (.illegal203F lo arg len)) arg len)
  | .illegal407F lo arg len => .command (cmdWord (opcodeOf (.illegal407F lo arg len)) arg len)
  | .illegal80FF lo arg len => .command (cmdWord (opcodeOf (.illegal80FF lo arg len)) arg len)
  | .ecsStuffed => .pair false 0xFF#8 0x00#8
  | .ecsRst n => .pair true 0xFF#8 (0xD0#8 ||| n.setWidth 8)
  | .ecsMarker x => .pair false 0xFF#8 x
  | .dcCategory t => .dcSymbol t
  | .acEob => .acSymbol 0x00#8
  | .acZrl => .acSymbol 0xF0#8
  | .acRunSize r s => .acSymbol (joinNibbles r s)
  | .acIllegalR0 r => .acSymbol (joinNibbles r 0#4)

/-- Where a word of the opcode table is met. 32 bits: a command word. 16 bits: an ECS byte pair, first byte in bits 15:8,
a restart marker at an MCU boundary and any other pair where a bit is needed. 8 bits: the table gives DC and AC symbols
the same byte; 01 to 0F is read as a DC symbol and every other byte as an AC symbol (log 11). -/
def codedOfTableWord (nbits w : Nat) : Option Coded :=
  if nbits = 32 then some (.command (BitVec.ofNat 32 w))
  else if nbits = 16 then
    let b0 : Byte := BitVec.ofNat 8 (w / 256)
    let b1 : Byte := BitVec.ofNat 8 w
    some (.pair (b0 == 0xFF#8 && isRstByte b1) b0 b1)
  else if nbits = 8 then
    if 1 ≤ w % 256 ∧ w % 256 ≤ 15 then some (.dcSymbol (BitVec.ofNat 8 w)) else some (.acSymbol (BitVec.ofNat 8 w))
  else none

/-- The instruction the decoder reads from an opcode-table word, numbered as the table numbers it. -/
def decodeTableWord (nbits w : Nat) : Option Instr :=
  match codedOfTableWord nbits w with
  | some c => (decode c).toOption
  | none => none

end Sys2Proof
end

