-- ==== Sys2Proof/Machine/Operands.lean ====
section
/-! DEFINITION. Operand forms: the fields of payload bytes (30_encoding.md R68 to R71, 20_memory.md R41), canonical
Huffman codes (42_huffman_bitreader.md R100), signed-magnitude values (R105), and the zigzag table (R78). -/

namespace Sys2Proof.Machine

/-- `clamp(v, lo, hi)` of R7. -/
def clamp (v lo hi : Int) : Int := if v < lo then lo else if hi < v then hi else v

/-- A value clamped to 0 to 255, as a byte. -/
def clampByte (v : Int) : Byte := BitVec.ofNat 8 (clamp v 0 255).toNat

/-- Two payload bytes, the first the most significant (R41). -/
def beHalf (hi lo : Byte) : Half := (hi.setWidth 16 <<< 8) ||| lo.setWidth 16

/-- A table id: a 4-bit or 8-bit field that was checked to be at most 3. -/
def tableId (n : Nat) : Fin 4 := Fin.ofNat 4 n

/-- The `k`-th collected byte (0 past the end). -/
def byteAt (got : List Byte) (i : Nat) : Byte := got.getD i 0

/-- How the second byte of an SOF marker is taken (R67, R97 step 1): accepted, another SOF, or no SOF marker. -/
inductive SofKind
  | baseline
  | variant
  | notSof
  deriving DecidableEq, Repr

/-- R97 step 1. -/
def sofKind (arg : Byte) : SofKind :=
  if arg = 0xC0#8 then .baseline
  else if arg ∈ ([0xC1#8, 0xC2#8, 0xC3#8, 0xC5#8, 0xC6#8, 0xC7#8, 0xC9#8, 0xCA#8, 0xCB#8, 0xCD#8, 0xCE#8, 0xCF#8] : List Byte) then .variant
  else .notSof

/-- `NSYM = BITS[1] + ... + BITS[16]` (R69). -/
def symbolCount (bits : List Byte) : Nat := (bits.map (fun b => b.toNat)).sum

/-- A code word of a Huffman table: its length, its value and its symbol. -/
structure Code where
  len  : Nat
  code : Nat
  sym  : Byte
  deriving DecidableEq, Repr

/-- The code words of one length: the symbols in order get `first`, `first + 1`, ... (R100, inner loop). -/
def codesAt (l first : Nat) : List Byte → List Code
  | [] => []
  | sym :: rest => ⟨l, first, sym⟩ :: codesAt l (first + 1) rest

/-- The loop of R100 from length `l` on: `bits` are `BITS[l]`, `BITS[l+1]`, ..., `vals` the symbols not yet assigned. -/
def codesFrom (l first : Nat) : List Byte → List Byte → List Code
  | [], _ => []
  | n :: bits, vals =>
    codesAt l first (vals.take n.toNat) ++ codesFrom (l + 1) ((first + n.toNat) * 2) bits (vals.drop n.toNat)

/-- The code set of a stored table (R100). -/
def HuffTable.codes (t : HuffTable) : List Code := codesFrom 1 0 t.bits.toList t.vals

/-- `FIRST[l] + BITS[l] > 2^l` for some length from `l` on (R100). -/
def overfullFrom (l first : Nat) : List Byte → Bool
  | [] => false
  | n :: bits => decide (first + n.toNat > 2 ^ l) || overfullFrom (l + 1) ((first + n.toNat) * 2) bits

/-- `overfull(BITS)` (R100). -/
def overfull (bits : List Byte) : Bool := overfullFrom 1 0 bits

/-- The symbol whose code word has length `l` and value `c`, the first in `HUFFVAL` order (R104). -/
def symbolOf (t : HuffTable) (l c : Nat) : Option Byte :=
  (t.codes.find? (fun e => e.len == l && e.code == c)).map (fun e => e.sym)

/-- Some code word longer than `l` has `c` as its first `l` bits (R104). -/
def livePrefix (t : HuffTable) (l c : Nat) : Bool :=
  t.codes.any (fun e => decide (l < e.len) && e.code / 2 ^ (e.len - l) == c)

/-- `extend(v, s)` (R105). -/
def extend (v s : Nat) : Int :=
  if s = 0 then 0 else if v < 2 ^ (s - 1) then (v : Int) - 2 ^ s + 1 else v

/-- The zigzag table: the natural index of zigzag position `k` (R78). -/
def zigzag : Vector (Fin 64) 64 := #v[
  0, 1, 8, 16, 9, 2, 3, 10, 17, 24, 32, 25, 18, 11, 4, 5,
  12, 19, 26, 33, 40, 48, 41, 34, 27, 20, 13, 6, 7, 14, 21, 28,
  35, 42, 49, 56, 57, 50, 43, 36, 29, 22, 15, 23, 30, 37, 44, 51,
  58, 59, 52, 45, 38, 31, 39, 46, 53, 60, 61, 54, 47, 55, 62, 63]

/-- Its inverse: the zigzag position of natural index `n` (R78). -/
def zigzagPos : Vector (Fin 64) 64 := #v[
  0, 1, 5, 6, 14, 15, 27, 28, 2, 4, 7, 13, 16, 26, 29, 42,
  3, 8, 12, 17, 25, 30, 41, 43, 9, 11, 18, 24, 31, 40, 44, 53,
  10, 19, 23, 32, 39, 45, 52, 54, 20, 22, 33, 38, 46, 51, 55, 60,
  21, 34, 37, 47, 50, 56, 59, 61, 35, 36, 48, 49, 57, 58, 62, 63]

end Sys2Proof.Machine
end

