-- ==== Sys2Proof/Machine/Ops.lean ====
section
/-! DEFINITION. The shared operations of the back end: error entry (60_exceptions.md R127) and the reset that alone leaves
it (70_reset_and_hazards.md R138), the FIFO primitives (40_command_interface.md R89, R90), the bit reader
(42_huffman_bitreader.md R101 to R103). -/

namespace Sys2Proof.Machine

/-- CAUSE codes (R126). -/
def Cause.code : Cause → Byte
  | .illegalCommand => 0x01
  | .sequence => 0x02
  | .badArg => 0x03
  | .dqtTruncated => 0x10
  | .dqtBadId => 0x11
  | .dqtZeroCoef => 0x12
  | .dhtTruncated => 0x18
  | .dhtBadClass => 0x19
  | .dhtBadId => 0x1A
  | .dhtTooManySymbols => 0x1B
  | .dhtOverfull => 0x1C
  | .sofLength => 0x20
  | .sofBadDimension => 0x21
  | .sofBadComponentCount => 0x22
  | .sofDupId => 0x23
  | .sofBadSampling => 0x24
  | .sofBadQuantId => 0x25
  | .sosBadCount => 0x28
  | .sosLength => 0x29
  | .sosBadComponent => 0x2A
  | .sosBadTable => 0x2B
  | .tableNotLoaded => 0x2C
  | .huffNoCode => 0x30
  | .endOfSegment => 0x31
  | .dcCategory => 0x32
  | .acBadSymbol => 0x33
  | .acOverrun => 0x34
  | .coefRange => 0x35
  | .sofVariant => 0x40
  | .precision => 0x41
  | .dqtPrecision => 0x42
  | .dnl => 0x43
  | .componentCount => 0x44
  | .sampling => 0x45
  | .scanSubset => 0x46
  | .progressive => 0x47
  | .busError => 0x50
  | .outRange => 0x51

/-- The class of a cause as ERR.CLASS shows it: 1 MalformedStream, 2 UnsupportedFeature, 3 IoFailure (R125, R126). -/
def Cause.cls : Cause → BitVec 2
  | .sofVariant | .precision | .dqtPrecision | .dnl | .componentCount | .sampling | .scanSubset | .progressive => 2
  | .busError | .outRange => 3
  | _ => 1

/-- `raise K(C)`: error entry (R127). The region of the START_SCAN it aborts holds any value (R55, R58, log 8). -/
def raise (c : Cause) (s : State) : State :=
  { s with
    errClass := c.cls, errCause := c.code, errOp := s.curOp, fifo := [],
    feMode := .none, feCount := 0, feThenStream := false, errEvt := true, seq := .error,
    indet := indetAfterAbort s }

/-- A reset of the core, hardware or CTRL.SOFT_RESET (R137, R138): every state of the core at its reset value, the only
way out of an error. Memory, the platform and the host are no state of the core: it keeps them, and the region of a scan
it interrupts holds any value (log 8). -/
def resetCore (s : State) : State :=
  { State.reset with
    mem := s.mem, indet := indetAfterAbort s, platform := s.platform, hostOps := s.hostOps, stalled := s.stalled,
    reads := s.reads, sched := s.sched, pace := s.pace, freeCount := s.freeCount }

/-- The entry is a DATA entry. -/
def FifoEntry.isData : FifoEntry → Bool
  | .data _ => true
  | .cmd _ _ _ _ => false

/-- The byte of a DATA entry (0 for a command entry). -/
def FifoEntry.byte : FifoEntry → Byte
  | .data b => b
  | .cmd _ _ _ _ => 0

/-- What looking for a payload or ECS byte finds: nothing yet (`hold`), a command entry where a byte is due, or a byte. -/
inductive Peek
  | hold
  | sequence
  | byte (b : Byte)
  deriving DecidableEq, Repr

/-- `peek_byte(i)` (R90). -/
def peekByte (i : Nat) (s : State) : Peek :=
  if s.fifo.length < i + 1 then .hold
  else if (s.fifo.take (i + 1)).all FifoEntry.isData then .byte (((s.fifo[i]?).map FifoEntry.byte).getD 0)
  else .sequence

/-- `consume(n)` (R90). -/
def consume (n : Nat) (s : State) : State := { s with fifo := s.fifo.drop n, p := s.p + n }

/-- The result of an operation that may wait or raise: a value and the state after it, `hold` (the state is unchanged), or
the state after an error entry. -/
inductive Got (α : Type)
  | got (a : α) (s : State)
  | hold
  | raised (s : State)
  deriving DecidableEq, Repr

/-- `next_payload_byte()` (R89). -/
def nextPayloadByte (s : State) : Got Byte :=
  match s.fifo with
  | [] => .hold
  | .data b :: rest => .got b { s with fifo := rest }
  | .cmd _ _ _ _ :: _ => .raised (raise .sequence s)

/-- The stuffed pair FF 00 is taken: eight 1 bits (R101). -/
def takeStuffed (s : State) : State := { consume 2 s with cur := 0xFF#8, nbits := 8 }

/-- A data byte is taken (R101). -/
def takeDataByte (b : Byte) (s : State) : State := { consume 1 s with cur := b, nbits := 8 }

/-- `fill_byte()` (R101). -/
def fillByte (s : State) : Got Unit :=
  match peekByte 0 s with
  | .hold => .hold
  | .sequence => .raised (raise .sequence s)
  | .byte b0 =>
    if b0 ≠ 0xFF#8 then .got () (takeDataByte b0 s)
    else
      match peekByte 1 s with
      | .hold => .hold
      | .sequence => .raised (raise .sequence s)
      | .byte b1 => if b1 = 0x00#8 then .got () (takeStuffed s) else .raised (raise .endOfSegment s)

/-- The next bit of `cur`, which has one (R102, the last two lines). -/
def takeBit (s : State) : Nat × State := ((s.cur.getLsbD (s.nbits - 1)).toNat, { s with nbits := s.nbits - 1 })

/-- `read_bit()` (R102). -/
def readBit (s : State) : Got Nat :=
  if s.nbits = 0 then
    match fillByte s with
    | .got _ s' => .got (takeBit s').1 (takeBit s').2
    | .hold => .hold
    | .raised s' => .raised s'
  else .got (takeBit s).1 (takeBit s).2

/-- How far a loop over coded bits came: ended with a value, waiting with its progress, or the state after an error. -/
inductive Bits
  | ended (v : Nat) (s : State)
  | waiting (n v : Nat) (s : State)
  | raised (s : State)
  deriving DecidableEq, Repr

/-- The loop of `read_bits` (R103) with `n` bits to go and `v` read so far, for at most `fuel` bits. -/
def readBitsLoop : Nat → Nat → Nat → State → Bits
  | _, 0, v, s => .ended v s
  | 0, n + 1, v, s => .waiting (n + 1) v s
  | fuel + 1, n + 1, v, s =>
    match readBit s with
    | .got bit s' => readBitsLoop fuel n (2 * v + bit) s'
    | .hold => .waiting (n + 1) v s
    | .raised s' => .raised s'

/-- `read_bits(n)` (R103), as far as the bits are there. -/
def readBits (n : Nat) (s : State) : Bits := readBitsLoop n n 0 s

/-- How far the loop of `huff_decode` came: a symbol, waiting after `l` bits of value `c`, or the state after an error. -/
inductive Huff
  | symbol (sym : Byte) (s : State)
  | waiting (l c : Nat) (s : State)
  | raised (s : State)
  deriving DecidableEq, Repr

/-- The loop of `huff_decode(T)` (R104) after `l` bits of value `c`, for at most `fuel` bits. -/
def huffLoop (t : HuffTable) : Nat → Nat → Nat → State → Huff
  | 0, l, c, s => .waiting l c s
  | fuel + 1, l, c, s =>
    match readBit s with
    | .hold => .waiting l c s
    | .raised s' => .raised s'
    | .got bit s' =>
      match symbolOf t (l + 1) (2 * c + bit) with
      | some sym => .symbol sym s'
      | none =>
        if livePrefix t (l + 1) (2 * c + bit) then huffLoop t fuel (l + 1) (2 * c + bit) s'
        else .raised (raise .huffNoCode s')

/-- How many elementary operations a back-end step makes after a dispatch, of at most `whole` there are (log 3). -/
def dispatchFuel (s : State) (whole : Nat) : Nat :=
  match s.pace with
  | .whole => whole
  | .single => 0

/-- How many elementary operations a back-end step makes when it resumes (log 3). -/
def resumeFuel (s : State) (whole : Nat) : Nat :=
  match s.pace with
  | .whole => whole
  | .single => 1

end Sys2Proof.Machine
end

