-- ==== Sys2Proof/Machine/Load.lean ====
section
/-! DEFINITION. The loaders of 41_segment_load.md, R95 to R99: what each payload byte does, and the loop that takes the
bytes that are there and waits where they end. -/

namespace Sys2Proof.Machine

/-- The command's rule has ended without an error: `seq <- IDLE` (R91 step 3). -/
def loadEnd (s : State) : State := { s with seq := .idle }

/-- The loader waits for its next byte at `l`. -/
def loadAt (l : LoadPos) (s : State) : State := { s with seq := .payload l }

/-- The head of R95's `while` loop. -/
def dqtNext (rem : Nat) (s : State) : State :=
  if rem = 0 then loadEnd s else if rem < 65 then raise .dqtTruncated s else loadAt (.dqtId rem) s

/-- A unit's id byte (R95). -/
def dqtId (rem : Nat) (b : Byte) (s : State) : State :=
  if hiNibble b = 1#4 then raise .dqtPrecision s
  else if 1 < (hiNibble b).toNat ∨ 3 < (loNibble b).toNat then raise .dqtBadId s
  else loadAt (.dqtCoef rem (tableId (loNibble b).toNat) []) s

/-- `QT[Tq][0..63] <- q[0..63]; QT_VALID[Tq] <- 1` (R95). -/
def storeQt (tq : Fin 4) (q : Vector Byte 64) (s : State) : State :=
  { s with qt := s.qt.set tq q, qtValid := s.qtValid.set tq true }

/-- The 64 collected coefficients as a table. -/
def qtOfBytes (q : List Byte) : Vector Byte 64 := Vector.ofFn (fun i : Fin 64 => byteAt q i.val)

/-- A coefficient byte (R95); `q` are the ones before it. -/
def dqtCoef (rem : Nat) (tq : Fin 4) (q : List Byte) (b : Byte) (s : State) : State :=
  if b = 0#8 then raise .dqtZeroCoef s
  else if q.length + 1 < 64 then loadAt (.dqtCoef rem tq (q ++ [b])) s
  else dqtNext (rem - 65) (storeQt tq (qtOfBytes (q ++ [b])) s)

/-- The head of R96's `while` loop. -/
def dhtNext (rem : Nat) (s : State) : State :=
  if rem = 0 then loadEnd s else if rem < 17 then raise .dhtTruncated s else loadAt (.dhtId rem) s

/-- A table's class and id byte (R96). -/
def dhtId (rem : Nat) (b : Byte) (s : State) : State :=
  if 1 < (hiNibble b).toNat then raise .dhtBadClass s
  else if 3 < (loNibble b).toNat then raise .dhtBadId s
  else loadAt (.dhtBits rem (if hiNibble b = 0#4 then .dc else .ac) (tableId (loNibble b).toNat) []) s

/-- `HT[Tc][Th] <- (BITS, HUFFVAL); HT_VALID[Tc][Th] <- 1` (R96). -/
def storeHt (tc : TableClass) (th : Fin 4) (t : HuffTable) (s : State) : State :=
  match tc with
  | .dc => { s with htDc := s.htDc.set th t, htDcValid := s.htDcValid.set th true }
  | .ac => { s with htAc := s.htAc.set th t, htAcValid := s.htAcValid.set th true }

/-- The 16 collected code-length counts. -/
def bitsOfBytes (bits : List Byte) : Vector Byte 16 := Vector.ofFn (fun i : Fin 16 => byteAt bits i.val)

/-- All 16 counts are there: the checks of R96 and, for a table without symbols, its store. -/
def dhtChecked (rem : Nat) (tc : TableClass) (th : Fin 4) (bits : List Byte) (s : State) : State :=
  if 256 < symbolCount bits then raise .dhtTooManySymbols s
  else if overfull bits then raise .dhtOverfull s
  else if rem - 17 < symbolCount bits then raise .dhtTruncated s
  else if symbolCount bits = 0 then
    dhtNext (rem - 17) (storeHt tc th { bits := bitsOfBytes bits, vals := [] } s)
  else loadAt (.dhtVals rem tc th (bitsOfBytes bits) []) s

/-- A code-length count (R96). -/
def dhtBits (rem : Nat) (tc : TableClass) (th : Fin 4) (bits : List Byte) (b : Byte) (s : State) : State :=
  if bits.length + 1 < 16 then loadAt (.dhtBits rem tc th (bits ++ [b])) s
  else dhtChecked rem tc th (bits ++ [b]) s

/-- A symbol byte (R96). -/
def dhtVals (rem : Nat) (tc : TableClass) (th : Fin 4) (bits : Vector Byte 16) (vals : List Byte) (b : Byte)
    (s : State) : State :=
  if vals.length + 1 < symbolCount bits.toList then loadAt (.dhtVals rem tc th bits (vals ++ [b])) s
  else dhtNext (rem - 17 - symbolCount bits.toList) (storeHt tc th { bits := bits, vals := vals ++ [b] } s)

/-- R97 step 2 once the six header bytes are there. X and Y are registers the pseudocode assigns as it reads, Nf too,
whose two bits hold every count that is accepted (log 14). -/
def sofHeader (len : Nat) (h : List Byte) (s : State) : State :=
  let s := { s with frame := { s.frame with
    y := beHalf (byteAt h 1) (byteAt h 2), x := beHalf (byteAt h 3) (byteAt h 4), nf := (byteAt h 5).setWidth 2 } }
  if byteAt h 0 ≠ 8#8 then raise .precision s
  else if s.frame.y = 0#16 then raise .dnl s
  else if s.frame.x = 0#16 then raise .sofBadDimension s
  else if byteAt h 5 = 0#8 then raise .sofBadComponentCount s
  else if byteAt h 5 ≠ 1#8 ∧ byteAt h 5 ≠ 3#8 then raise .componentCount s
  else if len ≠ 6 + 3 * (byteAt h 5).toNat then raise .sofLength s
  else loadAt (.sofComp 0 []) s

/-- The components of the frame: `j` in 0 to `Nf - 1` (R35). -/
def frameComps (f : Frame) : List Component := f.comps.toList.take f.nf.toNat

/-- `ceil(n / (8*f))` (R106). -/
def mcuCount (n f : Nat) : Nat := (n + 8 * f - 1) / (8 * f)

/-- The effective sampling factors: 1x1 for a single component (R97 step 4). -/
def effectiveSampling (f : Frame) : Frame :=
  if f.nf = 1#2 then { f with comps := f.comps.set 0 { f.comps[0] with h := 1, v := 1 } } else f

/-- `max H[j]` (R97 step 4, R106). -/
def maxH (f : Frame) : Nat := ((frameComps f).map (fun c => c.h.toNat)).foldl max 0

/-- `max V[j]` (R97 step 4, R106). -/
def maxV (f : Frame) : Nat := ((frameComps f).map (fun c => c.v.toNat)).foldl max 0

/-- The number of blocks of an MCU (R107). -/
def blocksPerMcu (f : Frame) : Nat := ((frameComps f).map (fun c => c.h.toNat * c.v.toNat)).sum

/-- R97 step 4's test of a three-component frame. -/
def samplingUnsupported (f : Frame) : Bool :=
  f.nf == 3#2 &&
    ((frameComps f).any (fun c => f.hmax.toNat % c.h.toNat != 0 || f.vmax.toNat % c.v.toNat != 0) ||
      decide (10 < blocksPerMcu f))

/-- Hmax and Vmax (R97 step 4). -/
def withMaxima (f : Frame) : Frame := { f with hmax := BitVec.ofNat 3 (maxH f), vmax := BitVec.ofNat 3 (maxV f) }

/-- MCUX, MCUY, MCU_TOTAL (R106) and `FRAME_VALID <- 1`. -/
def withGeometry (f : Frame) : Frame :=
  { f with
    mcux := mcuCount f.x.toNat f.hmax.toNat, mcuy := mcuCount f.y.toNat f.vmax.toNat,
    mcuTotal := mcuCount f.x.toNat f.hmax.toNat * mcuCount f.y.toNat f.vmax.toNat, valid := true }

/-- R97 step 4. -/
def sofEnd (s : State) : State :=
  let f := withMaxima (effectiveSampling s.frame)
  let s := { s with frame := f }
  if samplingUnsupported f then raise .sampling s else loadEnd { s with frame := withGeometry f }

/-- Some component before `j` has the identifier `c` (R97 step 3). -/
def dupId (f : Frame) (j : Nat) (c : Byte) : Bool := (f.comps.toList.take j).any (fun e => e.id == c)

/-- R97 step 3 for component `j`, whose three bytes are there. -/
def sofComponent (j : Nat) (c hv tq : Byte) (s : State) : State :=
  if dupId s.frame j c then raise .sofDupId s
  else if (hiNibble hv).toNat < 1 ∨ 4 < (hiNibble hv).toNat ∨ (loNibble hv).toNat < 1 ∨ 4 < (loNibble hv).toNat then
    raise .sofBadSampling s
  else if 3 < tq.toNat then raise .sofBadQuantId s
  else
    let comp : Component :=
      { id := c, h := (hiNibble hv).setWidth 3, v := (loNibble hv).setWidth 3, tq := tableId tq.toNat }
    let s := { s with frame := { s.frame with comps := s.frame.comps.setIfInBounds j comp } }
    if j + 1 < s.frame.nf.toNat then loadAt (.sofComp (j + 1) []) s else sofEnd s

/-- The byte Ns of a scan header (R98). -/
def sosCount (len : Nat) (ob : Word) (ns : Byte) (s : State) : State :=
  if ns = 0#8 ∨ 4 < ns.toNat then raise .sosBadCount s
  else if len ≠ 4 + 2 * ns.toNat then raise .sosLength s
  else if ns.toNat ≠ s.frame.nf.toNat then raise .scanSubset s
  else loadAt (.sosComp 0 ob []) s

/-- The identifier of frame component `j` (R35). -/
def compId (f : Frame) (j : Nat) : Byte := ((f.comps[j]?).map (fun c => c.id)).getD 0

/-- Component `j` of a scan header, whose two bytes are there (R98). -/
def sosComponent (j : Nat) (ob : Word) (cs t : Byte) (s : State) : State :=
  if cs ≠ compId s.frame j then raise .sosBadComponent s
  else if 3 < (hiNibble t).toNat ∨ 3 < (loNibble t).toNat then raise .sosBadTable s
  else
    let s := { s with
      td := s.td.setIfInBounds j (tableId (hiNibble t).toNat), ta := s.ta.setIfInBounds j (tableId (loNibble t).toNat) }
    if j + 1 < s.frame.nf.toNat then loadAt (.sosComp (j + 1) ob []) s else loadAt (.sosTail ob []) s

/-- Every table the scan needs is loaded (R98). -/
def tablesLoaded (s : State) : Bool :=
  ((List.finRange 3).take s.frame.nf.toNat).all
    (fun j => s.qtValid[s.frame.comps[j].tq] && s.htDcValid[s.td[j]] && s.htAcValid[s.ta[j]])

/-- `scan_init()` (R99). -/
def scanInit (s : State) : State :=
  { s with
    pred := Vector.replicate 3 0, cur := 0, nbits := 0, p := 0, m := 0, rst := 0, mcuDone := 0,
    seq := .scan .mcuStart }

/-- Ss, Se and `{Ah, Al}` are there: the last checks of R98 and the start of the scan. -/
def sosEnd (ob : Word) (ss se a : Byte) (s : State) : State :=
  if ss ≠ 0#8 ∨ se ≠ 63#8 ∨ a ≠ 0#8 then raise .progressive s
  else if !tablesLoaded s then raise .tableNotLoaded s
  else if 2 ^ 32 < ob.toNat + 3 * s.frame.x.toNat * s.frame.y.toNat then raise .outRange s
  else scanInit { s with ob := ob }

/-- What the payload byte `b`, already removed from the FIFO, does at position `l`. -/
def loadByte (l : LoadPos) (b : Byte) (s : State) : State :=
  match l with
  | .dqtId rem => dqtId rem b s
  | .dqtCoef rem tq q => dqtCoef rem tq q b s
  | .dhtId rem => dhtId rem b s
  | .dhtBits rem tc th bits => dhtBits rem tc th bits b s
  | .dhtVals rem tc th bits vals => dhtVals rem tc th bits vals b s
  | .sofHeader len got =>
    if got.length + 1 < 6 then loadAt (.sofHeader len (got ++ [b])) s else sofHeader len (got ++ [b]) s
  | .sofComp j got =>
    if got.length + 1 < 3 then loadAt (.sofComp j (got ++ [b])) s
    else sofComponent j (byteAt (got ++ [b]) 0) (byteAt (got ++ [b]) 1) (byteAt (got ++ [b]) 2) s
  | .sosCount len ob => sosCount len ob b s
  | .sosComp j ob got =>
    if got.length + 1 < 2 then loadAt (.sosComp j ob (got ++ [b])) s
    else sosComponent j ob (byteAt (got ++ [b]) 0) (byteAt (got ++ [b]) 1) s
  | .sosTail ob got =>
    if got.length + 1 < 3 then loadAt (.sosTail ob (got ++ [b])) s
    else sosEnd ob (byteAt (got ++ [b]) 0) (byteAt (got ++ [b]) 1) (byteAt (got ++ [b]) 2) s

/-- Runs the loader over the bytes that are there, at most `fuel` of them; it stops where it waits, ends or raises. -/
def runLoad : Nat → State → State
  | 0, s => s
  | fuel + 1, s =>
    match s.seq with
    | .payload l =>
      match nextPayloadByte s with
      | .hold => s
      | .raised s' => s'
      | .got b s' => runLoad fuel (loadByte l b s')
    | _ => s

/-- LOAD_DQT (R95) after its dispatch. -/
def loadDqt (len : Nat) (s : State) : State :=
  if len = 0 then raise .dqtTruncated s else runLoad (dispatchFuel s s.fifo.length) (dqtNext len s)

/-- LOAD_DHT (R96) after its dispatch. -/
def loadDht (len : Nat) (s : State) : State :=
  if len = 0 then raise .dhtTruncated s else runLoad (dispatchFuel s s.fifo.length) (dhtNext len s)

/-- LOAD_SOF after its dispatch: the argument stage (R97 step 1), the state stage (R91), then steps 2 to 4. -/
def loadSof (arg : Byte) (len : Nat) (s : State) : State :=
  match sofKind arg with
  | .variant => raise .sofVariant s
  | .notSof => raise .badArg s
  | .baseline =>
    if s.frame.valid then raise .sequence s
    else if len < 6 then raise .sofLength s
    else runLoad (dispatchFuel s s.fifo.length) (loadAt (.sofHeader len []) s)

/-- START_SCAN takes the region at `ob` over, of which the host has written nothing yet (R55), and waits for its first
byte. -/
def beginScanHeader (len : Nat) (ob : Word) (s : State) : State := loadAt (.sosCount len ob) { s with clobbered := [] }

/-- START_SCAN after its dispatch: the state stage (R91), then R98. -/
def startScan (len : Nat) (ob : Word) (s : State) : State :=
  if !s.frame.valid then raise .sequence s
  else if len < 1 then raise .sosLength (beginScanHeader len ob s)
  else runLoad (dispatchFuel s s.fifo.length) (beginScanHeader len ob s)

end Sys2Proof.Machine
end

