-- ==== Sys2Proof/Machine/Commands.lean ====
section
/-! DEFINITION. The commands: what the back end does with the command entry at the FIFO's head (40_command_interface.md
R91, R92), one meaning for each row of the opcode map R63. -/

namespace Sys2Proof.Machine

/-- The output base that the entry at the head carries (R85); OUT_BASE where the head is no command entry (log 18). -/
def headOb (s : State) : Word :=
  match s.fifo with
  | .cmd _ _ _ ob :: _ => ob
  | _ => s.outBase

/-- Step 2 of R91: the entry is removed and its opcode noted. `seq` becomes PAYLOAD with the position of the command's
first byte, or ERROR, in the checks that follow in the same step. -/
def takeCommand (op : Byte) (s : State) : State := { s with fifo := s.fifo.tail, curOp := op }

/-- A reserved opcode (R92). -/
def illegalCommand (op : Byte) (s : State) : State := raise .illegalCommand (takeCommand op s)

/-- LOAD_DQT (R91, R95). -/
def execLoadDqt (_arg : Byte) (len : Half) (s : State) : Host.Outcome State Fault Refusal :=
  .next (loadDqt len.toNat (takeCommand 0x01 s))

/-- LOAD_DHT (R91, R96). -/
def execLoadDht (_arg : Byte) (len : Half) (s : State) : Host.Outcome State Fault Refusal :=
  .next (loadDht len.toNat (takeCommand 0x02 s))

/-- LOAD_SOF (R91, R97). -/
def execLoadSof (arg : Byte) (len : Half) (s : State) : Host.Outcome State Fault Refusal :=
  .next (loadSof arg len.toNat (takeCommand 0x03 s))

/-- START_SCAN (R91, R98, R99). -/
def execStartScan (_arg : Byte) (len : Half) (s : State) : Host.Outcome State Fault Refusal :=
  .next (startScan len.toNat (headOb s) (takeCommand 0x04 s))

/-- Opcode 0x00 (R92). -/
def execIllegal00 (_arg : Byte) (_len : Half) (s : State) : Host.Outcome State Fault Refusal :=
  .next (illegalCommand 0x00 s)

/-- Opcode 0x05 (R92). -/
def execIllegal05 (_arg : Byte) (_len : Half) (s : State) : Host.Outcome State Fault Refusal :=
  .next (illegalCommand 0x05 s)

/-- Opcodes 0x06, 0x07 (R92). -/
def execIllegal0607 (lo : BitVec 1) (arg : Byte) (len : Half) (s : State) : Host.Outcome State Fault Refusal :=
  .next (illegalCommand (opcodeOf (.illegal0607 lo arg len)) s)

/-- Opcodes 0x08 to 0x0F (R92). -/
def execIllegal080F (lo : BitVec 3) (arg : Byte) (len : Half) (s : State) : Host.Outcome State Fault Refusal :=
  .next (illegalCommand (opcodeOf (.illegal080F lo arg len)) s)

/-- Opcodes 0x10 to 0x1F (R92). -/
def execIllegal101F (lo : BitVec 4) (arg : Byte) (len : Half) (s : State) : Host.Outcome State Fault Refusal :=
  .next (illegalCommand (opcodeOf (.illegal101F lo arg len)) s)

/-- Opcodes 0x20 to 0x3F (R92). -/
def execIllegal203F (lo : BitVec 5) (arg : Byte) (len : Half) (s : State) : Host.Outcome State Fault Refusal :=
  .next (illegalCommand (opcodeOf (.illegal203F lo arg len)) s)

/-- Opcodes 0x40 to 0x7F (R92). -/
def execIllegal407F (lo : BitVec 6) (arg : Byte) (len : Half) (s : State) : Host.Outcome State Fault Refusal :=
  .next (illegalCommand (opcodeOf (.illegal407F lo arg len)) s)

/-- Opcodes 0x80 to 0xFF (R92). -/
def execIllegal80FF (lo : BitVec 7) (arg : Byte) (len : Half) (s : State) : Host.Outcome State Fault Refusal :=
  .next (illegalCommand (opcodeOf (.illegal80FF lo arg len)) s)

end Sys2Proof.Machine
end

