-- ==== Sys2Proof/Machine/Color.lean ====
section
/-! DEFINITION. The block order of an MCU (43_scan_decoder.md R107), upsampling and colour conversion (45_color.md R120 to
R123). -/

namespace Sys2Proof.Machine

/-- Block `(j, h, v)` of an MCU (R107). -/
structure Block where
  j : Fin 3
  h : Nat
  v : Nat
  deriving DecidableEq, Repr

/-- The blocks of one MCU in coding order (R107). -/
def mcuBlocks (f : Frame) : List Block :=
  ((List.finRange 3).take f.nf.toNat).flatMap (fun j =>
    (List.range f.comps[j].v.toNat).flatMap (fun v =>
      (List.range f.comps[j].h.toNat).map (fun h => ⟨j, h, v⟩)))

/-- The block the scan is in. -/
def curBlock (s : State) : Block := (mcuBlocks s.frame).getD s.blk ⟨0, 0, 0⟩

/-- `S[j][8h + x][8v + y] <- O[8y + x]` for the whole block (R108). -/
def storeSamples (blk : Block) (o : Vector Byte 64) (s : State) : State :=
  { s with samples := s.samples.set blk.j (s.samples[blk.j].setIfInBounds (4 * blk.v + blk.h) o) }

/-- `S[j][x][y]` (R38). -/
def sampleAt (s : State) (j : Fin 3) (x y : Nat) : Byte :=
  ((s.samples[j][4 * (y / 8) + x / 8]?).getD (Vector.replicate 64 0))[8 * (y % 8) + x % 8]'(by omega)

/-- `sample(j, px, py)`: nearest-neighbour replication (R120). -/
def upsample (s : State) (j : Fin 3) (px py : Nat) : Byte :=
  sampleAt s j (px / (s.frame.hmax.toNat / s.frame.comps[j].h.toNat))
    (py / (s.frame.vmax.toNat / s.frame.comps[j].v.toNat))

/-- A pixel's R, G, B. -/
structure Rgb where
  r : Byte
  g : Byte
  b : Byte
  deriving DecidableEq, Repr

/-- YCbCr to RGB (R121). -/
def ycbcrToRgb (y cb cr : Byte) : Rgb :=
  let yi : Int := y.toNat
  let cbi : Int := (cb.toNat : Int) - 128
  let cri : Int := (cr.toNat : Int) - 128
  { r := clampByte (yi + (91881 * cri + 32768) / 65536),
    g := clampByte (yi + (-22554 * cbi - 46802 * cri + 32768) / 65536),
    b := clampByte (yi + (116130 * cbi + 32768) / 65536) }

/-- The pixel at MCU-relative position `(px, py)`: greyscale for one component (R122), converted for three (R121). -/
def pixelAt (s : State) (px py : Nat) : Rgb :=
  if s.frame.nf = 1#2 then
    ⟨upsample s 0 px py, upsample s 0 px py, upsample s 0 px py⟩
  else ycbcrToRgb (upsample s 0 px py) (upsample s 1 px py) (upsample s 2 px py)

/-- Channel 0, 1, 2 of a pixel, in the order of its bytes in memory (R44, R123). -/
def Rgb.channel (q : Rgb) (c : Fin 3) : Byte := if c = 0 then q.r else if c = 1 then q.g else q.b

/-- The MCU-relative column of pixel `i` of the MCU, counted in raster order (R124). -/
def pixelPx (s : State) (i : Nat) : Nat := i % (8 * s.frame.hmax.toNat)

/-- The MCU-relative row of pixel `i` of the MCU (R124). -/
def pixelPy (s : State) (i : Nat) : Nat := i / (8 * s.frame.hmax.toNat)

/-- The image column of pixel `i` of MCU `m` (R106, R124). -/
def pixelX (s : State) (i : Nat) : Nat := 8 * s.frame.hmax.toNat * (s.m % s.frame.mcux) + pixelPx s i

/-- The image row of pixel `i` of MCU `m` (R106, R124). -/
def pixelY (s : State) (i : Nat) : Nat := 8 * s.frame.vmax.toNat * (s.m / s.frame.mcux) + pixelPy s i

/-- Pixel `i` of the MCU lies inside the image (R124: the others are cropped). -/
def pixelInside (s : State) (i : Nat) : Bool :=
  decide (pixelX s i < s.frame.x.toNat ∧ pixelY s i < s.frame.y.toNat)

/-- The address of channel `c` of image pixel `(x, y)` (R44), an unsigned 32-bit address. -/
def pixelAddr (s : State) (x y : Nat) (c : Fin 3) : Nat :=
  (s.ob.toNat + 3 * (y * s.frame.x.toNat + x) + c.val) % 2 ^ 32

/-- The number of pixels an MCU covers (R106). -/
def mcuPixels (s : State) : Nat := 8 * s.frame.hmax.toNat * (8 * s.frame.vmax.toNat)

end Sys2Proof.Machine
end

