-- ==== Sys2Proof/Machine/Idct.lean ====
section
/-! DEFINITION. Dequantization (43_scan_decoder.md R112) and the 8x8 inverse DCT (44_idct.md R115 to R117), on exact
integers (R7, R118). -/

namespace Sys2Proof.Machine

/-- `B[ZIGZAG[k]] <- ZZ[k] * QT[t][k]` for every `k` (R112), written by natural index: `zigzagPos` is the inverse. -/
def dequant (zz : Vector Int 64) (q : Vector Byte 64) : Vector Int 64 :=
  Vector.ofFn (fun n : Fin 64 => zz[zigzagPos[n]] * (q[zigzagPos[n]].toNat : Int))

/-- `DESCALE(x, n)` (R115): the arithmetic shift is division rounding down (R7). -/
def descale (x : Int) (n : Nat) : Int := (x + 2 ^ (n - 1)) / 2 ^ n

/-- Every value that `idct8` computes before it descales (R116). A name the pseudocode assigns again carries the number of
its assignment (`z1` of the even part, `y1` to `y4` the first `z1` to `z4` of the odd part), partial sums have names of their
own, and `s0` to `s7` are the arguments of DESCALE. -/
structure Idct8Values where
  (d26 z1 d6k tmp2 d2k tmp3 d04 tmp0 d04m tmp1 tmp10 tmp13 tmp11 tmp12 : Int)
  (y1 y2 y3 y4 y34 z5 t0b t1b t2b t3b z1b z2b z3b z4b z3c z4c t0p t1p t2p t3p t0c t1c t2c t3c : Int)
  (s0 s1 s2 s3 s4 s5 s6 s7 : Int)
  deriving DecidableEq, Repr

/-- The even and the odd part of `idct8` and their sums (R116). -/
def idct8Values (d : Fin 8 → Int) : Idct8Values :=
  -- even part
  let d26 := d 2 + d 6
  let z1 := d26 * 4433
  let d6k := d 6 * 15137
  let tmp2 := z1 - d6k
  let d2k := d 2 * 6270
  let tmp3 := z1 + d2k
  let d04 := d 0 + d 4
  let tmp0 := d04 * 8192
  let d04m := d 0 - d 4
  let tmp1 := d04m * 8192
  let tmp10 := tmp0 + tmp3
  let tmp13 := tmp0 - tmp3
  let tmp11 := tmp1 + tmp2
  let tmp12 := tmp1 - tmp2
  -- odd part: t0, t1, t2, t3 are d 7, d 5, d 3, d 1
  let y1 := d 7 + d 1
  let y2 := d 5 + d 3
  let y3 := d 7 + d 3
  let y4 := d 5 + d 1
  let y34 := y3 + y4
  let z5 := y34 * 9633
  let t0b := d 7 * 2446
  let t1b := d 5 * 16819
  let t2b := d 3 * 25172
  let t3b := d 1 * 12299
  let z1b := -y1 * 7373
  let z2b := -y2 * 20995
  let z3b := -y3 * 16069
  let z4b := -y4 * 3196
  let z3c := z3b + z5
  let z4c := z4b + z5
  let t0p := t0b + z1b
  let t1p := t1b + z2b
  let t2p := t2b + z2b
  let t3p := t3b + z1b
  let t0c := t0p + z3c
  let t1c := t1p + z4c
  let t2c := t2p + z3c
  let t3c := t3p + z4c
  { d26, z1, d6k, tmp2, d2k, tmp3, d04, tmp0, d04m, tmp1, tmp10, tmp13, tmp11, tmp12,
    y1, y2, y3, y4, y34, z5, t0b, t1b, t2b, t3b, z1b, z2b, z3b, z4b, z3c, z4c, t0p, t1p, t2p, t3p, t0c, t1c, t2c, t3c,
    s0 := tmp10 + t3c, s1 := tmp11 + t2c, s2 := tmp12 + t1c, s3 := tmp13 + t0c,
    s4 := tmp13 - t0c, s5 := tmp12 - t1c, s6 := tmp11 - t2c, s7 := tmp10 - t3c }

/-- `idct8` (R116): the sums of its even and odd part, descaled. -/
def idct8 (d : Fin 8 → Int) (n : Nat) : Vector Int 8 :=
  let v := idct8Values d
  #v[descale v.s0 n, descale v.s1 n, descale v.s2 n, descale v.s3 n, descale v.s4 n, descale v.s5 n, descale v.s6 n,
     descale v.s7 n]

/-- Column `c` of a block in natural order. -/
def column (b : Vector Int 64) (c : Fin 8) (r : Fin 8) : Int := b[8 * r.val + c.val]

/-- Row `r` of a block in natural order. -/
def row (b : Vector Int 64) (r : Fin 8) (c : Fin 8) : Int := b[8 * r.val + c.val]

/-- The row of natural index `n`. -/
def rowOf (n : Fin 64) : Fin 8 := ⟨n.val / 8, by omega⟩

/-- The column of natural index `n`. -/
def colOf (n : Fin 64) : Fin 8 := ⟨n.val % 8, by omega⟩

/-- Pass 1 of R117: the columns, leaving the workspace WS. -/
def idctColumns (b : Vector Int 64) : Vector Int 64 :=
  let cols : Vector (Vector Int 8) 8 := Vector.ofFn (fun c => idct8 (column b c) 11)
  Vector.ofFn (fun n : Fin 64 => cols[colOf n][rowOf n])

/-- Pass 2 of R117: the rows, the level shift and the clamp. -/
def idctRows (ws : Vector Int 64) : Vector Byte 64 :=
  let rows : Vector (Vector Int 8) 8 := Vector.ofFn (fun r => idct8 (row ws r) 18)
  Vector.ofFn (fun n : Fin 64 => clampByte (rows[rowOf n][colOf n] + 128))

/-- `idct(B)` (R117). -/
def idct (b : Vector Int 64) : Vector Byte 64 := idctRows (idctColumns b)

end Sys2Proof.Machine
end

