-- ==== Sys2Proof/Machine/Scan.lean ====
section
/-! DEFINITION. The scan program (43_scan_decoder.md R108 to R113) and the pixel writer (45_color.md R123, R124), cut at
the positions of ScanPos. -/

namespace Sys2Proof.Machine

/-- The scan program goes on at `q`. -/
def scanAt (q : ScanPos) (s : State) : State := { s with seq := .scan q }

/-- The first block of MCU `m` (R108). DESIGN CHOICE: ZZ, B, WS and S keep what they held (R38, log 6). -/
def beginMcu (s : State) : State := scanAt (.dcHuff 0 0) { s with blk := 0 }

/-- The DC table of the current block's component (R110). -/
def dcTable (s : State) : HuffTable := s.htDc[s.td[(curBlock s).j]]

/-- The AC table of the current block's component (R111). -/
def acTable (s : State) : HuffTable := s.htAc[s.ta[(curBlock s).j]]

/-- The restart of R109: the marker is consumed, the padding dropped, the predictors reset, and the MCU begins.
DESIGN CHOICE: ZZ, B, WS and S keep what they held (R38, log 6). -/
def takeRestart (s : State) : State :=
  beginMcu { consume 2 s with nbits := 0, pred := Vector.replicate 3 0, rst := s.rst + 1 }

/-- R110 from `dc <- PRED[j] + diff` on, then the start of R111: every AC coefficient 0 and `k <- 1`. -/
def dcFinish (t v : Nat) (s : State) : State :=
  let dc : Int := s.pred[(curBlock s).j] + extend v t
  if dc < -32768 ∨ 32767 < dc then raise .coefRange s
  else
    scanAt (.acHuff 0 0)
      { s with pred := s.pred.set (curBlock s).j dc, zz := (Vector.replicate 64 0).set 0 dc, k := 1 }

/-- The extra bits of a DC symbol: goes on with `n` bits to read and `v` read so far (R76, R105, R110). -/
def dcExtra (fuel t n v : Nat) (s : State) : State :=
  match readBitsLoop fuel n v s with
  | .ended v' s' => dcFinish t v' s'
  | .waiting n' v' s' => scanAt (.dcBits t n' v') s'
  | .raised s' => s'

/-- The AC loop of R111 goes on at coefficient `k`: it ends when `k` reaches 64. -/
def acNext (k : Nat) (s : State) : State :=
  if 63 < k then scanAt .transform { s with k := k } else scanAt (.acHuff 0 0) { s with k := k }

/-- `ZZ[k] <- extend(v, sz)`, `k <- k + 1` (R111). -/
def acFinish (sz v : Nat) (s : State) : State := acNext (s.k + 1) { s with zz := s.zz.setIfInBounds s.k (extend v sz) }

/-- The extra bits of a run-size symbol (R76, R105, R111). -/
def acExtra (fuel sz n v : Nat) (s : State) : State :=
  match readBitsLoop fuel n v s with
  | .ended v' s' => acFinish sz v' s'
  | .waiting n' v' s' => scanAt (.acBits sz n' v') s'
  | .raised s' => s'

/-- A step of the descent for a DC symbol (R104, R110). -/
def dcDescend (fuel l c : Nat) (s : State) : State :=
  match huffLoop (dcTable s) fuel l c s with
  | .symbol t s' => scanAt (.dcSymbol t) s'
  | .waiting l' c' s' => scanAt (.dcHuff l' c') s'
  | .raised s' => s'

/-- A step of the descent for an AC symbol (R104, R111). -/
def acDescend (fuel l c : Nat) (s : State) : State :=
  match huffLoop (acTable s) fuel l c s with
  | .symbol rs s' => scanAt (.acSymbol rs) s'
  | .waiting l' c' s' => scanAt (.acHuff l' c') s'
  | .raised s' => s'

/-- The quantization table of the current block's component (R112). -/
def quantTable (s : State) : Vector Byte 64 := s.qt[s.frame.comps[(curBlock s).j].tq]

/-- The block is complete: `dequant(j)`, `O <- idct(B)`, the samples stored, the next block or the commit (R108). -/
def transformBlock (s : State) : State :=
  let b := dequant s.zz (quantTable s)
  let ws := idctColumns b
  let s' := storeSamples (curBlock s) (idctRows ws) { s with b := b, ws := ws, blk := s.blk + 1 }
  if s.blk + 1 < (mcuBlocks s.frame).length then scanAt (.dcHuff 0 0) s' else scanAt (.commit 0 0) s'

/-- `MemWrite(a, 1, v)` (R48): an error response raises `BUS_ERROR` at once (R49); the program then goes on at `q`. -/
def memWrite (a : Nat) (v : Byte) (q : ScanPos) (s : State) : State :=
  if busErr s a then raise .busError s else scanAt q { s with mem := Memory.write s.mem a v }

/-- The position after pixel `i` of the MCU (R124). -/
def nextPixel (s : State) (i : Nat) : ScanPos := if i + 1 < mcuPixels s then .commit (i + 1) 0 else .mcuEnd

/-- The position after channel `c` of pixel `i` (R123). -/
def nextChannel (s : State) (i : Nat) (c : Fin 3) : ScanPos := if c = 2 then nextPixel s i else .commit i (c + 1)

/-- `mcu_commit(m)` at pixel `i`, channel `c`: a pixel outside the image is skipped (R123, R124). -/
def commitStep (i : Nat) (c : Fin 3) (s : State) : State :=
  if pixelInside s i then
    memWrite (pixelAddr s (pixelX s i) (pixelY s i) c) ((pixelAt s (pixelPx s i) (pixelPy s i)).channel c)
      (nextChannel s i c) s
  else scanAt (nextPixel s i) s

/-- `scan_complete()` (R113); the region's bytes are then the ones written (R50), but for those the host wrote (R55).
DESIGN CHOICE: ZZ, B, WS and S keep what they held (R38, log 6). -/
def scanComplete (s : State) : State :=
  { s with
    nbits := 0, fifo := [], feMode := .none, feCount := 0, feThenStream := false, doneEvt := true, seq := .done,
    indet := indetAfterDone s, clobbered := [] }

/-- The end of an MCU: `MCU_DONE <- MCU_DONE + 1`, then the next MCU or the end of the scan (R108, R124). DESIGN CHOICE:
MCU `m` is counted before any byte of MCU `m + 1` is taken; R59 lets an implementation overlap the two (log 24). DESIGN
CHOICE: ZZ, B, WS and S, unspecified between MCUs (R38), keep what the last block left in them (log 6). -/
def mcuEndStep (s : State) : State :=
  if s.m + 1 < s.frame.mcuTotal then scanAt .mcuStart { s with mcuDone := s.mcuDone + 1, m := s.m + 1 }
  else scanComplete { s with mcuDone := s.mcuDone + 1 }

/-- The start of an MCU where no restart marker stands at the head (R108, R109): it waits while the bytes that decide are
not there. -/
def mcuStartStep (s : State) : State :=
  if s.m = 0 then beginMcu s
  else
    match peekByte 0 s with
    | .hold => s
    | .sequence => raise .sequence s
    | .byte b0 =>
      if b0 ≠ 0xFF#8 then beginMcu s
      else
        match peekByte 1 s with
        | .hold => s
        | .sequence => raise .sequence s
        | .byte b1 => if isRstByte b1 then takeRestart s else beginMcu s

end Sys2Proof.Machine
end

