-- ==== Sys2Proof/Machine/Symbols.lean ====
section
/-! DEFINITION. The byte pairs and symbols of the entropy-coded segment: one meaning for each row (42_huffman_bitreader.md
R101, 43_scan_decoder.md R109 to R111). -/

namespace Sys2Proof.Machine

/-- FF 00 where a coded bit is needed (R101). -/
def execEcsStuffed (s : State) : Host.Outcome State Fault Refusal := .next (takeStuffed s)

/-- FF D0 to FF D7 at an MCU boundary (R109); `n` is not checked (D15). -/
def execEcsRst (_n : BitVec 3) (s : State) : Host.Outcome State Fault Refusal := .next (takeRestart s)

/-- FF x, x not 00, where a coded bit is needed (R101): nothing is consumed. -/
def execEcsMarker (_x : Byte) (s : State) : Host.Outcome State Fault Refusal := .next (raise .endOfSegment s)

/-- A DC symbol (R110): `t > 11` raises; else `t` extra bits give the difference. -/
def execDcCategory (t : Byte) (s : State) : Host.Outcome State Fault Refusal :=
  .next (if 11 < t.toNat then raise .dcCategory s else dcExtra (dispatchFuel s t.toNat) t.toNat t.toNat 0 s)

/-- EOB (R111): the block's coefficients are complete. -/
def execAcEob (s : State) : Host.Outcome State Fault Refusal := .next (scanAt .transform s)

/-- ZRL (R111): sixteen coefficients stay 0. -/
def execAcZrl (s : State) : Host.Outcome State Fault Refusal :=
  .next (if 64 < s.k + 16 then raise .acOverrun s else acNext (s.k + 16) s)

/-- A run of `r` and a coefficient of size `sz` (R111). -/
def execAcRunSize (r sz : BitVec 4) (s : State) : Host.Outcome State Fault Refusal :=
  .next
    (if 10 < sz.toNat then raise .acBadSymbol s
     else if 63 < s.k + r.toNat then raise .acOverrun { s with k := s.k + r.toNat }
     else acExtra (dispatchFuel s sz.toNat) sz.toNat sz.toNat 0 { s with k := s.k + r.toNat })

/-- `{R, 0}` with R in 1 to 14 (R111). -/
def execAcIllegalR0 (_r : BitVec 4) (s : State) : Host.Outcome State Fault Refusal := .next (raise .acBadSymbol s)

end Sys2Proof.Machine
end

