-- ==== Sys2Proof/Machine/Dispatch.lean ====
section
/-! DEFINITION. The meaning of every instruction, one arm a constructor. -/

namespace Sys2Proof.Machine

def exec (i : Instr) (s : State) : Host.Outcome State Fault Refusal :=
  match i with
  | .loadDqt arg len => Sys2Proof.Machine.execLoadDqt arg len s
  | .loadDht arg len => Sys2Proof.Machine.execLoadDht arg len s
  | .loadSof arg len => Sys2Proof.Machine.execLoadSof arg len s
  | .startScan arg len => Sys2Proof.Machine.execStartScan arg len s
  | .illegal00 arg len => Sys2Proof.Machine.execIllegal00 arg len s
  | .illegal05 arg len => Sys2Proof.Machine.execIllegal05 arg len s
  | .illegal0607 lo arg len => Sys2Proof.Machine.execIllegal0607 lo arg len s
  | .illegal080F lo arg len => Sys2Proof.Machine.execIllegal080F lo arg len s
  | .illegal101F lo arg len => Sys2Proof.Machine.execIllegal101F lo arg len s
  | .illegal203F lo arg len => Sys2Proof.Machine.execIllegal203F lo arg len s
  | .illegal407F lo arg len => Sys2Proof.Machine.execIllegal407F lo arg len s
  | .illegal80FF lo arg len => Sys2Proof.Machine.execIllegal80FF lo arg len s
  | .ecsStuffed => Sys2Proof.Machine.execEcsStuffed s
  | .ecsRst n => Sys2Proof.Machine.execEcsRst n s
  | .ecsMarker x => Sys2Proof.Machine.execEcsMarker x s
  | .dcCategory t => Sys2Proof.Machine.execDcCategory t s
  | .acEob => Sys2Proof.Machine.execAcEob s
  | .acZrl => Sys2Proof.Machine.execAcZrl s
  | .acRunSize r sz => Sys2Proof.Machine.execAcRunSize r sz s
  | .acIllegalR0 r => Sys2Proof.Machine.execAcIllegalR0 r s

end Sys2Proof.Machine
end

