-- ==== Sys2Proof/Machine/Flags.lean ====
section
/-! DEFINITION. The flags of the core (10_state.md R12): the bits of STATUS, TABLES, IRQ_STATUS and IRQ_EN, and the
interrupt line (60_exceptions.md R131). -/

namespace Sys2Proof.Machine

/-- A register with the single bit `i` equal to `v` and all others 0. -/
def flagBit (v : Bool) (i : Nat) : Word := if v then 1#32 <<< i else 0

/-- BUSY (R16 bit 0). -/
def busy (s : State) : Bool :=
  match s.seq with
  | .payload _ => true
  | .scan _ => true
  | .idle => !s.fifo.isEmpty
  | .done => false
  | .error => false

/-- `seq = DONE` (R16 bit 1). -/
def isDone (s : State) : Bool :=
  match s.seq with
  | .done => true
  | _ => false

/-- `seq = ERROR` (R16 bit 2). -/
def isError (s : State) : Bool :=
  match s.seq with
  | .error => true
  | _ => false

/-- `seq = SCAN` (R16 bit 4). -/
def scanActive (s : State) : Bool :=
  match s.seq with
  | .scan _ => true
  | _ => false

/-- `seq = PAYLOAD` (R16 bit 5). -/
def payloadActive (s : State) : Bool :=
  match s.seq with
  | .payload _ => true
  | _ => false

/-- The level of the `irq` output (R131). -/
def irq (s : State) : Bool := (s.doneEvt && s.doneIe) || (s.errEvt && s.errIe)

/-- STATUS (R16). -/
def statusReg (s : State) : Word :=
  flagBit (busy s) 0 ||| flagBit (isDone s) 1 ||| flagBit (isError s) 2 ||| flagBit s.frame.valid 3 |||
    flagBit (scanActive s) 4 ||| flagBit (payloadActive s) 5 ||| flagBit s.dropped 6 ||| flagBit (irq s) 7

/-- TABLES (R17). -/
def tablesReg (s : State) : Word :=
  flagBit s.qtValid[0] 0 ||| flagBit s.qtValid[1] 1 ||| flagBit s.qtValid[2] 2 ||| flagBit s.qtValid[3] 3 |||
    flagBit s.htDcValid[0] 4 ||| flagBit s.htDcValid[1] 5 ||| flagBit s.htDcValid[2] 6 ||| flagBit s.htDcValid[3] 7 |||
    flagBit s.htAcValid[0] 8 ||| flagBit s.htAcValid[1] 9 ||| flagBit s.htAcValid[2] 10 ||| flagBit s.htAcValid[3] 11

/-- ERR (R18). -/
def errReg (s : State) : Word :=
  s.errClass.setWidth 32 ||| (s.errCause.setWidth 32 <<< 8) ||| (s.errOp.setWidth 32 <<< 16)

/-- FRAME_DIM (R22). -/
def frameDimReg (s : State) : Word := if s.frame.valid then (s.frame.y.setWidth 32 <<< 16) ||| s.frame.x.setWidth 32 else 0

/-- FRAME_INFO (R23): Nf shows 0 while no frame is valid; the maxima show the registers. -/
def frameInfoReg (s : State) : Word :=
  (if s.frame.valid then s.frame.nf.setWidth 32 else 0) ||| (s.frame.hmax.setWidth 32 <<< 4) |||
    (s.frame.vmax.setWidth 32 <<< 8)

/-- MCU_TOTAL (R24). -/
def mcuTotalReg (s : State) : Word := if s.frame.valid then BitVec.ofNat 32 s.frame.mcuTotal else 0

/-- IRQ_STATUS (R28). -/
def irqStatusReg (s : State) : Word := flagBit s.doneEvt 0 ||| flagBit s.errEvt 1

/-- IRQ_EN (R29). -/
def irqEnReg (s : State) : Word := flagBit s.doneIe 0 ||| flagBit s.errIe 1

end Sys2Proof.Machine
end

