-- ==== Sys2Proof/Machine/Registers.lean ====
section
/-! DEFINITION. The register port (10_state.md R13 to R30, 40_command_interface.md R81 to R83) and the front end
(R84 to R88). -/

namespace Sys2Proof.Machine

/-- ID (R14). -/
def idValue : Word := 0x4A504547

/-- `RegRead(o)` (R82): the value of the register at offset `o`; the write-only and the reserved ones read 0. -/
def regRead (o : Nat) (s : State) : Word :=
  match o with
  | 0x00 => idValue
  | 0x08 => statusReg s
  | 0x0C => tablesReg s
  | 0x10 => errReg s
  | 0x1C => s.outBase
  | 0x20 => frameDimReg s
  | 0x24 => frameInfoReg s
  | 0x28 => mcuTotalReg s
  | 0x2C => BitVec.ofNat 32 s.mcuDone
  | 0x30 => BitVec.ofNat 32 s.p
  | 0x34 => BitVec.ofNat 32 s.rst
  | 0x38 => irqStatusReg s
  | 0x3C => irqEnReg s
  | _ => 0

/-- `seq` is DONE or ERROR. -/
def terminal (s : State) : Bool := isDone s || isError s

/-- `IN_FIFO_DEPTH` (R5, R88). -/
def fifoDepth (s : State) : Nat := s.platform.fifoExtra + 2

/-- An append would exceed `IN_FIFO_DEPTH` (R88). -/
def fifoFull (s : State) : Bool := decide (fifoDepth s ≤ s.fifo.length)

/-- The front-end mode a command word sets (R85). -/
def feModeAfterCmd (op : Byte) (len : Half) : FeMode :=
  if len ≠ 0#16 then .count else if op = 0x04#8 then .stream else .none

/-- A CMD write (R85), not stalled and not dropped. -/
def appendCmd (w : Word) (s : State) : State :=
  { s with
    fifo := s.fifo ++ [.cmd (opField w) (argField w) (lenField w) s.outBase],
    feMode := feModeAfterCmd (opField w) (lenField w), feCount := lenField w,
    feThenStream := opField w == 0x04#8 && lenField w != 0#16 }

/-- A DATA byte appended in mode COUNT (R84). -/
def appendCounted (b : Byte) (s : State) : State :=
  { s with
    fifo := s.fifo ++ [.data b], feCount := s.feCount - 1,
    feMode := if s.feCount - 1 = 0#16 then (if s.feThenStream then .stream else .none) else .count }

/-- A DATA byte appended in mode STREAM (R84). -/
def appendStreamed (b : Byte) (s : State) : State := { s with fifo := s.fifo ++ [.data b] }

/-- A CMD write: dropped in DONE and ERROR (R87), stalled (none) on a full FIFO (R88), else appended (R85). -/
def cmdWrite (w : Word) (s : State) : Option State :=
  if terminal s then some s else if fifoFull s then none else some (appendCmd w s)

/-- A DATA write (R84, R86): dropped in DONE and ERROR (R87); in mode NONE dropped with DROPPED set; else stalled (none) on
a full FIFO (R88) or appended. -/
def dataWrite (v : Word) (s : State) : Option State :=
  if terminal s then some s
  else
    match s.feMode with
    | .none => some { s with dropped := true }
    | .count => if fifoFull s then none else some (appendCounted (v.extractLsb' 0 8) s)
    | .stream => if fifoFull s then none else some (appendStreamed (v.extractLsb' 0 8) s)

/-- `RegWrite(o, v)` (R83); none while the write stalls. -/
def regWrite (o : Nat) (v : Word) (s : State) : Option State :=
  match o with
  | 0x04 => some (if v.getLsbD 0 then resetCore s else s)
  | 0x14 => cmdWrite v s
  | 0x18 => dataWrite v s
  | 0x1C => some { s with outBase := v }
  | 0x38 => some { s with doneEvt := s.doneEvt && !v.getLsbD 0, errEvt := s.errEvt && !v.getLsbD 1 }
  | 0x3C => some { s with doneIe := v.getLsbD 0, errIe := v.getLsbD 1 }
  | _ => some s

end Sys2Proof.Machine
end

