-- ==== Sys2Proof/Machine/Sequencer.lean ====
section
/-! DEFINITION. What the core meets next (its fetch), what it does where no instruction stands there, and what a host turn
and a hardware reset do (40_command_interface.md R81 to R91, 43_scan_decoder.md R108). -/

namespace Sys2Proof.Machine

/-- The position needs a coded bit (R102). -/
def ScanPos.needsBit : ScanPos → Bool
  | .dcHuff _ _ | .acHuff _ _ => true
  | .dcBits _ n _ => n != 0
  | .acBits _ n _ => n != 0
  | .mcuStart | .dcSymbol _ | .acSymbol _ | .transform | .commit _ _ | .mcuEnd => false

/-- The byte pair at the FIFO's head as an instruction (R72); none where it is none or not yet there. -/
def fetchPair (atBoundary : Bool) (s : State) : Option Instr :=
  match s.fifo with
  | .data b0 :: .data b1 :: _ => (decodePair atBoundary b0 b1).toOption
  | _ => none

/-- The instruction the scan program meets at position `q`: a decoded symbol, a restart marker at the start of an MCU but
the first, a pair where a bit is needed and `cur` is used up. -/
def fetchScan (q : ScanPos) (s : State) : Option Instr :=
  match q with
  | .dcSymbol t => some (decodeDc t)
  | .acSymbol rs => some (decodeAc rs)
  | .mcuStart => if s.m = 0 then none else fetchPair true s
  | q => if q.needsBit && s.nbits == 0 then fetchPair false s else none

/-- The command entry at the FIFO's head as an instruction (R91). -/
def fetchCommand (s : State) : Option Instr :=
  match s.fifo with
  | .cmd op arg len _ :: _ => some (decodeCommand (cmdWord op arg len))
  | _ => none

/-- The instruction the core's next step runs, if it meets one. -/
def fetch (s : State) : Option Instr :=
  match s.seq with
  | .idle => fetchCommand s
  | .scan q => fetchScan q s
  | .payload _ | .done | .error => none

/-- A DATA entry at the head in IDLE (R91 step 1); with an empty FIFO the core waits (R136). -/
def idleStep (s : State) : State :=
  match s.fifo with
  | .data _ :: _ => raise .sequence { s with curOp := 0#8 }
  | _ => s

/-- A bit is needed and `cur` is used up: `fill_byte` (R101), or waiting. -/
def fillStep (s : State) : State :=
  match fillByte s with
  | .got _ s' => s'
  | .hold => s
  | .raised s' => s'

/-- The scan program at position `q` where no instruction is met (R108). -/
def scanStep (q : ScanPos) (s : State) : State :=
  if q.needsBit && s.nbits == 0 then fillStep s
  else
    match q with
    | .mcuStart => mcuStartStep s
    | .dcHuff l c => dcDescend (resumeFuel s 16) l c s
    | .dcBits t n v => dcExtra (resumeFuel s n) t n v s
    | .acHuff l c => acDescend (resumeFuel s 16) l c s
    | .acBits sz n v => acExtra (resumeFuel s n) sz n v s
    | .transform => transformBlock s
    | .commit i c => commitStep i c s
    | .mcuEnd => mcuEndStep s
    | .dcSymbol _ | .acSymbol _ => s

/-- What the core does where it meets no instruction. -/
def advance (s : State) : State :=
  match s.seq with
  | .idle => idleStep s
  | .payload _ => runLoad (resumeFuel s s.fifo.length) s
  | .scan q => scanStep q s
  | .done | .error => s

/-- The two bytes a decision of the scan program needs are not both there, or the first alone decides and is not there. -/
def bytesMissing (s : State) : Bool :=
  match s.fifo with
  | [] => true
  | [.data b] => b == 0xFF#8
  | _ => false

/-- The core can go on: it neither waits for an entry (`hold`, R90) nor stands in DONE or ERROR (R129, R136). -/
def coreReady (s : State) : Bool :=
  match s.seq with
  | .idle => !s.fifo.isEmpty
  | .payload _ => !s.fifo.isEmpty
  | .scan .mcuStart => s.m == 0 || !bytesMissing s
  | .scan q => !(q.needsBit && s.nbits == 0 && bytesMissing s)
  | .done | .error => false

/-- The access is a 32-bit access at a 4-byte-aligned offset inside the window (R45, R81). DESIGN CHOICE: platform
addresses are 32 bits wide and the window may wrap, since the offset is taken modulo 2^32 (log 23). -/
def accessDefined (bytes : Nat) (addr : Word) (s : State) : Bool :=
  bytes == 4 && decide ((addr - s.platform.regBase).toNat < 0x100) && (addr - s.platform.regBase).toNat % 4 == 0

/-- The offset of a platform address in the window (R13), modulo 2^32 (log 23). -/
def offsetOf (addr : Word) (s : State) : Nat := (addr - s.platform.regBase).toNat

/-- The host's next operation is done. -/
def hostDone (s : State) : State := { s with hostOps := s.hostOps.tail, stalled := false }

/-- A turn of the host: its next operation takes effect (R81, R47, R53), or stalls (R88). -/
def hostTurn (s : State) : Host.Outcome State Fault Refusal :=
  match s.hostOps with
  | [] => .next s
  | .regRead bytes addr :: _ =>
    if accessDefined bytes addr s then
      .next (hostDone { s with reads := s.reads ++ [.reg addr (regRead (offsetOf addr s) s)] })
    else .refused .accessOutsideWindow
  | .regWrite bytes addr v :: _ =>
    if accessDefined bytes addr s then
      match regWrite (offsetOf addr s) v s with
      | some s' => .next (hostDone s')
      | none => .next { s with stalled := true }
    else .refused .accessOutsideWindow
  | .memRead a :: _ =>
    .next (hostDone { (hostMemRead a s).2 with reads := s.reads ++ [.mem a (hostMemRead a s).1] })
  | .memWrite a v :: _ => .next (hostDone (hostMemWrite a v s))
  | .wait :: _ => if terminal s then .next (hostDone s) else .next s

/-- The hardware reset input (R137): the core is reset, and a host write that stalls is discarded (R88, R138). -/
def hwReset (s : State) : State :=
  let s' := resetCore s
  if s.stalled then hostDone s' else s'

/-- Who moves when the schedule names nobody: the core while it can go on, else the host while it has an operation, else the
core, which waits (log 1). -/
def defaultTurn (s : State) : Turn :=
  if coreReady s then .core else if s.hostOps.isEmpty then .core else .host

/-- Who moves next. -/
def nextTurn (s : State) : Turn :=
  match s.sched with
  | t :: _ => t
  | [] => defaultTurn s

/-- The state with its schedule's first entry used up. -/
def afterTurn (s : State) : State := { s with sched := s.sched.tail }

/-- The state in which the core meets the coded word `c` next. -/
def meet (c : Coded) (s : State) : State :=
  match c with
  | .command w =>
    { s with sched := [], seq := .idle, fifo := [.cmd (opField w) (argField w) (lenField w) s.outBase] }
  | .pair true b0 b1 => { s with sched := [], seq := .scan .mcuStart, m := s.m + 1, fifo := [.data b0, .data b1] }
  | .pair false b0 b1 => { s with sched := [], seq := .scan (.dcHuff 0 0), nbits := 0, fifo := [.data b0, .data b1] }
  | .dcSymbol t => { s with sched := [], seq := .scan (.dcSymbol t) }
  | .acSymbol rs => { s with sched := [], seq := .scan (.acSymbol rs) }

end Sys2Proof.Machine
end

