-- ==== Sys2Proof/Machine/Step.lean ====
section
/-! DEFINITION. One step of the machine: whose turn it is, and for the core the instruction it meets or the work that
stands there. -/

namespace Sys2Proof.Machine

/-- A step of the core. -/
def coreTurn (s : State) : Host.Outcome State Fault Refusal :=
  match fetch s with
  | some i => exec i s
  | none => .next (advance s)

/-- One step: the turn of the core, the host or the hardware reset input. -/
def step (s : State) : Host.Outcome State Fault Refusal :=
  match nextTurn s with
  | .core => coreTurn (afterTurn s)
  | .host => hostTurn (afterTurn s)
  | .hwReset => .next (hwReset (afterTurn s))

/-- `s` with the instruction of an opcode-table word standing where the core meets its next instruction (log 2, log 11);
a width the table does not have changes nothing. -/
def State.withFetchWord (s : State) (nbits w : Nat) : State :=
  match codedOfTableWord nbits w with
  | some c => meet c s
  | none => s

end Sys2Proof.Machine
end

