-- ==== Sys2Proof/Safety.lean ====
section
/-! DEFINITION. What a sound state of the machine is: the invariants the claims are stated with. Each is a fact that a
rule of spec/ states of the machine and that every step keeps. -/

namespace Sys2Proof.Machine

/-- The output memory is in its canonical form: strictly rising 32-bit addresses (R40, log 7). -/
def MemoryCanonical (s : State) : Prop := Memory.wf s.mem = true

/-- "at most `IN_FIFO_DEPTH` entries" (R31, R88). -/
def FifoBounded (s : State) : Prop := s.fifo.length ≤ fifoDepth s

/-- `nbits` in 0 to 8 (R37). -/
def BitReaderBounded (s : State) : Prop := s.nbits ≤ 8

/-- An s16 value. -/
def InS16 (v : Int) : Prop := -32768 ≤ v ∧ v ≤ 32767

/-- A value of `n` of `sz` extra bits still to be read is below `2^(sz - n)`, for a size an AC symbol may have (R75, R103). -/
def AcBitsBounded : Seq → Prop
  | .scan (.acBits sz n v) => sz ≤ 10 ∧ n ≤ sz ∧ v < 2 ^ (sz - n)
  | _ => True

/-- PRED and ZZ are s16 (R37, R38): "The range check keeps `PRED` and `ZZ[0]` in s16" (R110), "Every `ZZ[k]` is in -1023
to 1023" for the AC coefficients (R111). -/
structure CoefficientsInRange (s : State) : Prop where
  pred : ∀ j : Fin 3, InS16 s.pred[j]
  dc   : InS16 s.zz[0]
  ac   : ∀ k : Fin 64, k ≠ 0 → -1023 ≤ s.zz[k] ∧ s.zz[k] ≤ 1023
  bits : AcBitsBounded s.seq

/-- ERR is 0 but in ERROR, where its class is not 0 (R18, R125, R129). -/
def ErrorLatchAgrees (s : State) : Prop :=
  (isError s = true ↔ s.errClass ≠ 0#2) ∧ (s.errClass = 0#2 → s.errCause = 0#8 ∧ s.errOp = 0#8)

/-- In DONE and ERROR the FIFO is empty and the front end expects nothing (R113, R127, R87). -/
def TerminalFlushed (s : State) : Prop :=
  terminal s = true → s.fifo = [] ∧ s.feMode = .none ∧ s.feCount = 0#16 ∧ s.feThenStream = false

/-- `COUNT` means that `fe_count` more DATA writes are accepted (R32, R84). -/
def FrontEndCounts (s : State) : Prop := s.feMode = .count ↔ s.feCount ≠ 0#16

/-- The coefficients collected for a quantization table are not 0 (R95). -/
def DqtCollected : Seq → Prop
  | .payload (.dqtCoef _ _ q) => q.length < 64 ∧ ∀ b ∈ q, b ≠ 0#8
  | _ => True

/-- "each a u8 in 1 to 255": a loaded quantization table has no coefficient 0 (R33). -/
structure QuantTablesNonzero (s : State) : Prop where
  stored  : ∀ (t : Fin 4) (k : Fin 64), s.qtValid[t] = true → s.qt[t][k] ≠ 0#8
  loading : DqtCollected s.seq

/-- A Huffman table as LOAD_DHT stores it: `NSYM = sum BITS <= 256` symbols, not overfull (R34, R100). -/
def HuffTable.sound (t : HuffTable) : Prop :=
  t.vals.length = symbolCount t.bits.toList ∧ symbolCount t.bits.toList ≤ 256 ∧ overfull t.bits.toList = false

/-- What is collected of a Huffman table fits one that will be sound (R96). -/
def DhtCollected : Seq → Prop
  | .payload (.dhtBits _ _ _ bits) => bits.length < 16
  | .payload (.dhtVals _ _ _ bits vals) =>
    vals.length < symbolCount bits.toList ∧ symbolCount bits.toList ≤ 256 ∧ overfull bits.toList = false
  | _ => True

/-- A loaded Huffman table is sound (R34, R96). -/
structure HuffTablesSound (s : State) : Prop where
  dc      : ∀ i : Fin 4, s.htDcValid[i] = true → (s.htDc[i]).sound
  ac      : ∀ i : Fin 4, s.htAcValid[i] = true → (s.htAc[i]).sound
  loading : DhtCollected s.seq

/-- A component's sampling factors are 1 to 4 (R35, R97). -/
def Component.sound (c : Component) : Prop :=
  1 ≤ c.h.toNat ∧ c.h.toNat ≤ 4 ∧ 1 ≤ c.v.toNat ∧ c.v.toNat ≤ 4

/-- The frame registers of a loaded frame (R35, R97 step 4, R106, R107). -/
structure Frame.sound (f : Frame) : Prop where
  count    : f.nf = 1#2 ∨ f.nf = 3#2
  size     : f.x ≠ 0#16 ∧ f.y ≠ 0#16
  comps    : ∀ j : Fin 3, j.val < f.nf.toNat → (f.comps[j]).sound
  single   : f.nf = 1#2 → f.comps[0].h = 1#3 ∧ f.comps[0].v = 1#3
  hmax     : f.hmax.toNat = maxH f
  vmax     : f.vmax.toNat = maxV f
  ratios   : ∀ j : Fin 3, j.val < f.nf.toNat →
    f.hmax.toNat % (f.comps[j]).h.toNat = 0 ∧ f.vmax.toNat % (f.comps[j]).v.toNat = 0
  blocks   : blocksPerMcu f ≤ 10
  mcux     : f.mcux = mcuCount f.x.toNat f.hmax.toNat
  mcuy     : f.mcuy = mcuCount f.y.toNat f.vmax.toNat
  mcuTotal : f.mcuTotal = f.mcux * f.mcuy

/-- What LOAD_SOF has loaded where it waits for component `j` (R97). -/
def SofLoading (f : Frame) : Seq → Prop
  | .payload (.sofHeader _ _) => f.valid = false
  | .payload (.sofComp j _) =>
    f.valid = false ∧ (f.nf = 1#2 ∨ f.nf = 3#2) ∧ f.x ≠ 0#16 ∧ f.y ≠ 0#16 ∧ j < f.nf.toNat ∧
      ∀ i : Fin 3, i.val < j → (f.comps[i]).sound
  | _ => True

/-- A valid frame has the geometry of R97 and R106. -/
structure FrameSound (s : State) : Prop where
  valid   : s.frame.valid = true → s.frame.sound
  loading : SofLoading s.frame s.seq

/-- The scan position (R11): the MCU, the block, the coefficient, the pixel of the commit. -/
def ScanPosInBounds (s : State) : ScanPos → Prop
  | .mcuStart | .mcuEnd => True
  | .dcHuff _ _ | .dcSymbol _ | .dcBits _ _ _ | .transform => s.blk < (mcuBlocks s.frame).length
  | .acHuff _ _ | .acSymbol _ | .acBits _ _ _ => s.blk < (mcuBlocks s.frame).length ∧ 1 ≤ s.k ∧ s.k ≤ 63
  | .commit i _ => i < mcuPixels s

/-- During a scan: a valid frame, `m` below MCU_TOTAL, MCU_DONE equal to `m`, and the output region below 2^32
(R11, R25, R98); while a scan header is read, a valid frame (R91). -/
def ScanInBounds (s : State) : Prop :=
  match s.seq with
  | .payload (.sosCount _ _) | .payload (.sosComp _ _ _) | .payload (.sosTail _ _) => s.frame.valid = true
  | .scan q =>
    s.frame.valid = true ∧ s.m < s.frame.mcuTotal ∧ s.mcuDone = s.m ∧ (region s).hi ≤ 2 ^ 32 ∧ ScanPosInBounds s q
  | _ => True

/-- The address lies in the output region of the START_SCAN command that is being executed, which belongs to the core: while
its header is read, of the scan at the base its entry carries; in the scan, at OB (R44, R55, R85). -/
def CoreOwns (s : State) (a : Nat) : Prop :=
  ∃ base : Word, base.toNat ≤ a ∧ a < base.toNat + 3 * s.frame.x.toNat * s.frame.y.toNat ∧
    ((∃ len, s.seq = .payload (.sosCount len base)) ∨ (∃ j got, s.seq = .payload (.sosComp j base got)) ∨
      (∃ got, s.seq = .payload (.sosTail base got)) ∨ ∃ q, s.seq = .scan q ∧ base = s.ob)

/-! The coded bits a state holds ready: what the bit reader of 42_huffman_bitreader.md must deliver, said without it. -/

/-- The bits of a byte from bit `n - 1` down to bit 0 (R42, R102). -/
def lowBits (b : Byte) (n : Nat) : List Bool := (List.range n).reverse.map (fun i => b.getLsbD i)

/-- The coded bits of FIFO entries: a data byte gives its 8 bits, a pair FF 00 eight 1 bits; an FF with any other byte, a
command entry and the end of the list end them (R72, R101). -/
def ecsBits : List FifoEntry → List Bool
  | .data b0 :: .data b1 :: rest =>
    if b0 ≠ 0xFF#8 then lowBits b0 8 ++ ecsBits (.data b1 :: rest)
    else if b1 = 0x00#8 then List.replicate 8 true ++ ecsBits rest
    else []
  | .data b0 :: rest => if b0 ≠ 0xFF#8 then lowBits b0 8 ++ ecsBits rest else []
  | _ => []

/-- Coded bytes as the stream carries them: a byte FF is followed by the stuffing 00 (R72). -/
def stuffed (bytes : List Byte) : List Byte := bytes.flatMap (fun b => if b = 0xFF#8 then [0xFF, 0x00] else [b])

/-- The coded bits that are there: those left in `cur`, then those of the FIFO. -/
def codedBits (s : State) : List Bool := lowBits s.cur s.nbits ++ ecsBits s.fifo

/-- The value of bits read most significant first (R42, R103). -/
def bitsValue (l : List Bool) : Nat := l.foldl (fun v b => 2 * v + b.toNat) 0

/-- The bits of a code word, most significant first (R73, R104). -/
def codeBits (e : Code) : List Bool := (List.range e.len).reverse.map (fun i => e.code.testBit i)

/-- What reading coded bits may change: the bits taken from `cur` and the FIFO, with `p` counting the entries taken. -/
def SameButReader (u s : State) : Prop :=
  u = { s with cur := u.cur, nbits := u.nbits, fifo := u.fifo, p := u.p } ∧ u.p + u.fifo.length = s.p + s.fifo.length

end Sys2Proof.Machine
end

