-- ==== Sys2Proof/Certificates/Slice0/Obligations.lean ====
section
/-! DEFINITION. The statements about the machine, with the payloads they speak of. -/

namespace Sys2Proof.Spec

open Sys2Proof.Machine

/-- Payload or ECS bytes as FIFO entries. -/
def dataEntries (bytes : List Byte) : List FifoEntry := bytes.map FifoEntry.data

/-- The FIFO's head is the command entry `op` with LEN `len`, and its payload and what follows stand behind it. -/
def CommandReady (op arg : Byte) (len : Half) (ob : Word) (payload : List Byte) (rest : List FifoEntry) (s : State) : Prop :=
  s.seq = .idle ∧ s.fifo = .cmd op arg len ob :: (dataEntries payload ++ rest)

/-- `t` is in ERROR with cause `c`, ERR.OP `op`, the FIFO flushed, the front end cleared and ERR_EVT set (R127). -/
def ErrorIs (t : State) (c : Cause) (op : Byte) : Prop :=
  t.seq = .error ∧ t.errClass = c.cls ∧ t.errCause = c.code ∧ t.errOp = op ∧ t.fifo = [] ∧ t.feMode = .none ∧
    t.feCount = 0#16 ∧ t.feThenStream = false ∧ t.errEvt = true

/-- `exec` answers a state in ERROR with that cause and opcode. -/
def Rejects (o : Host.Outcome State Fault Refusal) (c : Cause) (op : Byte) : Prop := ∃ t, o = .next t ∧ ErrorIs t c op

/-- A unit of a DQT payload: table id and coefficients in zigzag order (R68). -/
structure QtUnit where
  tq : Fin 4
  q  : Vector Byte 64

/-- The 65 bytes of a unit (R68): `Pq = 0` in bits 7:4, `Tq` in bits 3:0, the coefficients. -/
def QtUnit.bytes (u : QtUnit) : List Byte := BitVec.ofNat 8 u.tq.val :: u.q.toList

/-- The unit's table in its slot (R95). -/
def QtUnit.store (s : State) (u : QtUnit) : State :=
  { s with qt := s.qt.set u.tq u.q, qtValid := s.qtValid.set u.tq true }

/-- A table of a DHT payload (R69). -/
structure HtUnit where
  tc : TableClass
  th : Fin 4
  t  : HuffTable

/-- The class-and-id byte (R69): `Tc` in bits 7:4, `Th` in bits 3:0. -/
def HtUnit.idByte (u : HtUnit) : Byte :=
  joinNibbles (match u.tc with
    | .dc => 0
    | .ac => 1) (BitVec.ofNat 4 u.th.val)

/-- The bytes of a table: the class-and-id byte, BITS, HUFFVAL (R69). -/
def HtUnit.bytes (u : HtUnit) : List Byte := u.idByte :: (u.t.bits.toList ++ u.t.vals)

/-- The table in its slot (R96). -/
def HtUnit.store (s : State) (u : HtUnit) : State :=
  match u.tc with
  | .dc => { s with htDc := s.htDc.set u.th u.t, htDcValid := s.htDcValid.set u.th true }
  | .ac => { s with htAc := s.htAc.set u.th u.t, htAcValid := s.htAcValid.set u.th true }

/-- The three bytes of a component in an SOF payload (R70). -/
def componentBytes (c : Component) : List Byte := [c.id, joinNibbles (c.h.setWidth 4) (c.v.setWidth 4), BitVec.ofNat 8 c.tq.val]

/-- An SOF payload (R70): precision 8, height and width big-endian, the component count, the components. -/
def sofBytes (x y : Half) (comps : List Component) : List Byte :=
  [8, y.extractLsb' 8 8, y.extractLsb' 0 8, x.extractLsb' 8 8, x.extractLsb' 0 8, BitVec.ofNat 8 comps.length] ++
    comps.flatMap componentBytes

/-- What LOAD_SOF accepts of a component list (R97 steps 3 and 4), with `hm` and `vm` the largest factors. -/
structure AcceptedComponents (comps : List Component) (hm vm : Nat) : Prop where
  count    : comps.length = 1 ∨ comps.length = 3
  ids      : (comps.map (fun c => c.id)).Nodup
  factors  : ∀ c ∈ comps, c.sound
  hmax     : (∀ c ∈ comps, c.h.toNat ≤ hm) ∧ ∃ c ∈ comps, c.h.toNat = hm
  vmax     : (∀ c ∈ comps, c.v.toNat ≤ vm) ∧ ∃ c ∈ comps, c.v.toNat = vm
  sampling : comps.length = 3 →
    (∀ c ∈ comps, hm % c.h.toNat = 0 ∧ vm % c.v.toNat = 0) ∧
      (comps.map (fun c => c.h.toNat * c.v.toNat)).sum ≤ 10

/-- One component of a scan header: identifier and `{Td, Ta}` (R71). -/
structure ScanComp where
  cs : Byte
  td : Fin 4
  ta : Fin 4

/-- An SOS header payload for sequential baseline data (R71): Ns, the components, Ss = 0, Se = 63, Ah = Al = 0. -/
def sosBytes (comps : List ScanComp) : List Byte :=
  BitVec.ofNat 8 comps.length ::
    (comps.flatMap (fun c => [c.cs, joinNibbles (BitVec.ofNat 4 c.td.val) (BitVec.ofNat 4 c.ta.val)]) ++ [0, 63, 0])

/-- The scan header names the frame's components in frame order (R98). -/
def NamesFrame (comps : List ScanComp) (f : Frame) : Prop :=
  comps.length = f.nf.toNat ∧ ∀ (j : Fin 3) (c : ScanComp), comps[j.val]? = some c → c.cs = f.comps[j].id

/-- Every table the scan needs is loaded (R98). -/
def NeedsLoaded (comps : List ScanComp) (s : State) : Prop :=
  ∀ (j : Fin 3) (c : ScanComp), comps[j.val]? = some c →
    s.qtValid[s.frame.comps[j].tq] = true ∧ s.htDcValid[c.td] = true ∧ s.htAcValid[c.ta] = true

/-- The sampled pixel position of MCU `m` for the image pixel `(x, y)` (R106, R124). -/
def CoversPixel (s : State) (m i x y : Nat) : Prop :=
  m < s.frame.mcuTotal ∧ i < mcuPixels s ∧ pixelX { s with m := m } i = x ∧ pixelY { s with m := m } i = y

/-- The rows of R126: cause, CAUSE, class. -/
def causeRows : List (Cause × Byte × BitVec 2) :=
  [(.illegalCommand, 0x01, 1), (.sequence, 0x02, 1), (.badArg, 0x03, 1), (.dqtTruncated, 0x10, 1), (.dqtBadId, 0x11, 1),
    (.dqtZeroCoef, 0x12, 1), (.dhtTruncated, 0x18, 1), (.dhtBadClass, 0x19, 1), (.dhtBadId, 0x1A, 1),
    (.dhtTooManySymbols, 0x1B, 1), (.dhtOverfull, 0x1C, 1)] ++
  [(.sofLength, 0x20, 1), (.sofBadDimension, 0x21, 1), (.sofBadComponentCount, 0x22, 1), (.sofDupId, 0x23, 1),
    (.sofBadSampling, 0x24, 1), (.sofBadQuantId, 0x25, 1), (.sosBadCount, 0x28, 1), (.sosLength, 0x29, 1),
    (.sosBadComponent, 0x2A, 1), (.sosBadTable, 0x2B, 1), (.tableNotLoaded, 0x2C, 1)] ++
  [(.huffNoCode, 0x30, 1), (.endOfSegment, 0x31, 1), (.dcCategory, 0x32, 1), (.acBadSymbol, 0x33, 1),
    (.acOverrun, 0x34, 1), (.coefRange, 0x35, 1), (.sofVariant, 0x40, 2), (.precision, 0x41, 2), (.dqtPrecision, 0x42, 2),
    (.dnl, 0x43, 2), (.componentCount, 0x44, 2), (.sampling, 0x45, 2), (.scanSubset, 0x46, 2), (.progressive, 0x47, 2),
    (.busError, 0x50, 3), (.outRange, 0x51, 3)]

/-- The natural indices of a block in zigzag order: "walk the anti-diagonals `s = row + col` from 0 to 14; on an even `s` go
from the largest row to the smallest, on an odd `s` from the smallest row to the largest" (R78). -/
def antidiagonalWalk : List Nat :=
  (List.range 15).flatMap (fun s =>
    let rows := (List.range 8).filter (fun r => r ≤ s ∧ s - r < 8)
    (if s % 2 = 0 then rows.reverse else rows).map (fun r => 8 * r + (s - r)))

/-- The arguments of DESCALE (R116). -/
def descaled (v : Idct8Values) : List Int := [v.s0, v.s1, v.s2, v.s3, v.s4, v.s5, v.s6, v.s7]

/-- Every value `idct8` computes before it descales, the arguments of DESCALE among them (R116). -/
def idct8Intermediates (v : Idct8Values) : List Int :=
  [v.d26, v.z1, v.d6k, v.tmp2, v.d2k, v.tmp3, v.d04, v.tmp0, v.d04m, v.tmp1, v.tmp10, v.tmp13, v.tmp11, v.tmp12] ++
  [v.y1, v.y2, v.y3, v.y4, v.y34, v.z5, v.t0b, v.t1b, v.t2b, v.t3b, v.z1b, v.z2b, v.z3b, v.z4b, v.z3c, v.z4c] ++
  [v.t0p, v.t1p, v.t2p, v.t3p, v.t0c, v.t1c, v.t2c, v.t3c] ++ descaled v

/-- `FIRST` of R100, by index: `firstCode bits l` is `FIRST[l + 1]`. -/
def firstCode (bits : List Byte) : Nat → Nat
  | 0 => 0
  | l + 1 => 2 * (firstCode bits l + (bits.getD l 0).toNat)

/-- The state after `n` turns of the core. -/
def coreTurns : Nat → State → State
  | 0, s => s
  | n + 1, s =>
    match coreTurn s with
    | .next t => coreTurns n t
    | _ => s

/-- The descent for the next symbol of the current block stands after the bits `taken`: a DC symbol's in the table TD selects
(R110), an AC symbol's in the table TA selects (R111). It waits at `wait l c` and ends at `found symbol`. -/
inductive DescentAt (s : State) (taken : List Bool) : HuffTable → (Nat → Nat → ScanPos) → (Byte → ScanPos) → Prop
  | dc : s.seq = .scan (.dcHuff taken.length (bitsValue taken)) →
      DescentAt s taken (s.htDc[s.td[(curBlock s).j]]) .dcHuff .dcSymbol
  | ac : s.seq = .scan (.acHuff taken.length (bitsValue taken)) →
      DescentAt s taken (s.htAc[s.ta[(curBlock s).j]]) .acHuff .acSymbol

/-- The bits that are there, after the bits `taken`, end inside the code word `e`. -/
def EndsInside (s : State) (taken : List Bool) (e : Code) : Prop :=
  taken ++ codedBits s <+: codeBits e ∧ (taken ++ codedBits s).length < e.len

/-- `dead` are bits up to and with the first that shows that they begin no code word (R104). -/
structure DeadWord (t : HuffTable) (dead : List Bool) : Prop where
  nonempty : dead ≠ []
  bounded  : dead.length ≤ 16
  noCode   : ∀ e ∈ t.codes, ¬ codeBits e <+: dead ∧ ¬ dead <+: codeBits e
  live     : ∀ shorter, shorter <+: dead → shorter ≠ dead → shorter ≠ [] → ∃ e ∈ t.codes, shorter <+: codeBits e

/-- `s` with `later` behind the entries of its FIFO. -/
def withLater (s : State) (later : List FifoEntry) : State := { s with fifo := s.fifo ++ later }

/-- The command or header of `s` waits for a payload byte. -/
def WaitsForPayload (s : State) : Prop := ∃ l, s.seq = .payload l

/-- The sums of R116 before DESCALE, each output's as one expression in the inputs: `idct8Even d i + idct8Odd d i` is the sum
of output `i`, and `idct8Even d i - idct8Odd d i` that of output `7 - i`, for `i` in 0 to 3. The constants are R115's. -/
def idct8Even (d : Fin 8 → Int) (i : Fin 4) : Int :=
  if i = 0 then 2 ^ 13 * (d 0 + d 4) + ((4433 + 6270) * d 2 + 4433 * d 6)
  else if i = 1 then 2 ^ 13 * (d 0 - d 4) + (4433 * d 2 + (4433 - 15137) * d 6)
  else if i = 2 then 2 ^ 13 * (d 0 - d 4) - (4433 * d 2 + (4433 - 15137) * d 6)
  else 2 ^ 13 * (d 0 + d 4) - ((4433 + 6270) * d 2 + 4433 * d 6)

/-- The odd part of `idct8Even`'s sums (R116): `9633` weighs each odd input once in every sum. -/
def idct8Odd (d : Fin 8 → Int) (i : Fin 4) : Int :=
  if i = 0 then (12299 - 7373 - 3196) * d 1 - 3196 * d 5 - 7373 * d 7 + 9633 * (d 1 + d 3 + d 5 + d 7)
  else if i = 1 then (25172 - 20995 - 16069) * d 3 - 20995 * d 5 - 16069 * d 7 + 9633 * (d 1 + d 3 + d 5 + d 7)
  else if i = 2 then (16819 - 20995 - 3196) * d 5 - 3196 * d 1 - 20995 * d 3 + 9633 * (d 1 + d 3 + d 5 + d 7)
  else (2446 - 7373 - 16069) * d 7 - 7373 * d 1 - 16069 * d 3 + 9633 * (d 1 + d 3 + d 5 + d 7)

/-- What the core may change where it only reads coded bits and goes on at `q`. -/
def ReadsOn (q : ScanPos) (u s : State) : Prop :=
  u = { s with
    sched := s.sched.tail, seq := .scan q, cur := u.cur, nbits := u.nbits, fifo := u.fifo, p := u.p } ∧
  u.p + u.fifo.length = s.p + s.fifo.length

end Sys2Proof.Spec

open Sys2Proof Sys2Proof.Machine Sys2Proof.Spec

/-! ## Decoding -/

/-- R63, R72, R74, R75: no bit of an encoding is dropped. -/
def Obligations.DecodeOfEncodeIsTheInstruction : Prop :=
  ∀ i : Instr, i.wf = true → decode (encode i) = .ok i

/-- Every coded word has one meaning: what is decoded is well formed and encodes to the word it was read from. -/
def Obligations.EncodeOfDecodeIsTheWord : Prop :=
  ∀ (c : Coded) (i : Instr), decode c = .ok i → i.wf = true ∧ encode i = c

/-- 95_test_vectors.md RP7 to RP12 and a word of each other row of the opcode table. -/
def Obligations.TableWordsDecode : Prop :=
  decodeCommand 0x00410001#32 = .loadDqt 0x00 65 ∧
  decodeCommand 0xFFFF7702#32 = .loadDht 0x77 65535 ∧
  decodeCommand 0x0009C003#32 = .loadSof 0xC0 9 ∧
  decodeCommand 0x00060004#32 = .startScan 0x00 6 ∧
  decodeCommand 0x00000000#32 = .illegal00 0 0 ∧
  decodeCommand 0x00000005#32 = .illegal05 0 0 ∧
  decodeCommand 0x00010207#32 = .illegal0607 1 2 1 ∧
  decodeCommand 0x0003040D#32 = .illegal080F 5 4 3 ∧
  decodeCommand 0x0005061A#32 = .illegal101F 0xA 6 5 ∧
  decodeCommand 0x80000131#32 = .illegal203F 0x11 1 0x8000 ∧
  decodeCommand 0x0000FF7E#32 = .illegal407F 0x3E 0xFF 0 ∧
  decodeCommand 0x000000FF#32 = .illegal80FF 0x7F 0 0 ∧
  decodePair false 0xFF#8 0x00#8 = .ok .ecsStuffed ∧
  decodePair false 0xFF#8 0xD9#8 = .ok (.ecsMarker 0xD9) ∧
  decodePair false 0xFF#8 0xD0#8 = .ok (.ecsMarker 0xD0) ∧
  decodePair true 0xFF#8 0xD7#8 = .ok (.ecsRst 7) ∧
  decodeDc 0x04#8 = .dcCategory 4 ∧
  decodeAc 0x00#8 = .acEob ∧ decodeAc 0xF0#8 = .acZrl ∧ decodeAc 0x11#8 = .acRunSize 1 1 ∧ decodeAc 0x10#8 = .acIllegalR0 1

/-- A step of the core runs the instruction it meets: a command entry at the head in IDLE (R91), a decoded symbol
(R110, R111), a restart marker at an MCU boundary (R109), a pair where a coded bit is needed and `cur` is used up
(R101). Around it the step only uses up the schedule's entry that named the turn. That the turn is the core's is the
model's choice (log 1). -/
def Obligations.StepRunsTheInstructionMet : Prop :=
  ∀ s : State, nextTurn s = .core →
    (∀ op arg len ob rest, s.seq = .idle → s.fifo = .cmd op arg len ob :: rest →
      step s = exec (decodeCommand (cmdWord op arg len)) { s with sched := s.sched.tail }) ∧
    (∀ t, s.seq = .scan (.dcSymbol t) → step s = exec (decodeDc t) { s with sched := s.sched.tail }) ∧
    (∀ rs, s.seq = .scan (.acSymbol rs) → step s = exec (decodeAc rs) { s with sched := s.sched.tail }) ∧
    (∀ n rest, s.seq = .scan .mcuStart → s.m ≠ 0 →
      s.fifo = .data 0xFF#8 :: .data (0xD0#8 ||| n.setWidth 8) :: rest →
      step s = exec (.ecsRst n) { s with sched := s.sched.tail }) ∧
    (∀ q b1 rest, s.seq = .scan q → q.needsBit = true → s.nbits = 0 → s.fifo = .data 0xFF#8 :: .data b1 :: rest →
      step s = exec (if b1 = 0#8 then .ecsStuffed else .ecsMarker b1) { s with sched := s.sched.tail })

/-! ## Error entry, reset, registers -/

/-- R127: what `raise K(C)` performs, and "Every other state keeps its value", but that the region of the START_SCAN
it aborts holds any value from then on (R58); CAUSE and class of each cause are those of R126's table, which has them
all. How the region is kept, and that it is given up in the header already, is the model's choice (log 8). -/
def Obligations.ErrorEntryRecordsAndFlushes : Prop :=
  (∀ (c : Cause) (s : State), ErrorIs (raise c s) c s.curOp ∧
    raise c s = { s with
      seq := .error, errClass := c.cls, errCause := c.code, errOp := s.curOp, fifo := [], feMode := .none, feCount := 0,
      feThenStream := false, errEvt := true, indet := (raise c s).indet } ∧
    ∀ a, inSpans (raise c s).indet a = true ↔ CoreOwns s a ∨ inSpans s.indet a = true) ∧
  (∀ row ∈ causeRows, row.1.code = row.2.1 ∧ row.1.cls = row.2.2) ∧
  ∀ c : Cause, c ∈ causeRows.map (fun row => row.1)

/-- R138: "every register of 10_state.md rule R13 reads its reset value, ID reads 0x4A504547 and all others read 0",
the sequencer, FIFO, front end, tables and counters are at their reset values, "A reset does not write the output
memory", and "the region of a scan that a reset interrupts holds any value". How the region is kept, and that it is
given up in the header already, is the model's choice (log 8). -/
def Obligations.ResetClearsEveryRegister : Prop :=
  ∀ (s : State) (o : Nat),
    regRead o (resetCore s) = (if o = 0 then 0x4A504547#32 else 0#32) ∧ irq (resetCore s) = false ∧
    (resetCore s).seq = .idle ∧ (resetCore s).fifo = [] ∧ (resetCore s).feMode = .none ∧ (resetCore s).feCount = 0#16 ∧
    (resetCore s).feThenStream = false ∧ (resetCore s).frame = Frame.zero ∧
    (∀ i : Fin 4, (resetCore s).qtValid[i] = false ∧ (resetCore s).htDcValid[i] = false ∧
      (resetCore s).htAcValid[i] = false) ∧
    (∀ j : Fin 3, (resetCore s).td[j] = 0 ∧ (resetCore s).ta[j] = 0 ∧ (resetCore s).pred[j] = 0) ∧
    (resetCore s).ob = 0 ∧ (resetCore s).cur = 0 ∧ (resetCore s).nbits = 0 ∧ (resetCore s).p = 0 ∧
    (resetCore s).m = 0 ∧ (resetCore s).rst = 0 ∧ (resetCore s).mcuDone = 0 ∧ (resetCore s).curOp = 0 ∧
    (resetCore s).mem = s.mem ∧
    ∀ a, inSpans (resetCore s).indet a = true ↔ CoreOwns s a ∨ inSpans s.indet a = true

/-- R137, R138: the hardware reset input and a write of 1 to CTRL bit 0 both perform the reset of the core; a write
that stalls is discarded by the first; a write of 0 has no effect. The turns and `stalled` are the model's choice
(log 1, log 21). -/
def Obligations.BothResetSourcesResetTheCore : Prop :=
  ∀ s : State,
    (nextTurn s = .hwReset → step s = .next { resetCore s with
      sched := s.sched.tail, stalled := false,
      hostOps := if s.stalled = true then s.hostOps.tail else s.hostOps }) ∧
    (∀ v rest, nextTurn s = .host → s.hostOps = .regWrite 4 (s.platform.regBase + 0x04#32) v :: rest →
      step s = .next (if v.getLsbD 0 = true
        then { resetCore s with sched := s.sched.tail, stalled := false, hostOps := rest }
        else { s with sched := s.sched.tail, stalled := false, hostOps := rest }))

/-- R13 to R30, R82: what a read of each register answers, bit by bit, reserved bits and the write-only and reserved
offsets as 0, ECS_CONSUMED modulo 2^32. -/
def Obligations.ViewRegistersShowTheState : Prop :=
  ∀ s : State,
    regRead 0x00 s = 0x4A504547#32 ∧
    ((regRead 0x08 s).getLsbD 0 = true ↔
      (∃ l, s.seq = .payload l) ∨ (∃ q, s.seq = .scan q) ∨ (s.seq = .idle ∧ s.fifo ≠ [])) ∧
    ((regRead 0x08 s).getLsbD 1 = true ↔ s.seq = .done) ∧
    ((regRead 0x08 s).getLsbD 2 = true ↔ s.seq = .error) ∧
    (regRead 0x08 s).getLsbD 3 = s.frame.valid ∧
    ((regRead 0x08 s).getLsbD 4 = true ↔ ∃ q, s.seq = .scan q) ∧
    ((regRead 0x08 s).getLsbD 5 = true ↔ ∃ l, s.seq = .payload l) ∧
    (regRead 0x08 s).getLsbD 6 = s.dropped ∧
    (regRead 0x08 s).getLsbD 7 = irq s ∧
    (∀ i, 8 ≤ i → (regRead 0x08 s).getLsbD i = false) ∧
    (∀ i : Fin 4, (regRead 0x0C s).getLsbD i.val = s.qtValid[i] ∧ (regRead 0x0C s).getLsbD (4 + i.val) = s.htDcValid[i] ∧
      (regRead 0x0C s).getLsbD (8 + i.val) = s.htAcValid[i]) ∧
    (∀ i, 12 ≤ i → (regRead 0x0C s).getLsbD i = false) ∧
    (regRead 0x10 s).extractLsb' 0 2 = s.errClass ∧ (regRead 0x10 s).extractLsb' 2 6 = 0#6 ∧
    (regRead 0x10 s).extractLsb' 8 8 = s.errCause ∧ (regRead 0x10 s).extractLsb' 16 8 = s.errOp ∧
    (regRead 0x10 s).extractLsb' 24 8 = 0#8 ∧
    regRead 0x1C s = s.outBase ∧
    (s.frame.valid = true →
      (regRead 0x20 s).extractLsb' 0 16 = s.frame.x ∧ (regRead 0x20 s).extractLsb' 16 16 = s.frame.y ∧
      (regRead 0x24 s).extractLsb' 0 2 = s.frame.nf ∧ regRead 0x28 s = BitVec.ofNat 32 s.frame.mcuTotal) ∧
    (s.frame.valid = false →
      regRead 0x20 s = 0#32 ∧ (regRead 0x24 s).extractLsb' 0 2 = 0#2 ∧ regRead 0x28 s = 0#32) ∧
    (regRead 0x24 s).extractLsb' 4 3 = s.frame.hmax ∧ (regRead 0x24 s).extractLsb' 8 3 = s.frame.vmax ∧
    (regRead 0x24 s).extractLsb' 2 2 = 0#2 ∧ (regRead 0x24 s).extractLsb' 7 1 = 0#1 ∧
    (regRead 0x24 s).extractLsb' 11 21 = 0#21 ∧
    (regRead 0x2C s).toNat = s.mcuDone % 2 ^ 32 ∧ (regRead 0x30 s).toNat = s.p % 2 ^ 32 ∧
    (regRead 0x34 s).toNat = s.rst % 2 ^ 32 ∧
    (regRead 0x38 s).getLsbD 0 = s.doneEvt ∧ (regRead 0x38 s).getLsbD 1 = s.errEvt ∧
    (regRead 0x3C s).getLsbD 0 = s.doneIe ∧ (regRead 0x3C s).getLsbD 1 = s.errIe ∧
    (∀ i, 2 ≤ i → (regRead 0x38 s).getLsbD i = false ∧ (regRead 0x3C s).getLsbD i = false) ∧
    ∀ o, o = 0x04 ∨ o = 0x14 ∨ o = 0x18 ∨ 0x40 ≤ o → regRead o s = 0#32

/-- R21, R28, R29, R83, R131: in every state of `seq` a write to IRQ_STATUS, IRQ_EN or OUT_BASE completes; IRQ_STATUS
is write-1-to-clear, IRQ_EN keeps bits 1:0, OUT_BASE keeps the word, and each read after the write shows it; the
level of `irq` follows the events and enables at once. -/
def Obligations.WritableRegistersAndIrqFollowTheWrite : Prop :=
  ∀ (v : Word) (s : State),
    (∃ t, regWrite 0x38 v s = some t ∧ t = { s with doneEvt := t.doneEvt, errEvt := t.errEvt } ∧
      regRead 0x38 t = regRead 0x38 s &&& ~~~v ∧
      irq t = ((s.doneEvt && !v.getLsbD 0 && s.doneIe) || (s.errEvt && !v.getLsbD 1 && s.errIe))) ∧
    (∃ t, regWrite 0x3C v s = some t ∧ t = { s with doneIe := t.doneIe, errIe := t.errIe } ∧
      regRead 0x3C t = v &&& 3#32 ∧ irq t = ((s.doneEvt && v.getLsbD 0) || (s.errEvt && v.getLsbD 1))) ∧
    (∃ t, regWrite 0x1C v s = some t ∧ t = { s with outBase := v } ∧ regRead 0x1C t = v) ∧
    (irq s = true ↔ (s.doneEvt = true ∧ s.doneIe = true) ∨ (s.errEvt = true ∧ s.errIe = true))

/-- R82, R83, R45: a write to a read-only or reserved offset has no effect; a turn of the host that reads a register
answers its value and changes nothing of the core or of memory; one whose write completes has exactly the effect of
that write, and one whose write does not complete (R88) leaves it waiting; the host's WAIT is over once DONE or ERROR
reads 1 (R80), and a host with nothing to do changes nothing; an access that is not a 32-bit access at a
4-byte-aligned offset inside the window is refused, and no other step is. The host's turns, `reads` and `stalled`,
that WAIT is one operation, and that platform addresses are 32 bits and the window may wrap, are the model's choice
(log 1, log 21, log 23). -/
def Obligations.RegisterPortAccesses : Prop :=
  (∀ (o : Nat) (v : Word) (s : State), o ∉ [0x04, 0x14, 0x18, 0x1C, 0x38, 0x3C] → regWrite o v s = some s) ∧
  (∀ (s : State) (o : Nat) (rest : List HostOp), nextTurn s = .host → o < 0x100 → o % 4 = 0 →
    (s.hostOps = .regRead 4 (s.platform.regBase + BitVec.ofNat 32 o) :: rest →
      step s = .next { s with
        sched := s.sched.tail, hostOps := rest, stalled := false,
        reads := s.reads ++ [.reg (s.platform.regBase + BitVec.ofNat 32 o) (regRead o s)] }) ∧
    (∀ v, s.hostOps = .regWrite 4 (s.platform.regBase + BitVec.ofNat 32 o) v :: rest →
      (∀ t, regWrite o v s = some t →
        step s = .next { t with sched := s.sched.tail, hostOps := rest, stalled := false }) ∧
      (regWrite o v s = none → step s = .next { s with sched := s.sched.tail, stalled := true }))) ∧
  (∀ s : State, nextTurn s = .host →
    (∀ rest, s.hostOps = .wait :: rest →
      step s = .next (if (regRead 0x08 s).getLsbD 1 = true ∨ (regRead 0x08 s).getLsbD 2 = true
        then { s with sched := s.sched.tail, hostOps := rest, stalled := false }
        else { s with sched := s.sched.tail })) ∧
    (s.hostOps = [] → step s = .next { s with sched := s.sched.tail })) ∧
  ∀ (s : State) (r : Refusal), step s = .refused r ↔
    r = .accessOutsideWindow ∧ nextTurn s = .host ∧
      ∃ bytes addr rest, (s.hostOps = .regRead bytes addr :: rest ∨ ∃ v, s.hostOps = .regWrite bytes addr v :: rest) ∧
        ¬ (bytes = 4 ∧ (addr - s.platform.regBase).toNat < 256 ∧ (addr - s.platform.regBase).toNat % 4 = 0)

/-- R55, R57, R58: what a host read of output memory answers: any value (the free value at the counter) inside the
region that belongs to the core, in a range that holds any value, and where nothing was written; else the byte
written. A host write of the region that belongs to the core leaves the written bytes to the scan and marks its own
as any value. The host's turns, the free value, the ranges and the stored host byte are the model's choice (log 1,
log 7, log 8, log 9). -/
def Obligations.HostAccessesToOutputMemory : Prop :=
  ∀ (s : State) (a : Word) (rest : List HostOp), nextTurn s = .host →
    (s.hostOps = .memRead a :: rest →
      ((CoreOwns s a.toNat ∨ inSpans s.indet a.toNat = true ∨ Memory.read s.mem a.toNat = none) →
        step s = .next { s with
          sched := s.sched.tail, hostOps := rest, stalled := false, freeCount := s.freeCount + 1,
          reads := s.reads ++ [.mem a (Config.freeByte s.freeCount)] }) ∧
      (∀ v, ¬ CoreOwns s a.toNat → inSpans s.indet a.toNat = false → Memory.read s.mem a.toNat = some v →
        step s = .next { s with
          sched := s.sched.tail, hostOps := rest, stalled := false, reads := s.reads ++ [.mem a v] })) ∧
    (∀ v, s.hostOps = .memWrite a v :: rest →
      ∃ t, step s = .next t ∧
        t = { s with
          sched := s.sched.tail, hostOps := rest, stalled := false, mem := t.mem, indet := t.indet,
          clobbered := t.clobbered } ∧
        (CoreOwns s a.toNat → t.mem = s.mem ∧ t.indet = s.indet ∧ inSpans t.clobbered a.toNat = true ∧
          ∀ a', a' ≠ a.toNat → inSpans t.clobbered a' = inSpans s.clobbered a') ∧
        (¬ CoreOwns s a.toNat →
          Memory.read t.mem a.toNat = some v ∧ inSpans t.indet a.toNat = false ∧ t.clobbered = s.clobbered ∧
          ∀ a', a' ≠ a.toNat → Memory.read t.mem a' = Memory.read s.mem a' ∧ inSpans t.indet a' = inSpans s.indet a'))

/-! ## The front end -/

/-- R85: a CMD write appends the entry with OUT_BASE copied into it and sets the front end. -/
def Obligations.CmdWriteAppendsTheEntry : Prop :=
  ∀ (w : Word) (s : State), s.seq ≠ .done → s.seq ≠ .error → s.fifo.length < fifoDepth s →
    ∃ t, regWrite 0x14 w s = some t ∧
      t = { s with fifo := t.fifo, feMode := t.feMode, feCount := t.feCount, feThenStream := t.feThenStream } ∧
      t.fifo = s.fifo ++ [.cmd (w.extractLsb' 0 8) (w.extractLsb' 8 8) (w.extractLsb' 16 16) s.outBase] ∧
      t.feCount = w.extractLsb' 16 16 ∧
      (w.extractLsb' 16 16 ≠ 0#16 → t.feMode = .count) ∧
      (w.extractLsb' 16 16 = 0#16 → w.extractLsb' 0 8 = 0x04#8 → t.feMode = .stream) ∧
      (w.extractLsb' 16 16 = 0#16 → w.extractLsb' 0 8 ≠ 0x04#8 → t.feMode = .none) ∧
      (t.feThenStream = true ↔ w.extractLsb' 0 8 = 0x04#8 ∧ w.extractLsb' 16 16 ≠ 0#16)

/-- R84, R86, R87, R88: a DATA write by the front-end mode; in DONE and ERROR a CMD or DATA write is dropped with no
effect; else one that would append to a full FIFO does not complete: the host's turn leaves it waiting. The host's
turn and `stalled` are the model's choice (log 1, log 21). -/
def Obligations.DataWritesFollowTheModeDropOrStall : Prop :=
  ∀ (v : Word) (s : State),
    (s.seq ≠ .done → s.seq ≠ .error →
      (s.feMode = .none → regWrite 0x18 v s = some { s with dropped := true }) ∧
      (s.feMode = .stream → s.fifo.length < fifoDepth s →
        regWrite 0x18 v s = some { s with fifo := s.fifo ++ [.data (v.extractLsb' 0 8)] }) ∧
      (s.feMode = .count → s.fifo.length < fifoDepth s →
        ∃ t, regWrite 0x18 v s = some t ∧ t = { s with fifo := t.fifo, feCount := t.feCount, feMode := t.feMode } ∧
          t.fifo = s.fifo ++ [.data (v.extractLsb' 0 8)] ∧ t.feCount = s.feCount - 1 ∧
          (s.feCount ≠ 1#16 → t.feMode = .count) ∧
          (s.feCount = 1#16 → t.feMode = if s.feThenStream = true then .stream else .none))) ∧
    ∀ o, o = 0x14 ∨ o = 0x18 →
      (s.seq = .done ∨ s.seq = .error → regWrite o v s = some s) ∧
      (s.seq ≠ .done → s.seq ≠ .error → fifoDepth s ≤ s.fifo.length → (o = 0x18 → s.feMode ≠ .none) →
        regWrite o v s = none ∧
        ∀ rest, nextTurn s = .host → s.hostOps = .regWrite 4 (s.platform.regBase + BitVec.ofNat 32 o) v :: rest →
          step s = .next { s with sched := s.sched.tail, stalled := true })

/-! ## Commands -/

/-- R92: each of the eight rows of reserved opcodes raises ILLEGAL_COMMAND with ERR.OP the opcode, and changes
nothing else but that the FIFO with its payload is flushed (R127); a payload byte written after that is dropped
(R87). -/
def Obligations.ReservedOpcodesRaiseIllegalCommand : Prop :=
  ∀ (s : State) (arg : Byte) (len : Half), s.seq = .idle →
    let failed : Byte → Host.Outcome State Fault Refusal := fun op => .next { s with
      seq := .error, curOp := op, errClass := 1, errCause := 0x01, errOp := op, fifo := [], feMode := .none, feCount := 0,
      feThenStream := false, errEvt := true }
    exec (.illegal00 arg len) s = failed 0x00 ∧
    exec (.illegal05 arg len) s = failed 0x05 ∧
    (∀ lo, exec (.illegal0607 lo arg len) s = failed (0x06#8 + lo.setWidth 8)) ∧
    (∀ lo, exec (.illegal080F lo arg len) s = failed (0x08#8 + lo.setWidth 8)) ∧
    (∀ lo, exec (.illegal101F lo arg len) s = failed (0x10#8 + lo.setWidth 8)) ∧
    (∀ lo, exec (.illegal203F lo arg len) s = failed (0x20#8 + lo.setWidth 8)) ∧
    (∀ lo, exec (.illegal407F lo arg len) s = failed (0x40#8 + lo.setWidth 8)) ∧
    (∀ lo, exec (.illegal80FF lo arg len) s = failed (0x80#8 + lo.setWidth 8)) ∧
    (∀ op, op ∉ [0x01#8, 0x02#8, 0x03#8, 0x04#8] → exec (decodeCommand (cmdWord op arg len)) s = failed op) ∧
    ∀ (op : Byte) (t : State) (v : Word), failed op = .next t → regWrite 0x18 v t = some t

/-- R95: LOAD_DQT with its whole payload in the FIFO stores every unit's table, a later one over an earlier, consumes
exactly `len` bytes and leaves everything else as it is. That one step takes the whole payload is the model's choice
(log 3). -/
def Obligations.LoadDqtStoresEveryTable : Prop :=
  ∀ (s : State) (units : List QtUnit) (arg : Byte) (len : Half) (ob : Word) (rest : List FifoEntry),
    s.pace = .whole → CommandReady 0x01 arg len ob (units.flatMap QtUnit.bytes) rest s →
    units ≠ [] → len.toNat = 65 * units.length → (∀ u ∈ units, ∀ k : Fin 64, u.q[k] ≠ 0#8) →
    exec (.loadDqt arg len) s =
      .next (units.foldl QtUnit.store { s with fifo := rest, curOp := 0x01, seq := .idle })

/-- R95, the checks of a unit, after any number of good units: too few bytes left, the precision, the id, the first
zero coefficient; and SEQUENCE for a command entry where a byte is due, the id or a coefficient (R89). That one step
reaches the check is the model's choice (log 3). -/
def Obligations.LoadDqtRejectsABadUnit : Prop :=
  ∀ (s : State) (units : List QtUnit) (bad : List Byte) (arg : Byte) (len : Half) (ob : Word) (rest : List FifoEntry),
    s.pace = .whole → CommandReady 0x01 arg len ob (units.flatMap QtUnit.bytes ++ bad) rest s →
    (∀ u ∈ units, ∀ k : Fin 64, u.q[k] ≠ 0#8) →
    (units = [] → len = 0#16 → Rejects (exec (.loadDqt arg len) s) .dqtTruncated 0x01) ∧
    (65 * units.length < len.toNat → len.toNat < 65 * units.length + 65 →
      Rejects (exec (.loadDqt arg len) s) .dqtTruncated 0x01) ∧
    (65 * units.length + 65 ≤ len.toNat →
      (bad = [] → ∀ op a l o rest', rest = .cmd op a l o :: rest' → Rejects (exec (.loadDqt arg len) s) .sequence 0x01) ∧
      (∀ b qs, bad = b :: qs →
        (hiNibble b = 1#4 → Rejects (exec (.loadDqt arg len) s) .dqtPrecision 0x01) ∧
        (1 < (hiNibble b).toNat → Rejects (exec (.loadDqt arg len) s) .dqtBadId 0x01) ∧
        (hiNibble b = 0#4 → 3 < (loNibble b).toNat → Rejects (exec (.loadDqt arg len) s) .dqtBadId 0x01) ∧
        (hiNibble b = 0#4 → (loNibble b).toNat ≤ 3 → ∀ pre post, qs = pre ++ 0#8 :: post → (∀ c ∈ pre, c ≠ 0#8) →
          pre.length < 64 → Rejects (exec (.loadDqt arg len) s) .dqtZeroCoef 0x01) ∧
        (hiNibble b = 0#4 → (loNibble b).toNat ≤ 3 → (∀ c ∈ qs, c ≠ 0#8) → qs.length < 64 →
          ∀ op a l o rest', rest = .cmd op a l o :: rest' → Rejects (exec (.loadDqt arg len) s) .sequence 0x01)))

/-- R96: LOAD_DHT with its whole payload in the FIFO stores every table, consumes exactly `len` bytes and leaves
everything else as it is. That one step takes the whole payload is the model's choice (log 3). -/
def Obligations.LoadDhtStoresEveryTable : Prop :=
  ∀ (s : State) (tables : List HtUnit) (arg : Byte) (len : Half) (ob : Word) (rest : List FifoEntry),
    s.pace = .whole → CommandReady 0x02 arg len ob (tables.flatMap HtUnit.bytes) rest s →
    tables ≠ [] → len.toNat = (tables.flatMap HtUnit.bytes).length → (∀ u ∈ tables, u.t.sound) →
    exec (.loadDht arg len) s =
      .next (tables.foldl HtUnit.store { s with fifo := rest, curOp := 0x02, seq := .idle })

/-- R96, the checks of a table, after any number of good tables, in their order; and SEQUENCE for a command entry
where a byte is due, the id, a length count or a symbol (R89). That one step reaches the check is the model's choice
(log 3). -/
def Obligations.LoadDhtRejectsABadTable : Prop :=
  ∀ (s : State) (tables : List HtUnit) (bad : List Byte) (arg : Byte) (len : Half) (ob : Word) (rest : List FifoEntry),
    s.pace = .whole → CommandReady 0x02 arg len ob (tables.flatMap HtUnit.bytes ++ bad) rest s →
    (∀ u ∈ tables, u.t.sound) →
    let used := (tables.flatMap HtUnit.bytes).length
    (tables = [] → len = 0#16 → Rejects (exec (.loadDht arg len) s) .dhtTruncated 0x02) ∧
    (used < len.toNat → len.toNat < used + 17 → Rejects (exec (.loadDht arg len) s) .dhtTruncated 0x02) ∧
    (used + 17 ≤ len.toNat →
      (bad = [] → ∀ op a l o rest', rest = .cmd op a l o :: rest' → Rejects (exec (.loadDht arg len) s) .sequence 0x02) ∧
      (∀ b more, bad = b :: more →
        (1 < (hiNibble b).toNat → Rejects (exec (.loadDht arg len) s) .dhtBadClass 0x02) ∧
        ((hiNibble b).toNat ≤ 1 → 3 < (loNibble b).toNat → Rejects (exec (.loadDht arg len) s) .dhtBadId 0x02) ∧
        ((hiNibble b).toNat ≤ 1 → (loNibble b).toNat ≤ 3 → ∀ bits post, more = bits ++ post → bits.length = 16 →
          (256 < symbolCount bits → Rejects (exec (.loadDht arg len) s) .dhtTooManySymbols 0x02) ∧
          (symbolCount bits ≤ 256 → overfull bits = true →
            Rejects (exec (.loadDht arg len) s) .dhtOverfull 0x02) ∧
          (symbolCount bits ≤ 256 → overfull bits = false → len.toNat < used + 17 + symbolCount bits →
            Rejects (exec (.loadDht arg len) s) .dhtTruncated 0x02) ∧
          (symbolCount bits ≤ 256 → overfull bits = false → used + 17 + symbolCount bits ≤ len.toNat →
            post.length < symbolCount bits → ∀ op a l o rest', rest = .cmd op a l o :: rest' →
            Rejects (exec (.loadDht arg len) s) .sequence 0x02)) ∧
        ((hiNibble b).toNat ≤ 1 → (loNibble b).toNat ≤ 3 → more.length < 16 →
          ∀ op a l o rest', rest = .cmd op a l o :: rest' → Rejects (exec (.loadDht arg len) s) .sequence 0x02)))

/-- R97: LOAD_SOF of an accepted frame loads the frame registers, with effective factors 1x1 for a single component,
the maxima, and MCUX, MCUY the least counts of MCUs that cover the image (R106). That one step takes the whole
payload is the model's choice (log 3). -/
def Obligations.LoadSofLoadsTheFrame : Prop :=
  ∀ (s : State) (x y : Half) (comps : List Component) (hm vm : Nat) (len : Half) (ob : Word) (rest : List FifoEntry),
    s.pace = .whole → CommandReady 0x03 0xC0 len ob (sofBytes x y comps) rest s → s.frame.valid = false →
    x ≠ 0#16 → y ≠ 0#16 → AcceptedComponents comps hm vm → len.toNat = 6 + 3 * comps.length →
    ∃ t, exec (.loadSof 0xC0 len) s = .next t ∧
      t = { s with fifo := rest, curOp := 0x03, seq := .idle, frame := t.frame } ∧
      t.frame.valid = true ∧ t.frame.x = x ∧ t.frame.y = y ∧ t.frame.nf.toNat = comps.length ∧
      (comps.length = 3 → t.frame.hmax.toNat = hm ∧ t.frame.vmax.toNat = vm ∧ t.frame.comps.toList = comps) ∧
      (comps.length = 1 → t.frame.hmax = 1#3 ∧ t.frame.vmax = 1#3 ∧
        (∀ c, comps[0]? = some c → t.frame.comps[0] = { c with h := 1, v := 1 }) ∧
        t.frame.comps[1] = s.frame.comps[1] ∧ t.frame.comps[2] = s.frame.comps[2]) ∧
      8 * t.frame.hmax.toNat * (t.frame.mcux - 1) < x.toNat ∧ x.toNat ≤ 8 * t.frame.hmax.toNat * t.frame.mcux ∧
      8 * t.frame.vmax.toNat * (t.frame.mcuy - 1) < y.toNat ∧ y.toNat ≤ 8 * t.frame.vmax.toNat * t.frame.mcuy ∧
      t.frame.mcuTotal = t.frame.mcux * t.frame.mcuy

/-- R97 and R91, the checks of LOAD_SOF up to the component count, in their order; and SEQUENCE for a command entry
where a header byte is due (R89). That one step reaches the check is the model's choice (log 3). -/
def Obligations.LoadSofRejectsABadHeader : Prop :=
  ∀ (s : State) (arg : Byte) (len : Half) (ob : Word) (payload : List Byte) (rest : List FifoEntry),
    s.pace = .whole → CommandReady 0x03 arg len ob payload rest s →
    (arg ∈ [0xC1#8, 0xC2#8, 0xC3#8, 0xC5#8, 0xC6#8, 0xC7#8, 0xC9#8, 0xCA#8, 0xCB#8, 0xCD#8, 0xCE#8, 0xCF#8] →
      Rejects (exec (.loadSof arg len) s) .sofVariant 0x03) ∧
    (arg.extractLsb' 4 4 ≠ 0xC#4 ∨ arg ∈ [0xC4#8, 0xC8#8, 0xCC#8] → Rejects (exec (.loadSof arg len) s) .badArg 0x03) ∧
    (arg = 0xC0#8 → s.frame.valid = true → Rejects (exec (.loadSof arg len) s) .sequence 0x03) ∧
    (arg = 0xC0#8 → s.frame.valid = false → len.toNat < 6 → Rejects (exec (.loadSof arg len) s) .sofLength 0x03) ∧
    (arg = 0xC0#8 → s.frame.valid = false → 6 ≤ len.toNat → payload.length < 6 →
      ∀ op a l o rest', rest = .cmd op a l o :: rest' → Rejects (exec (.loadSof arg len) s) .sequence 0x03) ∧
    (arg = 0xC0#8 → s.frame.valid = false → 6 ≤ len.toNat →
      ∀ p y1 y0 x1 x0 nf more, payload = p :: y1 :: y0 :: x1 :: x0 :: nf :: more →
        (p ≠ 8#8 → Rejects (exec (.loadSof arg len) s) .precision 0x03) ∧
        (p = 8#8 → y1 = 0#8 → y0 = 0#8 → Rejects (exec (.loadSof arg len) s) .dnl 0x03) ∧
        (p = 8#8 → ¬ (y1 = 0#8 ∧ y0 = 0#8) →
          (x1 = 0#8 → x0 = 0#8 → Rejects (exec (.loadSof arg len) s) .sofBadDimension 0x03) ∧
          (¬ (x1 = 0#8 ∧ x0 = 0#8) →
            (nf = 0#8 → Rejects (exec (.loadSof arg len) s) .sofBadComponentCount 0x03) ∧
            (nf = 2#8 ∨ 4 ≤ nf.toNat → Rejects (exec (.loadSof arg len) s) .componentCount 0x03) ∧
            (nf = 1#8 ∨ nf = 3#8 → len.toNat ≠ 6 + 3 * nf.toNat → Rejects (exec (.loadSof arg len) s) .sofLength 0x03))))

/-- R97 steps 3 and 4: the first component that fails a check, after good ones, SEQUENCE for a command entry where a
byte of a component is due (R89), and the sampling of three components. That one step reaches the check is the
model's choice (log 3). -/
def Obligations.LoadSofRejectsABadComponent : Prop :=
  ∀ (s : State) (x y : Half) (n : Nat) (good : List Component) (len : Half) (ob : Word) (more : List Byte)
    (rest : List FifoEntry), s.pace = .whole → s.frame.valid = false → x ≠ 0#16 → y ≠ 0#16 → n = 1 ∨ n = 3 →
    len.toNat = 6 + 3 * n → good.length ≤ n → (∀ c ∈ good, c.sound) → (good.map (fun c => c.id)).Nodup →
    CommandReady 0x03 0xC0 len ob
      ([8, y.extractLsb' 8 8, y.extractLsb' 0 8, x.extractLsb' 8 8, x.extractLsb' 0 8, BitVec.ofNat 8 n] ++
        good.flatMap componentBytes ++ more) rest s →
    (good.length < n → more.length < 3 → ∀ op a l o rest', rest = .cmd op a l o :: rest' →
      Rejects (exec (.loadSof 0xC0 len) s) .sequence 0x03) ∧
    (good.length < n → ∀ c hv tq post, more = c :: hv :: tq :: post →
      (c ∈ good.map (fun e => e.id) → Rejects (exec (.loadSof 0xC0 len) s) .sofDupId 0x03) ∧
      (c ∉ good.map (fun e => e.id) →
        (hiNibble hv = 0#4 ∨ 4 < (hiNibble hv).toNat ∨ loNibble hv = 0#4 ∨ 4 < (loNibble hv).toNat →
          Rejects (exec (.loadSof 0xC0 len) s) .sofBadSampling 0x03) ∧
        (1 ≤ (hiNibble hv).toNat → (hiNibble hv).toNat ≤ 4 → 1 ≤ (loNibble hv).toNat → (loNibble hv).toNat ≤ 4 →
          3 < tq.toNat → Rejects (exec (.loadSof 0xC0 len) s) .sofBadQuantId 0x03))) ∧
    (good.length = 3 → n = 3 →
      (10 < (good.map (fun c => c.h.toNat * c.v.toNat)).sum ∨
        (∃ c ∈ good, ∃ d ∈ good, (∀ e ∈ good, e.h.toNat ≤ d.h.toNat) ∧ d.h.toNat % c.h.toNat ≠ 0) ∨
        ∃ c ∈ good, ∃ d ∈ good, (∀ e ∈ good, e.v.toNat ≤ d.v.toNat) ∧ d.v.toNat % c.v.toNat ≠ 0) →
      Rejects (exec (.loadSof 0xC0 len) s) .sampling 0x03)

/-- R98 and R99: START_SCAN with an accepted header selects the tables, takes the base its entry carries, starts the
scan and leaves everything else as it is. That one step takes the whole payload, and `clobbered`, are the model's
choice (log 3, log 8). -/
def Obligations.StartScanStartsTheScan : Prop :=
  ∀ (s : State) (comps : List ScanComp) (arg : Byte) (len : Half) (ob : Word) (rest : List FifoEntry),
    s.pace = .whole → CommandReady 0x04 arg len ob (sosBytes comps) rest s → s.frame.valid = true →
    comps.length = 1 ∨ comps.length = 3 → len.toNat = 4 + 2 * comps.length → NamesFrame comps s.frame →
    NeedsLoaded comps s → ob.toNat + 3 * s.frame.x.toNat * s.frame.y.toNat ≤ 2 ^ 32 →
    ∃ t, exec (.startScan arg len) s = .next t ∧
      t = { s with
        fifo := rest, curOp := 0x04, seq := .scan .mcuStart, td := t.td, ta := t.ta, ob := ob, pred := t.pred, cur := 0,
        nbits := 0, p := 0, m := 0, rst := 0, mcuDone := 0, clobbered := [] } ∧
      ∀ j : Fin 3, t.pred[j] = 0 ∧
        (∀ c, comps[j.val]? = some c → t.td[j] = c.td ∧ t.ta[j] = c.ta) ∧
        (comps[j.val]? = none → t.td[j] = s.td[j] ∧ t.ta[j] = s.ta[j])

/-- R98 and R91, the checks of START_SCAN in their order: the state, LEN and Ns; then, after any number of good
components, the component, its tables, the progressive parameters, a table never loaded, the range of the output
region; and SEQUENCE for a command entry where a byte of the header is due (R89). That one step reaches the check is
the model's choice (log 3). -/
def Obligations.StartScanRejectsABadHeader : Prop :=
  (∀ (s : State) (arg : Byte) (len : Half) (ob : Word) (payload : List Byte) (rest : List FifoEntry),
     s.pace = .whole → CommandReady 0x04 arg len ob payload rest s →
     (s.frame.valid = false → Rejects (exec (.startScan arg len) s) .sequence 0x04) ∧
     (s.frame.valid = true → len = 0#16 → Rejects (exec (.startScan arg len) s) .sosLength 0x04) ∧
     (s.frame.valid = true → len ≠ 0#16 → payload = [] → ∀ op a l o rest', rest = .cmd op a l o :: rest' →
       Rejects (exec (.startScan arg len) s) .sequence 0x04) ∧
     (s.frame.valid = true → len ≠ 0#16 → ∀ ns more, payload = ns :: more →
       (ns = 0#8 ∨ 4 < ns.toNat → Rejects (exec (.startScan arg len) s) .sosBadCount 0x04) ∧
       (1 ≤ ns.toNat → ns.toNat ≤ 4 → len.toNat ≠ 4 + 2 * ns.toNat →
         Rejects (exec (.startScan arg len) s) .sosLength 0x04) ∧
       (1 ≤ ns.toNat → ns.toNat ≤ 4 → len.toNat = 4 + 2 * ns.toNat → ns.toNat ≠ s.frame.nf.toNat →
         Rejects (exec (.startScan arg len) s) .scanSubset 0x04))) ∧
  ∀ (s : State) (n : Nat) (good : List ScanComp) (more : List Byte) (arg : Byte) (len : Half) (ob : Word)
    (rest : List FifoEntry), s.pace = .whole → s.frame.valid = true → n = 1 ∨ n = 3 → s.frame.nf.toNat = n →
    len.toNat = 4 + 2 * n → good.length ≤ n →
    (∀ (j : Fin 3) (c : ScanComp), good[j.val]? = some c → c.cs = s.frame.comps[j].id) →
    CommandReady 0x04 arg len ob
      (BitVec.ofNat 8 n :: good.flatMap (fun c => [c.cs, joinNibbles (BitVec.ofNat 4 c.td.val) (BitVec.ofNat 4 c.ta.val)]) ++ more)
      rest s →
    ((good.length < n ∧ more.length < 2) ∨ (good.length = n ∧ more.length < 3) →
      ∀ op a l o rest', rest = .cmd op a l o :: rest' → Rejects (exec (.startScan arg len) s) .sequence 0x04) ∧
    (∀ (j : Fin 3) cs t post, j.val = good.length → j.val < n → more = cs :: t :: post →
      (cs ≠ s.frame.comps[j].id → Rejects (exec (.startScan arg len) s) .sosBadComponent 0x04) ∧
      (cs = s.frame.comps[j].id → 3 < (hiNibble t).toNat ∨ 3 < (loNibble t).toNat →
        Rejects (exec (.startScan arg len) s) .sosBadTable 0x04)) ∧
    (∀ ss se a post, good.length = n → more = ss :: se :: a :: post →
      (ss ≠ 0#8 ∨ se ≠ 63#8 ∨ a ≠ 0#8 → Rejects (exec (.startScan arg len) s) .progressive 0x04) ∧
      (ss = 0#8 → se = 63#8 → a = 0#8 → ¬ NeedsLoaded good s →
        Rejects (exec (.startScan arg len) s) .tableNotLoaded 0x04) ∧
      (ss = 0#8 → se = 63#8 → a = 0#8 → NeedsLoaded good s →
        2 ^ 32 < ob.toNat + 3 * s.frame.x.toNat * s.frame.y.toNat →
        Rejects (exec (.startScan arg len) s) .outRange 0x04))

/-- R128 for the loaders: "The same input gives the same ... however the host times its writes": one that takes the
bytes that are there, waits, and goes on when more arrive ends as one that finds them all; nor does the cut into
steps change where it ends (93_implementation_defined.md row 27). A turn of the core in PAYLOAD is a run of the
loader (R89, R90). A turn that runs a command or goes on with one: where it waits, the next turn ends as if all bytes
had been there; where it ends without an error, the later entries stay behind; an error depends on none of them, "and
only after the bytes that show it are in the FIFO; a `hold` never becomes an error". How many bytes a turn takes is
the model's choice (log 3). -/
def Obligations.LoadersDoNotDependOnTimingOrCut : Prop :=
  (∀ (s : State) (later : List FifoEntry) (n n' : Nat),
    let waited := runLoad s.fifo.length s
    waited.seq ≠ .error → s.fifo.length + later.length ≤ n → waited.fifo.length + later.length ≤ n' →
    runLoad n' (withLater waited later) = runLoad n (withLater s later)) ∧
  (∀ (s : State) (a b : Nat), runLoad b (runLoad a s) = runLoad (a + b) s) ∧
  (∀ s : State, WaitsForPayload s →
    (s.pace = .whole → coreTurn s = .next (runLoad s.fifo.length s)) ∧
    (s.pace = .single → coreTurn s = .next (runLoad 1 s))) ∧
  ∀ (s u : State) (later : List FifoEntry), WaitsForPayload s ∨ (s.seq = .idle ∧ s.fifo ≠ []) → coreTurn s = .next u →
    (WaitsForPayload u → s.pace = .whole → coreTurn (withLater s later) = coreTurn (withLater u later)) ∧
    (u.seq = .error → coreTurn (withLater s later) = .next u) ∧
    (¬ WaitsForPayload u → u.seq ≠ .error → coreTurn (withLater s later) = .next (withLater u later))

/-! ## The bit reader and Huffman codes -/

/-- R101: `fill_byte` takes a data byte, or a stuffed pair as FF; a marker raises END_OF_SEGMENT and nothing is
consumed; a command entry raises SEQUENCE; it waits where the bytes are not there. -/
def Obligations.FillByteTakesOneByteOfCodedData : Prop :=
  ∀ s : State,
    (∀ b rest, s.fifo = .data b :: rest → b ≠ 0xFF#8 →
      fillByte s = .got () { s with fifo := rest, p := s.p + 1, cur := b, nbits := 8 }) ∧
    (∀ rest, s.fifo = .data 0xFF#8 :: .data 0x00#8 :: rest →
      fillByte s = .got () { s with fifo := rest, p := s.p + 2, cur := 0xFF#8, nbits := 8 }) ∧
    (∀ b rest, s.fifo = .data 0xFF#8 :: .data b :: rest → b ≠ 0x00#8 → fillByte s = .raised (raise .endOfSegment s)) ∧
    (∀ op a l o rest, s.fifo = .cmd op a l o :: rest ∨ s.fifo = .data 0xFF#8 :: .cmd op a l o :: rest →
      fillByte s = .raised (raise .sequence s)) ∧
    (s.fifo = [] ∨ s.fifo = [.data 0xFF#8] → fillByte s = .hold)

/-- R42, R102, R103: `read_bits(n)` delivers the next `n` coded bits, most significant first, stuffing removed, and
the coded bits after them remain. -/
def Obligations.ReadBitsDeliversTheCodedBits : Prop :=
  ∀ (s : State) (n : Nat), n ≤ (codedBits s).length →
    ∃ u, readBits n s = .ended (bitsValue ((codedBits s).take n)) u ∧ codedBits u = (codedBits s).drop n ∧
      SameButReader u s

/-- R100: the code words are prefix-free and fit their lengths where the table is not overfull; with `NSYM` symbols
stored they carry the symbols of HUFFVAL in order, and those of length `l` have the values FIRST[l], FIRST[l] + 1,
..., `BITS[l]` of them. -/
def Obligations.HuffmanCodesArePrefixFree : Prop :=
  ∀ t : HuffTable,
    t.codes.Pairwise (fun a b => a.len ≤ b.len ∧ b.code / 2 ^ (b.len - a.len) ≠ a.code) ∧
    (overfull t.bits.toList = false → ∀ e ∈ t.codes, 1 ≤ e.len ∧ e.len ≤ 16 ∧ e.code < 2 ^ e.len) ∧
    (t.vals.length = symbolCount t.bits.toList →
      t.codes.map (fun e => e.sym) = t.vals ∧
      ∀ l : Fin 16, (t.codes.filter (fun e => e.len == l.val + 1)).map (fun e => e.code) =
        (List.range (t.bits[l]).toNat).map (fun n => firstCode t.bits.toList l.val + n))

/-- R104 and the round trip of 95_test_vectors.md S1: reading a code word's bits decodes its symbol and takes no
more. R110, R111: a step of the core does so in the table TD or TA selects for the block's component, whatever part
of the code word was read before, and goes on at the decoded symbol. R90: where the bits that are there end inside a
code word, a step takes them and waits with their number and value; R90, R128: when more entries arrive, whatever
they are, two turns (the next byte, then the rest) end where one would have ended had all been there. Where `cur` is
used up a step takes the next byte of coded data (R101, R102), raises SEQUENCE at a command entry, and changes
nothing where no byte is there. How a descent is cut into steps is the model's choice (log 3, log 19). -/
def Obligations.HuffDecodeInvertsTheCode : Prop :=
  (∀ (t : HuffTable) (e : Code) (s : State) (tail : List Bool), t.sound → e ∈ t.codes →
    codedBits s = codeBits e ++ tail →
    ∃ u, huffLoop t 16 0 0 s = .symbol e.sym u ∧ codedBits u = tail ∧ SameButReader u s) ∧
  (∀ (s : State) (taken : List Bool) (t : HuffTable) (wait : Nat → Nat → ScanPos) (found : Byte → ScanPos) (e : Code),
    nextTurn s = .core → s.pace = .whole → s.nbits ≠ 0 → DescentAt s taken t wait found → t.sound → e ∈ t.codes →
    (∀ tail, taken ++ codedBits s = codeBits e ++ tail → taken.length < e.len →
      ∃ u, step s = .next u ∧ ReadsOn (found e.sym) u s ∧ codedBits u = tail) ∧
    (∀ bytes left, EndsInside s taken e → s.fifo = dataEntries (stuffed bytes ++ left) → left = [] ∨ left = [0xFF#8] →
      ∃ cur, step s = .next { s with
        sched := s.sched.tail,
        seq := .scan (wait (taken ++ codedBits s).length (bitsValue (taken ++ codedBits s))),
        cur := cur, nbits := 0, fifo := dataEntries left, p := s.p + (stuffed bytes).length })) ∧
  (∀ (s u : State) (later : List FifoEntry), s.pace = .whole → s.nbits ≠ 0 → coreTurn s = .next u →
    ((∃ l c, s.seq = .scan (.dcHuff l c)) ∧ (∃ l c, u.seq = .scan (.dcHuff l c))) ∨
      ((∃ l c, s.seq = .scan (.acHuff l c)) ∧ ∃ l c, u.seq = .scan (.acHuff l c)) →
    coreTurn (withLater s later) = .next (coreTurns 2 (withLater u later))) ∧
  ∀ (s : State) (q : ScanPos), nextTurn s = .core → s.seq = .scan q → q.needsBit = true → s.nbits = 0 →
    (codedBits s ≠ [] → ∃ u, step s = .next u ∧ ReadsOn q u s ∧ u.nbits = 8 ∧ codedBits u = codedBits s) ∧
    (∀ op a l o rest, s.fifo = .cmd op a l o :: rest ∨ s.fifo = .data 0xFF#8 :: .cmd op a l o :: rest →
      step s = .next (raise .sequence { s with sched := s.sched.tail })) ∧
    (s.fifo = [] ∨ s.fifo = [.data 0xFF#8] → step s = .next { s with sched := s.sched.tail })

/-- R104: "The loop always returns or raises by `l = 16`"; bits that begin no code word raise HUFF_NO_CODE at the
first bit that shows it, in a step of the core too, whatever part of them was read before (R110, R111). A marker
inside a code word raises END_OF_SEGMENT (R101), a command entry SEQUENCE (R90), with the bits before it read. That
one step reads all of these bits is the model's choice (log 3). -/
def Obligations.HuffDecodeEndsOrRaises : Prop :=
  (∀ (t : HuffTable) (s : State), 16 ≤ (codedBits s).length → ∀ l c u, huffLoop t 16 0 0 s ≠ .waiting l c u) ∧
  (∀ (t : HuffTable) (s : State) (dead tail : List Bool), t.sound → DeadWord t dead → codedBits s = dead ++ tail →
    ∃ u, huffLoop t 16 0 0 s = .raised (raise .huffNoCode u) ∧ codedBits u = tail ∧ SameButReader u s) ∧
  ∀ (s : State) (taken : List Bool) (t : HuffTable) (wait : Nat → Nat → ScanPos) (found : Byte → ScanPos),
    nextTurn s = .core → s.pace = .whole → s.nbits ≠ 0 → DescentAt s taken t wait found → t.sound →
    (∀ dead tail, DeadWord t dead → taken ++ codedBits s = dead ++ tail → taken.length < dead.length →
      ∃ u, step s = .next (raise .huffNoCode u) ∧ codedBits u = tail ∧
        SameButReader u { s with sched := s.sched.tail }) ∧
    (∀ e ∈ t.codes, EndsInside s taken e → ∀ (bytes : List Byte) (stop : List FifoEntry),
      s.fifo = dataEntries (stuffed bytes) ++ stop →
      (∀ b rest, stop = .data 0xFF#8 :: .data b :: rest → b ≠ 0#8 →
        ∃ cur, step s = .next (raise .endOfSegment { s with
          sched := s.sched.tail, cur := cur, nbits := 0, p := s.p + (stuffed bytes).length })) ∧
      (∀ op a l o rest, stop = .cmd op a l o :: rest ∨ stop = .data 0xFF#8 :: .cmd op a l o :: rest →
        ∃ cur, step s = .next (raise .sequence { s with
          sched := s.sched.tail, cur := cur, nbits := 0, p := s.p + (stuffed bytes).length })))

/-- R105: the values of category `s`: every value in the two ranges is given by exactly one string of `s` extra bits. -/
def Obligations.ExtendIsABijection : Prop :=
  (∀ v : Nat, extend v 0 = 0) ∧
  ∀ sz : Nat, 1 ≤ sz →
    (∀ v, v < 2 ^ sz →
      (v < 2 ^ (sz - 1) → extend v sz = (v : Int) - 2 ^ sz + 1) ∧ (2 ^ (sz - 1) ≤ v → extend v sz = v)) ∧
    (∀ d : Int, (2 ^ (sz - 1) ≤ d ∧ d ≤ 2 ^ sz - 1) ∨ (-(2 ^ sz - 1) ≤ d ∧ d ≤ -2 ^ (sz - 1)) →
      ∃! v : Nat, v < 2 ^ sz ∧ extend v sz = d)

/-! ## Byte pairs and symbols of the entropy-coded segment -/

/-- R101: FF 00 where a bit is needed gives eight 1 bits and is consumed whole. -/
def Obligations.StuffedPairGivesOnes : Prop :=
  ∀ (s : State) (rest : List FifoEntry), s.fifo = .data 0xFF#8 :: .data 0x00#8 :: rest →
    exec .ecsStuffed s = .next { s with fifo := rest, p := s.p + 2, cur := 0xFF#8, nbits := 8 } ∧
    (s.nbits = 0 → codedBits { s with fifo := rest, p := s.p + 2, cur := 0xFF#8, nbits := 8 } = codedBits s)

/-- R109: a restart marker at an MCU boundary is consumed, the padding dropped, every predictor 0, the count one
more; its number does not matter; the MCU begins. R108, R109: at the start of the first MCU, and where the next bytes
are no restart marker, the MCU begins and nothing else changes; a command entry where a byte is due raises SEQUENCE
(R90); where the bytes that decide are not there the core waits. That the working buffers keep their contents is the
model's choice (log 6). -/
def Obligations.RestartResetsThePredictors : Prop :=
  (∀ (s : State) (n : BitVec 3) (b : Byte) (rest : List FifoEntry), s.fifo = .data 0xFF#8 :: .data b :: rest →
    ∃ t, exec (.ecsRst n) s = .next t ∧
      t = { s with
        fifo := rest, p := s.p + 2, nbits := 0, rst := s.rst + 1, pred := t.pred, blk := 0, seq := .scan (.dcHuff 0 0) } ∧
      ∀ j : Fin 3, t.pred[j] = 0) ∧
  ∀ s : State, s.seq = .scan .mcuStart → nextTurn s = .core →
    (s.m = 0 ∨ (∃ b rest, s.fifo = .data b :: rest ∧ b ≠ 0xFF#8) ∨
        (∃ b rest, s.fifo = .data 0xFF#8 :: .data b :: rest ∧ (b.toNat < 0xD0 ∨ 0xD7 < b.toNat)) →
      step s = .next { s with sched := s.sched.tail, blk := 0, seq := .scan (.dcHuff 0 0) }) ∧
    (s.m ≠ 0 →
      (∀ op a l o rest, s.fifo = .cmd op a l o :: rest ∨ s.fifo = .data 0xFF#8 :: .cmd op a l o :: rest →
        step s = .next (raise .sequence { s with sched := s.sched.tail })) ∧
      (s.fifo = [] ∨ s.fifo = [.data 0xFF#8] → step s = .next { s with sched := s.sched.tail }))

/-- R101, R127: a marker where a bit is needed ends the scan in END_OF_SEGMENT with `p` at the marker's FF, memory as
written and the tables, counters and frame kept; the region then holds any value (R58). How the region is kept is the
model's choice (log 8). -/
def Obligations.MarkerEndsTheSegment : Prop :=
  ∀ (s : State) (x : Byte) (q : ScanPos), s.seq = .scan q →
    exec (.ecsMarker x) s = .next { s with
      seq := .error, errClass := 1, errCause := 0x31, errOp := s.curOp, fifo := [], feMode := .none, feCount := 0,
      feThenStream := false, errEvt := true, indet := region s :: s.indet }

/-- R110: a DC symbol of category `t` with its bits there adds the difference to the predictor and sets `ZZ[0]`; the
AC coefficients are then 0 and `k` is 1 (R111). That one step takes all the extra bits is the model's choice (log 3). -/
def Obligations.DcCategorySetsTheCoefficient : Prop :=
  ∀ (s : State) (t : Byte) (dc : Int), s.pace = .whole → t.toNat ≤ 11 → t.toNat ≤ (codedBits s).length →
    dc = s.pred[(curBlock s).j] + extend (bitsValue ((codedBits s).take t.toNat)) t.toNat → InS16 dc →
    ∃ u, exec (.dcCategory t) s = .next u ∧
      u = { s with
        seq := .scan (.acHuff 0 0), zz := u.zz, pred := s.pred.set (curBlock s).j dc, k := 1, cur := u.cur,
        nbits := u.nbits, fifo := u.fifo, p := u.p } ∧
      u.zz[0] = dc ∧ (∀ k : Fin 64, k ≠ 0 → u.zz[k] = 0) ∧
      codedBits u = (codedBits s).drop t.toNat ∧ u.p + u.fifo.length = s.p + s.fifo.length

/-- R110: a symbol above 11 raises DC_CATEGORY with no bit read, a DC value outside s16 COEF_RANGE; R111: `{1..14,
0}` and sizes above 10 raise AC_BAD_SYMBOL, a run past coefficient 63 and a ZRL past 64 AC_OVERRUN. That one step
takes all the extra bits is the model's choice (log 3). -/
def Obligations.IllegalSymbolsRaise : Prop :=
  ∀ s : State,
    (∀ t : Byte, 11 < t.toNat → exec (.dcCategory t) s = .next (raise .dcCategory s)) ∧
    (∀ t : Byte, s.pace = .whole → t.toNat ≤ 11 → t.toNat ≤ (codedBits s).length →
      ¬ InS16 (s.pred[(curBlock s).j] + extend (bitsValue ((codedBits s).take t.toNat)) t.toNat) →
      ∃ u, exec (.dcCategory t) s = .next (raise .coefRange u) ∧ SameButReader u s) ∧
    (∀ r, exec (.acIllegalR0 r) s = .next (raise .acBadSymbol s)) ∧
    (∀ r sz, 10 < sz.toNat → exec (.acRunSize r sz) s = .next (raise .acBadSymbol s)) ∧
    (∀ r sz, sz.toNat ≤ 10 → 63 < s.k + r.toNat →
      exec (.acRunSize r sz) s = .next (raise .acOverrun { s with k := s.k + r.toNat })) ∧
    (64 < s.k + 16 → exec .acZrl s = .next (raise .acOverrun s))

/-- R90, R110, R111: where the extra bits are not all there and what is there, stuffed pairs and a last FF that
stands alone among it, ends in no marker and no command entry, the symbol takes the bits, waits, and sets no
coefficient and no predictor. R90, R128: when more entries arrive, whatever they are, two turns of the core (the next
byte, then the rest) end where the symbol would have ended had all been there at once. How the wait is kept and how
it is cut into turns is the model's choice (log 3, log 19). -/
def Obligations.SymbolsWaitForTheirBits : Prop :=
  (∀ (s : State) (bytes left : List Byte), s.pace = .whole → s.fifo = dataEntries (stuffed bytes ++ left) →
    left = [] ∨ left = [0xFF#8] →
    (∀ t : Byte, t.toNat ≤ 11 → (codedBits s).length < t.toNat →
      ∃ u, exec (.dcCategory t) s = .next u ∧
        u = { s with
          seq := .scan (.dcBits t.toNat (t.toNat - (codedBits s).length) (bitsValue (codedBits s))), cur := u.cur,
          nbits := 0, fifo := dataEntries left, p := s.p + (stuffed bytes).length }) ∧
    (∀ r sz : BitVec 4, sz.toNat ≤ 10 → s.k + r.toNat ≤ 63 → (codedBits s).length < sz.toNat →
      ∃ u, exec (.acRunSize r sz) s = .next u ∧
        u = { s with
          seq := .scan (.acBits sz.toNat (sz.toNat - (codedBits s).length) (bitsValue (codedBits s))), cur := u.cur,
          nbits := 0, fifo := dataEntries left, p := s.p + (stuffed bytes).length, k := s.k + r.toNat })) ∧
  ∀ (s u : State) (q : ScanPos) (later : List FifoEntry), s.pace = .whole → s.seq = .scan q →
    (∀ t : Byte, exec (.dcCategory t) s = .next u → (∃ n v, u.seq = .scan (.dcBits t.toNat n v)) →
      exec (.dcCategory t) (withLater s later) = .next (coreTurns 2 (withLater u later))) ∧
    (∀ r sz, exec (.acRunSize r sz) s = .next u → (∃ n v, u.seq = .scan (.acBits sz.toNat n v)) →
      exec (.acRunSize r sz) (withLater s later) = .next (coreTurns 2 (withLater u later)))

/-- R111: EOB completes the block's coefficients; ZRL skips sixteen, ending the block at exactly 64. -/
def Obligations.EobAndZrlAdvance : Prop :=
  ∀ s : State,
    exec .acEob s = .next { s with seq := .scan .transform } ∧
    (s.k + 16 < 64 → exec .acZrl s = .next { s with k := s.k + 16, seq := .scan (.acHuff 0 0) }) ∧
    (s.k + 16 = 64 → exec .acZrl s = .next { s with k := 64, seq := .scan .transform })

/-- R111: a run-size symbol with its bits there sets the coefficient after the run and no other; the block ends when
`k` reaches 64. That one step takes all the extra bits is the model's choice (log 3). -/
def Obligations.RunSizeSetsTheCoefficient : Prop :=
  ∀ (s : State) (r sz : BitVec 4), s.pace = .whole → 1 ≤ sz.toNat → sz.toNat ≤ 10 → s.k + r.toNat ≤ 63 →
    sz.toNat ≤ (codedBits s).length →
    ∃ u, exec (.acRunSize r sz) s = .next u ∧
      u = { s with
        seq := if s.k + r.toNat = 63 then .scan .transform else .scan (.acHuff 0 0), zz := u.zz,
        k := s.k + r.toNat + 1, cur := u.cur, nbits := u.nbits, fifo := u.fifo, p := u.p } ∧
      (∀ i : Fin 64, u.zz[i] = if i.val = s.k + r.toNat
        then extend (bitsValue ((codedBits s).take sz.toNat)) sz.toNat else s.zz[i]) ∧
      codedBits u = (codedBits s).drop sz.toNat ∧ u.p + u.fifo.length = s.p + s.fifo.length

/-- Frame of every byte pair and symbol: whatever it does, memory, the tables, the frame, the scan registers, the
samples, OUT_BASE, the interrupt enables and DONE_EVT, the MCU index and MCU_DONE keep their values. That the working
buffers keep their contents between MCUs is the model's choice (log 6). -/
def Obligations.EcsInstructionsKeepTheRest : Prop :=
  ∀ (i : Instr) (s t : State),
    (match i with
      | .ecsStuffed | .ecsRst _ | .ecsMarker _ | .dcCategory _ | .acEob | .acZrl | .acRunSize _ _ | .acIllegalR0 _ => True
      | _ => False) →
    exec i s = .next t →
    t.mem = s.mem ∧ t.qt = s.qt ∧ t.qtValid = s.qtValid ∧ t.htDc = s.htDc ∧ t.htAc = s.htAc ∧
      t.htDcValid = s.htDcValid ∧ t.htAcValid = s.htAcValid ∧ t.frame = s.frame ∧ t.td = s.td ∧ t.ta = s.ta ∧
      t.ob = s.ob ∧ t.b = s.b ∧ t.ws = s.ws ∧ t.samples = s.samples ∧ t.outBase = s.outBase ∧ t.dropped = s.dropped ∧
      t.doneEvt = s.doneEvt ∧ t.doneIe = s.doneIe ∧ t.errIe = s.errIe ∧ t.curOp = s.curOp ∧ t.m = s.m ∧
      t.mcuDone = s.mcuDone ∧ t.platform = s.platform ∧ t.hostOps = s.hostOps ∧ t.reads = s.reads

/-- Frame of every command: whatever it does, on any payload, memory, OUT_BASE, the interrupt enables, DONE_EVT,
DROPPED and the working buffers keep their values, and CUR_OP is the command's opcode; a store or a register group
that only one command writes keeps its value under the others (R33 to R36). OB, the predictors, the bit reader and
the counters keep theirs under START_SCAN too, unless the scan starts. That the working buffers, unspecified outside
an MCU, keep theirs is the model's choice (log 6). -/
def Obligations.CommandsKeepTheRest : Prop :=
  ∀ (i : Instr) (s t : State) (w : Word), encode i = .command w → exec i s = .next t →
    t.curOp = opcodeOf i ∧ t.mem = s.mem ∧ t.outBase = s.outBase ∧ t.dropped = s.dropped ∧ t.doneEvt = s.doneEvt ∧
      t.doneIe = s.doneIe ∧ t.errIe = s.errIe ∧ t.zz = s.zz ∧ t.b = s.b ∧ t.ws = s.ws ∧ t.samples = s.samples ∧
      t.k = s.k ∧ t.blk = s.blk ∧ t.platform = s.platform ∧ t.hostOps = s.hostOps ∧ t.reads = s.reads ∧
      (opcodeOf i ≠ 0x01#8 → t.qt = s.qt ∧ t.qtValid = s.qtValid) ∧
      (opcodeOf i ≠ 0x02#8 → t.htDc = s.htDc ∧ t.htAc = s.htAc ∧ t.htDcValid = s.htDcValid ∧ t.htAcValid = s.htAcValid) ∧
      (opcodeOf i ≠ 0x03#8 → t.frame = s.frame) ∧
      (opcodeOf i ≠ 0x04#8 → t.td = s.td ∧ t.ta = s.ta) ∧
      ((opcodeOf i ≠ 0x04#8 ∨ ∀ q, t.seq ≠ .scan q) →
        t.ob = s.ob ∧ t.pred = s.pred ∧ t.cur = s.cur ∧ t.nbits = s.nbits ∧ t.p = s.p ∧ t.m = s.m ∧ t.rst = s.rst ∧
          t.mcuDone = s.mcuDone)

/-! ## Blocks, transform, colour, pixels -/

/-- R107: the blocks of an MCU in coding order: component by component, row by row, the horizontal index fastest.
R108: the block a scan works on is the one of its block counter. -/
def Obligations.BlocksComeInCodingOrder : Prop :=
  (∀ f : Frame, f.sound →
    (mcuBlocks f).length = blocksPerMcu f ∧
    ∀ (j : Fin 3) (h v : Nat), j.val < f.nf.toNat → h < (f.comps[j]).h.toNat → v < (f.comps[j]).v.toNat →
      (mcuBlocks f)[(((frameComps f).take j.val).map (fun c => c.h.toNat * c.v.toNat)).sum +
        v * (f.comps[j]).h.toNat + h]? = some ⟨j, h, v⟩) ∧
  ∀ s : State, s.blk < (mcuBlocks s.frame).length → (mcuBlocks s.frame)[s.blk]? = some (curBlock s)

/-- R78, R112: the zigzag table is the anti-diagonal walk of the block, each coefficient is multiplied by the table
entry of its own zigzag position and put at its natural index, and every product fits s24. -/
def Obligations.DequantMultipliesAndDezigzags : Prop :=
  zigzag.toList.map (fun n => n.val) = antidiagonalWalk ∧
  ∀ (zz : Vector Int 64) (q : Vector Byte 64) (k : Fin 64),
    (dequant zz q)[zigzag[k]] = zz[k] * (q[k].toNat : Int) ∧
    (InS16 zz[k] → -(32768 * 255) ≤ (dequant zz q)[zigzag[k]] ∧ (dequant zz q)[zigzag[k]] ≤ 32768 * 255)

/-- R115, R116: each output of `idct8` is the descaled sum of its even and odd part, in R115's constants. R117: pass
1 transforms the columns of the block, pass 2 the rows of what it leaves, shifts the level and clamps. R117 and
property S5: a block with only a DC coefficient is uniform, at `clamp(floor((d + 4) / 8) + 128, 0, 255)`. -/
def Obligations.IdctOfDcOnlyIsUniform : Prop :=
  (∀ (d : Fin 8 → Int) (n : Nat) (i : Fin 4),
    (idct8 d n)[i.val]? = some ((idct8Even d i + idct8Odd d i + 2 ^ (n - 1)) / 2 ^ n) ∧
    (idct8 d n)[7 - i.val]? = some ((idct8Even d i - idct8Odd d i + 2 ^ (n - 1)) / 2 ^ n)) ∧
  (∀ (b : Vector Int 64) (x y : Fin 8),
    (idctColumns b)[8 * y.val + x.val] = (idct8 (fun r => b[8 * r.val + x.val]) 11)[y] ∧
    ((idct b)[8 * y.val + x.val].toNat : Int) =
      clamp ((idct8 (fun c => (idctColumns b)[8 * y.val + c.val]) 18)[x] + 128) 0 255) ∧
  ∀ (b : Vector Int 64) (d : Int), b[0] = d → (∀ n : Fin 64, n ≠ 0 → b[n] = 0) →
    ∀ n : Fin 64, ((idct b)[n].toNat : Int) = clamp ((d + 4) / 8 + 128) 0 255

/-- R118: with `|B[n]| <= 32768 * 255`, "every intermediate value of pass 1 is below `2^40.5` in magnitude" (its
square below 2^81), "every `WS` value below `2^29.5`" and within ID5's bound, "and every intermediate of pass 2 below
`2^46.9`" (its tenth power below 2^469), those after DESCALE's rounding among them; so all fit 48 bits. -/
def Obligations.IdctFitsFortyEightBits : Prop :=
  ∀ b : Vector Int 64, (∀ n : Fin 64, -(32768 * 255) ≤ b[n] ∧ b[n] ≤ 32768 * 255) →
    (∀ c : Fin 8, (∀ v ∈ idct8Intermediates (idct8Values (column b c)), v ^ 2 < 2 ^ 81) ∧
      ∀ v ∈ descaled (idct8Values (column b c)), (v + 2 ^ 10) ^ 2 < 2 ^ 81) ∧
    (∀ n : Fin 64, (idctColumns b)[n] ^ 2 < 2 ^ 59 ∧ -727133521 ≤ (idctColumns b)[n] ∧ (idctColumns b)[n] ≤ 727133521) ∧
    (∀ r : Fin 8,
      (∀ v ∈ idct8Intermediates (idct8Values (row (idctColumns b) r)), v ^ 10 < 2 ^ 469 ∧ -(2 ^ 47) ≤ v ∧ v < 2 ^ 47) ∧
      ∀ v ∈ descaled (idct8Values (row (idctColumns b) r)), (v + 2 ^ 17) ^ 10 < 2 ^ 469) ∧
    ∀ (d : Fin 8 → Int) (n : Nat) (i : Fin 8),
      (descaled (idct8Values d))[i.val]?.map (fun x => descale x n) = some (idct8 d n)[i]

/-- R120: a pixel uses the sample at its position divided by the replication factors, which in a loaded frame are
exact and lead into the component's own plane. R122, R123: a pixel of one component is grey; R121: one of three is
converted from its three samples, by the equations of its channels; neutral chroma gives grey (95_test_vectors.md,
family CC). -/
def Obligations.UpsamplingAndColourFollowTheEquations : Prop :=
  (∀ (s : State) (j : Fin 3) (px py : Nat), s.frame.sound → j.val < s.frame.nf.toNat → px < 8 * s.frame.hmax.toNat →
     py < 8 * s.frame.vmax.toNat →
     ∃ fh fv x y : Nat,
       fh * (s.frame.comps[j]).h.toNat = s.frame.hmax.toNat ∧ fv * (s.frame.comps[j]).v.toNat = s.frame.vmax.toNat ∧
       fh * x ≤ px ∧ px < fh * (x + 1) ∧ fv * y ≤ py ∧ py < fv * (y + 1) ∧
       x < 8 * (s.frame.comps[j]).h.toNat ∧ y < 8 * (s.frame.comps[j]).v.toNat ∧ upsample s j px py = sampleAt s j x y) ∧
  (∀ (s : State) (px py : Nat), s.frame.sound →
     (s.frame.nf = 1#2 → pixelAt s px py = ⟨sampleAt s 0 px py, sampleAt s 0 px py, sampleAt s 0 px py⟩) ∧
     (s.frame.nf = 3#2 →
       pixelAt s px py = ycbcrToRgb (upsample s 0 px py) (upsample s 1 px py) (upsample s 2 px py))) ∧
  ∀ y cb cr : Byte,
    ((ycbcrToRgb y cb cr).r.toNat : Int) =
      clamp ((y.toNat : Int) + (91881 * ((cr.toNat : Int) - 128) + 32768) / 2 ^ 16) 0 255 ∧
    ((ycbcrToRgb y cb cr).g.toNat : Int) =
      clamp ((y.toNat : Int) +
        (-22554 * ((cb.toNat : Int) - 128) - 46802 * ((cr.toNat : Int) - 128) + 32768) / 2 ^ 16) 0 255 ∧
    ((ycbcrToRgb y cb cr).b.toNat : Int) =
      clamp ((y.toNat : Int) + (116130 * ((cb.toNat : Int) - 128) + 32768) / 2 ^ 16) 0 255 ∧
    (cb = 128#8 → cr = 128#8 → ycbcrToRgb y cb cr = ⟨y, y, y⟩)

/-- R108, R112, R117: a finished block is dequantized, transformed and stored as samples of its own block; every
other sample keeps its value, and nothing but the buffers and the position changes. That one step transforms the
block is the model's choice (log 3). -/
def Obligations.TransformStoresTheBlock : Prop :=
  ∀ (s : State) (j : Fin 3) (h v : Nat), s.seq = .scan .transform → nextTurn s = .core → curBlock s = ⟨j, h, v⟩ →
    h < 4 → v < 4 →
    ∃ t, step s = .next t ∧
      t = { s with
        sched := s.sched.tail, seq := t.seq, b := dequant s.zz (s.qt[(s.frame.comps[j]).tq]), ws := t.ws,
        samples := t.samples, blk := s.blk + 1 } ∧
      (∀ x y : Fin 8, sampleAt t j (8 * h + x.val) (8 * v + y.val) =
        (idct (dequant s.zz (s.qt[(s.frame.comps[j]).tq])))[8 * y.val + x.val]) ∧
      (∀ (j' : Fin 3) (x y : Nat), x < 32 → y < 32 → (j', x / 8, y / 8) ≠ (j, h, v) →
        sampleAt t j' x y = sampleAt s j' x y) ∧
      t.seq = (if s.blk + 1 < (mcuBlocks s.frame).length then .scan (.dcHuff 0 0) else .scan (.commit 0 0))

/-- R44: in a scan the address of channel `c` of image pixel `(x, y)` is `OB + 3*(y*X + x) + c`. R106, R124: the
commit of MCU `m` goes through its pixels row by row, MCU-relative pixel `(px, py)` standing for image pixel
`(8*Hmax*(m mod MCUX) + px, 8*Vmax*(m div MCUX) + py)`. R123, R124, R44, R48: a step of the commit writes the byte of
channel 0, 1 or 2 (R, G or B) of a pixel inside the image at its address and no other byte, and goes on at the next
channel, after the last at the next pixel, after that of the MCU at its end; it skips a pixel outside the image; an
error response performs no write and raises BUS_ERROR (R49). That a step is one byte, and its response at once, are
the model's choice (log 3, log 10). -/
def Obligations.CommitWritesThePixelByte : Prop :=
  (∀ (s : State) (q : ScanPos) (x y : Nat) (c : Fin 3), s.seq = .scan q → ScanInBounds s → x < s.frame.x.toNat →
    y < s.frame.y.toNat → pixelAddr s x y c = s.ob.toNat + 3 * (y * s.frame.x.toNat + x) + c.val) ∧
  ∀ (s : State) (px py : Nat), px < 8 * s.frame.hmax.toNat →
    let i := py * (8 * s.frame.hmax.toNat) + px
    let x := 8 * s.frame.hmax.toNat * (s.m % s.frame.mcux) + px
    let y := 8 * s.frame.vmax.toNat * (s.m / s.frame.mcux) + py
    let after : ScanPos := if i + 1 < 64 * s.frame.hmax.toNat * s.frame.vmax.toNat then .commit (i + 1) 0 else .mcuEnd
    (pixelPx s i = px ∧ pixelPy s i = py ∧ pixelX s i = x ∧ pixelY s i = y ∧
      mcuPixels s = 64 * s.frame.hmax.toNat * s.frame.vmax.toNat) ∧
    ∀ c : Fin 3, s.seq = .scan (.commit i c) → nextTurn s = .core →
      (x < s.frame.x.toNat → y < s.frame.y.toNat → busErr s (pixelAddr s x y c) = false →
        ∃ t, step s = .next t ∧
          t = { s with
            sched := s.sched.tail, mem := t.mem,
            seq := .scan (if c = 0 then .commit i 1 else if c = 1 then .commit i 2 else after) } ∧
          Memory.read t.mem (pixelAddr s x y c) = some (if c = 0 then (pixelAt s px py).r
            else if c = 1 then (pixelAt s px py).g else (pixelAt s px py).b) ∧
          ∀ a', a' ≠ pixelAddr s x y c → Memory.read t.mem a' = Memory.read s.mem a') ∧
      (x < s.frame.x.toNat → y < s.frame.y.toNat → busErr s (pixelAddr s x y c) = true →
        step s = .next (raise .busError { s with sched := s.sched.tail })) ∧
      (s.frame.x.toNat ≤ x ∨ s.frame.y.toNat ≤ y →
        step s = .next { s with sched := s.sched.tail, seq := .scan after })

/-- R106, R124: "Each pixel of the image is written exactly once": one pixel of one MCU stands for it. -/
def Obligations.EachImagePixelIsCoveredOnce : Prop :=
  ∀ (s : State) (x y : Nat), s.frame.sound → x < s.frame.x.toNat → y < s.frame.y.toNat →
    ∃! mi : Nat × Nat, CoversPixel s mi.1 mi.2 x y

/-- R44, R50: no step of the core in a scan writes a byte outside the output region, and outside a scan it writes
none. The turns are the model's choice (log 1). -/
def Obligations.CoreWritesOnlyTheRegion : Prop :=
  ∀ (s t : State) (a : Nat), ScanInBounds s → nextTurn s = .core → step s = .next t →
    Memory.read t.mem a ≠ Memory.read s.mem a → (∃ q, s.seq = .scan q) ∧ (region s).lo ≤ a ∧ a < (region s).hi

/-- R113: at the end of the last MCU the scan completes: STATUS shows DONE, the FIFO is flushed, DONE_EVT is set, `p`
is kept; before it the next MCU follows. That the end of an MCU is one step, and counted before the next begins, how
any-value bytes are kept, and that the working buffers keep their contents, are the model's choice (log 3, log 6, log
8, log 24). -/
def Obligations.LastMcuCompletesTheScan : Prop :=
  ∀ s : State, s.seq = .scan .mcuEnd → nextTurn s = .core →
    (s.m + 1 < s.frame.mcuTotal → step s = .next { s with
      sched := s.sched.tail, mcuDone := s.mcuDone + 1, m := s.m + 1, seq := .scan .mcuStart }) ∧
    (s.frame.mcuTotal ≤ s.m + 1 →
      ∃ t, step s = .next t ∧ t = { s with
        sched := s.sched.tail, mcuDone := s.mcuDone + 1, nbits := 0, fifo := [], feMode := .none, feCount := 0,
        feThenStream := false, doneEvt := true, seq := .done, indet := t.indet, clobbered := [] } ∧
      ∀ a, inSpans t.indet a = true ↔
        inSpans s.clobbered a = true ∨ (inSpans s.indet a = true ∧ ¬ ((region s).lo ≤ a ∧ a < (region s).hi)))

/-! ## The whole machine -/

/-- The state after reset meets every invariant. Where the spec gives no reset value, the model's own meets them (log
5, log 6, log 19). -/
def Obligations.ResetStateMeetsTheInvariants : Prop :=
  MemoryCanonical State.reset ∧ FifoBounded State.reset ∧ CoefficientsInRange State.reset ∧
    ErrorLatchAgrees State.reset ∧ TerminalFlushed State.reset ∧ FrontEndCounts State.reset ∧
    BitReaderBounded State.reset ∧ QuantTablesNonzero State.reset ∧ HuffTablesSound State.reset ∧ FrameSound State.reset ∧
    ScanInBounds State.reset

/-- R31, R32, R37, R84, R85, R88: every step keeps the FIFO's bound, `fe_mode` and `fe_count` in agreement, and
`nbits` at most 8. It keeps the memory's canonical form too, which is the model's own representation (log 7), with
the 32-bit addresses of R40. -/
def Obligations.EveryStepKeepsMemoryFrontEndAndReader : Prop :=
  ∀ s t : State, step s = .next t →
    (MemoryCanonical s → MemoryCanonical t) ∧ (FifoBounded s → FifoBounded t) ∧
      (FrontEndCounts s → FrontEndCounts t) ∧ (BitReaderBounded s → BitReaderBounded t)

/-- R110, R111: every step keeps PRED and ZZ in their widths. What ZZ holds after a reset and between MCUs is the
model's choice (log 6). -/
def Obligations.EveryStepKeepsCoefficientsInRange : Prop :=
  ∀ s t : State, CoefficientsInRange s → step s = .next t → CoefficientsInRange t

/-- R18, R87, R113, R127, R129: every step keeps ERR in agreement with `seq`, and the FIFO and front end empty in
DONE and ERROR. -/
def Obligations.EveryStepKeepsTheErrorLatch : Prop :=
  ∀ s t : State, ErrorLatchAgrees s → TerminalFlushed s → step s = .next t → ErrorLatchAgrees t ∧ TerminalFlushed t

/-- R33, R34, R95, R96: every step keeps the loaded tables sound: no zero coefficient, no overfull code. -/
def Obligations.EveryStepKeepsLoadedTablesSound : Prop :=
  ∀ s t : State, QuantTablesNonzero s → HuffTablesSound s → step s = .next t →
    QuantTablesNonzero t ∧ HuffTablesSound t

/-- R35, R97, R106: every step keeps a valid frame's geometry, within R106's bound of 2^26 MCUs. -/
def Obligations.EveryStepKeepsTheFrameSound : Prop :=
  ∀ s t : State, FrameSound s → step s = .next t →
    FrameSound t ∧ (t.frame.valid = true → 1 ≤ t.frame.mcuTotal ∧ t.frame.mcuTotal ≤ 2 ^ 26)

/-- R11: every step keeps the scan position in its bounds. That MCU_DONE equals `m` throughout is the model's choice
(log 24). -/
def Obligations.EveryStepKeepsTheScanInBounds : Prop :=
  ∀ s t : State, FrameSound s → ScanInBounds s → step s = .next t → ScanInBounds t

/-- R83, R87, R129, R130: DONE and ERROR are left only by a reset: any other step keeps all of the core's state but
OUT_BASE, the interrupt enables and the event bits, which the host may write there, and changes no byte of memory but
one the host writes; the core does nothing. The turns are the model's choice (log 1). -/
def Obligations.DoneAndErrorAreLeftOnlyByReset : Prop :=
  ∀ s t : State, s.seq = .done ∨ s.seq = .error → step s = .next t →
    (t = { s with
        outBase := t.outBase, doneIe := t.doneIe, errIe := t.errIe, doneEvt := t.doneEvt, errEvt := t.errEvt, mem := t.mem,
        indet := t.indet, hostOps := t.hostOps, stalled := t.stalled, reads := t.reads, sched := s.sched.tail,
        freeCount := t.freeCount } ∧
      (t.doneEvt = true → s.doneEvt = true) ∧ (t.errEvt = true → s.errEvt = true) ∧
      (∀ a, Memory.read t.mem a ≠ Memory.read s.mem a →
        nextTurn s = .host ∧ ∃ v rest, s.hostOps = .memWrite (BitVec.ofNat 32 a) v :: rest) ∧
      (nextTurn s = .core → t = { s with sched := s.sched.tail })) ∨
    nextTurn s = .hwReset ∨
    (nextTurn s = .host ∧ ∃ addr v rest, s.hostOps = .regWrite 4 addr v :: rest ∧
      (addr - s.platform.regBase).toNat = 4 ∧ v.getLsbD 0 = true)

/-- R90, R136: a core that waits changes nothing. R91, R108: one that does not, moves on; with a DATA entry at the
head in IDLE it sets CUR_OP to 0 and raises SEQUENCE (R91 step 1). That it never waits for the response of a pixel
write, which R108 allows, is the model's choice (log 10). -/
def Obligations.CoreWaitsOrMovesOn : Prop :=
  ∀ s : State,
    (coreReady s = false → coreTurn s = .next s) ∧
    (coreReady s = true → ∃ t, coreTurn s = .next t ∧ t ≠ s) ∧
    ∀ b rest, s.seq = .idle → s.fifo = .data b :: rest →
      coreTurn s = .next (raise .sequence { s with curOp := 0#8 }) ∧
      ErrorIs (raise .sequence { s with curOp := 0#8 }) .sequence 0x00

/-- Nothing the core does writes OUT_BASE (R21), the enables (R29) or DROPPED (R16, R86), clears an event (R28, R83,
R131), appends to the FIFO (R54) or opens the front end; and a turn of the host, but by a reset, changes nothing of
`seq`, the tables (R33, R34), the frame and scan registers (R35, R36), the entropy decoder, the working buffers and
the error latch, only appends to the FIFO, and sets no event: they share no mutable state (R61). The turns are the
model's choice (log 1). -/
def Obligations.CoreAndHostKeepToTheirOwn : Prop :=
  ∀ s t : State, step s = .next t →
    (nextTurn s = .core →
      t.outBase = s.outBase ∧ t.doneIe = s.doneIe ∧ t.errIe = s.errIe ∧ t.dropped = s.dropped ∧
        (s.doneEvt = true → t.doneEvt = true) ∧ (s.errEvt = true → t.errEvt = true) ∧ t.fifo <:+ s.fifo ∧
        t.hostOps = s.hostOps ∧ t.reads = s.reads ∧ t.stalled = s.stalled ∧ t.freeCount = s.freeCount ∧
        t.platform = s.platform ∧ t.pace = s.pace ∧
        ((t.feMode = s.feMode ∧ t.feCount = s.feCount ∧ t.feThenStream = s.feThenStream) ∨
          (t.feMode = .none ∧ t.feCount = 0#16 ∧ t.feThenStream = false))) ∧
    (nextTurn s = .host →
      (t = { s with
          fifo := t.fifo, feMode := t.feMode, feCount := t.feCount, feThenStream := t.feThenStream, dropped := t.dropped,
          outBase := t.outBase, doneIe := t.doneIe, errIe := t.errIe, doneEvt := t.doneEvt, errEvt := t.errEvt,
          mem := t.mem, indet := t.indet, clobbered := t.clobbered, hostOps := t.hostOps, stalled := t.stalled,
          reads := t.reads, sched := s.sched.tail, freeCount := t.freeCount } ∧
        s.fifo <+: t.fifo ∧ (t.doneEvt = true → s.doneEvt = true) ∧ (t.errEvt = true → s.errEvt = true)) ∨
      ∃ addr v rest, s.hostOps = .regWrite 4 addr v :: rest ∧ (addr - s.platform.regBase).toNat = 4 ∧
        v.getLsbD 0 = true)
end

