-- ==== Sys2Proof/Laws/State.lean ====
section
/-! SUPPORT. Every field after every record update of the machine: one lemma a field, each true by rfl. -/

namespace Sys2Proof.Machine

section
variable (s : State)

@[simp] theorem afterTurn_seq : (afterTurn s).seq = s.seq := rfl
@[simp] theorem afterTurn_fifo : (afterTurn s).fifo = s.fifo := rfl
@[simp] theorem afterTurn_feMode : (afterTurn s).feMode = s.feMode := rfl
@[simp] theorem afterTurn_feCount : (afterTurn s).feCount = s.feCount := rfl
@[simp] theorem afterTurn_feThenStream : (afterTurn s).feThenStream = s.feThenStream := rfl
@[simp] theorem afterTurn_qt : (afterTurn s).qt = s.qt := rfl
@[simp] theorem afterTurn_qtValid : (afterTurn s).qtValid = s.qtValid := rfl
@[simp] theorem afterTurn_htDc : (afterTurn s).htDc = s.htDc := rfl
@[simp] theorem afterTurn_htAc : (afterTurn s).htAc = s.htAc := rfl
@[simp] theorem afterTurn_htDcValid : (afterTurn s).htDcValid = s.htDcValid := rfl
@[simp] theorem afterTurn_htAcValid : (afterTurn s).htAcValid = s.htAcValid := rfl
@[simp] theorem afterTurn_frame : (afterTurn s).frame = s.frame := rfl
@[simp] theorem afterTurn_td : (afterTurn s).td = s.td := rfl
@[simp] theorem afterTurn_ta : (afterTurn s).ta = s.ta := rfl
@[simp] theorem afterTurn_ob : (afterTurn s).ob = s.ob := rfl
@[simp] theorem afterTurn_cur : (afterTurn s).cur = s.cur := rfl
@[simp] theorem afterTurn_nbits : (afterTurn s).nbits = s.nbits := rfl
@[simp] theorem afterTurn_p : (afterTurn s).p = s.p := rfl
@[simp] theorem afterTurn_pred : (afterTurn s).pred = s.pred := rfl
@[simp] theorem afterTurn_m : (afterTurn s).m = s.m := rfl
@[simp] theorem afterTurn_blk : (afterTurn s).blk = s.blk := rfl
@[simp] theorem afterTurn_k : (afterTurn s).k = s.k := rfl
@[simp] theorem afterTurn_rst : (afterTurn s).rst = s.rst := rfl
@[simp] theorem afterTurn_mcuDone : (afterTurn s).mcuDone = s.mcuDone := rfl
@[simp] theorem afterTurn_zz : (afterTurn s).zz = s.zz := rfl
@[simp] theorem afterTurn_b : (afterTurn s).b = s.b := rfl
@[simp] theorem afterTurn_ws : (afterTurn s).ws = s.ws := rfl
@[simp] theorem afterTurn_samples : (afterTurn s).samples = s.samples := rfl
@[simp] theorem afterTurn_dropped : (afterTurn s).dropped = s.dropped := rfl
@[simp] theorem afterTurn_doneEvt : (afterTurn s).doneEvt = s.doneEvt := rfl
@[simp] theorem afterTurn_errEvt : (afterTurn s).errEvt = s.errEvt := rfl
@[simp] theorem afterTurn_doneIe : (afterTurn s).doneIe = s.doneIe := rfl
@[simp] theorem afterTurn_errIe : (afterTurn s).errIe = s.errIe := rfl
@[simp] theorem afterTurn_outBase : (afterTurn s).outBase = s.outBase := rfl
@[simp] theorem afterTurn_errClass : (afterTurn s).errClass = s.errClass := rfl
@[simp] theorem afterTurn_errCause : (afterTurn s).errCause = s.errCause := rfl
@[simp] theorem afterTurn_errOp : (afterTurn s).errOp = s.errOp := rfl
@[simp] theorem afterTurn_curOp : (afterTurn s).curOp = s.curOp := rfl
@[simp] theorem afterTurn_mem : (afterTurn s).mem = s.mem := rfl
@[simp] theorem afterTurn_indet : (afterTurn s).indet = s.indet := rfl
@[simp] theorem afterTurn_clobbered : (afterTurn s).clobbered = s.clobbered := rfl
@[simp] theorem afterTurn_platform : (afterTurn s).platform = s.platform := rfl
@[simp] theorem afterTurn_hostOps : (afterTurn s).hostOps = s.hostOps := rfl
@[simp] theorem afterTurn_stalled : (afterTurn s).stalled = s.stalled := rfl
@[simp] theorem afterTurn_reads : (afterTurn s).reads = s.reads := rfl
@[simp] theorem afterTurn_sched : (afterTurn s).sched = s.sched.tail := rfl
@[simp] theorem afterTurn_pace : (afterTurn s).pace = s.pace := rfl
@[simp] theorem afterTurn_freeCount : (afterTurn s).freeCount = s.freeCount := rfl

@[simp] theorem hostDone_seq : (hostDone s).seq = s.seq := rfl
@[simp] theorem hostDone_fifo : (hostDone s).fifo = s.fifo := rfl
@[simp] theorem hostDone_feMode : (hostDone s).feMode = s.feMode := rfl
@[simp] theorem hostDone_feCount : (hostDone s).feCount = s.feCount := rfl
@[simp] theorem hostDone_feThenStream : (hostDone s).feThenStream = s.feThenStream := rfl
@[simp] theorem hostDone_qt : (hostDone s).qt = s.qt := rfl
@[simp] theorem hostDone_qtValid : (hostDone s).qtValid = s.qtValid := rfl
@[simp] theorem hostDone_htDc : (hostDone s).htDc = s.htDc := rfl
@[simp] theorem hostDone_htAc : (hostDone s).htAc = s.htAc := rfl
@[simp] theorem hostDone_htDcValid : (hostDone s).htDcValid = s.htDcValid := rfl
@[simp] theorem hostDone_htAcValid : (hostDone s).htAcValid = s.htAcValid := rfl
@[simp] theorem hostDone_frame : (hostDone s).frame = s.frame := rfl
@[simp] theorem hostDone_td : (hostDone s).td = s.td := rfl
@[simp] theorem hostDone_ta : (hostDone s).ta = s.ta := rfl
@[simp] theorem hostDone_ob : (hostDone s).ob = s.ob := rfl
@[simp] theorem hostDone_cur : (hostDone s).cur = s.cur := rfl
@[simp] theorem hostDone_nbits : (hostDone s).nbits = s.nbits := rfl
@[simp] theorem hostDone_p : (hostDone s).p = s.p := rfl
@[simp] theorem hostDone_pred : (hostDone s).pred = s.pred := rfl
@[simp] theorem hostDone_m : (hostDone s).m = s.m := rfl
@[simp] theorem hostDone_blk : (hostDone s).blk = s.blk := rfl
@[simp] theorem hostDone_k : (hostDone s).k = s.k := rfl
@[simp] theorem hostDone_rst : (hostDone s).rst = s.rst := rfl
@[simp] theorem hostDone_mcuDone : (hostDone s).mcuDone = s.mcuDone := rfl
@[simp] theorem hostDone_zz : (hostDone s).zz = s.zz := rfl
@[simp] theorem hostDone_b : (hostDone s).b = s.b := rfl
@[simp] theorem hostDone_ws : (hostDone s).ws = s.ws := rfl
@[simp] theorem hostDone_samples : (hostDone s).samples = s.samples := rfl
@[simp] theorem hostDone_dropped : (hostDone s).dropped = s.dropped := rfl
@[simp] theorem hostDone_doneEvt : (hostDone s).doneEvt = s.doneEvt := rfl
@[simp] theorem hostDone_errEvt : (hostDone s).errEvt = s.errEvt := rfl
@[simp] theorem hostDone_doneIe : (hostDone s).doneIe = s.doneIe := rfl
@[simp] theorem hostDone_errIe : (hostDone s).errIe = s.errIe := rfl
@[simp] theorem hostDone_outBase : (hostDone s).outBase = s.outBase := rfl
@[simp] theorem hostDone_errClass : (hostDone s).errClass = s.errClass := rfl
@[simp] theorem hostDone_errCause : (hostDone s).errCause = s.errCause := rfl
@[simp] theorem hostDone_errOp : (hostDone s).errOp = s.errOp := rfl
@[simp] theorem hostDone_curOp : (hostDone s).curOp = s.curOp := rfl
@[simp] theorem hostDone_mem : (hostDone s).mem = s.mem := rfl
@[simp] theorem hostDone_indet : (hostDone s).indet = s.indet := rfl
@[simp] theorem hostDone_clobbered : (hostDone s).clobbered = s.clobbered := rfl
@[simp] theorem hostDone_platform : (hostDone s).platform = s.platform := rfl
@[simp] theorem hostDone_hostOps : (hostDone s).hostOps = s.hostOps.tail := rfl
@[simp] theorem hostDone_stalled : (hostDone s).stalled = false := rfl
@[simp] theorem hostDone_reads : (hostDone s).reads = s.reads := rfl
@[simp] theorem hostDone_sched : (hostDone s).sched = s.sched := rfl
@[simp] theorem hostDone_pace : (hostDone s).pace = s.pace := rfl
@[simp] theorem hostDone_freeCount : (hostDone s).freeCount = s.freeCount := rfl

@[simp] theorem loadAt_seq (l : LoadPos) : (loadAt l s).seq = .payload l := rfl
@[simp] theorem loadAt_fifo (l : LoadPos) : (loadAt l s).fifo = s.fifo := rfl
@[simp] theorem loadAt_feMode (l : LoadPos) : (loadAt l s).feMode = s.feMode := rfl
@[simp] theorem loadAt_feCount (l : LoadPos) : (loadAt l s).feCount = s.feCount := rfl
@[simp] theorem loadAt_feThenStream (l : LoadPos) : (loadAt l s).feThenStream = s.feThenStream := rfl
@[simp] theorem loadAt_qt (l : LoadPos) : (loadAt l s).qt = s.qt := rfl
@[simp] theorem loadAt_qtValid (l : LoadPos) : (loadAt l s).qtValid = s.qtValid := rfl
@[simp] theorem loadAt_htDc (l : LoadPos) : (loadAt l s).htDc = s.htDc := rfl
@[simp] theorem loadAt_htAc (l : LoadPos) : (loadAt l s).htAc = s.htAc := rfl
@[simp] theorem loadAt_htDcValid (l : LoadPos) : (loadAt l s).htDcValid = s.htDcValid := rfl
@[simp] theorem loadAt_htAcValid (l : LoadPos) : (loadAt l s).htAcValid = s.htAcValid := rfl
@[simp] theorem loadAt_frame (l : LoadPos) : (loadAt l s).frame = s.frame := rfl
@[simp] theorem loadAt_td (l : LoadPos) : (loadAt l s).td = s.td := rfl
@[simp] theorem loadAt_ta (l : LoadPos) : (loadAt l s).ta = s.ta := rfl
@[simp] theorem loadAt_ob (l : LoadPos) : (loadAt l s).ob = s.ob := rfl
@[simp] theorem loadAt_cur (l : LoadPos) : (loadAt l s).cur = s.cur := rfl
@[simp] theorem loadAt_nbits (l : LoadPos) : (loadAt l s).nbits = s.nbits := rfl
@[simp] theorem loadAt_p (l : LoadPos) : (loadAt l s).p = s.p := rfl
@[simp] theorem loadAt_pred (l : LoadPos) : (loadAt l s).pred = s.pred := rfl
@[simp] theorem loadAt_m (l : LoadPos) : (loadAt l s).m = s.m := rfl
@[simp] theorem loadAt_blk (l : LoadPos) : (loadAt l s).blk = s.blk := rfl
@[simp] theorem loadAt_k (l : LoadPos) : (loadAt l s).k = s.k := rfl
@[simp] theorem loadAt_rst (l : LoadPos) : (loadAt l s).rst = s.rst := rfl
@[simp] theorem loadAt_mcuDone (l : LoadPos) : (loadAt l s).mcuDone = s.mcuDone := rfl
@[simp] theorem loadAt_zz (l : LoadPos) : (loadAt l s).zz = s.zz := rfl
@[simp] theorem loadAt_b (l : LoadPos) : (loadAt l s).b = s.b := rfl
@[simp] theorem loadAt_ws (l : LoadPos) : (loadAt l s).ws = s.ws := rfl
@[simp] theorem loadAt_samples (l : LoadPos) : (loadAt l s).samples = s.samples := rfl
@[simp] theorem loadAt_dropped (l : LoadPos) : (loadAt l s).dropped = s.dropped := rfl
@[simp] theorem loadAt_doneEvt (l : LoadPos) : (loadAt l s).doneEvt = s.doneEvt := rfl
@[simp] theorem loadAt_errEvt (l : LoadPos) : (loadAt l s).errEvt = s.errEvt := rfl
@[simp] theorem loadAt_doneIe (l : LoadPos) : (loadAt l s).doneIe = s.doneIe := rfl
@[simp] theorem loadAt_errIe (l : LoadPos) : (loadAt l s).errIe = s.errIe := rfl
@[simp] theorem loadAt_outBase (l : LoadPos) : (loadAt l s).outBase = s.outBase := rfl
@[simp] theorem loadAt_errClass (l : LoadPos) : (loadAt l s).errClass = s.errClass := rfl
@[simp] theorem loadAt_errCause (l : LoadPos) : (loadAt l s).errCause = s.errCause := rfl
@[simp] theorem loadAt_errOp (l : LoadPos) : (loadAt l s).errOp = s.errOp := rfl
@[simp] theorem loadAt_curOp (l : LoadPos) : (loadAt l s).curOp = s.curOp := rfl
@[simp] theorem loadAt_mem (l : LoadPos) : (loadAt l s).mem = s.mem := rfl
@[simp] theorem loadAt_indet (l : LoadPos) : (loadAt l s).indet = s.indet := rfl
@[simp] theorem loadAt_clobbered (l : LoadPos) : (loadAt l s).clobbered = s.clobbered := rfl
@[simp] theorem loadAt_platform (l : LoadPos) : (loadAt l s).platform = s.platform := rfl
@[simp] theorem loadAt_hostOps (l : LoadPos) : (loadAt l s).hostOps = s.hostOps := rfl
@[simp] theorem loadAt_stalled (l : LoadPos) : (loadAt l s).stalled = s.stalled := rfl
@[simp] theorem loadAt_reads (l : LoadPos) : (loadAt l s).reads = s.reads := rfl
@[simp] theorem loadAt_sched (l : LoadPos) : (loadAt l s).sched = s.sched := rfl
@[simp] theorem loadAt_pace (l : LoadPos) : (loadAt l s).pace = s.pace := rfl
@[simp] theorem loadAt_freeCount (l : LoadPos) : (loadAt l s).freeCount = s.freeCount := rfl

@[simp] theorem loadEnd_seq : (loadEnd s).seq = .idle := rfl
@[simp] theorem loadEnd_fifo : (loadEnd s).fifo = s.fifo := rfl
@[simp] theorem loadEnd_feMode : (loadEnd s).feMode = s.feMode := rfl
@[simp] theorem loadEnd_feCount : (loadEnd s).feCount = s.feCount := rfl
@[simp] theorem loadEnd_feThenStream : (loadEnd s).feThenStream = s.feThenStream := rfl
@[simp] theorem loadEnd_qt : (loadEnd s).qt = s.qt := rfl
@[simp] theorem loadEnd_qtValid : (loadEnd s).qtValid = s.qtValid := rfl
@[simp] theorem loadEnd_htDc : (loadEnd s).htDc = s.htDc := rfl
@[simp] theorem loadEnd_htAc : (loadEnd s).htAc = s.htAc := rfl
@[simp] theorem loadEnd_htDcValid : (loadEnd s).htDcValid = s.htDcValid := rfl
@[simp] theorem loadEnd_htAcValid : (loadEnd s).htAcValid = s.htAcValid := rfl
@[simp] theorem loadEnd_frame : (loadEnd s).frame = s.frame := rfl
@[simp] theorem loadEnd_td : (loadEnd s).td = s.td := rfl
@[simp] theorem loadEnd_ta : (loadEnd s).ta = s.ta := rfl
@[simp] theorem loadEnd_ob : (loadEnd s).ob = s.ob := rfl
@[simp] theorem loadEnd_cur : (loadEnd s).cur = s.cur := rfl
@[simp] theorem loadEnd_nbits : (loadEnd s).nbits = s.nbits := rfl
@[simp] theorem loadEnd_p : (loadEnd s).p = s.p := rfl
@[simp] theorem loadEnd_pred : (loadEnd s).pred = s.pred := rfl
@[simp] theorem loadEnd_m : (loadEnd s).m = s.m := rfl
@[simp] theorem loadEnd_blk : (loadEnd s).blk = s.blk := rfl
@[simp] theorem loadEnd_k : (loadEnd s).k = s.k := rfl
@[simp] theorem loadEnd_rst : (loadEnd s).rst = s.rst := rfl
@[simp] theorem loadEnd_mcuDone : (loadEnd s).mcuDone = s.mcuDone := rfl
@[simp] theorem loadEnd_zz : (loadEnd s).zz = s.zz := rfl
@[simp] theorem loadEnd_b : (loadEnd s).b = s.b := rfl
@[simp] theorem loadEnd_ws : (loadEnd s).ws = s.ws := rfl
@[simp] theorem loadEnd_samples : (loadEnd s).samples = s.samples := rfl
@[simp] theorem loadEnd_dropped : (loadEnd s).dropped = s.dropped := rfl
@[simp] theorem loadEnd_doneEvt : (loadEnd s).doneEvt = s.doneEvt := rfl
@[simp] theorem loadEnd_errEvt : (loadEnd s).errEvt = s.errEvt := rfl
@[simp] theorem loadEnd_doneIe : (loadEnd s).doneIe = s.doneIe := rfl
@[simp] theorem loadEnd_errIe : (loadEnd s).errIe = s.errIe := rfl
@[simp] theorem loadEnd_outBase : (loadEnd s).outBase = s.outBase := rfl
@[simp] theorem loadEnd_errClass : (loadEnd s).errClass = s.errClass := rfl
@[simp] theorem loadEnd_errCause : (loadEnd s).errCause = s.errCause := rfl
@[simp] theorem loadEnd_errOp : (loadEnd s).errOp = s.errOp := rfl
@[simp] theorem loadEnd_curOp : (loadEnd s).curOp = s.curOp := rfl
@[simp] theorem loadEnd_mem : (loadEnd s).mem = s.mem := rfl
@[simp] theorem loadEnd_indet : (loadEnd s).indet = s.indet := rfl
@[simp] theorem loadEnd_clobbered : (loadEnd s).clobbered = s.clobbered := rfl
@[simp] theorem loadEnd_platform : (loadEnd s).platform = s.platform := rfl
@[simp] theorem loadEnd_hostOps : (loadEnd s).hostOps = s.hostOps := rfl
@[simp] theorem loadEnd_stalled : (loadEnd s).stalled = s.stalled := rfl
@[simp] theorem loadEnd_reads : (loadEnd s).reads = s.reads := rfl
@[simp] theorem loadEnd_sched : (loadEnd s).sched = s.sched := rfl
@[simp] theorem loadEnd_pace : (loadEnd s).pace = s.pace := rfl
@[simp] theorem loadEnd_freeCount : (loadEnd s).freeCount = s.freeCount := rfl

@[simp] theorem scanAt_seq (q : ScanPos) : (scanAt q s).seq = .scan q := rfl
@[simp] theorem scanAt_fifo (q : ScanPos) : (scanAt q s).fifo = s.fifo := rfl
@[simp] theorem scanAt_feMode (q : ScanPos) : (scanAt q s).feMode = s.feMode := rfl
@[simp] theorem scanAt_feCount (q : ScanPos) : (scanAt q s).feCount = s.feCount := rfl
@[simp] theorem scanAt_feThenStream (q : ScanPos) : (scanAt q s).feThenStream = s.feThenStream := rfl
@[simp] theorem scanAt_qt (q : ScanPos) : (scanAt q s).qt = s.qt := rfl
@[simp] theorem scanAt_qtValid (q : ScanPos) : (scanAt q s).qtValid = s.qtValid := rfl
@[simp] theorem scanAt_htDc (q : ScanPos) : (scanAt q s).htDc = s.htDc := rfl
@[simp] theorem scanAt_htAc (q : ScanPos) : (scanAt q s).htAc = s.htAc := rfl
@[simp] theorem scanAt_htDcValid (q : ScanPos) : (scanAt q s).htDcValid = s.htDcValid := rfl
@[simp] theorem scanAt_htAcValid (q : ScanPos) : (scanAt q s).htAcValid = s.htAcValid := rfl
@[simp] theorem scanAt_frame (q : ScanPos) : (scanAt q s).frame = s.frame := rfl
@[simp] theorem scanAt_td (q : ScanPos) : (scanAt q s).td = s.td := rfl
@[simp] theorem scanAt_ta (q : ScanPos) : (scanAt q s).ta = s.ta := rfl
@[simp] theorem scanAt_ob (q : ScanPos) : (scanAt q s).ob = s.ob := rfl
@[simp] theorem scanAt_cur (q : ScanPos) : (scanAt q s).cur = s.cur := rfl
@[simp] theorem scanAt_nbits (q : ScanPos) : (scanAt q s).nbits = s.nbits := rfl
@[simp] theorem scanAt_p (q : ScanPos) : (scanAt q s).p = s.p := rfl
@[simp] theorem scanAt_pred (q : ScanPos) : (scanAt q s).pred = s.pred := rfl
@[simp] theorem scanAt_m (q : ScanPos) : (scanAt q s).m = s.m := rfl
@[simp] theorem scanAt_blk (q : ScanPos) : (scanAt q s).blk = s.blk := rfl
@[simp] theorem scanAt_k (q : ScanPos) : (scanAt q s).k = s.k := rfl
@[simp] theorem scanAt_rst (q : ScanPos) : (scanAt q s).rst = s.rst := rfl
@[simp] theorem scanAt_mcuDone (q : ScanPos) : (scanAt q s).mcuDone = s.mcuDone := rfl
@[simp] theorem scanAt_zz (q : ScanPos) : (scanAt q s).zz = s.zz := rfl
@[simp] theorem scanAt_b (q : ScanPos) : (scanAt q s).b = s.b := rfl
@[simp] theorem scanAt_ws (q : ScanPos) : (scanAt q s).ws = s.ws := rfl
@[simp] theorem scanAt_samples (q : ScanPos) : (scanAt q s).samples = s.samples := rfl
@[simp] theorem scanAt_dropped (q : ScanPos) : (scanAt q s).dropped = s.dropped := rfl
@[simp] theorem scanAt_doneEvt (q : ScanPos) : (scanAt q s).doneEvt = s.doneEvt := rfl
@[simp] theorem scanAt_errEvt (q : ScanPos) : (scanAt q s).errEvt = s.errEvt := rfl
@[simp] theorem scanAt_doneIe (q : ScanPos) : (scanAt q s).doneIe = s.doneIe := rfl
@[simp] theorem scanAt_errIe (q : ScanPos) : (scanAt q s).errIe = s.errIe := rfl
@[simp] theorem scanAt_outBase (q : ScanPos) : (scanAt q s).outBase = s.outBase := rfl
@[simp] theorem scanAt_errClass (q : ScanPos) : (scanAt q s).errClass = s.errClass := rfl
@[simp] theorem scanAt_errCause (q : ScanPos) : (scanAt q s).errCause = s.errCause := rfl
@[simp] theorem scanAt_errOp (q : ScanPos) : (scanAt q s).errOp = s.errOp := rfl
@[simp] theorem scanAt_curOp (q : ScanPos) : (scanAt q s).curOp = s.curOp := rfl
@[simp] theorem scanAt_mem (q : ScanPos) : (scanAt q s).mem = s.mem := rfl
@[simp] theorem scanAt_indet (q : ScanPos) : (scanAt q s).indet = s.indet := rfl
@[simp] theorem scanAt_clobbered (q : ScanPos) : (scanAt q s).clobbered = s.clobbered := rfl
@[simp] theorem scanAt_platform (q : ScanPos) : (scanAt q s).platform = s.platform := rfl
@[simp] theorem scanAt_hostOps (q : ScanPos) : (scanAt q s).hostOps = s.hostOps := rfl
@[simp] theorem scanAt_stalled (q : ScanPos) : (scanAt q s).stalled = s.stalled := rfl
@[simp] theorem scanAt_reads (q : ScanPos) : (scanAt q s).reads = s.reads := rfl
@[simp] theorem scanAt_sched (q : ScanPos) : (scanAt q s).sched = s.sched := rfl
@[simp] theorem scanAt_pace (q : ScanPos) : (scanAt q s).pace = s.pace := rfl
@[simp] theorem scanAt_freeCount (q : ScanPos) : (scanAt q s).freeCount = s.freeCount := rfl

@[simp] theorem consume_seq (n : Nat) : (consume n s).seq = s.seq := rfl
@[simp] theorem consume_fifo (n : Nat) : (consume n s).fifo = s.fifo.drop n := rfl
@[simp] theorem consume_feMode (n : Nat) : (consume n s).feMode = s.feMode := rfl
@[simp] theorem consume_feCount (n : Nat) : (consume n s).feCount = s.feCount := rfl
@[simp] theorem consume_feThenStream (n : Nat) : (consume n s).feThenStream = s.feThenStream := rfl
@[simp] theorem consume_qt (n : Nat) : (consume n s).qt = s.qt := rfl
@[simp] theorem consume_qtValid (n : Nat) : (consume n s).qtValid = s.qtValid := rfl
@[simp] theorem consume_htDc (n : Nat) : (consume n s).htDc = s.htDc := rfl
@[simp] theorem consume_htAc (n : Nat) : (consume n s).htAc = s.htAc := rfl
@[simp] theorem consume_htDcValid (n : Nat) : (consume n s).htDcValid = s.htDcValid := rfl
@[simp] theorem consume_htAcValid (n : Nat) : (consume n s).htAcValid = s.htAcValid := rfl
@[simp] theorem consume_frame (n : Nat) : (consume n s).frame = s.frame := rfl
@[simp] theorem consume_td (n : Nat) : (consume n s).td = s.td := rfl
@[simp] theorem consume_ta (n : Nat) : (consume n s).ta = s.ta := rfl
@[simp] theorem consume_ob (n : Nat) : (consume n s).ob = s.ob := rfl
@[simp] theorem consume_cur (n : Nat) : (consume n s).cur = s.cur := rfl
@[simp] theorem consume_nbits (n : Nat) : (consume n s).nbits = s.nbits := rfl
@[simp] theorem consume_p (n : Nat) : (consume n s).p = s.p + n := rfl
@[simp] theorem consume_pred (n : Nat) : (consume n s).pred = s.pred := rfl
@[simp] theorem consume_m (n : Nat) : (consume n s).m = s.m := rfl
@[simp] theorem consume_blk (n : Nat) : (consume n s).blk = s.blk := rfl
@[simp] theorem consume_k (n : Nat) : (consume n s).k = s.k := rfl
@[simp] theorem consume_rst (n : Nat) : (consume n s).rst = s.rst := rfl
@[simp] theorem consume_mcuDone (n : Nat) : (consume n s).mcuDone = s.mcuDone := rfl
@[simp] theorem consume_zz (n : Nat) : (consume n s).zz = s.zz := rfl
@[simp] theorem consume_b (n : Nat) : (consume n s).b = s.b := rfl
@[simp] theorem consume_ws (n : Nat) : (consume n s).ws = s.ws := rfl
@[simp] theorem consume_samples (n : Nat) : (consume n s).samples = s.samples := rfl
@[simp] theorem consume_dropped (n : Nat) : (consume n s).dropped = s.dropped := rfl
@[simp] theorem consume_doneEvt (n : Nat) : (consume n s).doneEvt = s.doneEvt := rfl
@[simp] theorem consume_errEvt (n : Nat) : (consume n s).errEvt = s.errEvt := rfl
@[simp] theorem consume_doneIe (n : Nat) : (consume n s).doneIe = s.doneIe := rfl
@[simp] theorem consume_errIe (n : Nat) : (consume n s).errIe = s.errIe := rfl
@[simp] theorem consume_outBase (n : Nat) : (consume n s).outBase = s.outBase := rfl
@[simp] theorem consume_errClass (n : Nat) : (consume n s).errClass = s.errClass := rfl
@[simp] theorem consume_errCause (n : Nat) : (consume n s).errCause = s.errCause := rfl
@[simp] theorem consume_errOp (n : Nat) : (consume n s).errOp = s.errOp := rfl
@[simp] theorem consume_curOp (n : Nat) : (consume n s).curOp = s.curOp := rfl
@[simp] theorem consume_mem (n : Nat) : (consume n s).mem = s.mem := rfl
@[simp] theorem consume_indet (n : Nat) : (consume n s).indet = s.indet := rfl
@[simp] theorem consume_clobbered (n : Nat) : (consume n s).clobbered = s.clobbered := rfl
@[simp] theorem consume_platform (n : Nat) : (consume n s).platform = s.platform := rfl
@[simp] theorem consume_hostOps (n : Nat) : (consume n s).hostOps = s.hostOps := rfl
@[simp] theorem consume_stalled (n : Nat) : (consume n s).stalled = s.stalled := rfl
@[simp] theorem consume_reads (n : Nat) : (consume n s).reads = s.reads := rfl
@[simp] theorem consume_sched (n : Nat) : (consume n s).sched = s.sched := rfl
@[simp] theorem consume_pace (n : Nat) : (consume n s).pace = s.pace := rfl
@[simp] theorem consume_freeCount (n : Nat) : (consume n s).freeCount = s.freeCount := rfl

@[simp] theorem takeDataByte_seq (b : Byte) : (takeDataByte b s).seq = s.seq := rfl
@[simp] theorem takeDataByte_fifo (b : Byte) : (takeDataByte b s).fifo = s.fifo.drop 1 := rfl
@[simp] theorem takeDataByte_feMode (b : Byte) : (takeDataByte b s).feMode = s.feMode := rfl
@[simp] theorem takeDataByte_feCount (b : Byte) : (takeDataByte b s).feCount = s.feCount := rfl
@[simp] theorem takeDataByte_feThenStream (b : Byte) : (takeDataByte b s).feThenStream = s.feThenStream := rfl
@[simp] theorem takeDataByte_qt (b : Byte) : (takeDataByte b s).qt = s.qt := rfl
@[simp] theorem takeDataByte_qtValid (b : Byte) : (takeDataByte b s).qtValid = s.qtValid := rfl
@[simp] theorem takeDataByte_htDc (b : Byte) : (takeDataByte b s).htDc = s.htDc := rfl
@[simp] theorem takeDataByte_htAc (b : Byte) : (takeDataByte b s).htAc = s.htAc := rfl
@[simp] theorem takeDataByte_htDcValid (b : Byte) : (takeDataByte b s).htDcValid = s.htDcValid := rfl
@[simp] theorem takeDataByte_htAcValid (b : Byte) : (takeDataByte b s).htAcValid = s.htAcValid := rfl
@[simp] theorem takeDataByte_frame (b : Byte) : (takeDataByte b s).frame = s.frame := rfl
@[simp] theorem takeDataByte_td (b : Byte) : (takeDataByte b s).td = s.td := rfl
@[simp] theorem takeDataByte_ta (b : Byte) : (takeDataByte b s).ta = s.ta := rfl
@[simp] theorem takeDataByte_ob (b : Byte) : (takeDataByte b s).ob = s.ob := rfl
@[simp] theorem takeDataByte_cur (b : Byte) : (takeDataByte b s).cur = b := rfl
@[simp] theorem takeDataByte_nbits (b : Byte) : (takeDataByte b s).nbits = 8 := rfl
@[simp] theorem takeDataByte_p (b : Byte) : (takeDataByte b s).p = s.p + 1 := rfl
@[simp] theorem takeDataByte_pred (b : Byte) : (takeDataByte b s).pred = s.pred := rfl
@[simp] theorem takeDataByte_m (b : Byte) : (takeDataByte b s).m = s.m := rfl
@[simp] theorem takeDataByte_blk (b : Byte) : (takeDataByte b s).blk = s.blk := rfl
@[simp] theorem takeDataByte_k (b : Byte) : (takeDataByte b s).k = s.k := rfl
@[simp] theorem takeDataByte_rst (b : Byte) : (takeDataByte b s).rst = s.rst := rfl
@[simp] theorem takeDataByte_mcuDone (b : Byte) : (takeDataByte b s).mcuDone = s.mcuDone := rfl
@[simp] theorem takeDataByte_zz (b : Byte) : (takeDataByte b s).zz = s.zz := rfl
@[simp] theorem takeDataByte_b (b : Byte) : (takeDataByte b s).b = s.b := rfl
@[simp] theorem takeDataByte_ws (b : Byte) : (takeDataByte b s).ws = s.ws := rfl
@[simp] theorem takeDataByte_samples (b : Byte) : (takeDataByte b s).samples = s.samples := rfl
@[simp] theorem takeDataByte_dropped (b : Byte) : (takeDataByte b s).dropped = s.dropped := rfl
@[simp] theorem takeDataByte_doneEvt (b : Byte) : (takeDataByte b s).doneEvt = s.doneEvt := rfl
@[simp] theorem takeDataByte_errEvt (b : Byte) : (takeDataByte b s).errEvt = s.errEvt := rfl
@[simp] theorem takeDataByte_doneIe (b : Byte) : (takeDataByte b s).doneIe = s.doneIe := rfl
@[simp] theorem takeDataByte_errIe (b : Byte) : (takeDataByte b s).errIe = s.errIe := rfl
@[simp] theorem takeDataByte_outBase (b : Byte) : (takeDataByte b s).outBase = s.outBase := rfl
@[simp] theorem takeDataByte_errClass (b : Byte) : (takeDataByte b s).errClass = s.errClass := rfl
@[simp] theorem takeDataByte_errCause (b : Byte) : (takeDataByte b s).errCause = s.errCause := rfl
@[simp] theorem takeDataByte_errOp (b : Byte) : (takeDataByte b s).errOp = s.errOp := rfl
@[simp] theorem takeDataByte_curOp (b : Byte) : (takeDataByte b s).curOp = s.curOp := rfl
@[simp] theorem takeDataByte_mem (b : Byte) : (takeDataByte b s).mem = s.mem := rfl
@[simp] theorem takeDataByte_indet (b : Byte) : (takeDataByte b s).indet = s.indet := rfl
@[simp] theorem takeDataByte_clobbered (b : Byte) : (takeDataByte b s).clobbered = s.clobbered := rfl
@[simp] theorem takeDataByte_platform (b : Byte) : (takeDataByte b s).platform = s.platform := rfl
@[simp] theorem takeDataByte_hostOps (b : Byte) : (takeDataByte b s).hostOps = s.hostOps := rfl
@[simp] theorem takeDataByte_stalled (b : Byte) : (takeDataByte b s).stalled = s.stalled := rfl
@[simp] theorem takeDataByte_reads (b : Byte) : (takeDataByte b s).reads = s.reads := rfl
@[simp] theorem takeDataByte_sched (b : Byte) : (takeDataByte b s).sched = s.sched := rfl
@[simp] theorem takeDataByte_pace (b : Byte) : (takeDataByte b s).pace = s.pace := rfl
@[simp] theorem takeDataByte_freeCount (b : Byte) : (takeDataByte b s).freeCount = s.freeCount := rfl

@[simp] theorem takeStuffed_seq : (takeStuffed s).seq = s.seq := rfl
@[simp] theorem takeStuffed_fifo : (takeStuffed s).fifo = s.fifo.drop 2 := rfl
@[simp] theorem takeStuffed_feMode : (takeStuffed s).feMode = s.feMode := rfl
@[simp] theorem takeStuffed_feCount : (takeStuffed s).feCount = s.feCount := rfl
@[simp] theorem takeStuffed_feThenStream : (takeStuffed s).feThenStream = s.feThenStream := rfl
@[simp] theorem takeStuffed_qt : (takeStuffed s).qt = s.qt := rfl
@[simp] theorem takeStuffed_qtValid : (takeStuffed s).qtValid = s.qtValid := rfl
@[simp] theorem takeStuffed_htDc : (takeStuffed s).htDc = s.htDc := rfl
@[simp] theorem takeStuffed_htAc : (takeStuffed s).htAc = s.htAc := rfl
@[simp] theorem takeStuffed_htDcValid : (takeStuffed s).htDcValid = s.htDcValid := rfl
@[simp] theorem takeStuffed_htAcValid : (takeStuffed s).htAcValid = s.htAcValid := rfl
@[simp] theorem takeStuffed_frame : (takeStuffed s).frame = s.frame := rfl
@[simp] theorem takeStuffed_td : (takeStuffed s).td = s.td := rfl
@[simp] theorem takeStuffed_ta : (takeStuffed s).ta = s.ta := rfl
@[simp] theorem takeStuffed_ob : (takeStuffed s).ob = s.ob := rfl
@[simp] theorem takeStuffed_cur : (takeStuffed s).cur = 0xFF := rfl
@[simp] theorem takeStuffed_nbits : (takeStuffed s).nbits = 8 := rfl
@[simp] theorem takeStuffed_p : (takeStuffed s).p = s.p + 2 := rfl
@[simp] theorem takeStuffed_pred : (takeStuffed s).pred = s.pred := rfl
@[simp] theorem takeStuffed_m : (takeStuffed s).m = s.m := rfl
@[simp] theorem takeStuffed_blk : (takeStuffed s).blk = s.blk := rfl
@[simp] theorem takeStuffed_k : (takeStuffed s).k = s.k := rfl
@[simp] theorem takeStuffed_rst : (takeStuffed s).rst = s.rst := rfl
@[simp] theorem takeStuffed_mcuDone : (takeStuffed s).mcuDone = s.mcuDone := rfl
@[simp] theorem takeStuffed_zz : (takeStuffed s).zz = s.zz := rfl
@[simp] theorem takeStuffed_b : (takeStuffed s).b = s.b := rfl
@[simp] theorem takeStuffed_ws : (takeStuffed s).ws = s.ws := rfl
@[simp] theorem takeStuffed_samples : (takeStuffed s).samples = s.samples := rfl
@[simp] theorem takeStuffed_dropped : (takeStuffed s).dropped = s.dropped := rfl
@[simp] theorem takeStuffed_doneEvt : (takeStuffed s).doneEvt = s.doneEvt := rfl
@[simp] theorem takeStuffed_errEvt : (takeStuffed s).errEvt = s.errEvt := rfl
@[simp] theorem takeStuffed_doneIe : (takeStuffed s).doneIe = s.doneIe := rfl
@[simp] theorem takeStuffed_errIe : (takeStuffed s).errIe = s.errIe := rfl
@[simp] theorem takeStuffed_outBase : (takeStuffed s).outBase = s.outBase := rfl
@[simp] theorem takeStuffed_errClass : (takeStuffed s).errClass = s.errClass := rfl
@[simp] theorem takeStuffed_errCause : (takeStuffed s).errCause = s.errCause := rfl
@[simp] theorem takeStuffed_errOp : (takeStuffed s).errOp = s.errOp := rfl
@[simp] theorem takeStuffed_curOp : (takeStuffed s).curOp = s.curOp := rfl
@[simp] theorem takeStuffed_mem : (takeStuffed s).mem = s.mem := rfl
@[simp] theorem takeStuffed_indet : (takeStuffed s).indet = s.indet := rfl
@[simp] theorem takeStuffed_clobbered : (takeStuffed s).clobbered = s.clobbered := rfl
@[simp] theorem takeStuffed_platform : (takeStuffed s).platform = s.platform := rfl
@[simp] theorem takeStuffed_hostOps : (takeStuffed s).hostOps = s.hostOps := rfl
@[simp] theorem takeStuffed_stalled : (takeStuffed s).stalled = s.stalled := rfl
@[simp] theorem takeStuffed_reads : (takeStuffed s).reads = s.reads := rfl
@[simp] theorem takeStuffed_sched : (takeStuffed s).sched = s.sched := rfl
@[simp] theorem takeStuffed_pace : (takeStuffed s).pace = s.pace := rfl
@[simp] theorem takeStuffed_freeCount : (takeStuffed s).freeCount = s.freeCount := rfl

@[simp] theorem takeCommand_seq (op : Byte) : (takeCommand op s).seq = s.seq := rfl
@[simp] theorem takeCommand_fifo (op : Byte) : (takeCommand op s).fifo = s.fifo.tail := rfl
@[simp] theorem takeCommand_feMode (op : Byte) : (takeCommand op s).feMode = s.feMode := rfl
@[simp] theorem takeCommand_feCount (op : Byte) : (takeCommand op s).feCount = s.feCount := rfl
@[simp] theorem takeCommand_feThenStream (op : Byte) : (takeCommand op s).feThenStream = s.feThenStream := rfl
@[simp] theorem takeCommand_qt (op : Byte) : (takeCommand op s).qt = s.qt := rfl
@[simp] theorem takeCommand_qtValid (op : Byte) : (takeCommand op s).qtValid = s.qtValid := rfl
@[simp] theorem takeCommand_htDc (op : Byte) : (takeCommand op s).htDc = s.htDc := rfl
@[simp] theorem takeCommand_htAc (op : Byte) : (takeCommand op s).htAc = s.htAc := rfl
@[simp] theorem takeCommand_htDcValid (op : Byte) : (takeCommand op s).htDcValid = s.htDcValid := rfl
@[simp] theorem takeCommand_htAcValid (op : Byte) : (takeCommand op s).htAcValid = s.htAcValid := rfl
@[simp] theorem takeCommand_frame (op : Byte) : (takeCommand op s).frame = s.frame := rfl
@[simp] theorem takeCommand_td (op : Byte) : (takeCommand op s).td = s.td := rfl
@[simp] theorem takeCommand_ta (op : Byte) : (takeCommand op s).ta = s.ta := rfl
@[simp] theorem takeCommand_ob (op : Byte) : (takeCommand op s).ob = s.ob := rfl
@[simp] theorem takeCommand_cur (op : Byte) : (takeCommand op s).cur = s.cur := rfl
@[simp] theorem takeCommand_nbits (op : Byte) : (takeCommand op s).nbits = s.nbits := rfl
@[simp] theorem takeCommand_p (op : Byte) : (takeCommand op s).p = s.p := rfl
@[simp] theorem takeCommand_pred (op : Byte) : (takeCommand op s).pred = s.pred := rfl
@[simp] theorem takeCommand_m (op : Byte) : (takeCommand op s).m = s.m := rfl
@[simp] theorem takeCommand_blk (op : Byte) : (takeCommand op s).blk = s.blk := rfl
@[simp] theorem takeCommand_k (op : Byte) : (takeCommand op s).k = s.k := rfl
@[simp] theorem takeCommand_rst (op : Byte) : (takeCommand op s).rst = s.rst := rfl
@[simp] theorem takeCommand_mcuDone (op : Byte) : (takeCommand op s).mcuDone = s.mcuDone := rfl
@[simp] theorem takeCommand_zz (op : Byte) : (takeCommand op s).zz = s.zz := rfl
@[simp] theorem takeCommand_b (op : Byte) : (takeCommand op s).b = s.b := rfl
@[simp] theorem takeCommand_ws (op : Byte) : (takeCommand op s).ws = s.ws := rfl
@[simp] theorem takeCommand_samples (op : Byte) : (takeCommand op s).samples = s.samples := rfl
@[simp] theorem takeCommand_dropped (op : Byte) : (takeCommand op s).dropped = s.dropped := rfl
@[simp] theorem takeCommand_doneEvt (op : Byte) : (takeCommand op s).doneEvt = s.doneEvt := rfl
@[simp] theorem takeCommand_errEvt (op : Byte) : (takeCommand op s).errEvt = s.errEvt := rfl
@[simp] theorem takeCommand_doneIe (op : Byte) : (takeCommand op s).doneIe = s.doneIe := rfl
@[simp] theorem takeCommand_errIe (op : Byte) : (takeCommand op s).errIe = s.errIe := rfl
@[simp] theorem takeCommand_outBase (op : Byte) : (takeCommand op s).outBase = s.outBase := rfl
@[simp] theorem takeCommand_errClass (op : Byte) : (takeCommand op s).errClass = s.errClass := rfl
@[simp] theorem takeCommand_errCause (op : Byte) : (takeCommand op s).errCause = s.errCause := rfl
@[simp] theorem takeCommand_errOp (op : Byte) : (takeCommand op s).errOp = s.errOp := rfl
@[simp] theorem takeCommand_curOp (op : Byte) : (takeCommand op s).curOp = op := rfl
@[simp] theorem takeCommand_mem (op : Byte) : (takeCommand op s).mem = s.mem := rfl
@[simp] theorem takeCommand_indet (op : Byte) : (takeCommand op s).indet = s.indet := rfl
@[simp] theorem takeCommand_clobbered (op : Byte) : (takeCommand op s).clobbered = s.clobbered := rfl
@[simp] theorem takeCommand_platform (op : Byte) : (takeCommand op s).platform = s.platform := rfl
@[simp] theorem takeCommand_hostOps (op : Byte) : (takeCommand op s).hostOps = s.hostOps := rfl
@[simp] theorem takeCommand_stalled (op : Byte) : (takeCommand op s).stalled = s.stalled := rfl
@[simp] theorem takeCommand_reads (op : Byte) : (takeCommand op s).reads = s.reads := rfl
@[simp] theorem takeCommand_sched (op : Byte) : (takeCommand op s).sched = s.sched := rfl
@[simp] theorem takeCommand_pace (op : Byte) : (takeCommand op s).pace = s.pace := rfl
@[simp] theorem takeCommand_freeCount (op : Byte) : (takeCommand op s).freeCount = s.freeCount := rfl

@[simp] theorem raise_seq (c : Cause) : (raise c s).seq = .error := rfl
@[simp] theorem raise_fifo (c : Cause) : (raise c s).fifo = [] := rfl
@[simp] theorem raise_feMode (c : Cause) : (raise c s).feMode = .none := rfl
@[simp] theorem raise_feCount (c : Cause) : (raise c s).feCount = 0 := rfl
@[simp] theorem raise_feThenStream (c : Cause) : (raise c s).feThenStream = false := rfl
@[simp] theorem raise_qt (c : Cause) : (raise c s).qt = s.qt := rfl
@[simp] theorem raise_qtValid (c : Cause) : (raise c s).qtValid = s.qtValid := rfl
@[simp] theorem raise_htDc (c : Cause) : (raise c s).htDc = s.htDc := rfl
@[simp] theorem raise_htAc (c : Cause) : (raise c s).htAc = s.htAc := rfl
@[simp] theorem raise_htDcValid (c : Cause) : (raise c s).htDcValid = s.htDcValid := rfl
@[simp] theorem raise_htAcValid (c : Cause) : (raise c s).htAcValid = s.htAcValid := rfl
@[simp] theorem raise_frame (c : Cause) : (raise c s).frame = s.frame := rfl
@[simp] theorem raise_td (c : Cause) : (raise c s).td = s.td := rfl
@[simp] theorem raise_ta (c : Cause) : (raise c s).ta = s.ta := rfl
@[simp] theorem raise_ob (c : Cause) : (raise c s).ob = s.ob := rfl
@[simp] theorem raise_cur (c : Cause) : (raise c s).cur = s.cur := rfl
@[simp] theorem raise_nbits (c : Cause) : (raise c s).nbits = s.nbits := rfl
@[simp] theorem raise_p (c : Cause) : (raise c s).p = s.p := rfl
@[simp] theorem raise_pred (c : Cause) : (raise c s).pred = s.pred := rfl
@[simp] theorem raise_m (c : Cause) : (raise c s).m = s.m := rfl
@[simp] theorem raise_blk (c : Cause) : (raise c s).blk = s.blk := rfl
@[simp] theorem raise_k (c : Cause) : (raise c s).k = s.k := rfl
@[simp] theorem raise_rst (c : Cause) : (raise c s).rst = s.rst := rfl
@[simp] theorem raise_mcuDone (c : Cause) : (raise c s).mcuDone = s.mcuDone := rfl
@[simp] theorem raise_zz (c : Cause) : (raise c s).zz = s.zz := rfl
@[simp] theorem raise_b (c : Cause) : (raise c s).b = s.b := rfl
@[simp] theorem raise_ws (c : Cause) : (raise c s).ws = s.ws := rfl
@[simp] theorem raise_samples (c : Cause) : (raise c s).samples = s.samples := rfl
@[simp] theorem raise_dropped (c : Cause) : (raise c s).dropped = s.dropped := rfl
@[simp] theorem raise_doneEvt (c : Cause) : (raise c s).doneEvt = s.doneEvt := rfl
@[simp] theorem raise_errEvt (c : Cause) : (raise c s).errEvt = true := rfl
@[simp] theorem raise_doneIe (c : Cause) : (raise c s).doneIe = s.doneIe := rfl
@[simp] theorem raise_errIe (c : Cause) : (raise c s).errIe = s.errIe := rfl
@[simp] theorem raise_outBase (c : Cause) : (raise c s).outBase = s.outBase := rfl
@[simp] theorem raise_errClass (c : Cause) : (raise c s).errClass = c.cls := rfl
@[simp] theorem raise_errCause (c : Cause) : (raise c s).errCause = c.code := rfl
@[simp] theorem raise_errOp (c : Cause) : (raise c s).errOp = s.curOp := rfl
@[simp] theorem raise_curOp (c : Cause) : (raise c s).curOp = s.curOp := rfl
@[simp] theorem raise_mem (c : Cause) : (raise c s).mem = s.mem := rfl
@[simp] theorem raise_indet (c : Cause) : (raise c s).indet = indetAfterAbort s := rfl
@[simp] theorem raise_clobbered (c : Cause) : (raise c s).clobbered = s.clobbered := rfl
@[simp] theorem raise_platform (c : Cause) : (raise c s).platform = s.platform := rfl
@[simp] theorem raise_hostOps (c : Cause) : (raise c s).hostOps = s.hostOps := rfl
@[simp] theorem raise_stalled (c : Cause) : (raise c s).stalled = s.stalled := rfl
@[simp] theorem raise_reads (c : Cause) : (raise c s).reads = s.reads := rfl
@[simp] theorem raise_sched (c : Cause) : (raise c s).sched = s.sched := rfl
@[simp] theorem raise_pace (c : Cause) : (raise c s).pace = s.pace := rfl
@[simp] theorem raise_freeCount (c : Cause) : (raise c s).freeCount = s.freeCount := rfl

@[simp] theorem storeQt_seq (t : Fin 4) (q : Vector Byte 64) : (storeQt t q s).seq = s.seq := rfl
@[simp] theorem storeQt_fifo (t : Fin 4) (q : Vector Byte 64) : (storeQt t q s).fifo = s.fifo := rfl
@[simp] theorem storeQt_feMode (t : Fin 4) (q : Vector Byte 64) : (storeQt t q s).feMode = s.feMode := rfl
@[simp] theorem storeQt_feCount (t : Fin 4) (q : Vector Byte 64) : (storeQt t q s).feCount = s.feCount := rfl
@[simp] theorem storeQt_feThenStream (t : Fin 4) (q : Vector Byte 64) : (storeQt t q s).feThenStream = s.feThenStream := rfl
@[simp] theorem storeQt_qt (t : Fin 4) (q : Vector Byte 64) : (storeQt t q s).qt = s.qt.set t q := rfl
@[simp] theorem storeQt_qtValid (t : Fin 4) (q : Vector Byte 64) : (storeQt t q s).qtValid = s.qtValid.set t true := rfl
@[simp] theorem storeQt_htDc (t : Fin 4) (q : Vector Byte 64) : (storeQt t q s).htDc = s.htDc := rfl
@[simp] theorem storeQt_htAc (t : Fin 4) (q : Vector Byte 64) : (storeQt t q s).htAc = s.htAc := rfl
@[simp] theorem storeQt_htDcValid (t : Fin 4) (q : Vector Byte 64) : (storeQt t q s).htDcValid = s.htDcValid := rfl
@[simp] theorem storeQt_htAcValid (t : Fin 4) (q : Vector Byte 64) : (storeQt t q s).htAcValid = s.htAcValid := rfl
@[simp] theorem storeQt_frame (t : Fin 4) (q : Vector Byte 64) : (storeQt t q s).frame = s.frame := rfl
@[simp] theorem storeQt_td (t : Fin 4) (q : Vector Byte 64) : (storeQt t q s).td = s.td := rfl
@[simp] theorem storeQt_ta (t : Fin 4) (q : Vector Byte 64) : (storeQt t q s).ta = s.ta := rfl
@[simp] theorem storeQt_ob (t : Fin 4) (q : Vector Byte 64) : (storeQt t q s).ob = s.ob := rfl
@[simp] theorem storeQt_cur (t : Fin 4) (q : Vector Byte 64) : (storeQt t q s).cur = s.cur := rfl
@[simp] theorem storeQt_nbits (t : Fin 4) (q : Vector Byte 64) : (storeQt t q s).nbits = s.nbits := rfl
@[simp] theorem storeQt_p (t : Fin 4) (q : Vector Byte 64) : (storeQt t q s).p = s.p := rfl
@[simp] theorem storeQt_pred (t : Fin 4) (q : Vector Byte 64) : (storeQt t q s).pred = s.pred := rfl
@[simp] theorem storeQt_m (t : Fin 4) (q : Vector Byte 64) : (storeQt t q s).m = s.m := rfl
@[simp] theorem storeQt_blk (t : Fin 4) (q : Vector Byte 64) : (storeQt t q s).blk = s.blk := rfl
@[simp] theorem storeQt_k (t : Fin 4) (q : Vector Byte 64) : (storeQt t q s).k = s.k := rfl
@[simp] theorem storeQt_rst (t : Fin 4) (q : Vector Byte 64) : (storeQt t q s).rst = s.rst := rfl
@[simp] theorem storeQt_mcuDone (t : Fin 4) (q : Vector Byte 64) : (storeQt t q s).mcuDone = s.mcuDone := rfl
@[simp] theorem storeQt_zz (t : Fin 4) (q : Vector Byte 64) : (storeQt t q s).zz = s.zz := rfl
@[simp] theorem storeQt_b (t : Fin 4) (q : Vector Byte 64) : (storeQt t q s).b = s.b := rfl
@[simp] theorem storeQt_ws (t : Fin 4) (q : Vector Byte 64) : (storeQt t q s).ws = s.ws := rfl
@[simp] theorem storeQt_samples (t : Fin 4) (q : Vector Byte 64) : (storeQt t q s).samples = s.samples := rfl
@[simp] theorem storeQt_dropped (t : Fin 4) (q : Vector Byte 64) : (storeQt t q s).dropped = s.dropped := rfl
@[simp] theorem storeQt_doneEvt (t : Fin 4) (q : Vector Byte 64) : (storeQt t q s).doneEvt = s.doneEvt := rfl
@[simp] theorem storeQt_errEvt (t : Fin 4) (q : Vector Byte 64) : (storeQt t q s).errEvt = s.errEvt := rfl
@[simp] theorem storeQt_doneIe (t : Fin 4) (q : Vector Byte 64) : (storeQt t q s).doneIe = s.doneIe := rfl
@[simp] theorem storeQt_errIe (t : Fin 4) (q : Vector Byte 64) : (storeQt t q s).errIe = s.errIe := rfl
@[simp] theorem storeQt_outBase (t : Fin 4) (q : Vector Byte 64) : (storeQt t q s).outBase = s.outBase := rfl
@[simp] theorem storeQt_errClass (t : Fin 4) (q : Vector Byte 64) : (storeQt t q s).errClass = s.errClass := rfl
@[simp] theorem storeQt_errCause (t : Fin 4) (q : Vector Byte 64) : (storeQt t q s).errCause = s.errCause := rfl
@[simp] theorem storeQt_errOp (t : Fin 4) (q : Vector Byte 64) : (storeQt t q s).errOp = s.errOp := rfl
@[simp] theorem storeQt_curOp (t : Fin 4) (q : Vector Byte 64) : (storeQt t q s).curOp = s.curOp := rfl
@[simp] theorem storeQt_mem (t : Fin 4) (q : Vector Byte 64) : (storeQt t q s).mem = s.mem := rfl
@[simp] theorem storeQt_indet (t : Fin 4) (q : Vector Byte 64) : (storeQt t q s).indet = s.indet := rfl
@[simp] theorem storeQt_clobbered (t : Fin 4) (q : Vector Byte 64) : (storeQt t q s).clobbered = s.clobbered := rfl
@[simp] theorem storeQt_platform (t : Fin 4) (q : Vector Byte 64) : (storeQt t q s).platform = s.platform := rfl
@[simp] theorem storeQt_hostOps (t : Fin 4) (q : Vector Byte 64) : (storeQt t q s).hostOps = s.hostOps := rfl
@[simp] theorem storeQt_stalled (t : Fin 4) (q : Vector Byte 64) : (storeQt t q s).stalled = s.stalled := rfl
@[simp] theorem storeQt_reads (t : Fin 4) (q : Vector Byte 64) : (storeQt t q s).reads = s.reads := rfl
@[simp] theorem storeQt_sched (t : Fin 4) (q : Vector Byte 64) : (storeQt t q s).sched = s.sched := rfl
@[simp] theorem storeQt_pace (t : Fin 4) (q : Vector Byte 64) : (storeQt t q s).pace = s.pace := rfl
@[simp] theorem storeQt_freeCount (t : Fin 4) (q : Vector Byte 64) : (storeQt t q s).freeCount = s.freeCount := rfl

@[simp] theorem scanInit_seq : (scanInit s).seq = .scan .mcuStart := rfl
@[simp] theorem scanInit_fifo : (scanInit s).fifo = s.fifo := rfl
@[simp] theorem scanInit_feMode : (scanInit s).feMode = s.feMode := rfl
@[simp] theorem scanInit_feCount : (scanInit s).feCount = s.feCount := rfl
@[simp] theorem scanInit_feThenStream : (scanInit s).feThenStream = s.feThenStream := rfl
@[simp] theorem scanInit_qt : (scanInit s).qt = s.qt := rfl
@[simp] theorem scanInit_qtValid : (scanInit s).qtValid = s.qtValid := rfl
@[simp] theorem scanInit_htDc : (scanInit s).htDc = s.htDc := rfl
@[simp] theorem scanInit_htAc : (scanInit s).htAc = s.htAc := rfl
@[simp] theorem scanInit_htDcValid : (scanInit s).htDcValid = s.htDcValid := rfl
@[simp] theorem scanInit_htAcValid : (scanInit s).htAcValid = s.htAcValid := rfl
@[simp] theorem scanInit_frame : (scanInit s).frame = s.frame := rfl
@[simp] theorem scanInit_td : (scanInit s).td = s.td := rfl
@[simp] theorem scanInit_ta : (scanInit s).ta = s.ta := rfl
@[simp] theorem scanInit_ob : (scanInit s).ob = s.ob := rfl
@[simp] theorem scanInit_cur : (scanInit s).cur = 0 := rfl
@[simp] theorem scanInit_nbits : (scanInit s).nbits = 0 := rfl
@[simp] theorem scanInit_p : (scanInit s).p = 0 := rfl
@[simp] theorem scanInit_pred : (scanInit s).pred = Vector.replicate 3 0 := rfl
@[simp] theorem scanInit_m : (scanInit s).m = 0 := rfl
@[simp] theorem scanInit_blk : (scanInit s).blk = s.blk := rfl
@[simp] theorem scanInit_k : (scanInit s).k = s.k := rfl
@[simp] theorem scanInit_rst : (scanInit s).rst = 0 := rfl
@[simp] theorem scanInit_mcuDone : (scanInit s).mcuDone = 0 := rfl
@[simp] theorem scanInit_zz : (scanInit s).zz = s.zz := rfl
@[simp] theorem scanInit_b : (scanInit s).b = s.b := rfl
@[simp] theorem scanInit_ws : (scanInit s).ws = s.ws := rfl
@[simp] theorem scanInit_samples : (scanInit s).samples = s.samples := rfl
@[simp] theorem scanInit_dropped : (scanInit s).dropped = s.dropped := rfl
@[simp] theorem scanInit_doneEvt : (scanInit s).doneEvt = s.doneEvt := rfl
@[simp] theorem scanInit_errEvt : (scanInit s).errEvt = s.errEvt := rfl
@[simp] theorem scanInit_doneIe : (scanInit s).doneIe = s.doneIe := rfl
@[simp] theorem scanInit_errIe : (scanInit s).errIe = s.errIe := rfl
@[simp] theorem scanInit_outBase : (scanInit s).outBase = s.outBase := rfl
@[simp] theorem scanInit_errClass : (scanInit s).errClass = s.errClass := rfl
@[simp] theorem scanInit_errCause : (scanInit s).errCause = s.errCause := rfl
@[simp] theorem scanInit_errOp : (scanInit s).errOp = s.errOp := rfl
@[simp] theorem scanInit_curOp : (scanInit s).curOp = s.curOp := rfl
@[simp] theorem scanInit_mem : (scanInit s).mem = s.mem := rfl
@[simp] theorem scanInit_indet : (scanInit s).indet = s.indet := rfl
@[simp] theorem scanInit_clobbered : (scanInit s).clobbered = s.clobbered := rfl
@[simp] theorem scanInit_platform : (scanInit s).platform = s.platform := rfl
@[simp] theorem scanInit_hostOps : (scanInit s).hostOps = s.hostOps := rfl
@[simp] theorem scanInit_stalled : (scanInit s).stalled = s.stalled := rfl
@[simp] theorem scanInit_reads : (scanInit s).reads = s.reads := rfl
@[simp] theorem scanInit_sched : (scanInit s).sched = s.sched := rfl
@[simp] theorem scanInit_pace : (scanInit s).pace = s.pace := rfl
@[simp] theorem scanInit_freeCount : (scanInit s).freeCount = s.freeCount := rfl

@[simp] theorem beginScanHeader_seq (len : Nat) (ob : Word) : (beginScanHeader len ob s).seq = .payload (.sosCount len ob) := rfl
@[simp] theorem beginScanHeader_fifo (len : Nat) (ob : Word) : (beginScanHeader len ob s).fifo = s.fifo := rfl
@[simp] theorem beginScanHeader_feMode (len : Nat) (ob : Word) : (beginScanHeader len ob s).feMode = s.feMode := rfl
@[simp] theorem beginScanHeader_feCount (len : Nat) (ob : Word) : (beginScanHeader len ob s).feCount = s.feCount := rfl
@[simp] theorem beginScanHeader_feThenStream (len : Nat) (ob : Word) : (beginScanHeader len ob s).feThenStream = s.feThenStream := rfl
@[simp] theorem beginScanHeader_qt (len : Nat) (ob : Word) : (beginScanHeader len ob s).qt = s.qt := rfl
@[simp] theorem beginScanHeader_qtValid (len : Nat) (ob : Word) : (beginScanHeader len ob s).qtValid = s.qtValid := rfl
@[simp] theorem beginScanHeader_htDc (len : Nat) (ob : Word) : (beginScanHeader len ob s).htDc = s.htDc := rfl
@[simp] theorem beginScanHeader_htAc (len : Nat) (ob : Word) : (beginScanHeader len ob s).htAc = s.htAc := rfl
@[simp] theorem beginScanHeader_htDcValid (len : Nat) (ob : Word) : (beginScanHeader len ob s).htDcValid = s.htDcValid := rfl
@[simp] theorem beginScanHeader_htAcValid (len : Nat) (ob : Word) : (beginScanHeader len ob s).htAcValid = s.htAcValid := rfl
@[simp] theorem beginScanHeader_frame (len : Nat) (ob : Word) : (beginScanHeader len ob s).frame = s.frame := rfl
@[simp] theorem beginScanHeader_td (len : Nat) (ob : Word) : (beginScanHeader len ob s).td = s.td := rfl
@[simp] theorem beginScanHeader_ta (len : Nat) (ob : Word) : (beginScanHeader len ob s).ta = s.ta := rfl
@[simp] theorem beginScanHeader_ob (len : Nat) (ob : Word) : (beginScanHeader len ob s).ob = s.ob := rfl
@[simp] theorem beginScanHeader_cur (len : Nat) (ob : Word) : (beginScanHeader len ob s).cur = s.cur := rfl
@[simp] theorem beginScanHeader_nbits (len : Nat) (ob : Word) : (beginScanHeader len ob s).nbits = s.nbits := rfl
@[simp] theorem beginScanHeader_p (len : Nat) (ob : Word) : (beginScanHeader len ob s).p = s.p := rfl
@[simp] theorem beginScanHeader_pred (len : Nat) (ob : Word) : (beginScanHeader len ob s).pred = s.pred := rfl
@[simp] theorem beginScanHeader_m (len : Nat) (ob : Word) : (beginScanHeader len ob s).m = s.m := rfl
@[simp] theorem beginScanHeader_blk (len : Nat) (ob : Word) : (beginScanHeader len ob s).blk = s.blk := rfl
@[simp] theorem beginScanHeader_k (len : Nat) (ob : Word) : (beginScanHeader len ob s).k = s.k := rfl
@[simp] theorem beginScanHeader_rst (len : Nat) (ob : Word) : (beginScanHeader len ob s).rst = s.rst := rfl
@[simp] theorem beginScanHeader_mcuDone (len : Nat) (ob : Word) : (beginScanHeader len ob s).mcuDone = s.mcuDone := rfl
@[simp] theorem beginScanHeader_zz (len : Nat) (ob : Word) : (beginScanHeader len ob s).zz = s.zz := rfl
@[simp] theorem beginScanHeader_b (len : Nat) (ob : Word) : (beginScanHeader len ob s).b = s.b := rfl
@[simp] theorem beginScanHeader_ws (len : Nat) (ob : Word) : (beginScanHeader len ob s).ws = s.ws := rfl
@[simp] theorem beginScanHeader_samples (len : Nat) (ob : Word) : (beginScanHeader len ob s).samples = s.samples := rfl
@[simp] theorem beginScanHeader_dropped (len : Nat) (ob : Word) : (beginScanHeader len ob s).dropped = s.dropped := rfl
@[simp] theorem beginScanHeader_doneEvt (len : Nat) (ob : Word) : (beginScanHeader len ob s).doneEvt = s.doneEvt := rfl
@[simp] theorem beginScanHeader_errEvt (len : Nat) (ob : Word) : (beginScanHeader len ob s).errEvt = s.errEvt := rfl
@[simp] theorem beginScanHeader_doneIe (len : Nat) (ob : Word) : (beginScanHeader len ob s).doneIe = s.doneIe := rfl
@[simp] theorem beginScanHeader_errIe (len : Nat) (ob : Word) : (beginScanHeader len ob s).errIe = s.errIe := rfl
@[simp] theorem beginScanHeader_outBase (len : Nat) (ob : Word) : (beginScanHeader len ob s).outBase = s.outBase := rfl
@[simp] theorem beginScanHeader_errClass (len : Nat) (ob : Word) : (beginScanHeader len ob s).errClass = s.errClass := rfl
@[simp] theorem beginScanHeader_errCause (len : Nat) (ob : Word) : (beginScanHeader len ob s).errCause = s.errCause := rfl
@[simp] theorem beginScanHeader_errOp (len : Nat) (ob : Word) : (beginScanHeader len ob s).errOp = s.errOp := rfl
@[simp] theorem beginScanHeader_curOp (len : Nat) (ob : Word) : (beginScanHeader len ob s).curOp = s.curOp := rfl
@[simp] theorem beginScanHeader_mem (len : Nat) (ob : Word) : (beginScanHeader len ob s).mem = s.mem := rfl
@[simp] theorem beginScanHeader_indet (len : Nat) (ob : Word) : (beginScanHeader len ob s).indet = s.indet := rfl
@[simp] theorem beginScanHeader_clobbered (len : Nat) (ob : Word) : (beginScanHeader len ob s).clobbered = [] := rfl
@[simp] theorem beginScanHeader_platform (len : Nat) (ob : Word) : (beginScanHeader len ob s).platform = s.platform := rfl
@[simp] theorem beginScanHeader_hostOps (len : Nat) (ob : Word) : (beginScanHeader len ob s).hostOps = s.hostOps := rfl
@[simp] theorem beginScanHeader_stalled (len : Nat) (ob : Word) : (beginScanHeader len ob s).stalled = s.stalled := rfl
@[simp] theorem beginScanHeader_reads (len : Nat) (ob : Word) : (beginScanHeader len ob s).reads = s.reads := rfl
@[simp] theorem beginScanHeader_sched (len : Nat) (ob : Word) : (beginScanHeader len ob s).sched = s.sched := rfl
@[simp] theorem beginScanHeader_pace (len : Nat) (ob : Word) : (beginScanHeader len ob s).pace = s.pace := rfl
@[simp] theorem beginScanHeader_freeCount (len : Nat) (ob : Word) : (beginScanHeader len ob s).freeCount = s.freeCount := rfl

@[simp] theorem beginMcu_seq : (beginMcu s).seq = .scan (.dcHuff 0 0) := rfl
@[simp] theorem beginMcu_fifo : (beginMcu s).fifo = s.fifo := rfl
@[simp] theorem beginMcu_feMode : (beginMcu s).feMode = s.feMode := rfl
@[simp] theorem beginMcu_feCount : (beginMcu s).feCount = s.feCount := rfl
@[simp] theorem beginMcu_feThenStream : (beginMcu s).feThenStream = s.feThenStream := rfl
@[simp] theorem beginMcu_qt : (beginMcu s).qt = s.qt := rfl
@[simp] theorem beginMcu_qtValid : (beginMcu s).qtValid = s.qtValid := rfl
@[simp] theorem beginMcu_htDc : (beginMcu s).htDc = s.htDc := rfl
@[simp] theorem beginMcu_htAc : (beginMcu s).htAc = s.htAc := rfl
@[simp] theorem beginMcu_htDcValid : (beginMcu s).htDcValid = s.htDcValid := rfl
@[simp] theorem beginMcu_htAcValid : (beginMcu s).htAcValid = s.htAcValid := rfl
@[simp] theorem beginMcu_frame : (beginMcu s).frame = s.frame := rfl
@[simp] theorem beginMcu_td : (beginMcu s).td = s.td := rfl
@[simp] theorem beginMcu_ta : (beginMcu s).ta = s.ta := rfl
@[simp] theorem beginMcu_ob : (beginMcu s).ob = s.ob := rfl
@[simp] theorem beginMcu_cur : (beginMcu s).cur = s.cur := rfl
@[simp] theorem beginMcu_nbits : (beginMcu s).nbits = s.nbits := rfl
@[simp] theorem beginMcu_p : (beginMcu s).p = s.p := rfl
@[simp] theorem beginMcu_pred : (beginMcu s).pred = s.pred := rfl
@[simp] theorem beginMcu_m : (beginMcu s).m = s.m := rfl
@[simp] theorem beginMcu_blk : (beginMcu s).blk = 0 := rfl
@[simp] theorem beginMcu_k : (beginMcu s).k = s.k := rfl
@[simp] theorem beginMcu_rst : (beginMcu s).rst = s.rst := rfl
@[simp] theorem beginMcu_mcuDone : (beginMcu s).mcuDone = s.mcuDone := rfl
@[simp] theorem beginMcu_zz : (beginMcu s).zz = s.zz := rfl
@[simp] theorem beginMcu_b : (beginMcu s).b = s.b := rfl
@[simp] theorem beginMcu_ws : (beginMcu s).ws = s.ws := rfl
@[simp] theorem beginMcu_samples : (beginMcu s).samples = s.samples := rfl
@[simp] theorem beginMcu_dropped : (beginMcu s).dropped = s.dropped := rfl
@[simp] theorem beginMcu_doneEvt : (beginMcu s).doneEvt = s.doneEvt := rfl
@[simp] theorem beginMcu_errEvt : (beginMcu s).errEvt = s.errEvt := rfl
@[simp] theorem beginMcu_doneIe : (beginMcu s).doneIe = s.doneIe := rfl
@[simp] theorem beginMcu_errIe : (beginMcu s).errIe = s.errIe := rfl
@[simp] theorem beginMcu_outBase : (beginMcu s).outBase = s.outBase := rfl
@[simp] theorem beginMcu_errClass : (beginMcu s).errClass = s.errClass := rfl
@[simp] theorem beginMcu_errCause : (beginMcu s).errCause = s.errCause := rfl
@[simp] theorem beginMcu_errOp : (beginMcu s).errOp = s.errOp := rfl
@[simp] theorem beginMcu_curOp : (beginMcu s).curOp = s.curOp := rfl
@[simp] theorem beginMcu_mem : (beginMcu s).mem = s.mem := rfl
@[simp] theorem beginMcu_indet : (beginMcu s).indet = s.indet := rfl
@[simp] theorem beginMcu_clobbered : (beginMcu s).clobbered = s.clobbered := rfl
@[simp] theorem beginMcu_platform : (beginMcu s).platform = s.platform := rfl
@[simp] theorem beginMcu_hostOps : (beginMcu s).hostOps = s.hostOps := rfl
@[simp] theorem beginMcu_stalled : (beginMcu s).stalled = s.stalled := rfl
@[simp] theorem beginMcu_reads : (beginMcu s).reads = s.reads := rfl
@[simp] theorem beginMcu_sched : (beginMcu s).sched = s.sched := rfl
@[simp] theorem beginMcu_pace : (beginMcu s).pace = s.pace := rfl
@[simp] theorem beginMcu_freeCount : (beginMcu s).freeCount = s.freeCount := rfl

@[simp] theorem takeRestart_seq : (takeRestart s).seq = .scan (.dcHuff 0 0) := rfl
@[simp] theorem takeRestart_fifo : (takeRestart s).fifo = s.fifo.drop 2 := rfl
@[simp] theorem takeRestart_feMode : (takeRestart s).feMode = s.feMode := rfl
@[simp] theorem takeRestart_feCount : (takeRestart s).feCount = s.feCount := rfl
@[simp] theorem takeRestart_feThenStream : (takeRestart s).feThenStream = s.feThenStream := rfl
@[simp] theorem takeRestart_qt : (takeRestart s).qt = s.qt := rfl
@[simp] theorem takeRestart_qtValid : (takeRestart s).qtValid = s.qtValid := rfl
@[simp] theorem takeRestart_htDc : (takeRestart s).htDc = s.htDc := rfl
@[simp] theorem takeRestart_htAc : (takeRestart s).htAc = s.htAc := rfl
@[simp] theorem takeRestart_htDcValid : (takeRestart s).htDcValid = s.htDcValid := rfl
@[simp] theorem takeRestart_htAcValid : (takeRestart s).htAcValid = s.htAcValid := rfl
@[simp] theorem takeRestart_frame : (takeRestart s).frame = s.frame := rfl
@[simp] theorem takeRestart_td : (takeRestart s).td = s.td := rfl
@[simp] theorem takeRestart_ta : (takeRestart s).ta = s.ta := rfl
@[simp] theorem takeRestart_ob : (takeRestart s).ob = s.ob := rfl
@[simp] theorem takeRestart_cur : (takeRestart s).cur = s.cur := rfl
@[simp] theorem takeRestart_nbits : (takeRestart s).nbits = 0 := rfl
@[simp] theorem takeRestart_p : (takeRestart s).p = s.p + 2 := rfl
@[simp] theorem takeRestart_pred : (takeRestart s).pred = Vector.replicate 3 0 := rfl
@[simp] theorem takeRestart_m : (takeRestart s).m = s.m := rfl
@[simp] theorem takeRestart_blk : (takeRestart s).blk = 0 := rfl
@[simp] theorem takeRestart_k : (takeRestart s).k = s.k := rfl
@[simp] theorem takeRestart_rst : (takeRestart s).rst = s.rst + 1 := rfl
@[simp] theorem takeRestart_mcuDone : (takeRestart s).mcuDone = s.mcuDone := rfl
@[simp] theorem takeRestart_zz : (takeRestart s).zz = s.zz := rfl
@[simp] theorem takeRestart_b : (takeRestart s).b = s.b := rfl
@[simp] theorem takeRestart_ws : (takeRestart s).ws = s.ws := rfl
@[simp] theorem takeRestart_samples : (takeRestart s).samples = s.samples := rfl
@[simp] theorem takeRestart_dropped : (takeRestart s).dropped = s.dropped := rfl
@[simp] theorem takeRestart_doneEvt : (takeRestart s).doneEvt = s.doneEvt := rfl
@[simp] theorem takeRestart_errEvt : (takeRestart s).errEvt = s.errEvt := rfl
@[simp] theorem takeRestart_doneIe : (takeRestart s).doneIe = s.doneIe := rfl
@[simp] theorem takeRestart_errIe : (takeRestart s).errIe = s.errIe := rfl
@[simp] theorem takeRestart_outBase : (takeRestart s).outBase = s.outBase := rfl
@[simp] theorem takeRestart_errClass : (takeRestart s).errClass = s.errClass := rfl
@[simp] theorem takeRestart_errCause : (takeRestart s).errCause = s.errCause := rfl
@[simp] theorem takeRestart_errOp : (takeRestart s).errOp = s.errOp := rfl
@[simp] theorem takeRestart_curOp : (takeRestart s).curOp = s.curOp := rfl
@[simp] theorem takeRestart_mem : (takeRestart s).mem = s.mem := rfl
@[simp] theorem takeRestart_indet : (takeRestart s).indet = s.indet := rfl
@[simp] theorem takeRestart_clobbered : (takeRestart s).clobbered = s.clobbered := rfl
@[simp] theorem takeRestart_platform : (takeRestart s).platform = s.platform := rfl
@[simp] theorem takeRestart_hostOps : (takeRestart s).hostOps = s.hostOps := rfl
@[simp] theorem takeRestart_stalled : (takeRestart s).stalled = s.stalled := rfl
@[simp] theorem takeRestart_reads : (takeRestart s).reads = s.reads := rfl
@[simp] theorem takeRestart_sched : (takeRestart s).sched = s.sched := rfl
@[simp] theorem takeRestart_pace : (takeRestart s).pace = s.pace := rfl
@[simp] theorem takeRestart_freeCount : (takeRestart s).freeCount = s.freeCount := rfl

@[simp] theorem storeSamples_seq (k : Block) (o : Vector Byte 64) : (storeSamples k o s).seq = s.seq := rfl
@[simp] theorem storeSamples_fifo (k : Block) (o : Vector Byte 64) : (storeSamples k o s).fifo = s.fifo := rfl
@[simp] theorem storeSamples_feMode (k : Block) (o : Vector Byte 64) : (storeSamples k o s).feMode = s.feMode := rfl
@[simp] theorem storeSamples_feCount (k : Block) (o : Vector Byte 64) : (storeSamples k o s).feCount = s.feCount := rfl
@[simp] theorem storeSamples_feThenStream (k : Block) (o : Vector Byte 64) : (storeSamples k o s).feThenStream = s.feThenStream := rfl
@[simp] theorem storeSamples_qt (k : Block) (o : Vector Byte 64) : (storeSamples k o s).qt = s.qt := rfl
@[simp] theorem storeSamples_qtValid (k : Block) (o : Vector Byte 64) : (storeSamples k o s).qtValid = s.qtValid := rfl
@[simp] theorem storeSamples_htDc (k : Block) (o : Vector Byte 64) : (storeSamples k o s).htDc = s.htDc := rfl
@[simp] theorem storeSamples_htAc (k : Block) (o : Vector Byte 64) : (storeSamples k o s).htAc = s.htAc := rfl
@[simp] theorem storeSamples_htDcValid (k : Block) (o : Vector Byte 64) : (storeSamples k o s).htDcValid = s.htDcValid := rfl
@[simp] theorem storeSamples_htAcValid (k : Block) (o : Vector Byte 64) : (storeSamples k o s).htAcValid = s.htAcValid := rfl
@[simp] theorem storeSamples_frame (k : Block) (o : Vector Byte 64) : (storeSamples k o s).frame = s.frame := rfl
@[simp] theorem storeSamples_td (k : Block) (o : Vector Byte 64) : (storeSamples k o s).td = s.td := rfl
@[simp] theorem storeSamples_ta (k : Block) (o : Vector Byte 64) : (storeSamples k o s).ta = s.ta := rfl
@[simp] theorem storeSamples_ob (k : Block) (o : Vector Byte 64) : (storeSamples k o s).ob = s.ob := rfl
@[simp] theorem storeSamples_cur (k : Block) (o : Vector Byte 64) : (storeSamples k o s).cur = s.cur := rfl
@[simp] theorem storeSamples_nbits (k : Block) (o : Vector Byte 64) : (storeSamples k o s).nbits = s.nbits := rfl
@[simp] theorem storeSamples_p (k : Block) (o : Vector Byte 64) : (storeSamples k o s).p = s.p := rfl
@[simp] theorem storeSamples_pred (k : Block) (o : Vector Byte 64) : (storeSamples k o s).pred = s.pred := rfl
@[simp] theorem storeSamples_m (k : Block) (o : Vector Byte 64) : (storeSamples k o s).m = s.m := rfl
@[simp] theorem storeSamples_blk (k : Block) (o : Vector Byte 64) : (storeSamples k o s).blk = s.blk := rfl
@[simp] theorem storeSamples_k (k : Block) (o : Vector Byte 64) : (storeSamples k o s).k = s.k := rfl
@[simp] theorem storeSamples_rst (k : Block) (o : Vector Byte 64) : (storeSamples k o s).rst = s.rst := rfl
@[simp] theorem storeSamples_mcuDone (k : Block) (o : Vector Byte 64) : (storeSamples k o s).mcuDone = s.mcuDone := rfl
@[simp] theorem storeSamples_zz (k : Block) (o : Vector Byte 64) : (storeSamples k o s).zz = s.zz := rfl
@[simp] theorem storeSamples_b (k : Block) (o : Vector Byte 64) : (storeSamples k o s).b = s.b := rfl
@[simp] theorem storeSamples_ws (k : Block) (o : Vector Byte 64) : (storeSamples k o s).ws = s.ws := rfl
@[simp] theorem storeSamples_samples (k : Block) (o : Vector Byte 64) : (storeSamples k o s).samples = s.samples.set k.j (s.samples[k.j].setIfInBounds (4 * k.v + k.h) o) := rfl
@[simp] theorem storeSamples_dropped (k : Block) (o : Vector Byte 64) : (storeSamples k o s).dropped = s.dropped := rfl
@[simp] theorem storeSamples_doneEvt (k : Block) (o : Vector Byte 64) : (storeSamples k o s).doneEvt = s.doneEvt := rfl
@[simp] theorem storeSamples_errEvt (k : Block) (o : Vector Byte 64) : (storeSamples k o s).errEvt = s.errEvt := rfl
@[simp] theorem storeSamples_doneIe (k : Block) (o : Vector Byte 64) : (storeSamples k o s).doneIe = s.doneIe := rfl
@[simp] theorem storeSamples_errIe (k : Block) (o : Vector Byte 64) : (storeSamples k o s).errIe = s.errIe := rfl
@[simp] theorem storeSamples_outBase (k : Block) (o : Vector Byte 64) : (storeSamples k o s).outBase = s.outBase := rfl
@[simp] theorem storeSamples_errClass (k : Block) (o : Vector Byte 64) : (storeSamples k o s).errClass = s.errClass := rfl
@[simp] theorem storeSamples_errCause (k : Block) (o : Vector Byte 64) : (storeSamples k o s).errCause = s.errCause := rfl
@[simp] theorem storeSamples_errOp (k : Block) (o : Vector Byte 64) : (storeSamples k o s).errOp = s.errOp := rfl
@[simp] theorem storeSamples_curOp (k : Block) (o : Vector Byte 64) : (storeSamples k o s).curOp = s.curOp := rfl
@[simp] theorem storeSamples_mem (k : Block) (o : Vector Byte 64) : (storeSamples k o s).mem = s.mem := rfl
@[simp] theorem storeSamples_indet (k : Block) (o : Vector Byte 64) : (storeSamples k o s).indet = s.indet := rfl
@[simp] theorem storeSamples_clobbered (k : Block) (o : Vector Byte 64) : (storeSamples k o s).clobbered = s.clobbered := rfl
@[simp] theorem storeSamples_platform (k : Block) (o : Vector Byte 64) : (storeSamples k o s).platform = s.platform := rfl
@[simp] theorem storeSamples_hostOps (k : Block) (o : Vector Byte 64) : (storeSamples k o s).hostOps = s.hostOps := rfl
@[simp] theorem storeSamples_stalled (k : Block) (o : Vector Byte 64) : (storeSamples k o s).stalled = s.stalled := rfl
@[simp] theorem storeSamples_reads (k : Block) (o : Vector Byte 64) : (storeSamples k o s).reads = s.reads := rfl
@[simp] theorem storeSamples_sched (k : Block) (o : Vector Byte 64) : (storeSamples k o s).sched = s.sched := rfl
@[simp] theorem storeSamples_pace (k : Block) (o : Vector Byte 64) : (storeSamples k o s).pace = s.pace := rfl
@[simp] theorem storeSamples_freeCount (k : Block) (o : Vector Byte 64) : (storeSamples k o s).freeCount = s.freeCount := rfl

@[simp] theorem scanComplete_seq : (scanComplete s).seq = .done := rfl
@[simp] theorem scanComplete_fifo : (scanComplete s).fifo = [] := rfl
@[simp] theorem scanComplete_feMode : (scanComplete s).feMode = .none := rfl
@[simp] theorem scanComplete_feCount : (scanComplete s).feCount = 0 := rfl
@[simp] theorem scanComplete_feThenStream : (scanComplete s).feThenStream = false := rfl
@[simp] theorem scanComplete_qt : (scanComplete s).qt = s.qt := rfl
@[simp] theorem scanComplete_qtValid : (scanComplete s).qtValid = s.qtValid := rfl
@[simp] theorem scanComplete_htDc : (scanComplete s).htDc = s.htDc := rfl
@[simp] theorem scanComplete_htAc : (scanComplete s).htAc = s.htAc := rfl
@[simp] theorem scanComplete_htDcValid : (scanComplete s).htDcValid = s.htDcValid := rfl
@[simp] theorem scanComplete_htAcValid : (scanComplete s).htAcValid = s.htAcValid := rfl
@[simp] theorem scanComplete_frame : (scanComplete s).frame = s.frame := rfl
@[simp] theorem scanComplete_td : (scanComplete s).td = s.td := rfl
@[simp] theorem scanComplete_ta : (scanComplete s).ta = s.ta := rfl
@[simp] theorem scanComplete_ob : (scanComplete s).ob = s.ob := rfl
@[simp] theorem scanComplete_cur : (scanComplete s).cur = s.cur := rfl
@[simp] theorem scanComplete_nbits : (scanComplete s).nbits = 0 := rfl
@[simp] theorem scanComplete_p : (scanComplete s).p = s.p := rfl
@[simp] theorem scanComplete_pred : (scanComplete s).pred = s.pred := rfl
@[simp] theorem scanComplete_m : (scanComplete s).m = s.m := rfl
@[simp] theorem scanComplete_blk : (scanComplete s).blk = s.blk := rfl
@[simp] theorem scanComplete_k : (scanComplete s).k = s.k := rfl
@[simp] theorem scanComplete_rst : (scanComplete s).rst = s.rst := rfl
@[simp] theorem scanComplete_mcuDone : (scanComplete s).mcuDone = s.mcuDone := rfl
@[simp] theorem scanComplete_zz : (scanComplete s).zz = s.zz := rfl
@[simp] theorem scanComplete_b : (scanComplete s).b = s.b := rfl
@[simp] theorem scanComplete_ws : (scanComplete s).ws = s.ws := rfl
@[simp] theorem scanComplete_samples : (scanComplete s).samples = s.samples := rfl
@[simp] theorem scanComplete_dropped : (scanComplete s).dropped = s.dropped := rfl
@[simp] theorem scanComplete_doneEvt : (scanComplete s).doneEvt = true := rfl
@[simp] theorem scanComplete_errEvt : (scanComplete s).errEvt = s.errEvt := rfl
@[simp] theorem scanComplete_doneIe : (scanComplete s).doneIe = s.doneIe := rfl
@[simp] theorem scanComplete_errIe : (scanComplete s).errIe = s.errIe := rfl
@[simp] theorem scanComplete_outBase : (scanComplete s).outBase = s.outBase := rfl
@[simp] theorem scanComplete_errClass : (scanComplete s).errClass = s.errClass := rfl
@[simp] theorem scanComplete_errCause : (scanComplete s).errCause = s.errCause := rfl
@[simp] theorem scanComplete_errOp : (scanComplete s).errOp = s.errOp := rfl
@[simp] theorem scanComplete_curOp : (scanComplete s).curOp = s.curOp := rfl
@[simp] theorem scanComplete_mem : (scanComplete s).mem = s.mem := rfl
@[simp] theorem scanComplete_indet : (scanComplete s).indet = indetAfterDone s := rfl
@[simp] theorem scanComplete_clobbered : (scanComplete s).clobbered = [] := rfl
@[simp] theorem scanComplete_platform : (scanComplete s).platform = s.platform := rfl
@[simp] theorem scanComplete_hostOps : (scanComplete s).hostOps = s.hostOps := rfl
@[simp] theorem scanComplete_stalled : (scanComplete s).stalled = s.stalled := rfl
@[simp] theorem scanComplete_reads : (scanComplete s).reads = s.reads := rfl
@[simp] theorem scanComplete_sched : (scanComplete s).sched = s.sched := rfl
@[simp] theorem scanComplete_pace : (scanComplete s).pace = s.pace := rfl
@[simp] theorem scanComplete_freeCount : (scanComplete s).freeCount = s.freeCount := rfl

@[simp] theorem storeHt_seq (c : TableClass) (i : Fin 4) (t : HuffTable) : (storeHt c i t s).seq = s.seq := by cases c <;> rfl
@[simp] theorem storeHt_fifo (c : TableClass) (i : Fin 4) (t : HuffTable) : (storeHt c i t s).fifo = s.fifo := by cases c <;> rfl
@[simp] theorem storeHt_feMode (c : TableClass) (i : Fin 4) (t : HuffTable) : (storeHt c i t s).feMode = s.feMode := by cases c <;> rfl
@[simp] theorem storeHt_feCount (c : TableClass) (i : Fin 4) (t : HuffTable) : (storeHt c i t s).feCount = s.feCount := by cases c <;> rfl
@[simp] theorem storeHt_feThenStream (c : TableClass) (i : Fin 4) (t : HuffTable) : (storeHt c i t s).feThenStream = s.feThenStream := by cases c <;> rfl
@[simp] theorem storeHt_qt (c : TableClass) (i : Fin 4) (t : HuffTable) : (storeHt c i t s).qt = s.qt := by cases c <;> rfl
@[simp] theorem storeHt_qtValid (c : TableClass) (i : Fin 4) (t : HuffTable) : (storeHt c i t s).qtValid = s.qtValid := by cases c <;> rfl
@[simp] theorem storeHt_frame (c : TableClass) (i : Fin 4) (t : HuffTable) : (storeHt c i t s).frame = s.frame := by cases c <;> rfl
@[simp] theorem storeHt_td (c : TableClass) (i : Fin 4) (t : HuffTable) : (storeHt c i t s).td = s.td := by cases c <;> rfl
@[simp] theorem storeHt_ta (c : TableClass) (i : Fin 4) (t : HuffTable) : (storeHt c i t s).ta = s.ta := by cases c <;> rfl
@[simp] theorem storeHt_ob (c : TableClass) (i : Fin 4) (t : HuffTable) : (storeHt c i t s).ob = s.ob := by cases c <;> rfl
@[simp] theorem storeHt_cur (c : TableClass) (i : Fin 4) (t : HuffTable) : (storeHt c i t s).cur = s.cur := by cases c <;> rfl
@[simp] theorem storeHt_nbits (c : TableClass) (i : Fin 4) (t : HuffTable) : (storeHt c i t s).nbits = s.nbits := by cases c <;> rfl
@[simp] theorem storeHt_p (c : TableClass) (i : Fin 4) (t : HuffTable) : (storeHt c i t s).p = s.p := by cases c <;> rfl
@[simp] theorem storeHt_pred (c : TableClass) (i : Fin 4) (t : HuffTable) : (storeHt c i t s).pred = s.pred := by cases c <;> rfl
@[simp] theorem storeHt_m (c : TableClass) (i : Fin 4) (t : HuffTable) : (storeHt c i t s).m = s.m := by cases c <;> rfl
@[simp] theorem storeHt_blk (c : TableClass) (i : Fin 4) (t : HuffTable) : (storeHt c i t s).blk = s.blk := by cases c <;> rfl
@[simp] theorem storeHt_k (c : TableClass) (i : Fin 4) (t : HuffTable) : (storeHt c i t s).k = s.k := by cases c <;> rfl
@[simp] theorem storeHt_rst (c : TableClass) (i : Fin 4) (t : HuffTable) : (storeHt c i t s).rst = s.rst := by cases c <;> rfl
@[simp] theorem storeHt_mcuDone (c : TableClass) (i : Fin 4) (t : HuffTable) : (storeHt c i t s).mcuDone = s.mcuDone := by cases c <;> rfl
@[simp] theorem storeHt_zz (c : TableClass) (i : Fin 4) (t : HuffTable) : (storeHt c i t s).zz = s.zz := by cases c <;> rfl
@[simp] theorem storeHt_b (c : TableClass) (i : Fin 4) (t : HuffTable) : (storeHt c i t s).b = s.b := by cases c <;> rfl
@[simp] theorem storeHt_ws (c : TableClass) (i : Fin 4) (t : HuffTable) : (storeHt c i t s).ws = s.ws := by cases c <;> rfl
@[simp] theorem storeHt_samples (c : TableClass) (i : Fin 4) (t : HuffTable) : (storeHt c i t s).samples = s.samples := by cases c <;> rfl
@[simp] theorem storeHt_dropped (c : TableClass) (i : Fin 4) (t : HuffTable) : (storeHt c i t s).dropped = s.dropped := by cases c <;> rfl
@[simp] theorem storeHt_doneEvt (c : TableClass) (i : Fin 4) (t : HuffTable) : (storeHt c i t s).doneEvt = s.doneEvt := by cases c <;> rfl
@[simp] theorem storeHt_errEvt (c : TableClass) (i : Fin 4) (t : HuffTable) : (storeHt c i t s).errEvt = s.errEvt := by cases c <;> rfl
@[simp] theorem storeHt_doneIe (c : TableClass) (i : Fin 4) (t : HuffTable) : (storeHt c i t s).doneIe = s.doneIe := by cases c <;> rfl
@[simp] theorem storeHt_errIe (c : TableClass) (i : Fin 4) (t : HuffTable) : (storeHt c i t s).errIe = s.errIe := by cases c <;> rfl
@[simp] theorem storeHt_outBase (c : TableClass) (i : Fin 4) (t : HuffTable) : (storeHt c i t s).outBase = s.outBase := by cases c <;> rfl
@[simp] theorem storeHt_errClass (c : TableClass) (i : Fin 4) (t : HuffTable) : (storeHt c i t s).errClass = s.errClass := by cases c <;> rfl
@[simp] theorem storeHt_errCause (c : TableClass) (i : Fin 4) (t : HuffTable) : (storeHt c i t s).errCause = s.errCause := by cases c <;> rfl
@[simp] theorem storeHt_errOp (c : TableClass) (i : Fin 4) (t : HuffTable) : (storeHt c i t s).errOp = s.errOp := by cases c <;> rfl
@[simp] theorem storeHt_curOp (c : TableClass) (i : Fin 4) (t : HuffTable) : (storeHt c i t s).curOp = s.curOp := by cases c <;> rfl
@[simp] theorem storeHt_mem (c : TableClass) (i : Fin 4) (t : HuffTable) : (storeHt c i t s).mem = s.mem := by cases c <;> rfl
@[simp] theorem storeHt_indet (c : TableClass) (i : Fin 4) (t : HuffTable) : (storeHt c i t s).indet = s.indet := by cases c <;> rfl
@[simp] theorem storeHt_clobbered (c : TableClass) (i : Fin 4) (t : HuffTable) : (storeHt c i t s).clobbered = s.clobbered := by cases c <;> rfl
@[simp] theorem storeHt_platform (c : TableClass) (i : Fin 4) (t : HuffTable) : (storeHt c i t s).platform = s.platform := by cases c <;> rfl
@[simp] theorem storeHt_hostOps (c : TableClass) (i : Fin 4) (t : HuffTable) : (storeHt c i t s).hostOps = s.hostOps := by cases c <;> rfl
@[simp] theorem storeHt_stalled (c : TableClass) (i : Fin 4) (t : HuffTable) : (storeHt c i t s).stalled = s.stalled := by cases c <;> rfl
@[simp] theorem storeHt_reads (c : TableClass) (i : Fin 4) (t : HuffTable) : (storeHt c i t s).reads = s.reads := by cases c <;> rfl
@[simp] theorem storeHt_sched (c : TableClass) (i : Fin 4) (t : HuffTable) : (storeHt c i t s).sched = s.sched := by cases c <;> rfl
@[simp] theorem storeHt_pace (c : TableClass) (i : Fin 4) (t : HuffTable) : (storeHt c i t s).pace = s.pace := by cases c <;> rfl
@[simp] theorem storeHt_freeCount (c : TableClass) (i : Fin 4) (t : HuffTable) : (storeHt c i t s).freeCount = s.freeCount := by cases c <;> rfl
@[simp] theorem storeHt_dc_htDc (i : Fin 4) (t : HuffTable) : (storeHt .dc i t s).htDc = s.htDc.set i t := rfl
@[simp] theorem storeHt_dc_htAc (i : Fin 4) (t : HuffTable) : (storeHt .dc i t s).htAc = s.htAc := rfl
@[simp] theorem storeHt_dc_htDcValid (i : Fin 4) (t : HuffTable) : (storeHt .dc i t s).htDcValid = s.htDcValid.set i true := rfl
@[simp] theorem storeHt_dc_htAcValid (i : Fin 4) (t : HuffTable) : (storeHt .dc i t s).htAcValid = s.htAcValid := rfl
@[simp] theorem storeHt_ac_htDc (i : Fin 4) (t : HuffTable) : (storeHt .ac i t s).htDc = s.htDc := rfl
@[simp] theorem storeHt_ac_htAc (i : Fin 4) (t : HuffTable) : (storeHt .ac i t s).htAc = s.htAc.set i t := rfl
@[simp] theorem storeHt_ac_htDcValid (i : Fin 4) (t : HuffTable) : (storeHt .ac i t s).htDcValid = s.htDcValid := rfl
@[simp] theorem storeHt_ac_htAcValid (i : Fin 4) (t : HuffTable) : (storeHt .ac i t s).htAcValid = s.htAcValid.set i true := rfl

theorem resetCore_seq : (resetCore s).seq = State.reset.seq := rfl
theorem resetCore_fifo : (resetCore s).fifo = State.reset.fifo := rfl
theorem resetCore_feMode : (resetCore s).feMode = State.reset.feMode := rfl
theorem resetCore_feCount : (resetCore s).feCount = State.reset.feCount := rfl
theorem resetCore_feThenStream : (resetCore s).feThenStream = State.reset.feThenStream := rfl
theorem resetCore_qt : (resetCore s).qt = State.reset.qt := rfl
theorem resetCore_qtValid : (resetCore s).qtValid = State.reset.qtValid := rfl
theorem resetCore_htDc : (resetCore s).htDc = State.reset.htDc := rfl
theorem resetCore_htAc : (resetCore s).htAc = State.reset.htAc := rfl
theorem resetCore_htDcValid : (resetCore s).htDcValid = State.reset.htDcValid := rfl
theorem resetCore_htAcValid : (resetCore s).htAcValid = State.reset.htAcValid := rfl
theorem resetCore_frame : (resetCore s).frame = State.reset.frame := rfl
theorem resetCore_td : (resetCore s).td = State.reset.td := rfl
theorem resetCore_ta : (resetCore s).ta = State.reset.ta := rfl
theorem resetCore_ob : (resetCore s).ob = State.reset.ob := rfl
theorem resetCore_cur : (resetCore s).cur = State.reset.cur := rfl
theorem resetCore_nbits : (resetCore s).nbits = State.reset.nbits := rfl
theorem resetCore_p : (resetCore s).p = State.reset.p := rfl
theorem resetCore_pred : (resetCore s).pred = State.reset.pred := rfl
theorem resetCore_m : (resetCore s).m = State.reset.m := rfl
theorem resetCore_blk : (resetCore s).blk = State.reset.blk := rfl
theorem resetCore_k : (resetCore s).k = State.reset.k := rfl
theorem resetCore_rst : (resetCore s).rst = State.reset.rst := rfl
theorem resetCore_mcuDone : (resetCore s).mcuDone = State.reset.mcuDone := rfl
theorem resetCore_zz : (resetCore s).zz = State.reset.zz := rfl
theorem resetCore_b : (resetCore s).b = State.reset.b := rfl
theorem resetCore_ws : (resetCore s).ws = State.reset.ws := rfl
theorem resetCore_samples : (resetCore s).samples = State.reset.samples := rfl
theorem resetCore_dropped : (resetCore s).dropped = State.reset.dropped := rfl
theorem resetCore_doneEvt : (resetCore s).doneEvt = State.reset.doneEvt := rfl
theorem resetCore_errEvt : (resetCore s).errEvt = State.reset.errEvt := rfl
theorem resetCore_doneIe : (resetCore s).doneIe = State.reset.doneIe := rfl
theorem resetCore_errIe : (resetCore s).errIe = State.reset.errIe := rfl
theorem resetCore_outBase : (resetCore s).outBase = State.reset.outBase := rfl
theorem resetCore_errClass : (resetCore s).errClass = State.reset.errClass := rfl
theorem resetCore_errCause : (resetCore s).errCause = State.reset.errCause := rfl
theorem resetCore_errOp : (resetCore s).errOp = State.reset.errOp := rfl
theorem resetCore_curOp : (resetCore s).curOp = State.reset.curOp := rfl
@[simp] theorem resetCore_mem : (resetCore s).mem = s.mem := rfl
@[simp] theorem resetCore_indet : (resetCore s).indet = indetAfterAbort s := rfl
theorem resetCore_clobbered : (resetCore s).clobbered = State.reset.clobbered := rfl
@[simp] theorem resetCore_platform : (resetCore s).platform = s.platform := rfl
@[simp] theorem resetCore_hostOps : (resetCore s).hostOps = s.hostOps := rfl
@[simp] theorem resetCore_stalled : (resetCore s).stalled = s.stalled := rfl
@[simp] theorem resetCore_reads : (resetCore s).reads = s.reads := rfl
@[simp] theorem resetCore_sched : (resetCore s).sched = s.sched := rfl
@[simp] theorem resetCore_pace : (resetCore s).pace = s.pace := rfl
@[simp] theorem resetCore_freeCount : (resetCore s).freeCount = s.freeCount := rfl

end

end Sys2Proof.Machine
end

