-- ==== Sys2Proof/Laws/Bits.lean ====
section
/-! SUPPORT. The bit reader against the coded bits a state holds ready: what reading one bit, several bits or a Huffman code
word can do. -/

namespace Sys2Proof.Machine

theorem lowBits_zero (b : Byte) : lowBits b 0 = [] := rfl

theorem lowBits_succ (b : Byte) (n : Nat) : lowBits b (n + 1) = b.getLsbD n :: lowBits b n := by
  simp [lowBits, List.range_succ]

theorem lowBits_length (b : Byte) (n : Nat) : (lowBits b n).length = n := by simp [lowBits]

theorem ecsBits_data {b : Byte} (rest : List FifoEntry) (h : b ≠ 0xFF#8) :
    ecsBits (.data b :: rest) = lowBits b 8 ++ ecsBits rest := by
  rcases rest with _ | ⟨_ | b1, rest⟩ <;> simp [ecsBits, h]

theorem ecsBits_stuffed (rest : List FifoEntry) :
    ecsBits (.data 0xFF#8 :: .data 0x00#8 :: rest) = lowBits 0xFF#8 8 ++ ecsBits rest := by
  have : lowBits 0xFF#8 8 = List.replicate 8 true := by decide
  rw [this]; simp [ecsBits]

theorem bitsValue_nil : bitsValue [] = 0 := rfl

theorem foldl_bits (l : List Bool) (v : Nat) :
    l.foldl (fun v b => 2 * v + b.toNat) v = 2 ^ l.length * v + bitsValue l := by
  induction l generalizing v with
  | nil => simp [bitsValue]
  | cons b l ih =>
    simp only [List.foldl_cons, List.length_cons, bitsValue]
    rw [ih, ih (2 * 0 + b.toNat)]
    ring

theorem bitsValue_append (l r : List Bool) : bitsValue (l ++ r) = 2 ^ r.length * bitsValue l + bitsValue r := by
  rw [bitsValue, List.foldl_append, foldl_bits]
  rfl

theorem bitsValue_lt (l : List Bool) : bitsValue l < 2 ^ l.length := by
  induction l using List.reverseRecOn with
  | nil => simp [bitsValue]
  | append_singleton l b ih =>
    rw [bitsValue_append, List.length_append, pow_add]
    have : bitsValue [b] < 2 := by cases b <;> decide
    simp only [List.length_singleton, pow_one]
    omega

theorem SameButReader.refl (s : State) : SameButReader s s := ⟨rfl, rfl⟩

theorem SameButReader.trans {u t s : State} (h : SameButReader u t) (h' : SameButReader t s) : SameButReader u s := by
  obtain ⟨h1, h2⟩ := h
  obtain ⟨h3, h4⟩ := h'
  refine ⟨?_, h2.trans h4⟩
  rw [h1, h3]

/-- The state after reading, field by field. -/
theorem SameButReader.parts {u s : State} (h : SameButReader u s) :
    ∃ c n f p, u = { s with cur := c, nbits := n, fifo := f, p := p } ∧ p + f.length = s.p + s.fifo.length :=
  ⟨_, _, _, _, h.1, h.2⟩

/-- What reading a bit can do where a coded bit is ready. -/
theorem readBit_cons {s : State} {b : Bool} {tail : List Bool} (h : codedBits s = b :: tail) :
    ∃ u, readBit s = .got b.toNat u ∧ codedBits u = tail ∧ SameButReader u s := by
  unfold readBit
  by_cases hn : s.nbits = 0
  · rw [if_pos hn]
    simp only [codedBits, hn, lowBits_zero, List.nil_append] at h
    match hf : s.fifo with
    | [] => rw [hf] at h; cases h
    | .cmd _ _ _ _ :: _ => rw [hf] at h; cases h
    | .data b0 :: rest =>
      rw [hf] at h
      by_cases hb : b0 = 0xFF#8
      · subst hb
        match rest with
        | [] => cases h
        | .cmd _ _ _ _ :: _ => cases h
        | .data b1 :: rest =>
          by_cases hb1 : b1 = 0#8
          · subst hb1
            rw [ecsBits_stuffed, lowBits_succ, List.cons_append, List.cons.injEq] at h
            refine ⟨(takeBit (takeStuffed s)).2, ?_, ?_, ?_⟩
            · simp [fillByte, peekByte, hf, FifoEntry.isData, FifoEntry.byte, takeBit, takeStuffed, ← h.1]
            · rw [← h.2]; simp [codedBits, takeBit, takeStuffed, consume, hf]
            · exact ⟨by simp [takeBit, takeStuffed, consume], by simp [takeBit, takeStuffed, consume, hf]; omega⟩
          · simp [ecsBits, hb1] at h
      · rw [ecsBits_data _ hb, lowBits_succ, List.cons_append, List.cons.injEq] at h
        refine ⟨(takeBit (takeDataByte b0 s)).2, ?_, ?_, ?_⟩
        · simp [fillByte, peekByte, hf, FifoEntry.isData, FifoEntry.byte, takeBit, takeDataByte, hb, ← h.1]
        · rw [← h.2]; simp [codedBits, takeBit, takeDataByte, consume, hf]
        · exact ⟨by simp [takeBit, takeDataByte, consume], by simp [takeBit, takeDataByte, consume, hf]; omega⟩
  · rw [if_neg hn]
    obtain ⟨n, hn'⟩ := Nat.exists_eq_succ_of_ne_zero hn
    simp only [codedBits, hn', lowBits_succ, List.cons_append, List.cons.injEq] at h
    refine ⟨(takeBit s).2, ?_, ?_, ?_⟩
    · simp [takeBit, hn', ← h.1]
    · rw [← h.2]; simp [codedBits, takeBit, hn']
    · exact ⟨by simp [takeBit], by simp [takeBit]⟩

/-- Reading a bit where none is ready waits or raises. -/
theorem readBit_nil {s : State} (h : codedBits s = []) :
    s.nbits = 0 ∧ ((readBit s = .hold ∧ (s.fifo = [] ∨ s.fifo = [.data 0xFF#8])) ∨
      (∃ b rest, s.fifo = .data 0xFF#8 :: .data b :: rest ∧ b ≠ 0#8 ∧ readBit s = .raised (raise .endOfSegment s)) ∨
      ((∃ op a l o rest, s.fifo = .cmd op a l o :: rest ∨ s.fifo = .data 0xFF#8 :: .cmd op a l o :: rest) ∧
        readBit s = .raised (raise .sequence s))) := by
  have hn : s.nbits = 0 := by
    by_contra hn
    obtain ⟨n, hn'⟩ := Nat.exists_eq_succ_of_ne_zero hn
    simp [codedBits, hn', lowBits_succ] at h
  refine ⟨hn, ?_⟩
  simp only [codedBits, hn, lowBits_zero, List.nil_append] at h
  unfold readBit
  rw [if_pos hn]
  match hf : s.fifo with
  | [] => simp [fillByte, peekByte, hf]
  | .cmd op a l o :: rest =>
    refine .inr (.inr ⟨⟨op, a, l, o, rest, .inl rfl⟩, ?_⟩)
    simp [fillByte, peekByte, hf, FifoEntry.isData]
  | .data b0 :: rest =>
    rw [hf] at h
    by_cases hb : b0 = 0xFF#8
    · subst hb
      match rest with
      | [] => simp [fillByte, peekByte, hf, FifoEntry.isData, FifoEntry.byte]
      | .cmd op a l o :: rest =>
        refine .inr (.inr ⟨⟨op, a, l, o, rest, .inr rfl⟩, ?_⟩)
        simp [fillByte, peekByte, hf, FifoEntry.isData, FifoEntry.byte]
      | .data b1 :: rest =>
        have hb1 : b1 ≠ 0#8 := by
          rintro rfl
          rw [ecsBits_stuffed, lowBits_succ] at h
          cases h
        refine .inr (.inl ⟨b1, rest, rfl, hb1, ?_⟩)
        simp [fillByte, peekByte, hf, FifoEntry.isData, FifoEntry.byte, hb1]
    · rw [ecsBits_data _ hb, lowBits_succ] at h
      cases h

/-- Everything `fill_byte` can do. -/
theorem fillByte_cases (s : State) :
    fillByte s = .hold ∨ (∃ c, fillByte s = .raised (raise c s)) ∨
      ∃ u, fillByte s = .got () u ∧ SameButReader u s ∧ u.nbits = 8 ∧ u.fifo <:+ s.fifo := by
  unfold fillByte
  match hf : s.fifo with
  | [] => simp [peekByte, hf]
  | .cmd _ _ _ _ :: _ => exact .inr (.inl ⟨.sequence, by simp [peekByte, hf, FifoEntry.isData]⟩)
  | .data b0 :: rest =>
    by_cases hb : b0 = 0xFF#8
    · match rest with
      | [] => simp [peekByte, hf, FifoEntry.isData, FifoEntry.byte, hb]
      | .cmd _ _ _ _ :: _ =>
        exact .inr (.inl ⟨.sequence, by simp [peekByte, hf, FifoEntry.isData, FifoEntry.byte, hb]⟩)
      | .data b1 :: rest =>
        by_cases hb1 : b1 = 0#8
        · refine .inr (.inr ⟨takeStuffed s, ?_, ⟨rfl, ?_⟩, rfl, ?_⟩)
          · simp [peekByte, hf, FifoEntry.isData, FifoEntry.byte, hb, hb1]
          · simp [takeStuffed, consume, hf]; omega
          · simp only [takeStuffed, consume, hf]; exact ⟨[_, _], rfl⟩
        · exact .inr (.inl ⟨.endOfSegment, by simp [peekByte, hf, FifoEntry.isData, FifoEntry.byte, hb, hb1]⟩)
    · refine .inr (.inr ⟨takeDataByte b0 s, ?_, ⟨rfl, ?_⟩, rfl, ?_⟩)
      · simp [peekByte, hf, FifoEntry.isData, FifoEntry.byte, hb]
      · simp [takeDataByte, consume, hf]; omega
      · simp only [takeDataByte, consume, hf]; exact ⟨[_], rfl⟩

theorem takeBit_fst_le (s : State) : (takeBit s).1 ≤ 1 := Bool.toNat_le _

/-- A state the reader may leave: the entries taken come off the FIFO's head, and `nbits` keeps its bound (R37). -/
structure ReaderMoved (u s : State) : Prop where
  same   : SameButReader u s
  suffix : u.fifo <:+ s.fifo
  bits   : s.nbits ≤ 8 → u.nbits ≤ 8

theorem ReaderMoved.refl (s : State) : ReaderMoved s s := ⟨.refl s, List.suffix_rfl, id⟩

theorem ReaderMoved.trans {u t s : State} (h : ReaderMoved u t) (h' : ReaderMoved t s) : ReaderMoved u s :=
  ⟨h.same.trans h'.same, h.suffix.trans h'.suffix, fun hs => h.bits (h'.bits hs)⟩

/-- Everything `read_bit` can do. -/
theorem readBit_cases (s : State) :
    readBit s = .hold ∨ (∃ c, readBit s = .raised (raise c s)) ∨
      ∃ bit u, readBit s = .got bit u ∧ bit ≤ 1 ∧ ReaderMoved u s := by
  unfold readBit
  by_cases hn : s.nbits = 0
  · rw [if_pos hn]
    rcases fillByte_cases s with h | ⟨c, h⟩ | ⟨u, h, hs, hb, hf⟩
    · exact .inl (by rw [h])
    · exact .inr (.inl ⟨c, by rw [h]⟩)
    · refine .inr (.inr ⟨(takeBit u).1, (takeBit u).2, by rw [h], takeBit_fst_le u, ?_, hf, fun _ => ?_⟩)
      · exact SameButReader.trans ⟨rfl, rfl⟩ hs
      · simp only [takeBit, hb]; omega
  · rw [if_neg hn]
    refine .inr (.inr ⟨_, _, rfl, takeBit_fst_le s, ⟨rfl, rfl⟩, List.suffix_rfl, fun h => ?_⟩)
    simp only [takeBit]; omega

/-- A coded byte that is there is taken whatever entries stand behind. -/
theorem fillByte_more {s u : State} (h : fillByte s = .got () u) (later : List FifoEntry) :
    fillByte { s with fifo := s.fifo ++ later } = .got () { u with fifo := u.fifo ++ later } := by
  match hf : s.fifo with
  | [] => simp [fillByte, peekByte, hf] at h
  | .cmd _ _ _ _ :: _ => simp [fillByte, peekByte, hf, FifoEntry.isData] at h
  | .data b :: rest =>
    by_cases hb : b = 0xFF#8
    · subst hb
      match rest, hf with
      | [], hf => simp [fillByte, peekByte, hf, FifoEntry.isData, FifoEntry.byte] at h
      | .cmd _ _ _ _ :: _, hf => simp [fillByte, peekByte, hf, FifoEntry.isData, FifoEntry.byte] at h
      | .data b1 :: rest, hf =>
        by_cases h1 : b1 = 0x00#8
        · obtain rfl : takeStuffed s = u := by
            simpa [fillByte, peekByte, hf, FifoEntry.isData, FifoEntry.byte, h1] using h
          simp [fillByte, peekByte, FifoEntry.isData, FifoEntry.byte, h1, takeStuffed, consume, hf]
        · simp [fillByte, peekByte, hf, FifoEntry.isData, FifoEntry.byte, h1] at h
    · obtain rfl : takeDataByte b s = u := by
        simpa [fillByte, peekByte, hf, FifoEntry.isData, FifoEntry.byte, hb] using h
      simp [fillByte, peekByte, FifoEntry.isData, FifoEntry.byte, hb, takeDataByte, consume, hf]

/-- A bit that is there is read whatever entries stand behind. -/
theorem readBit_more {s u : State} {bit : Nat} (h : readBit s = .got bit u) (later : List FifoEntry) :
    readBit { s with fifo := s.fifo ++ later } = .got bit { u with fifo := u.fifo ++ later } := by
  unfold readBit at h ⊢
  by_cases hn : s.nbits = 0
  · simp only [hn, if_true] at h ⊢
    rcases fillByte_cases s with e | ⟨c, e⟩ | ⟨v, e, -, -, -⟩ <;> rw [e] at h
    · cases h
    · cases h
    · obtain ⟨rfl, rfl⟩ := Got.got.inj h
      have := fillByte_more e later
      simp only [hn] at this
      rw [this]; rfl
  · simp only [hn, if_false] at h ⊢
    obtain ⟨rfl, rfl⟩ := Got.got.inj h
    rfl

/-- Everything the loop of `read_bits` can do, with `v` below `2^a` read before it. -/
theorem readBitsLoop_cases (fuel : Nat) : ∀ (n v a : Nat) (s : State), v < 2 ^ a →
    (∃ v' u, readBitsLoop fuel n v s = .ended v' u ∧ v' < 2 ^ (a + n) ∧ ReaderMoved u s) ∨
    (∃ n' v' u, readBitsLoop fuel n v s = .waiting n' v' u ∧ 0 < n' ∧ n' ≤ n ∧ v' < 2 ^ (a + n - n') ∧ ReaderMoved u s) ∨
    (∃ c u, readBitsLoop fuel n v s = .raised (raise c u) ∧ ReaderMoved u s) := by
  induction fuel with
  | zero =>
    intro n v a s hv
    cases n with
    | zero => exact .inl ⟨v, s, rfl, by simpa using hv, .refl s⟩
    | succ n => exact .inr (.inl ⟨n + 1, v, s, rfl, by omega, le_rfl, by simpa using hv, .refl s⟩)
  | succ fuel ih =>
    intro n v a s hv
    cases n with
    | zero => exact .inl ⟨v, s, rfl, by simpa using hv, .refl s⟩
    | succ n =>
      rcases readBit_cases s with h | ⟨c, h⟩ | ⟨bit, u, h, hbit, hu⟩
      · exact .inr (.inl ⟨n + 1, v, s, by simp [readBitsLoop, h], by omega, le_rfl, by simpa using hv, .refl s⟩)
      · exact .inr (.inr ⟨c, s, by simp [readBitsLoop, h], .refl s⟩)
      · have hv' : 2 * v + bit < 2 ^ (a + 1) := by rw [pow_succ]; omega
        have e : readBitsLoop (fuel + 1) (n + 1) v s = readBitsLoop fuel n (2 * v + bit) u := by
          simp [readBitsLoop, h]
        rw [e]
        rcases ih n (2 * v + bit) (a + 1) u hv' with ⟨v', w, h1, h2, h3⟩ | ⟨n', v', w, h0, h1, h2, h3, h4⟩ | ⟨c, w, h1, h2⟩
        · exact .inl ⟨v', w, h1, by rwa [show a + (n + 1) = a + 1 + n by omega], h3.trans hu⟩
        · exact .inr (.inl ⟨n', v', w, h0, h1, by omega, by rwa [show a + (n + 1) - n' = a + 1 + n - n' by omega],
            h4.trans hu⟩)
        · exact .inr (.inr ⟨c, w, h1, h2.trans hu⟩)

/-- Everything the loop of `huff_decode` can do. -/
theorem huffLoop_cases (t : HuffTable) (fuel : Nat) : ∀ (l c : Nat) (s : State),
    (∃ sym u, huffLoop t fuel l c s = .symbol sym u ∧ ReaderMoved u s) ∨
    (∃ l' c' u, huffLoop t fuel l c s = .waiting l' c' u ∧ ReaderMoved u s) ∨
    (∃ e u, huffLoop t fuel l c s = .raised (raise e u) ∧ ReaderMoved u s) := by
  induction fuel with
  | zero => intro l c s; exact .inr (.inl ⟨l, c, s, rfl, .refl s⟩)
  | succ fuel ih =>
    intro l c s
    rcases readBit_cases s with h | ⟨e, h⟩ | ⟨bit, u, h, -, hu⟩
    · exact .inr (.inl ⟨l, c, s, by simp [huffLoop, h], .refl s⟩)
    · exact .inr (.inr ⟨e, s, by simp [huffLoop, h], .refl s⟩)
    · simp only [huffLoop, h]
      split
      · exact .inl ⟨_, u, rfl, hu⟩
      · split
        · rcases ih (l + 1) (2 * c + bit) u with ⟨sym, w, h1, h2⟩ | ⟨l', c', w, h1, h2⟩ | ⟨e, w, h1, h2⟩
          · exact .inl ⟨sym, w, h1, h2.trans hu⟩
          · exact .inr (.inl ⟨l', c', w, h1, h2.trans hu⟩)
          · exact .inr (.inr ⟨e, w, h1, h2.trans hu⟩)
        · exact .inr (.inr ⟨.huffNoCode, u, rfl, hu⟩)

/-- The loop of `read_bits` where its bits are ready. -/
theorem readBitsLoop_ended (n : Nat) : ∀ (v : Nat) (s : State), n ≤ (codedBits s).length →
    ∃ u, readBitsLoop n n v s = .ended (2 ^ n * v + bitsValue ((codedBits s).take n)) u ∧
      codedBits u = (codedBits s).drop n ∧ SameButReader u s := by
  induction n with
  | zero => intro v s _; exact ⟨s, by simp [readBitsLoop, bitsValue], rfl, .refl s⟩
  | succ n ih =>
    intro v s h
    obtain ⟨b, tail, hc⟩ : ∃ b tail, codedBits s = b :: tail := by
      cases hc : codedBits s with
      | nil => simp [hc] at h
      | cons b tail => exact ⟨b, tail, rfl⟩
    obtain ⟨u, hu, hcu, hsu⟩ := readBit_cons hc
    obtain ⟨w, hw, hcw, hsw⟩ := ih (2 * v + b.toNat) u (by rw [hcu]; simp [hc] at h; exact h)
    refine ⟨w, ?_, ?_, hsw.trans hsu⟩
    · simp only [readBitsLoop, hu, hw, hc, hcu, List.take_succ_cons]
      congr 1
      have := bitsValue_append [b] (tail.take n)
      rw [List.singleton_append] at this
      rw [this]
      have hl : (tail.take n).length = n := by simp [hc] at h; simp [h]
      have hb : bitsValue [b] = b.toNat := by simp [bitsValue]
      rw [hl, hb]; ring
    · rw [hcw, hcu, hc, List.drop_succ_cons]

theorem stuffed_cons {b : Byte} (bytes : List Byte) (h : b ≠ 0xFF#8) : stuffed (b :: bytes) = b :: stuffed bytes := by
  simp [stuffed, h]

theorem stuffed_cons_ff (bytes : List Byte) : stuffed (0xFF#8 :: bytes) = 0xFF#8 :: 0x00#8 :: stuffed bytes := by
  simp [stuffed]

/-- `fill_byte` on coded bytes as the stream carries them: it takes the first of them, its stuffing with it. -/
theorem fillByte_stuffed {s : State} {b : Byte} {bytes : List Byte} {rest : List FifoEntry}
    (h : s.fifo = (stuffed (b :: bytes)).map FifoEntry.data ++ rest) :
    fillByte s = .got () { s with
      fifo := (stuffed bytes).map FifoEntry.data ++ rest, p := s.p + (stuffed [b]).length, cur := b, nbits := 8 } := by
  by_cases hb : b = 0xFF#8
  · subst hb
    rw [stuffed_cons_ff] at h
    simp [fillByte, peekByte, h, FifoEntry.isData, FifoEntry.byte, takeStuffed, consume, stuffed]
  · rw [stuffed_cons _ hb] at h
    simp [fillByte, peekByte, h, FifoEntry.isData, FifoEntry.byte, takeDataByte, consume, hb, stuffed]

/-- The loop of `read_bits` where the bits that are ready do not suffice and what follows them is not there yet: it takes
them all, and leaves at most the FF whose second byte is not there. -/
theorem readBitsLoop_waiting (fuel : Nat) {left : List Byte} (hleft : left = [] ∨ left = [0xFF#8]) :
    ∀ (n v : Nat) (bytes : List Byte) (s : State), (codedBits s).length < n → n ≤ fuel →
    s.fifo = (stuffed bytes).map FifoEntry.data ++ left.map FifoEntry.data →
    ∃ u, readBitsLoop fuel n v s =
        .waiting (n - (codedBits s).length) (2 ^ (codedBits s).length * v + bitsValue (codedBits s)) u ∧
      SameButReader u s ∧ u.nbits = 0 ∧ u.fifo = left.map FifoEntry.data := by
  induction fuel with
  | zero => intro n v bytes s h hn; omega
  | succ fuel ih =>
    intro n v bytes s h hn hf
    obtain ⟨n, rfl⟩ : ∃ k, n = k + 1 := ⟨n - 1, by omega⟩
    cases hc : codedBits s with
    | nil =>
      obtain ⟨hn0, hcase⟩ := readBit_nil hc
      have hr : readBit s = .hold ∧ s.fifo = left.map FifoEntry.data := by
        cases bytes with
        | nil => rcases hleft with rfl | rfl <;> simp_all [stuffed, readBit, fillByte, peekByte, FifoEntry.isData, FifoEntry.byte]
        | cons b bytes =>
          have e := fillByte_stuffed hf
          rcases hcase with h' | ⟨-, -, -, -, h'⟩ | ⟨-, h'⟩ <;> simp [readBit, hn0, e] at h'
      exact ⟨s, by simp [readBitsLoop, hr.1, bitsValue], .refl s, hn0, hr.2⟩
    | cons b tail =>
      obtain ⟨u, hu, hcu, hsu⟩ := readBit_cons hc
      have hfu : ∃ bytes, u.fifo = (stuffed bytes).map FifoEntry.data ++ left.map FifoEntry.data := by
        by_cases hn0 : s.nbits = 0
        · cases bytes with
          | nil => rcases hleft with rfl | rfl <;> simp [codedBits, hn0, hf, lowBits, ecsBits, stuffed] at hc
          | cons b0 bytes =>
            have e := fillByte_stuffed hf
            simp only [readBit, hn0, if_true, e] at hu
            obtain ⟨-, rfl⟩ := Got.got.inj hu
            exact ⟨bytes, rfl⟩
        · simp only [readBit, hn0, if_false] at hu
          obtain ⟨-, rfl⟩ := Got.got.inj hu
          exact ⟨bytes, hf⟩
      obtain ⟨bytes', hfu⟩ := hfu
      rw [hc] at h
      simp only [List.length_cons, Nat.add_lt_add_iff_right] at h
      obtain ⟨w, hw, hsw, hw0, hwf⟩ := ih n (2 * v + b.toNat) bytes' u (by rw [hcu]; exact h) (by omega) hfu
      refine ⟨w, ?_, hsw.trans hsu, hw0, hwf⟩
      simp only [readBitsLoop, hu, hw, hcu, List.length_cons]
      have := bitsValue_append [b] tail
      rw [List.singleton_append] at this
      have hb : bitsValue [b] = b.toNat := by simp [bitsValue]
      rw [this, hb]
      congr 1
      · omega
      · ring

end Sys2Proof.Machine
end

