-- ==== Sys2Proof/Laws/Decode.lean ====
section
/-! SUPPORT. The fields of a command word (R62). -/

namespace Sys2Proof

theorem opField_cmdWord (op arg : Byte) (len : Half) : opField (cmdWord op arg len) = op := by
  refine BitVec.eq_of_getLsbD_eq fun i hi => ?_
  simp only [opField, cmdWord, BitVec.getLsbD_extractLsb', BitVec.getLsbD_or, BitVec.getLsbD_shiftLeft,
    BitVec.getLsbD_setWidth, hi, decide_true, Bool.true_and, Nat.zero_add]
  rw [decide_eq_true (show i < 32 by omega), decide_eq_true (show i < 16 by omega)]
  simp

theorem argField_cmdWord (op arg : Byte) (len : Half) : argField (cmdWord op arg len) = arg := by
  refine BitVec.eq_of_getLsbD_eq fun i hi => ?_
  simp only [argField, cmdWord, BitVec.getLsbD_extractLsb', BitVec.getLsbD_or, BitVec.getLsbD_shiftLeft,
    BitVec.getLsbD_setWidth, hi, decide_true, Bool.true_and]
  rw [decide_eq_true (show 8+i < 32 by omega), decide_eq_true (show 8+i < 16 by omega)]
  simp; intros; omega
theorem lenField_cmdWord (op arg : Byte) (len : Half) : lenField (cmdWord op arg len) = len := by
  refine BitVec.eq_of_getLsbD_eq fun i hi => ?_
  simp only [lenField, cmdWord, BitVec.getLsbD_extractLsb', BitVec.getLsbD_or, BitVec.getLsbD_shiftLeft,
    BitVec.getLsbD_setWidth, hi, decide_true, Bool.true_and]
  rw [decide_eq_true (show 16+i < 32 by omega)]
  have h8 : op.getLsbD (16+i) = false := BitVec.getLsbD_of_ge _ _ (by omega)
  have h9 : arg.getLsbD (16+i-8) = false := BitVec.getLsbD_of_ge _ _ (by omega)
  have : 16 + i - 16 = i := by omega
  have h10 : ¬ 16 + i < 16 := by omega
  have : i < 32 := by omega
  simp [*]
theorem cmdWord_fields (w : Word) : cmdWord (opField w) (argField w) (lenField w) = w := by
  refine BitVec.eq_of_getLsbD_eq fun i hi => ?_
  simp only [opField, argField, lenField, cmdWord, BitVec.getLsbD_extractLsb', BitVec.getLsbD_or, BitVec.getLsbD_shiftLeft,
    BitVec.getLsbD_setWidth, hi, decide_true, Bool.true_and]
  by_cases h1 : i < 8
  · simp [h1, show i < 16 by omega]
  by_cases h2 : i < 16
  · simp [h1, h2, show i - 8 < 8 by omega, show i - 8 < 32 by omega, show 8 + (i - 8) = i by omega]
  · simp [h1, h2, show ¬ (i - 8 < 8) by omega, show i - 16 < 16 by omega, show i - 16 < 32 by omega, show 16 + (i - 16) = i by omega]

theorem decodeCommand_cmdWord (op arg : Byte) (len : Half) : decodeCommand (cmdWord op arg len) = decodeFields op arg len := by
  simp only [decodeCommand, opField_cmdWord, argField_cmdWord, lenField_cmdWord]

end Sys2Proof
end

