-- ==== Sys2Proof/Laws/Registers.lean ====
section
/-! SUPPORT. Register views bit by bit, and what a write to CMD or DATA can do. -/

namespace Sys2Proof.Machine

theorem flagBit_getLsbD (v : Bool) (i j : Nat) (hi : i < 32) : (flagBit v i).getLsbD j = (v && decide (j = i)) := by
  cases v
  · simp [flagBit]
  · simp only [flagBit, if_true, BitVec.getLsbD_shiftLeft, Bool.true_and]
    by_cases h : j = i
    · subst h; simp [hi]
    · by_cases h' : j < i
      · simp [h, h']
      · have hd : j - i ≠ 0 := by omega
        simp [h, BitVec.getLsbD_one, hd]

theorem statusReg_getLsbD (s : State) (j : Nat) :
    (statusReg s).getLsbD j =
      ((busy s && decide (j = 0)) || (isDone s && decide (j = 1)) || (isError s && decide (j = 2)) ||
        (s.frame.valid && decide (j = 3)) || (scanActive s && decide (j = 4)) || (payloadActive s && decide (j = 5)) ||
        (s.dropped && decide (j = 6)) || (irq s && decide (j = 7))) := by
  simp [statusReg, flagBit_getLsbD]

theorem tablesReg_getLsbD (s : State) (j : Nat) :
    (tablesReg s).getLsbD j =
      ((s.qtValid[0] && decide (j = 0)) || (s.qtValid[1] && decide (j = 1)) || (s.qtValid[2] && decide (j = 2)) ||
        (s.qtValid[3] && decide (j = 3)) || (s.htDcValid[0] && decide (j = 4)) || (s.htDcValid[1] && decide (j = 5)) ||
        (s.htDcValid[2] && decide (j = 6)) || (s.htDcValid[3] && decide (j = 7)) ||
        (s.htAcValid[0] && decide (j = 8)) || (s.htAcValid[1] && decide (j = 9)) ||
        (s.htAcValid[2] && decide (j = 10)) || (s.htAcValid[3] && decide (j = 11))) := by
  simp [tablesReg, flagBit_getLsbD]

theorem irqStatusReg_getLsbD (s : State) (j : Nat) :
    (irqStatusReg s).getLsbD j = ((s.doneEvt && decide (j = 0)) || (s.errEvt && decide (j = 1))) := by
  simp [irqStatusReg, flagBit_getLsbD]

theorem irqEnReg_getLsbD (s : State) (j : Nat) :
    (irqEnReg s).getLsbD j = ((s.doneIe && decide (j = 0)) || (s.errIe && decide (j = 1))) := by
  simp [irqEnReg, flagBit_getLsbD]

theorem terminal_iff (s : State) : terminal s = true ↔ s.seq = .done ∨ s.seq = .error := by
  cases h : s.seq <;> simp [terminal, isDone, isError, h]

theorem isError_iff (s : State) : isError s = true ↔ s.seq = .error := by
  cases h : s.seq <;> simp [isError, h]

/-- Everything a CMD write can do. -/
theorem cmdWrite_cases (w : Word) (s : State) :
    (terminal s = true ∧ cmdWrite w s = some s) ∨
    (terminal s = false ∧ fifoDepth s ≤ s.fifo.length ∧ cmdWrite w s = none) ∨
    (terminal s = false ∧ s.fifo.length < fifoDepth s ∧ cmdWrite w s = some (appendCmd w s)) := by
  unfold cmdWrite fifoFull
  cases ht : terminal s
  · by_cases h : fifoDepth s ≤ s.fifo.length
    · simp [h]
    · simp [h, Nat.lt_of_not_le h]
  · simp

/-- Everything a DATA write can do. -/
theorem dataWrite_cases (v : Word) (s : State) :
    (terminal s = true ∧ dataWrite v s = some s) ∨
    (terminal s = false ∧ s.feMode = .none ∧ dataWrite v s = some { s with dropped := true }) ∨
    (terminal s = false ∧ s.feMode ≠ .none ∧ fifoDepth s ≤ s.fifo.length ∧ dataWrite v s = none) ∨
    (terminal s = false ∧ s.feMode = .count ∧ s.fifo.length < fifoDepth s ∧
      dataWrite v s = some (appendCounted (v.extractLsb' 0 8) s)) ∨
    (terminal s = false ∧ s.feMode = .stream ∧ s.fifo.length < fifoDepth s ∧
      dataWrite v s = some (appendStreamed (v.extractLsb' 0 8) s)) := by
  unfold dataWrite fifoFull
  cases ht : terminal s
  · by_cases h : fifoDepth s ≤ s.fifo.length
    · cases hm : s.feMode <;> simp [h]
    · cases hm : s.feMode <;> simp [h, Nat.lt_of_not_le h]
  · simp

/-- The registers with an effect of a write, by offset (R83). -/
theorem regWrite_cases (o : Nat) (v : Word) (s : State) :
    (o = 0x04 ∧ regWrite o v s = some (if v.getLsbD 0 then resetCore s else s)) ∨
    (o = 0x14 ∧ regWrite o v s = cmdWrite v s) ∨
    (o = 0x18 ∧ regWrite o v s = dataWrite v s) ∨
    (o = 0x1C ∧ regWrite o v s = some { s with outBase := v }) ∨
    (o = 0x38 ∧ regWrite o v s = some { s with
      doneEvt := s.doneEvt && !v.getLsbD 0, errEvt := s.errEvt && !v.getLsbD 1 }) ∨
    (o = 0x3C ∧ regWrite o v s = some { s with doneIe := v.getLsbD 0, errIe := v.getLsbD 1 }) ∨
    (o ∉ [0x04, 0x14, 0x18, 0x1C, 0x38, 0x3C] ∧ regWrite o v s = some s) := by
  unfold regWrite
  split <;> simp_all

end Sys2Proof.Machine
end

