-- ==== Sys2Proof/Laws/Step.lean ====
section
/-! SUPPORT. A step by whose turn it is, the outcomes a step can have, and the addresses of the register window. -/

namespace Sys2Proof.Machine

theorem step_core {s : State} (h : nextTurn s = .core) : step s = coreTurn (afterTurn s) := by
  unfold step; rw [h]

theorem step_host {s : State} (h : nextTurn s = .host) : step s = hostTurn (afterTurn s) := by
  unfold step; rw [h]

theorem step_hwReset {s : State} (h : nextTurn s = .hwReset) : step s = .next (hwReset (afterTurn s)) := by
  unfold step; rw [h]

/-- Every instruction has a next state on every state. -/
theorem exec_next (i : Instr) (s : State) : ∃ t, exec i s = .next t := by
  cases i <;> exact ⟨_, rfl⟩

/-- The core always has a next state. -/
theorem coreTurn_next (s : State) : ∃ t, coreTurn s = .next t := by
  unfold coreTurn
  cases fetch s
  · exact ⟨_, rfl⟩
  · exact exec_next _ _

/-- What a step of the core is: an instruction that is met, or the work that stands there. -/
theorem coreTurn_cases {s t : State} (h : coreTurn s = .next t) :
    (∃ i, fetch s = some i ∧ exec i s = .next t) ∨ (fetch s = none ∧ t = advance s) := by
  unfold coreTurn at h
  cases hf : fetch s with
  | none => rw [hf] at h; exact .inr ⟨rfl, by simpa using h.symm⟩
  | some i => rw [hf] at h; exact .inl ⟨i, rfl, h⟩

theorem accessDefined_iff (bytes : Nat) (addr : Word) (s : State) :
    accessDefined bytes addr s = true ↔
      bytes = 4 ∧ (addr - s.platform.regBase).toNat < 256 ∧ (addr - s.platform.regBase).toNat % 4 = 0 := by
  simp only [accessDefined, Bool.and_eq_true, beq_iff_eq, decide_eq_true_eq, and_assoc]

theorem offset_at (base : Word) (o : Nat) (h : o < 256) : (base + BitVec.ofNat 32 o - base).toNat = o := by
  rw [BitVec.add_comm, BitVec.add_sub_cancel, BitVec.toNat_ofNat]
  omega

theorem accessDefined_at (s : State) (o : Nat) (h : o < 256) (h4 : o % 4 = 0) :
    accessDefined 4 (s.platform.regBase + BitVec.ofNat 32 o) s = true := by
  rw [accessDefined_iff, offset_at _ o h]
  exact ⟨rfl, h, h4⟩

/-- A host turn that reads the register at offset `o`. -/
theorem hostTurn_regRead {s : State} {o : Nat} {rest : List HostOp} (h : o < 256) (h4 : o % 4 = 0)
    (ho : s.hostOps = .regRead 4 (s.platform.regBase + BitVec.ofNat 32 o) :: rest) :
    hostTurn s = .next (hostDone { s with
      reads := s.reads ++ [.reg (s.platform.regBase + BitVec.ofNat 32 o) (regRead o s)] }) := by
  unfold hostTurn
  rw [ho]
  simp only [accessDefined_at s o h h4, if_true, offsetOf, offset_at _ o h]

/-- A host turn that writes the register at offset `o`. -/
theorem hostTurn_regWrite {s : State} {o : Nat} {v : Word} {rest : List HostOp} (h : o < 256) (h4 : o % 4 = 0)
    (ho : s.hostOps = .regWrite 4 (s.platform.regBase + BitVec.ofNat 32 o) v :: rest) :
    hostTurn s = match regWrite o v s with
      | some s' => .next (hostDone s')
      | none => .next { s with stalled := true } := by
  unfold hostTurn
  rw [ho]
  simp only [accessDefined_at s o h h4, if_true, offsetOf, offset_at _ o h, ← ho]
  all_goals cases regWrite o v s <;> rfl

end Sys2Proof.Machine
end

