-- ==== Sys2Proof/Laws/Core.lean ====
section
/-! SUPPORT. Everything a step of the core can do, said once: a claim about every step is a case analysis of `CoreStep`. -/

namespace Sys2Proof.Machine

/-- What a step of the scan program at position `q` can leave. -/
inductive ScanStep (s : State) (q : ScanPos) : State → Prop
  | raised (c : Cause) (k : Nat) (u : State) : ReaderMoved u { s with k := k } → ScanStep s q (raise c u)
  | moved (u : State) : ReaderMoved u s → ScanStep s q u
  | begins : q = .mcuStart → ScanStep s q (beginMcu s)
  | restart (b : Byte) (rest : List FifoEntry) : q = .mcuStart → s.fifo = .data 0xFF#8 :: .data b :: rest →
      ScanStep s q (takeRestart s)
  | dcHuff (l c l' c' : Nat) (u : State) : q = .dcHuff l c → ReaderMoved u s → ScanStep s q (scanAt (.dcHuff l' c') u)
  | dcSymbol (l c : Nat) (t : Byte) (u : State) : q = .dcHuff l c → ReaderMoved u s → ScanStep s q (scanAt (.dcSymbol t) u)
  | dcBits (t n v : Nat) (u : State) : ((∃ b, q = .dcSymbol b) ∨ ∃ n' v', q = .dcBits t n' v') → ReaderMoved u s →
      ScanStep s q (scanAt (.dcBits t n v) u)
  | dcDone (t v : Nat) (u : State) : ((∃ b, q = .dcSymbol b) ∨ ∃ n' v', q = .dcBits t n' v') → ReaderMoved u s →
      ScanStep s q (dcFinish t v u)
  | acHuff (l c l' c' : Nat) (u : State) : q = .acHuff l c → ReaderMoved u s → ScanStep s q (scanAt (.acHuff l' c') u)
  | acSymbol (l c : Nat) (rs : Byte) (u : State) : q = .acHuff l c → ReaderMoved u s →
      ScanStep s q (scanAt (.acSymbol rs) u)
  | eob (rs : Byte) : q = .acSymbol rs → ScanStep s q (scanAt .transform s)
  | zrl (rs : Byte) : q = .acSymbol rs → s.k + 16 ≤ 64 → ScanStep s q (acNext (s.k + 16) s)
  | runBits (rs : Byte) (k sz n v : Nat) (u : State) : q = .acSymbol rs → s.k ≤ k → k ≤ 63 → sz ≤ 10 → n ≤ sz →
      v < 2 ^ (sz - n) → ReaderMoved u { s with k := k } → ScanStep s q (scanAt (.acBits sz n v) u)
  | runDone (rs : Byte) (k sz v : Nat) (u : State) : q = .acSymbol rs → s.k ≤ k → k ≤ 63 → sz ≤ 10 → v < 2 ^ sz →
      ReaderMoved u { s with k := k } → ScanStep s q (acFinish sz v u)
  | acBits (sz n v n' v' : Nat) (u : State) : q = .acBits sz n v → n' ≤ n →
      (∀ a, v < 2 ^ a → v' < 2 ^ (a + n - n')) → ReaderMoved u s → ScanStep s q (scanAt (.acBits sz n' v') u)
  | acDone (sz n v v' : Nat) (u : State) : q = .acBits sz n v → (∀ a, v < 2 ^ a → v' < 2 ^ (a + n)) → ReaderMoved u s →
      ScanStep s q (acFinish sz v' u)
  | transform : q = .transform → ScanStep s q (transformBlock s)
  | commit (i : Nat) (c : Fin 3) : q = .commit i c → ScanStep s q (commitStep i c s)
  | mcuEnd : q = .mcuEnd → ScanStep s q (mcuEndStep s)

/-- What a step of the core can leave. -/
inductive CoreStep (s : State) : State → Prop
  | waits : CoreStep s s
  | idleData (b : Byte) (rest : List FifoEntry) : s.seq = .idle → s.fifo = .data b :: rest →
      CoreStep s (raise .sequence { s with curOp := 0#8 })
  | loadDqt (arg : Byte) (len : Half) (ob : Word) (rest : List FifoEntry) : s.seq = .idle →
      s.fifo = .cmd 0x01#8 arg len ob :: rest → CoreStep s (loadDqt len.toNat (takeCommand 0x01 s))
  | loadDht (arg : Byte) (len : Half) (ob : Word) (rest : List FifoEntry) : s.seq = .idle →
      s.fifo = .cmd 0x02#8 arg len ob :: rest → CoreStep s (loadDht len.toNat (takeCommand 0x02 s))
  | loadSof (arg : Byte) (len : Half) (ob : Word) (rest : List FifoEntry) : s.seq = .idle →
      s.fifo = .cmd 0x03#8 arg len ob :: rest → CoreStep s (loadSof arg len.toNat (takeCommand 0x03 s))
  | startScan (arg : Byte) (len : Half) (ob : Word) (rest : List FifoEntry) : s.seq = .idle →
      s.fifo = .cmd 0x04#8 arg len ob :: rest → CoreStep s (startScan len.toNat ob (takeCommand 0x04 s))
  | illegal (op op' arg : Byte) (len : Half) (ob : Word) (rest : List FifoEntry) : s.seq = .idle →
      s.fifo = .cmd op arg len ob :: rest → CoreStep s (illegalCommand op' s)
  | payload (l : LoadPos) : s.seq = .payload l → CoreStep s (runLoad (resumeFuel s s.fifo.length) s)
  | scan (q : ScanPos) (t : State) : s.seq = .scan q → ScanStep s q t → CoreStep s t

/-- The extra bits of a DC symbol. -/
theorem scanStep_dcExtra {s : State} {q : ScanPos} (fuel t n v : Nat)
    (hq : (∃ b, q = .dcSymbol b) ∨ ∃ n' v', q = .dcBits t n' v') : ScanStep s q (dcExtra fuel t n v s) := by
  unfold dcExtra
  rcases readBitsLoop_cases fuel n v v s v.lt_two_pow_self with ⟨v', u, e, -, hu⟩ | ⟨n', v', u, e, -, -, -, hu⟩ | ⟨c, u, e, hu⟩
  · rw [e]; exact .dcDone t v' u hq hu
  · rw [e]; exact .dcBits t n' v' u hq hu
  · rw [e]; exact .raised c s.k u hu

theorem scanStep_dcDescend {s : State} {q : ScanPos} (fuel l c : Nat) (hq : q = .dcHuff l c) :
    ScanStep s q (dcDescend fuel l c s) := by
  unfold dcDescend
  rcases huffLoop_cases (dcTable s) fuel l c s with ⟨t, u, e, hu⟩ | ⟨l', c', u, e, hu⟩ | ⟨x, u, e, hu⟩
  · rw [e]; exact .dcSymbol l c t u hq hu
  · rw [e]; exact .dcHuff l c l' c' u hq hu
  · rw [e]; exact .raised x s.k u hu

theorem scanStep_acDescend {s : State} {q : ScanPos} (fuel l c : Nat) (hq : q = .acHuff l c) :
    ScanStep s q (acDescend fuel l c s) := by
  unfold acDescend
  rcases huffLoop_cases (acTable s) fuel l c s with ⟨t, u, e, hu⟩ | ⟨l', c', u, e, hu⟩ | ⟨x, u, e, hu⟩
  · rw [e]; exact .acSymbol l c t u hq hu
  · rw [e]; exact .acHuff l c l' c' u hq hu
  · rw [e]; exact .raised x s.k u hu

/-- A decoded AC symbol. -/
theorem scanStep_ac {s t : State} (rs : Byte) (h : exec (decodeAc rs) s = .next t) : ScanStep s (.acSymbol rs) t := by
  unfold decodeAc at h
  split_ifs at h
  · obtain rfl := Host.Outcome.next.inj h
    exact .eob rs rfl
  · obtain rfl := Host.Outcome.next.inj h
    split_ifs with hk
    · exact .raised _ s.k s (.refl s)
    · exact .zrl rs rfl (by omega)
  · obtain rfl := Host.Outcome.next.inj h
    exact .raised _ s.k s (.refl s)
  · obtain rfl := Host.Outcome.next.inj h
    split_ifs with hz hk
    · exact .raised _ s.k s (.refl s)
    · exact .raised _ _ _ (.refl _)
    · unfold acExtra
      rcases readBitsLoop_cases (dispatchFuel s (loNibble rs).toNat) (loNibble rs).toNat 0 0
        { s with k := s.k + (hiNibble rs).toNat } (by decide) with ⟨v', u, e, hv, hu⟩ | ⟨n', v', u, e, -, hn, hv, hu⟩ | ⟨c, u, e, hu⟩
      · rw [e]
        exact .runDone rs _ _ v' u rfl (Nat.le_add_right _ _) (by omega) (by omega) (by simpa using hv) hu
      · rw [e]
        exact .runBits rs _ _ n' v' u rfl (Nat.le_add_right _ _) (by omega) (by omega) hn (by simpa using hv) hu
      · rw [e]; exact .raised c _ u hu

/-- A byte pair met where a bit is needed or at an MCU boundary. -/
theorem scanStep_pair {s t : State} {q : ScanPos} {i : Instr} {atBoundary : Bool} (hf : fetchPair atBoundary s = some i)
    (hq : atBoundary = true → q = .mcuStart) (h : exec i s = .next t) : ScanStep s q t := by
  unfold fetchPair at hf
  split at hf
  · rename_i b0 b1 rest hb
    unfold decodePair at hf
    split_ifs at hf with h0 h1 h2 h2
    · cases hf
    · obtain rfl : Instr.ecsRst _ = i := by simpa [Except.toOption] using hf
      obtain rfl := Host.Outcome.next.inj h
      exact .restart b1 rest (hq h1) (by rw [hb, not_not.1 h0])
    · cases hf
    · obtain rfl : Instr.ecsStuffed = i := by simpa [Except.toOption] using hf
      obtain rfl := Host.Outcome.next.inj h
      refine .moved _ ⟨⟨rfl, ?_⟩, ?_, fun _ => le_rfl⟩
      · simp [takeStuffed, consume, hb]; omega
      · simp only [takeStuffed, consume, hb]; exact ⟨[_, _], rfl⟩
    · obtain rfl : Instr.ecsMarker _ = i := by simpa [Except.toOption] using hf
      obtain rfl := Host.Outcome.next.inj h
      exact .raised _ s.k s (.refl s)
  · cases hf

theorem scanStep_fill {s : State} {q : ScanPos} : ScanStep s q (fillStep s) := by
  unfold fillStep
  rcases fillByte_cases s with h | ⟨c, h⟩ | ⟨u, h, hs, hb, hf⟩
  · rw [h]; exact .moved s (.refl s)
  · rw [h]; exact .raised c s.k s (.refl s)
  · rw [h]; exact .moved u ⟨hs, hf, fun _ => hb.le⟩

theorem scanStep_mcuStart {s : State} : ScanStep s .mcuStart (mcuStartStep s) := by
  unfold mcuStartStep
  split_ifs
  · exact .begins rfl
  · split
    · exact .moved s (.refl s)
    · exact .raised _ s.k s (.refl s)
    · rename_i b0 h0
      split_ifs with hb0
      · exact .begins rfl
      · split
        · exact .moved s (.refl s)
        · exact .raised _ s.k s (.refl s)
        · rename_i b1 h1
          split_ifs
          · match hs : s.fifo with
            | [] => simp [peekByte, hs] at h1
            | .cmd _ _ _ _ :: _ => simp [peekByte, hs, FifoEntry.isData] at h0
            | [.data _] => simp [peekByte, hs] at h1
            | .data _ :: .cmd _ _ _ _ :: _ => simp [peekByte, hs, FifoEntry.isData] at h1
            | .data x :: .data y :: rest =>
              have : x = b0 := by simpa [peekByte, hs, FifoEntry.isData, FifoEntry.byte] using h0
              exact .restart y rest rfl (by rw [hs, this, not_not.1 hb0])
          · exact .begins rfl

/-- Everything the scan program can do where it meets no instruction. -/
theorem scanStep_scanStep (s : State) (q : ScanPos) : ScanStep s q (scanStep q s) := by
  unfold scanStep
  split_ifs
  · exact scanStep_fill
  · cases q with
    | mcuStart => exact scanStep_mcuStart
    | dcHuff l c => exact scanStep_dcDescend _ _ _ rfl
    | dcSymbol t => exact .moved s (.refl s)
    | dcBits t n v => exact scanStep_dcExtra _ _ _ _ (.inr ⟨n, v, rfl⟩)
    | acHuff l c => exact scanStep_acDescend _ _ _ rfl
    | acSymbol rs => exact .moved s (.refl s)
    | acBits sz n v =>
      simp only
      unfold acExtra
      have hr := fun a h => readBitsLoop_cases (resumeFuel s n) n v a s h
      rcases hr v v.lt_two_pow_self with ⟨v', u, e, -, hu⟩ | ⟨n', v', u, e, -, hn, -, hu⟩ | ⟨c, u, e, hu⟩
      · rw [e]
        refine .acDone sz n v v' u rfl (fun a ha => ?_) hu
        rcases hr a ha with ⟨w, u', e', hw, -⟩ | ⟨n'', w, u', e', -⟩ | ⟨c, u', e', -⟩ <;> rw [e'] at e <;> cases e
        exact hw
      · rw [e]
        refine .acBits sz n v n' v' u rfl hn (fun a ha => ?_) hu
        rcases hr a ha with ⟨w, u', e', hw, -⟩ | ⟨n'', w, u', e', -, -, hw, -⟩ | ⟨c, u', e', -⟩ <;> rw [e'] at e <;> cases e
        exact hw
      · rw [e]; exact .raised c s.k u hu
    | transform => exact .transform rfl
    | commit i c => exact .commit i c rfl
    | mcuEnd => exact .mcuEnd rfl

/-- A reserved opcode (R92). -/
theorem exec_reserved {op : Byte} (arg : Byte) (len : Half) (s : State) (h1 : op ≠ 0x01#8) (h2 : op ≠ 0x02#8)
    (h3 : op ≠ 0x03#8) (h4 : op ≠ 0x04#8) : ∃ op', exec (decodeFields op arg len) s = .next (illegalCommand op' s) := by
  unfold decodeFields
  rw [if_neg h1, if_neg h2, if_neg h3, if_neg h4]
  repeat' split
  all_goals exact ⟨_, rfl⟩

/-- A command entry at the head in IDLE. -/
theorem coreStep_command {s t : State} {op arg : Byte} {len : Half} {ob : Word} {rest : List FifoEntry}
    (hs : s.seq = .idle) (hf : s.fifo = .cmd op arg len ob :: rest) (h : exec (decodeFields op arg len) s = .next t) :
    CoreStep s t := by
  by_cases h1 : op = 0x01#8
  · subst h1
    obtain rfl : loadDqt len.toNat (takeCommand 0x01 s) = t := Host.Outcome.next.inj h
    exact .loadDqt arg len ob rest hs hf
  by_cases h2 : op = 0x02#8
  · subst h2
    obtain rfl : loadDht len.toNat (takeCommand 0x02 s) = t := Host.Outcome.next.inj h
    exact .loadDht arg len ob rest hs hf
  by_cases h3 : op = 0x03#8
  · subst h3
    obtain rfl : loadSof arg len.toNat (takeCommand 0x03 s) = t := Host.Outcome.next.inj h
    exact .loadSof arg len ob rest hs hf
  by_cases h4 : op = 0x04#8
  · subst h4
    obtain rfl : startScan len.toNat (headOb s) (takeCommand 0x04 s) = t := Host.Outcome.next.inj h
    rw [show headOb s = ob by simp only [headOb, hf]]
    exact .startScan arg len ob rest hs hf
  obtain ⟨op', e⟩ := exec_reserved arg len s h1 h2 h3 h4
  rw [e] at h
  obtain rfl := Host.Outcome.next.inj h
  exact .illegal op op' arg len ob rest hs hf

/-- Every step of the core is one of `CoreStep`. -/
theorem coreTurn_step {s t : State} (h : coreTurn s = .next t) : CoreStep s t := by
  rcases coreTurn_cases h with ⟨i, hf, he⟩ | ⟨hf, rfl⟩
  · unfold fetch at hf
    split at hf
    · rename_i hs
      unfold fetchCommand at hf
      split at hf
      · rename_i op arg len ob rest hff
        obtain rfl := Option.some.inj hf
        rw [decodeCommand_cmdWord] at he
        exact coreStep_command hs hff he
      · cases hf
    · rename_i q hs
      refine .scan q t hs ?_
      unfold fetchScan at hf
      split at hf
      · obtain rfl := Option.some.inj hf
        obtain rfl := Host.Outcome.next.inj he
        split_ifs
        · exact .raised _ s.k s (.refl s)
        · exact scanStep_dcExtra _ _ _ _ (.inl ⟨_, rfl⟩)
      · obtain rfl := Option.some.inj hf
        exact scanStep_ac _ he
      · split_ifs at hf
        exact scanStep_pair hf (fun _ => rfl) he
      · split_ifs at hf
        exact scanStep_pair hf nofun he
    · cases hf
    · cases hf
    · cases hf
  · unfold advance
    split
    · rename_i hs
      unfold idleStep
      split
      · rename_i b rest hff; exact .idleData b rest hs hff
      · exact .waits
    · rename_i l hs; exact .payload l hs
    · rename_i q hs; exact .scan q _ hs (scanStep_scanStep s q)
    · exact .waits
    · exact .waits

/-- What a turn of the host can leave. -/
inductive HostStep (s : State) : State → Prop
  | nothing : HostStep s s
  | stalls : HostStep s { s with stalled := true }
  | waited : HostStep s (hostDone s)
  | reads (r : List HostRead) (n : Nat) : HostStep s (hostDone { s with reads := r, freeCount := n })
  | memWrites (a : Word) (v : Byte) (rest : List HostOp) : s.hostOps = .memWrite a v :: rest →
      HostStep s (hostDone (hostMemWrite a v s))
  | regWrites (addr v : Word) (rest : List HostOp) (u : State) : s.hostOps = .regWrite 4 addr v :: rest →
      regWrite (addr - s.platform.regBase).toNat v s = some u → HostStep s (hostDone u)

theorem hostTurn_step {s t : State} (h : hostTurn s = .next t) : HostStep s t := by
  unfold hostTurn at h
  split at h
  · obtain rfl := Host.Outcome.next.inj h; exact .nothing
  · split_ifs at h
    obtain rfl := Host.Outcome.next.inj h
    exact .reads _ s.freeCount
  · rename_i bytes addr v rest ho
    split_ifs at h with ha
    split at h
    · rename_i u hu
      obtain rfl := Host.Outcome.next.inj h
      obtain ⟨rfl, -⟩ := (accessDefined_iff _ _ _).1 ha
      exact .regWrites addr v rest u ho hu
    · obtain rfl := Host.Outcome.next.inj h; exact .stalls
  · rename_i a rest ho
    obtain rfl := Host.Outcome.next.inj h
    have e : ∃ n, (hostMemRead a s).2 = { s with freeCount := n } := by
      unfold hostMemRead
      simp only
      split_ifs
      · exact ⟨_, rfl⟩
      · cases Memory.read s.mem a.toNat
        · exact ⟨_, rfl⟩
        · exact ⟨_, rfl⟩
    obtain ⟨n, e⟩ := e
    rw [e]; exact .reads _ n
  · rename_i a v rest ho
    obtain rfl := Host.Outcome.next.inj h; exact .memWrites a v rest ho
  · split_ifs at h <;> obtain rfl := Host.Outcome.next.inj h
    · exact .waited
    · exact .nothing

/-- Every step of the machine: the core's, the host's, or the hardware reset. -/
theorem step_cases {s t : State} (h : step s = .next t) :
    (nextTurn s = .core ∧ CoreStep (afterTurn s) t) ∨ (nextTurn s = .host ∧ HostStep (afterTurn s) t) ∨
      (nextTurn s = .hwReset ∧ t = hwReset (afterTurn s)) := by
  cases hn : nextTurn s with
  | core => rw [step_core hn] at h; exact .inl ⟨rfl, coreTurn_step h⟩
  | host => rw [step_host hn] at h; exact .inr (.inl ⟨rfl, hostTurn_step h⟩)
  | hwReset => rw [step_hwReset hn] at h; exact .inr (.inr ⟨rfl, (Host.Outcome.next.inj h).symm⟩)

end Sys2Proof.Machine
end

