-- ==== Sys2Proof/Laws/Load.lean ====
section
/-! SUPPORT. The loop over a command's payload bytes: one induction for what it keeps, and how its parts compose. -/

namespace Sys2Proof.Machine

/-- What `next_payload_byte` can do. -/
theorem nextPayloadByte_cases (s : State) :
    (s.fifo = [] ∧ nextPayloadByte s = .hold) ∨
    (∃ b rest, s.fifo = .data b :: rest ∧ nextPayloadByte s = .got b { s with fifo := rest }) ∨
    (∃ op a l o rest, s.fifo = .cmd op a l o :: rest ∧ nextPayloadByte s = .raised (raise .sequence s)) := by
  unfold nextPayloadByte
  match s.fifo with
  | [] => exact .inl ⟨rfl, rfl⟩
  | .data b :: rest => exact .inr (.inl ⟨b, rest, rfl, rfl⟩)
  | .cmd op a l o :: rest => exact .inr (.inr ⟨op, a, l, o, rest, rfl, rfl⟩)

/-- What holds before a loader's run and is kept by an error entry where a byte is due and by each payload byte holds after
it. -/
theorem runLoad_induct {P : State → Prop} (hraise : ∀ c s l, s.seq = .payload l → P s → P (raise c s))
    (hbyte : ∀ s l b rest, s.seq = .payload l → s.fifo = .data b :: rest → P s → P (loadByte l b { s with fifo := rest })) :
    ∀ fuel s, P s → P (runLoad fuel s) := by
  intro fuel
  induction fuel with
  | zero => intro s h; exact h
  | succ fuel ih =>
    intro s h
    unfold runLoad
    split
    · rename_i l hl
      rcases nextPayloadByte_cases s with ⟨-, e⟩ | ⟨b, rest, hf, e⟩ | ⟨op, a, l', o, rest, hf, e⟩
      · rw [e]; exact h
      · rw [e]; exact ih _ (hbyte s l b rest hl hf h)
      · rw [e]; exact hraise _ _ l hl h
    · exact h

/-- A loader's run takes a byte. -/
theorem runLoad_byte {s : State} {l : LoadPos} {b : Byte} {rest : List FifoEntry} (fuel : Nat) (hl : s.seq = .payload l)
    (hf : s.fifo = .data b :: rest) : runLoad (fuel + 1) s = runLoad fuel (loadByte l b { s with fifo := rest }) := by
  conv_lhs => unfold runLoad
  split
  · rename_i l' hl'
    obtain rfl : l = l' := Seq.payload.inj (hl.symm.trans hl')
    simp only [nextPayloadByte, hf]
  · rename_i h
    exact absurd hl (h l)

/-- A loader's run meets a command entry where a byte is due. -/
theorem runLoad_cmd {s : State} {l : LoadPos} {op a : Byte} {n : Half} {o : Word} {rest : List FifoEntry} (fuel : Nat)
    (hl : s.seq = .payload l) (hf : s.fifo = .cmd op a n o :: rest) : runLoad (fuel + 1) s = raise .sequence s := by
  conv_lhs => unfold runLoad
  split
  · rename_i l' hl'
    obtain rfl : l = l' := Seq.payload.inj (hl.symm.trans hl')
    simp only [nextPayloadByte, hf]
  · rename_i h
    exact absurd hl (h l)

/-- A loader's run waits on an empty FIFO. -/
theorem runLoad_empty {s : State} (fuel : Nat) (hf : s.fifo = []) : runLoad fuel s = s := by
  cases fuel with
  | zero => rfl
  | succ fuel =>
    unfold runLoad
    split
    · simp only [nextPayloadByte, hf]
    · rfl

/-- A loader's run that has ended stays. -/
theorem runLoad_ended {s : State} (fuel : Nat) (h : ∀ l, s.seq ≠ .payload l) : runLoad fuel s = s := by
  cases fuel with
  | zero => rfl
  | succ fuel =>
    unfold runLoad
    split
    · rename_i l hl; exact absurd hl (h l)
    · rfl

/-- How a loader's run is cut does not matter. -/
theorem runLoad_runLoad (a : Nat) : ∀ (b : Nat) (s : State), runLoad b (runLoad a s) = runLoad (a + b) s := by
  induction a with
  | zero => intro b s; rw [Nat.zero_add]; rfl
  | succ a ih =>
    intro b s
    rw [Nat.succ_add]
    by_cases hp : ∃ l, s.seq = .payload l
    · obtain ⟨l, hl⟩ := hp
      rcases nextPayloadByte_cases s with ⟨hf, -⟩ | ⟨x, rest, hf, -⟩ | ⟨op, a', l', o, rest, hf, -⟩
      · simp only [runLoad_empty _ hf]
      · rw [runLoad_byte a hl hf, runLoad_byte (a + b) hl hf, ih]
      · rw [runLoad_cmd a hl hf, runLoad_cmd (a + b) hl hf]
        exact runLoad_ended _ (fun _ => nofun)
    · have hp' : ∀ l, s.seq ≠ .payload l := fun l h => hp ⟨l, h⟩
      simp only [runLoad_ended _ hp']

end Sys2Proof.Machine
end

