-- ==== Sys2Proof/Laws/Memory.lean ====
section
/-! SUPPORT. Output memory: a read after a write, the canonical form, ranges of addresses. -/

namespace Sys2Proof.Machine

theorem Memory.read_write_same (mem : List Host.Cell) (a : Nat) (v : Byte) :
    Memory.read (Memory.write mem a v) a = some v := by
  induction mem with
  | nil => simp [Memory.write, Memory.read]
  | cons c rest ih =>
    obtain ⟨x, w⟩ := c
    simp only [Memory.write]
    split_ifs with h1 h2
    · simp [Memory.read]
    · simp [Memory.read]
    · simp only [Memory.read, ih]
      rw [if_neg (fun h => h2 h.symm)]

theorem Memory.read_write_other (mem : List Host.Cell) (a a' : Nat) (v : Byte) (h : a' ≠ a) :
    Memory.read (Memory.write mem a v) a' = Memory.read mem a' := by
  induction mem with
  | nil => simp [Memory.write, Memory.read, h.symm]
  | cons c rest ih =>
    obtain ⟨x, w⟩ := c
    simp only [Memory.write]
    split_ifs with h1 h2
    · simp [Memory.read, h.symm]
    · subst h2; simp [Memory.read, h.symm]
    · simp only [Memory.read, ih]

theorem Memory.mem_write {mem : List Host.Cell} {a : Nat} {v : Byte} {c : Host.Cell}
    (h : c ∈ Memory.write mem a v) : c = (a, v) ∨ c ∈ mem := by
  induction mem with
  | nil => simp only [Memory.write, List.mem_singleton] at h; exact .inl h
  | cons d rest ih =>
    obtain ⟨x, w⟩ := d
    simp only [Memory.write] at h
    split_ifs at h with h1 h2
    · simpa using h
    · rcases List.mem_cons.1 h with h | h
      · exact .inl h
      · exact .inr (List.mem_cons_of_mem _ h)
    · rcases List.mem_cons.1 h with h | h
      · exact .inr (h ▸ List.mem_cons_self)
      · exact (ih h).imp id (List.mem_cons_of_mem _)

theorem Memory.wf_iff (mem : List Host.Cell) :
    Memory.wf mem = true ↔ mem.Pairwise (fun c d => c.1 < d.1) ∧ ∀ c ∈ mem, c.1 < 2 ^ 32 := by
  simp only [Memory.wf, decide_eq_true_eq]

/-- A write of a 32-bit address keeps the canonical form. -/
theorem Memory.wf_write {mem : List Host.Cell} {a : Nat} (v : Byte) (h : Memory.wf mem = true) (ha : a < 2 ^ 32) :
    Memory.wf (Memory.write mem a v) = true := by
  rw [Memory.wf_iff] at h ⊢
  refine ⟨?_, fun c hc => ?_⟩
  · have hp := h.1
    clear h
    induction mem with
    | nil => simp [Memory.write]
    | cons d rest ih =>
      obtain ⟨x, w⟩ := d
      rw [List.pairwise_cons] at hp
      simp only [Memory.write]
      split_ifs with h1 h2
      · refine List.pairwise_cons.2 ⟨fun c hc => ?_, List.pairwise_cons.2 hp⟩
        rcases List.mem_cons.1 hc with rfl | hc
        · exact h1
        · exact h1.trans (hp.1 c hc)
      · subst h2; exact List.pairwise_cons.2 hp
      · refine List.pairwise_cons.2 ⟨fun c hc => ?_, ih hp.2⟩
        rcases Memory.mem_write hc with rfl | hc
        · exact (Nat.lt_or_gt_of_ne h2).resolve_left h1
        · exact hp.1 c hc
  · rcases Memory.mem_write hc with rfl | hc
    · exact ha
    · exact h.2 c hc

theorem Span.has_iff (r : Span) (a : Nat) : r.has a = true ↔ r.lo ≤ a ∧ a < r.hi := by
  simp [Span.has]

theorem inSpans_minusSpan (rs : List Span) (cut : Span) (a : Nat) :
    inSpans (minusSpan rs cut) a = (inSpans rs a && !cut.has a) := by
  rw [Bool.eq_iff_iff]
  simp only [inSpans, minusSpan, Span.minus, List.any_eq_true, List.mem_flatMap, List.mem_filter, List.mem_cons,
    List.not_mem_nil, or_false, decide_eq_true_eq, Bool.and_eq_true, Bool.not_eq_true', Span.has, decide_eq_false_iff_not]
  constructor
  · rintro ⟨q, ⟨r, hr, hq, hlt⟩, hin⟩
    rcases hq with rfl | rfl <;> simp only at hin hlt <;> exact ⟨⟨r, hr, by omega⟩, by omega⟩
  · rintro ⟨⟨r, hr, hin⟩, hout⟩
    by_cases h : a < cut.lo
    · exact ⟨⟨r.lo, min r.hi cut.lo⟩, ⟨r, hr, .inl rfl, by simp only; omega⟩, by simp only; omega⟩
    · exact ⟨⟨max r.lo cut.hi, r.hi⟩, ⟨r, hr, .inr rfl, by simp only; omega⟩, by simp only; omega⟩

theorem inSpans_append (rs qs : List Span) (a : Nat) : inSpans (rs ++ qs) a = (inSpans rs a || inSpans qs a) := by
  simp [inSpans]

/-- The addresses of the region that belongs to the core. -/
theorem inSpans_owned (s : State) (a : Nat) : inSpans (owned s) a = true ↔ CoreOwns s a := by
  have hs : ∀ base, inSpans [regionAt base s.frame] a = true ↔
      base.toNat ≤ a ∧ a < base.toNat + 3 * s.frame.x.toNat * s.frame.y.toNat := by
    intro base
    simp [inSpans, Span.has_iff, regionAt]
  simp only [CoreOwns, owned, scanBase]
  cases h : s.seq with
  | scan q => simpa using hs s.ob
  | payload l =>
    cases l with
    | sosCount len ob => simpa using hs ob
    | sosComp j ob got => simpa using hs ob
    | sosTail ob got => simpa using hs ob
    | _ => simp [inSpans]
  | _ => simp [inSpans]

/-- What an error or a reset leaves of any value. -/
theorem inSpans_indetAfterAbort (s : State) (a : Nat) :
    inSpans (indetAfterAbort s) a = true ↔ CoreOwns s a ∨ inSpans s.indet a = true := by
  rw [indetAfterAbort, inSpans_append, Bool.or_eq_true, inSpans_owned]

end Sys2Proof.Machine
end

