-- ==== Sys2Proof/Laws/PerInstr.lean ====
section
/-! SUPPORT. Facts of every instruction's encoding, one lemma a constructor. -/

namespace Sys2Proof.Laws.EncodeFits

/-- The coded word of an instruction has the shape its row of the opcode table gives it: a command carries the row's opcode
in OP (R62, R63), a byte pair begins with FF (R72), and an AC symbol has size 0 just where the row is no run-size row
(R75). -/
def Statement (i : Instr) : Prop :=
  match encode i with
  | .command w => opField w = opcodeOf i
  | .pair _ b0 _ => b0 = 0xFF
  | .dcSymbol _ => True
  | .acSymbol rs => i.wf = true → (loNibble rs = 0 ↔ ∀ r s, i ≠ .acRunSize r s)

theorem loadDqt (arg : Byte) (len : Half) : Statement (.loadDqt arg len) := opField_cmdWord _ _ _
theorem loadDht (arg : Byte) (len : Half) : Statement (.loadDht arg len) := opField_cmdWord _ _ _
theorem loadSof (arg : Byte) (len : Half) : Statement (.loadSof arg len) := opField_cmdWord _ _ _
theorem startScan (arg : Byte) (len : Half) : Statement (.startScan arg len) := opField_cmdWord _ _ _
theorem illegal00 (arg : Byte) (len : Half) : Statement (.illegal00 arg len) := opField_cmdWord _ _ _
theorem illegal05 (arg : Byte) (len : Half) : Statement (.illegal05 arg len) := opField_cmdWord _ _ _
theorem illegal0607 (lo : BitVec 1) (arg : Byte) (len : Half) : Statement (.illegal0607 lo arg len) :=
  opField_cmdWord _ _ _
theorem illegal080F (lo : BitVec 3) (arg : Byte) (len : Half) : Statement (.illegal080F lo arg len) :=
  opField_cmdWord _ _ _
theorem illegal101F (lo : BitVec 4) (arg : Byte) (len : Half) : Statement (.illegal101F lo arg len) :=
  opField_cmdWord _ _ _
theorem illegal203F (lo : BitVec 5) (arg : Byte) (len : Half) : Statement (.illegal203F lo arg len) :=
  opField_cmdWord _ _ _
theorem illegal407F (lo : BitVec 6) (arg : Byte) (len : Half) : Statement (.illegal407F lo arg len) :=
  opField_cmdWord _ _ _
theorem illegal80FF (lo : BitVec 7) (arg : Byte) (len : Half) : Statement (.illegal80FF lo arg len) :=
  opField_cmdWord _ _ _
theorem ecsStuffed : Statement .ecsStuffed := rfl
theorem ecsRst (n : BitVec 3) : Statement (.ecsRst n) := rfl
theorem ecsMarker (x : Byte) : Statement (.ecsMarker x) := rfl
theorem dcCategory (t : Byte) : Statement (.dcCategory t) := trivial
theorem acEob : Statement .acEob := fun _ => ⟨fun _ _ _ h => (nomatch h), fun _ => rfl⟩
theorem acZrl : Statement .acZrl := fun _ => ⟨fun _ _ _ h => (nomatch h), fun _ => rfl⟩
theorem acRunSize (r s : BitVec 4) : Statement (.acRunSize r s) := by
  intro h
  have hs : s ≠ 0 := by simpa [Instr.wf] using h
  have : loNibble (joinNibbles r s) = s := by revert r s; decide
  rw [this]
  exact ⟨fun h' => absurd h' hs, fun h' => absurd rfl (h' r s)⟩
theorem acIllegalR0 (r : BitVec 4) : Statement (.acIllegalR0 r) := by
  intro _
  have : loNibble (joinNibbles r 0) = 0 := by revert r; decide
  exact ⟨fun _ _ _ h => (nomatch h), fun _ => this⟩

end Sys2Proof.Laws.EncodeFits
end

