-- ==== Sys2Proof/Machine/HostProgram.lean ====
section
/-! DEFINITION. The host program syntax of 30_encoding.md R80: each form as the list of host operations it stands for, at
the register window's base address. -/

namespace Sys2Proof.Machine

/-- `WR <REG>, <value>` at offset `o`. -/
def hostWr (base : Word) (o : Nat) (v : Word) : HostOp := .regWrite 4 (base + BitVec.ofNat 32 o) v

/-- `RD <REG>` at offset `o`. -/
def hostRd (base : Word) (o : Nat) : HostOp := .regRead 4 (base + BitVec.ofNat 32 o)

/-- `CMD <OP>, len=<n>, arg=<a>`. -/
def hostCmd (base : Word) (op : Byte) (len : Half) (arg : Byte) : HostOp := hostWr base 0x14 (cmdWord op arg len)

/-- `DATA <b0> <b1> ...`. -/
def hostData (base : Word) (bytes : List Byte) : List HostOp := bytes.map (fun b => hostWr base 0x18 (b.setWidth 32))

/-- A command with its payload. -/
def hostLoad (base : Word) (op : Byte) (arg : Byte) (payload : List Byte) : List HostOp :=
  hostCmd base op (BitVec.ofNat 16 payload.length) arg :: hostData base payload

/-- `SEGMENT FF xx Lh Ll <payload>`, with `rest` the file's bytes after the segment, which START_SCAN streams; any other
marker is skipped (R67, R80). -/
def hostSegment (base : Word) (marker : Byte) (payload rest : List Byte) : List HostOp :=
  if marker = 0xDB#8 then hostLoad base 0x01 0 payload
  else if marker = 0xC4#8 then hostLoad base 0x02 0 payload
  else if marker = 0xDA#8 then hostLoad base 0x04 0 payload ++ hostData base rest ++ [.wait]
  else if sofKind marker ≠ .notSof then hostLoad base 0x03 marker payload
  else []

/-- The host's protocol for one image (R94): the segments in file order, OUT_BASE, the scan. -/
def hostDecode (base outBase : Word) (segments : List (Byte × List Byte)) (scanHeader ecs : List Byte) : List HostOp :=
  [hostWr base 0x04 1] ++ segments.flatMap (fun g => hostSegment base g.1 g.2 []) ++
    [hostWr base 0x1C outBase] ++ hostSegment base 0xDA scanHeader ecs

end Sys2Proof.Machine
end

