-- ==== Sys2Proof/Tests/Slice0.lean ====
section
/-! SUPPORT. Tests with values from the spec's tables and worked vectors, and a witness for the hypotheses of every
statement that has some (`witness_<statement>_<clause>`). -/

namespace Sys2Proof.Tests

open Sys2Proof Sys2Proof.Machine Sys2Proof.Spec

/-! ## Helpers -/

/-- IDLE with these entries in the FIFO. -/
def idle (fifo : List FifoEntry) : State := { State.reset with fifo := fifo }

/-- IDLE with a command entry, its payload and what follows. -/
def ready (op arg : Byte) (len : Half) (ob : Word) (payload : List Byte) (rest : List FifoEntry) : State :=
  idle (.cmd op arg len ob :: (dataEntries payload ++ rest))

theorem ready_is (op arg : Byte) (len : Half) (ob : Word) (payload : List Byte) (rest : List FifoEntry) :
    CommandReady op arg len ob payload rest (ready op arg len ob payload rest) := ⟨rfl, rfl⟩

/-- One component, 1x1 pixel. -/
def gray : Frame :=
  { valid := true, x := 1, y := 1, nf := 1,
    comps := #v[⟨1, 1, 1, 0⟩, ⟨0, 0, 0, 0⟩, ⟨0, 0, 0, 0⟩], hmax := 1, vmax := 1, mcux := 1, mcuy := 1, mcuTotal := 1 }

/-- Three components, 4:2:0, 17x9 pixels: two MCUs of 16x16 (R106). -/
def color : Frame :=
  { valid := true, x := 17, y := 9, nf := 3,
    comps := #v[⟨1, 2, 2, 0⟩, ⟨2, 1, 1, 1⟩, ⟨3, 1, 1, 1⟩], hmax := 2, vmax := 2, mcux := 2, mcuy := 1, mcuTotal := 2 }

/-- A frame is loaded and every table slot is valid. -/
def loaded (f : Frame) (s : State) : State :=
  { s with
    frame := f, qtValid := Vector.replicate 4 true, htDcValid := Vector.replicate 4 true,
    htAcValid := Vector.replicate 4 true }

/-- A scan of a frame at position `q`, `n` bits of `cur` left, these entries in the FIFO. -/
def scan (f : Frame) (q : ScanPos) (cur : Byte) (n : Nat) (fifo : List FifoEntry) : State :=
  loaded f { State.reset with seq := .scan q, cur := cur, nbits := n, fifo := fifo }

/-- The state after an outcome that has one. -/
def after (o : Host.Outcome State Fault Refusal) : State :=
  match o with
  | .next t => t
  | _ => State.reset

/-! ## Well-formedness (R72, R75): one ill-formed term for each check, and the terms next to it -/

theorem test_wf_marker_refused : (Instr.ecsMarker 0x00).wf = false := by decide
theorem test_wf_runSize_refused : (Instr.acRunSize 3 0).wf = false := by decide
theorem test_wf_illegalR0_eob_refused : (Instr.acIllegalR0 0).wf = false := by decide
theorem test_wf_illegalR0_zrl_refused : (Instr.acIllegalR0 15).wf = false := by decide
theorem test_wf_accepted :
    (Instr.ecsMarker 0x01).wf = true ∧ (Instr.acRunSize 0 1).wf = true ∧ (Instr.acIllegalR0 1).wf = true ∧
      (Instr.acIllegalR0 14).wf = true ∧ (Instr.loadDqt 0 0).wf = true := by decide

/-! ## Decoding: every constructor from a word written out from the tables of R62, R63, R72, R74, R75 -/

theorem test_decode_loadDqt : decodeCommand 0b00000000010000010000000000000001#32 = .loadDqt 0 65 := by decide
theorem test_decode_loadDht : decodeCommand 0b00000000000100110000000000000010#32 = .loadDht 0 19 := by decide
theorem test_decode_loadSof : decodeCommand 0b00000000000010111100000000000011#32 = .loadSof 0xC0 11 := by decide
theorem test_decode_startScan : decodeCommand 0b00000000000010000000000000000100#32 = .startScan 0 8 := by decide
theorem test_decode_illegal00 : decodeCommand 0b10000000000000010000001000000000#32 = .illegal00 2 0x8001 := by decide
theorem test_decode_illegal05 : decodeCommand 0b00000000000000000000000000000101#32 = .illegal05 0 0 := by decide
theorem test_decode_illegal0607 : decodeCommand 0b00000000000000000000000000000110#32 = .illegal0607 0 0 0 := by decide
theorem test_decode_illegal080F : decodeCommand 0b00000000000000000000000000001101#32 = .illegal080F 5 0 0 := by decide
theorem test_decode_illegal101F : decodeCommand 0b00000000000000000000000000011010#32 = .illegal101F 0xA 0 0 := by decide
theorem test_decode_illegal203F : decodeCommand 0b00000000000000000000000000110001#32 = .illegal203F 0x11 0 0 := by decide
theorem test_decode_illegal407F : decodeCommand 0b00000000000000000000000001111110#32 = .illegal407F 0x3E 0 0 := by decide
theorem test_decode_illegal80FF : decodeCommand 0b00000000000000000000000010000001#32 = .illegal80FF 1 0 0 := by decide
theorem test_decode_stuffed : decodePair false 0b11111111#8 0b00000000#8 = .ok .ecsStuffed := by decide
theorem test_decode_rst : decodePair true 0b11111111#8 0b11010101#8 = .ok (.ecsRst 5) := by decide
theorem test_decode_marker : decodePair false 0b11111111#8 0b11011001#8 = .ok (.ecsMarker 0xD9) := by decide
theorem test_decode_dc : decodeDc 0b00001011#8 = .dcCategory 11 := by decide
theorem test_decode_eob : decodeAc 0b00000000#8 = .acEob := by decide
theorem test_decode_zrl : decodeAc 0b11110000#8 = .acZrl := by decide
theorem test_decode_runSize : decodeAc 0b11100011#8 = .acRunSize 14 3 := by decide
theorem test_decode_illegalR0 : decodeAc 0b01010000#8 = .acIllegalR0 5 := by decide
theorem test_decode_rejects :
    decodePair false 0x12 0x00 = .error .dataByte ∧ decodePair true 0xFF 0xD8 = .error .noRestartMarker := by decide
theorem test_decodeTableWord :
    decodeTableWord 32 0x00410001 = some (.loadDqt 0 65) ∧ decodeTableWord 16 0xFF00 = some .ecsStuffed ∧
      decodeTableWord 16 0xFFD3 = some (.ecsRst 3) ∧ decodeTableWord 8 0x0B = some (.dcCategory 11) ∧
      decodeTableWord 8 0xF0 = some .acZrl := by decide

/-- `withFetchWord` places the word where the next step meets it, from reset. -/
theorem test_withFetchWord_command :
    step (State.reset.withFetchWord 32 0x00410001) = exec (.loadDqt 0 65) (State.reset.withFetchWord 32 0x00410001) := rfl
theorem test_withFetchWord_pair :
    step (State.reset.withFetchWord 16 0xFF00) = exec .ecsStuffed (State.reset.withFetchWord 16 0xFF00) ∧
      step (State.reset.withFetchWord 16 0xFFD3) = exec (.ecsRst 3) (State.reset.withFetchWord 16 0xFFD3) ∧
      step (State.reset.withFetchWord 16 0xFFD9) = exec (.ecsMarker 0xD9) (State.reset.withFetchWord 16 0xFFD9) :=
  ⟨rfl, rfl, rfl⟩
theorem test_withFetchWord_symbol :
    step (State.reset.withFetchWord 8 0x0B) = exec (.dcCategory 11) (State.reset.withFetchWord 8 0x0B) ∧
      step (State.reset.withFetchWord 8 0x53) = exec (.acRunSize 5 3) (State.reset.withFetchWord 8 0x53) := ⟨rfl, rfl⟩

/-- R80: `CMD LOAD_DQT, len=2` and its payload bytes, at the window's base. -/
theorem test_hostLoad :
    hostLoad 0x1000 0x01 0 [0xAB, 0xCD] =
      [.regWrite 4 0x1014 0x00020001, .regWrite 4 0x1018 0xAB, .regWrite 4 0x1018 0xCD] := by decide

/-! ## Reset -/

theorem test_reset_memory : Memory.wf State.reset.mem = true := by decide
theorem test_reset_id : regRead 0x00 State.reset = 0x4A504547 := by decide
theorem test_reset_status : regRead 0x08 State.reset = 0 := by decide

/-! ## One step of each instruction -/

/-- R95, an id-3 table of ones but for its last coefficient. -/
theorem test_loadDqt :
    (after (exec (.loadDqt 0 65) (ready 0x01 0 65 0 (0x03 :: (List.replicate 63 1 ++ [7])) []))).qtValid[3] = true ∧
      (after (exec (.loadDqt 0 65) (ready 0x01 0 65 0 (0x03 :: (List.replicate 63 1 ++ [7])) []))).qt[3][63] = 7 := by
  decide

/-- R95: DQT_ZERO_COEF. -/
theorem test_loadDqt_zero : (after (exec (.loadDqt 0 65) (ready 0x01 0 65 0 [0x00, 5, 0] []))).errCause = 0x12 := by
  decide

/-- R96: one code of length 1, for symbol 5, in AC slot 2. -/
theorem test_loadDht :
    (after (exec (.loadDht 0 18) (ready 0x02 0 18 0 (0x12 :: 1 :: (List.replicate 15 0 ++ [5])) []))).htAc[2].vals = [5] := by
  decide

/-- R96: three codes of length 1 are overfull, DHT_OVERFULL. -/
theorem test_loadDht_overfull :
    (after (exec (.loadDht 0 20) (ready 0x02 0 20 0 (0x00 :: 3 :: List.replicate 15 0) []))).errCause = 0x1C := by
  decide

/-- R97, R106: 17x9 pixels in 4:2:0. -/
theorem test_loadSof :
    (after (exec (.loadSof 0xC0 15)
      (ready 0x03 0xC0 15 0 [8, 0, 9, 0, 17, 3, 1, 0x22, 0, 2, 0x11, 1, 3, 0x11, 1] []))).frame = color := by
  decide

/-- R97: a progressive frame, SOF_VARIANT. -/
theorem test_loadSof_progressive : (after (exec (.loadSof 0xC2 15) (ready 0x03 0xC2 15 0 [] []))).errCause = 0x40 := by
  decide

/-- R98, R99. -/
theorem test_startScan :
    (after (exec (.startScan 0 6) (loaded gray (ready 0x04 0 6 0x80 [1, 1, 0x21, 0, 63, 0] [])))).seq = .scan .mcuStart ∧
      (after (exec (.startScan 0 6) (loaded gray (ready 0x04 0 6 0x80 [1, 1, 0x21, 0, 63, 0] [])))).td[0] = 2 := by
  decide

/-- R98: the region would end past 2^32, OUT_RANGE. -/
theorem test_startScan_outRange :
    (after (exec (.startScan 0 6) (loaded gray (ready 0x04 0 6 0xFFFFFFFE [1, 1, 0, 0, 63, 0] [])))).errCause = 0x51 := by
  decide

/-- R92, R126: cause 0x01 and ERR.OP the opcode, for each row. -/
theorem test_illegal_rows :
    (after (exec (.illegal00 0 0) (idle [.cmd 0x00 0 0 0]))).errCause = 0x01 ∧
      (after (exec (.illegal05 0 0) (idle [.cmd 0x05 0 0 0]))).errOp = 0x05 ∧
      (after (exec (.illegal0607 1 0 0) (idle [.cmd 0x07 0 0 0]))).errOp = 0x07 ∧
      (after (exec (.illegal080F 7 0 0) (idle [.cmd 0x0F 0 0 0]))).errOp = 0x0F ∧
      (after (exec (.illegal101F 0 0 0) (idle [.cmd 0x10 0 0 0]))).errOp = 0x10 ∧
      (after (exec (.illegal203F 0x1F 0 0) (idle [.cmd 0x3F 0 0 0]))).errOp = 0x3F ∧
      (after (exec (.illegal407F 0 0 0) (idle [.cmd 0x40 0 0 0]))).errOp = 0x40 ∧
      (after (exec (.illegal80FF 0x7F 0 0) (idle [.cmd 0xFF 0 0 0]))).errOp = 0xFF := by decide

/-- R101: eight ones, two bytes consumed. -/
theorem test_stuffed :
    (after (exec .ecsStuffed (scan gray (.dcHuff 0 0) 0 0 [.data 0xFF, .data 0]))).cur = 0xFF ∧
      (after (exec .ecsStuffed (scan gray (.dcHuff 0 0) 0 0 [.data 0xFF, .data 0]))).p = 2 := by decide

/-- R109: the padding is dropped and the predictor reset. -/
theorem test_rst :
    (after (exec (.ecsRst 0) { scan color .mcuStart 0x3F 6 [.data 0xFF, .data 0xD0] with m := 1, pred := #v[5, 6, 7] })).pred =
      #v[0, 0, 0] ∧
      (after (exec (.ecsRst 0) { scan color .mcuStart 0x3F 6 [.data 0xFF, .data 0xD0] with m := 1 })).nbits = 0 := by
  decide

/-- R101: END_OF_SEGMENT, `p` not advanced. -/
theorem test_marker :
    (after (exec (.ecsMarker 0xD9) { scan gray (.dcHuff 0 0) 0 0 [.data 0xFF, .data 0xD9] with p := 4 })).errCause = 0x31 ∧
      (after (exec (.ecsMarker 0xD9) { scan gray (.dcHuff 0 0) 0 0 [.data 0xFF, .data 0xD9] with p := 4 })).p = 4 := by
  decide

/-- R105, R110: category 3 with bits 010 is -5. -/
theorem test_dcCategory : (after (exec (.dcCategory 3) (scan gray (.dcSymbol 3) 0x02 3 []))).zz[0] = -5 := by
  decide

/-- R110: DC_CATEGORY. -/
theorem test_dcCategory_12 : (after (exec (.dcCategory 12) (scan gray (.dcSymbol 12) 0 0 []))).errCause = 0x32 := by
  decide

theorem test_eob : (after (exec .acEob (scan gray (.acSymbol 0) 0 0 []))).seq = .scan .transform := by decide

/-- R111: 48 + 16 = 64 ends the block, 49 + 16 is AC_OVERRUN. -/
theorem test_zrl :
    (after (exec .acZrl { scan gray (.acSymbol 0xF0) 0 0 [] with k := 48 })).seq = .scan .transform ∧
      (after (exec .acZrl { scan gray (.acSymbol 0xF0) 0 0 [] with k := 49 })).errCause = 0x34 := by decide

/-- R111: run 2, size 1, bit 1 sets ZZ[3] to 1 and `k` to 4. -/
theorem test_runSize :
    (after (exec (.acRunSize 2 1) { scan gray (.acSymbol 0x21) 1 1 [] with k := 1 })).zz[3] = 1 ∧
      (after (exec (.acRunSize 2 1) { scan gray (.acSymbol 0x21) 1 1 [] with k := 1 })).k = 4 := by decide

/-- R111: size 11, AC_BAD_SYMBOL. -/
theorem test_runSize_11 : (after (exec (.acRunSize 0 11) (scan gray (.acSymbol 0x0B) 0 0 []))).errCause = 0x33 := by
  decide

theorem test_illegalR0 : (after (exec (.acIllegalR0 7) (scan gray (.acSymbol 0x70) 0 0 []))).errCause = 0x33 := by
  decide

/-- 95_test_vectors.md family CC: white and black, and pure red's luma and chroma. -/
theorem test_color :
    ycbcrToRgb 255 128 128 = ⟨255, 255, 255⟩ ∧ ycbcrToRgb 0 128 128 = ⟨0, 0, 0⟩ ∧ ycbcrToRgb 76 85 255 = ⟨254, 0, 0⟩ := by
  decide

/-- A block with these coefficients at these natural indices, every other 0. -/
def block (coefs : List (Nat × Int)) : Vector Int 64 :=
  Vector.ofFn (fun n : Fin 64 => ((coefs.find? (fun c => c.1 == n.val)).map (fun c => c.2)).getD 0)

/-- 95_test_vectors.md ID1 and ID2: a row and a column frequency. -/
theorem test_idct_id1_id2 :
    (idct (block [(0, 96), (1, -8)])).toList =
        (List.replicate 8 ([139, 139, 139, 140, 140, 141, 141, 141] : List Byte)).flatten ∧
      (idct (block [(8, 16)])).toList =
        ([131, 130, 130, 129, 127, 126, 126, 125] : List Byte).flatMap (fun v => List.replicate 8 v) := by decide

/-- 95_test_vectors.md ID3 and ID4. -/
theorem test_idct_id3_id4 :
    (idct (block [(9, 40)])).toList =
        ([138, 136, 133, 130, 126, 123, 120, 118, 136, 135, 133, 130, 126, 123, 121, 120] : List Byte) ++
        [133, 133, 131, 129, 127, 125, 123, 123, 130, 130, 129, 128, 128, 127, 126, 126] ++
        [126, 126, 127, 128, 128, 129, 130, 130, 123, 123, 125, 127, 129, 131, 133, 133] ++
        [120, 121, 123, 126, 130, 133, 135, 136, 118, 120, 123, 126, 130, 133, 136, 138] ∧
      (idct (block [(63, 100)])).toList =
        ([129, 125, 132, 123, 133, 124, 131, 127, 125, 136, 116, 142, 114, 140, 120, 131] : List Byte) ++
        [132, 116, 145, 108, 148, 111, 140, 124, 123, 142, 108, 152, 104, 148, 114, 133] ++
        [133, 114, 148, 104, 152, 108, 142, 123, 124, 140, 111, 148, 108, 145, 116, 132] ++
        [131, 120, 140, 114, 142, 116, 136, 125, 127, 131, 124, 133, 123, 132, 125, 129] := by decide

/-- R78: the corners of the zigzag order. -/
theorem test_zigzag : zigzag[1] = 1 ∧ zigzag[2] = 8 ∧ zigzag[62] = 62 ∧ ∀ k : Fin 64, zigzagPos[zigzag[k]] = k := by
  decide

/-! ## Witnesses -/

/-- The host's turn with one operation, `REG_BASE` at the top of the address space. -/
def hostTurnOf (s : State) (op : HostOp) : State :=
  { s with
    sched := [.host], hostOps := [op], platform := { fifoExtra := 0, busErr := [⟨0x101, 0x102⟩], regBase := 0xFFFFFF00 } }

theorem witness_DecodeOfEncodeIsTheInstruction :
    (Instr.acRunSize 0 1).wf = true ∧ (Instr.acIllegalR0 14).wf = true ∧ (Instr.ecsMarker 0xFF).wf = true := by decide

theorem witness_EncodeOfDecodeIsTheWord :
    decode (.command 0xFFFFFFFF) = .ok (.illegal80FF 0x7F 0xFF 0xFFFF) ∧
      decode (.pair true 0xFF 0xD0) = .ok (.ecsRst 0) ∧ decode (.pair false 0xFF 0x01) = .ok (.ecsMarker 1) ∧
      decode (.dcSymbol 0xFF) = .ok (.dcCategory 0xFF) ∧ decode (.acSymbol 0xE0) = .ok (.acIllegalR0 14) := by decide

theorem witness_StepRunsTheInstructionMet :
    nextTurn (idle [.cmd 0xFF 1 2 3]) = .core ∧ (idle [.cmd 0xFF 1 2 3]).seq = .idle ∧
      nextTurn (scan gray (.dcSymbol 0xFF) 0 0 []) = .core ∧ nextTurn (scan gray (.acSymbol 0) 0 0 []) = .core ∧
      nextTurn { scan color .mcuStart 0 0 [.data 0xFF, .data 0xD7] with m := 1 } = .core ∧
      (0xD7#8 = 0xD0#8 ||| (7#3).setWidth 8) ∧
      nextTurn (scan gray (.acBits 1 1 0) 0 0 [.data 0xFF, .data 0]) = .core ∧
      (ScanPos.acBits 1 1 0).needsBit = true := by decide

theorem witness_BothResetSourcesResetTheCore :
    nextTurn { idle [] with sched := [.hwReset], stalled := true } = .hwReset ∧
      nextTurn (hostTurnOf (idle []) (.regWrite 4 0xFFFFFF04 1)) = .host ∧
      (hostTurnOf (idle []) (.regWrite 4 0xFFFFFF04 1)).hostOps = [.regWrite 4 (0xFFFFFF00#32 + 0x04#32) 1] ∧
      (1#32).getLsbD 0 = true ∧ (0xFFFFFFFE#32).getLsbD 0 = false := by decide

theorem witness_ViewRegistersShowTheState :
    (loaded gray (idle [])).frame.valid = true ∧ (idle []).frame.valid = false ∧ 0x40 ≤ 0xFC := by decide

theorem witness_RegisterPortAccesses_turns :
    nextTurn (hostTurnOf (idle []) (.regWrite 4 0xFFFFFF14 0x00410001)) = .host ∧
      (hostTurnOf (idle []) (.regWrite 4 0xFFFFFF14 0x00410001)).hostOps =
        [.regWrite 4 (0xFFFFFF00#32 + BitVec.ofNat 32 0x14) 0x00410001] ∧
      (regWrite 0x14 0x00410001 (hostTurnOf (idle []) (.regWrite 4 0xFFFFFF14 0x00410001))).isSome = true ∧
      regWrite 0x14 0x00410001 (hostTurnOf (idle [.data 0, .data 0]) (.regWrite 4 0xFFFFFF14 0x00410001)) = none ∧
      nextTurn (hostTurnOf (idle []) .wait) = .host ∧ (hostTurnOf (idle []) .wait).hostOps = [.wait] ∧
      nextTurn { idle [] with sched := [.host] } = .host ∧ (idle []).hostOps = [] := by decide

theorem witness_RegisterPortAccesses :
    0x08 ∉ [0x04, 0x14, 0x18, 0x1C, 0x38, 0x3C] ∧ 0xFC ∉ [0x04, 0x14, 0x18, 0x1C, 0x38, 0x3C] ∧
      nextTurn (hostTurnOf (idle []) (.regRead 4 0xFFFFFFFC)) = .host ∧
      (hostTurnOf (idle []) (.regRead 4 0xFFFFFFFC)).hostOps = [.regRead 4 (0xFFFFFF00#32 + BitVec.ofNat 32 0xFC)] ∧
      step (hostTurnOf (idle []) (.regRead 2 0xFFFFFF08)) = .refused .accessOutsideWindow ∧
      step (hostTurnOf (idle []) (.regWrite 4 0x00000000 1)) = .refused .accessOutsideWindow ∧
      step (hostTurnOf (idle []) (.regRead 4 0xFFFFFF02)) = .refused .accessOutsideWindow :=
  ⟨by decide, by decide, by decide, by decide, rfl, rfl, rfl⟩

/-- A scan of `gray` at base 0x100: the region is 0x100 to 0x102. -/
def scan100 : State := { scan gray (.dcHuff 0 0) 0 0 [] with ob := 0x100, mem := [(0x50, 9), (0x102, 7)], indet := [⟨0x60, 0x61⟩] }

/-- The header of a START_SCAN of `gray` at base 0x100 is being read, OB still 0. -/
def header100 : State := { loaded gray (idle []) with seq := .payload (.sosComp 0 0x100 []), mem := [(0x102, 7)] }

theorem scan100_owns : CoreOwns scan100 0x102 ∧ ¬ CoreOwns scan100 0x50 ∧ ¬ CoreOwns scan100 0x103 := by
  simp only [← inSpans_owned]; decide

theorem header100_owns : CoreOwns header100 0x102 ∧ ¬ CoreOwns header100 0x103 ∧ ¬ CoreOwns header100 0 := by
  simp only [← inSpans_owned]; decide

/-- R55: from the execution of START_SCAN on, its header included, a host write of the region is not stored and a host read
of it answers any value. -/
theorem test_header_owns_region :
    (hostMemWrite 0x102 9 header100).mem = [(0x102, 7)] ∧ (hostMemWrite 0x102 9 header100).clobbered = [⟨0x102, 0x103⟩] ∧
      (hostMemRead 0x102 header100).1 = Config.freeByte 0 := ⟨by decide, by decide, rfl⟩

theorem witness_ErrorEntryRecordsAndFlushes :
    inSpans (raise .sosBadTable header100).indet 0x102 = true ∧ inSpans (raise .busError scan100).indet 0x103 = false ∧
      causeRows.length = 38 := by decide

theorem witness_ResetClearsEveryRegister :
    inSpans (resetCore scan100).indet 0x102 = true ∧ inSpans (resetCore (idle [])).indet 0x102 = false := by decide

theorem witness_HostAccessesToOutputMemory :
    nextTurn (hostTurnOf scan100 (.memRead 0x102)) = .host ∧ inSpans scan100.indet 0x60 = true ∧
      Memory.read scan100.mem 0x51 = none ∧ inSpans scan100.indet 0x50 = false ∧ Memory.read scan100.mem 0x50 = some 9 ∧
      nextTurn (hostTurnOf header100 (.memWrite 0x100 1)) = .host := by decide

theorem witness_CmdWriteAppendsTheEntry :
    (idle [.data 1]).seq ≠ .done ∧ (idle [.data 1]).seq ≠ .error ∧
      (hostTurnOf (idle [.data 1]) .wait).fifo.length < fifoDepth (hostTurnOf (idle [.data 1]) .wait) ∧
      (0x00010004#32).extractLsb' 16 16 ≠ 0#16 ∧ (0x00000004#32).extractLsb' 0 8 = 0x04#8 ∧
      (0x00000001#32).extractLsb' 0 8 ≠ 0x04#8 := by decide

/-- The front end in a mode with a count, the FIFO holding these entries, two at most. -/
def frontEnd (mode : FeMode) (count : Half) (fifo : List FifoEntry) : State :=
  { hostTurnOf (idle fifo) (.regWrite 4 0xFFFFFF18 0xAB) with feMode := mode, feCount := count, feThenStream := true }

theorem witness_DataWritesFollowTheModeDropOrStall :
    (frontEnd .none 0 []).feMode = .none ∧
      (frontEnd .stream 0 [.data 0]).fifo.length < fifoDepth (frontEnd .stream 0 [.data 0]) ∧
      (frontEnd .count 1 [.data 0]).fifo.length < fifoDepth (frontEnd .count 1 [.data 0]) ∧
      (frontEnd .count 1 []).feCount = 1#16 ∧ (frontEnd .count 0xFFFF []).feCount ≠ 1#16 ∧
      { idle [] with seq := .done }.seq = .done ∧
      fifoDepth (frontEnd .count 1 [.data 0, .data 1]) ≤ (frontEnd .count 1 [.data 0, .data 1]).fifo.length ∧
      nextTurn (frontEnd .count 1 [.data 0, .data 1]) = .host ∧
      (frontEnd .count 1 [.data 0, .data 1]).hostOps = [.regWrite 4 (0xFFFFFF00#32 + BitVec.ofNat 32 0x18) 0xAB] ∧
      (frontEnd .count 1 [.data 0, .data 1]).seq ≠ .error := by decide

theorem witness_ReservedOpcodesRaiseIllegalCommand :
    (idle [.cmd 0xFF 0 0 0]).seq = .idle ∧ 0xFF#8 ∉ [0x01#8, 0x02#8, 0x03#8, 0x04#8] ∧
      0x05#8 ∉ [0x01#8, 0x02#8, 0x03#8, 0x04#8] := by decide

/-- Two units of a DQT payload. -/
def twoUnits : List QtUnit := [⟨3, Vector.replicate 64 255⟩, ⟨0, Vector.replicate 64 1⟩]

theorem twoUnits_nonzero : ∀ u ∈ twoUnits, ∀ k : Fin 64, u.q[k] ≠ 0#8 := by
  intro u hu k
  simp only [twoUnits, List.mem_cons, List.not_mem_nil, or_false] at hu
  rcases hu with rfl | rfl <;> simp

theorem witness_LoadDqtStoresEveryTable :
    (ready 0x01 0 130 0 (twoUnits.flatMap QtUnit.bytes) [.data 7]).pace = .whole ∧
      CommandReady 0x01 0 130 0 (twoUnits.flatMap QtUnit.bytes) [.data 7]
        (ready 0x01 0 130 0 (twoUnits.flatMap QtUnit.bytes) [.data 7]) ∧
      twoUnits ≠ [] ∧ (130#16).toNat = 65 * twoUnits.length ∧ ∀ u ∈ twoUnits, ∀ k : Fin 64, u.q[k] ≠ 0#8 :=
  ⟨rfl, ready_is .., by simp [twoUnits], rfl, twoUnits_nonzero⟩

theorem witness_LoadDqtRejectsABadUnit_length :
    ([] : List QtUnit) = [] ∧ (0#16 : Half) = 0#16 ∧ 65 * twoUnits.length < (194#16).toNat ∧
      (194#16).toNat < 65 * twoUnits.length + 65 ∧ 65 * twoUnits.length + 65 ≤ (195#16).toNat := by
  refine ⟨rfl, rfl, ?_, ?_, ?_⟩ <;> simp [twoUnits]

theorem witness_LoadDqtRejectsABadUnit_unit :
    CommandReady 0x01 0 65 0 ([] ++ [0x13]) [.cmd 0 0 0 0] (ready 0x01 0 65 0 ([] ++ [0x13]) [.cmd 0 0 0 0]) ∧
      hiNibble 0x13 = 1#4 ∧ 1 < (hiNibble 0x20).toNat ∧ (hiNibble 0x04 = 0#4 ∧ 3 < (loNibble 0x04).toNat) ∧
      (hiNibble 0x03 = 0#4 ∧ (loNibble 0x03).toNat ≤ 3 ∧ [5, 0#8, 6] = [5] ++ 0#8 :: [6] ∧
        (List.replicate 63 1#8).length < 64) :=
  ⟨ready_is .., by decide⟩

theorem witness_LoadDqtRejectsABadUnit_sequence :
    CommandReady 0x01 0 130 0 (twoUnits.tail.flatMap QtUnit.bytes ++ []) [.cmd 0 0 0 0]
        (ready 0x01 0 130 0 (twoUnits.tail.flatMap QtUnit.bytes ++ []) [.cmd 0 0 0 0]) ∧
      65 * twoUnits.tail.length + 65 ≤ (130#16).toNat ∧ (∀ c ∈ List.replicate 63 1#8, c ≠ 0#8) ∧
      (List.replicate 63 1#8).length < 64 := ⟨ready_is .., by simp [twoUnits], by decide, by decide⟩

/-- Two tables of a DHT payload: one code of length 1 and one of 16, then a table without codes. -/
def twoTables : List HtUnit :=
  [⟨.ac, 3, ⟨#v[1, 0, 0, 0, 0, 0, 0, 0, 0, 0, 0, 0, 0, 0, 0, 1], [5, 6]⟩⟩, ⟨.dc, 0, HuffTable.empty⟩]

theorem twoTables_sound : ∀ u ∈ twoTables, u.t.sound := by
  intro u hu
  simp only [twoTables, List.mem_cons, List.not_mem_nil, or_false] at hu
  rcases hu with rfl | rfl <;> (unfold HuffTable.sound; decide)

theorem witness_LoadDhtStoresEveryTable :
    CommandReady 0x02 0 36 0 (twoTables.flatMap HtUnit.bytes) [] (ready 0x02 0 36 0 (twoTables.flatMap HtUnit.bytes) []) ∧
      twoTables ≠ [] ∧ (36#16).toNat = (twoTables.flatMap HtUnit.bytes).length ∧ ∀ u ∈ twoTables, u.t.sound :=
  ⟨ready_is .., by simp [twoTables], by decide, twoTables_sound⟩

theorem witness_LoadDhtRejectsABadTable_length :
    (twoTables.flatMap HtUnit.bytes).length < (52#16).toNat ∧
      (52#16).toNat < (twoTables.flatMap HtUnit.bytes).length + 17 ∧
      (twoTables.flatMap HtUnit.bytes).length + 17 ≤ (53#16).toNat := by decide

theorem witness_LoadDhtRejectsABadTable_table :
    1 < (hiNibble 0x20).toNat ∧ ((hiNibble 0x14).toNat ≤ 1 ∧ 3 < (loNibble 0x14).toNat) ∧
      ((hiNibble 0x13).toNat ≤ 1 ∧ (loNibble 0x13).toNat ≤ 3) ∧
      256 < symbolCount (List.replicate 15 0 ++ [255, 2]) ∧
      (symbolCount (3 :: List.replicate 15 0) ≤ 256 ∧ overfull (3 :: List.replicate 15 0) = true) ∧
      (symbolCount (2 :: List.replicate 15 0) ≤ 256 ∧ overfull (2 :: List.replicate 15 0) = false ∧
        (18#16).toNat < 0 + 17 + symbolCount (2 :: List.replicate 15 0)) ∧
      (254 :: 3 :: List.replicate 14 0#8).length = 16 ∧ 256 < symbolCount (254 :: 3 :: List.replicate 14 0) := by decide

theorem witness_LoadDhtRejectsABadTable_sequence :
    CommandReady 0x02 0 53 0 (twoTables.flatMap HtUnit.bytes ++ []) [.cmd 0 0 0 0]
        (ready 0x02 0 53 0 (twoTables.flatMap HtUnit.bytes ++ []) [.cmd 0 0 0 0]) ∧
      (twoTables.flatMap HtUnit.bytes).length + 17 ≤ (53#16).toNat ∧ (List.replicate 15 0#8).length < 16 ∧
      (symbolCount (1 :: List.replicate 15 0) ≤ 256 ∧ overfull (1 :: List.replicate 15 0) = false ∧
        (twoTables.flatMap HtUnit.bytes).length + 17 + symbolCount (1 :: List.replicate 15 0) ≤ (54#16).toNat ∧
        ([] : List Byte).length < symbolCount (1 :: List.replicate 15 0)) :=
  ⟨ready_is .., by decide, by decide, by decide⟩

/-- The components of `color` in an SOF payload. -/
def colorComps : List Component := [⟨1, 2, 2, 0⟩, ⟨2, 1, 1, 1⟩, ⟨3, 1, 1, 1⟩]

theorem accepted_color : AcceptedComponents colorComps 2 2 := by
  constructor <;> (try simp only [Component.sound, colorComps]) <;> decide

theorem accepted_single : AcceptedComponents [⟨1, 4, 1, 3⟩] 4 1 := by
  constructor <;> (try simp only [Component.sound]) <;> decide

theorem witness_LoadSofLoadsTheFrame :
    CommandReady 0x03 0xC0 15 0 (sofBytes 17 9 colorComps) [] (ready 0x03 0xC0 15 0 (sofBytes 17 9 colorComps) []) ∧
      (ready 0x03 0xC0 15 0 (sofBytes 17 9 colorComps) []).frame.valid = false ∧ AcceptedComponents colorComps 2 2 ∧
      (15#16).toNat = 6 + 3 * colorComps.length ∧
      CommandReady 0x03 0xC0 9 0 (sofBytes 0xFFFF 1 [⟨1, 4, 1, 3⟩]) []
        (ready 0x03 0xC0 9 0 (sofBytes 0xFFFF 1 [⟨1, 4, 1, 3⟩]) []) ∧
      AcceptedComponents [⟨1, 4, 1, 3⟩] 4 1 ∧ (9#16).toNat = 6 + 3 * ([⟨1, 4, 1, 3⟩] : List Component).length :=
  ⟨ready_is .., rfl, accepted_color, rfl, ready_is .., accepted_single, rfl⟩

theorem witness_LoadSofRejectsABadHeader :
    0xCF#8 ∈ [0xC1#8, 0xC2#8, 0xC3#8, 0xC5#8, 0xC6#8, 0xC7#8, 0xC9#8, 0xCA#8, 0xCB#8, 0xCD#8, 0xCE#8, 0xCF#8] ∧
      (0xD0#8).extractLsb' 4 4 ≠ 0xC#4 ∧ 0xCC#8 ∈ [0xC4#8, 0xC8#8, 0xCC#8] ∧
      (loaded gray (ready 0x03 0xC0 9 0 [] [])).frame.valid = true ∧ (ready 0x03 0xC0 5 0 [] []).frame.valid = false ∧
      (5#16).toNat < 6 ∧ 6 ≤ (6#16).toNat ∧ 12#8 ≠ 8#8 ∧ ¬ (0#8 = 0#8 ∧ 1#8 = 0#8) ∧ 4 ≤ (4#8).toNat ∧
      (6#16).toNat ≠ 6 + 3 * (1#8).toNat := by decide

theorem witness_LoadSofRejectsABadHeader_ready :
    CommandReady 0x03 0xC0 9 0 [8, 0, 1, 0, 1, 2] [] (ready 0x03 0xC0 9 0 [8, 0, 1, 0, 1, 2] []) ∧
      (ready 0x03 0xC0 9 0 [8, 0, 1, 0, 1, 2] []).pace = .whole := ⟨ready_is .., rfl⟩

theorem witness_LoadSofRejectsABadHeader_sequence :
    CommandReady 0x03 0xC0 6 0 [8, 0, 1, 0, 1] [.cmd 0 0 0 0] (ready 0x03 0xC0 6 0 [8, 0, 1, 0, 1] [.cmd 0 0 0 0]) ∧
      6 ≤ (6#16).toNat ∧ ([8, 0, 1, 0, 1] : List Byte).length < 6 := ⟨ready_is .., by decide⟩

/-- The bytes before the components of a three-component payload, then good components and what follows. -/
def sofUpTo (good : List Component) (more : List Byte) : List Byte :=
  [8, (1#16).extractLsb' 8 8, (1#16).extractLsb' 0 8, (1#16).extractLsb' 8 8, (1#16).extractLsb' 0 8, BitVec.ofNat 8 3] ++
    good.flatMap componentBytes ++ more

theorem witness_LoadSofRejectsABadComponent_component :
    CommandReady 0x03 0xC0 15 0 (sofUpTo [⟨7, 4, 1, 0⟩] [7, 0x11, 0]) []
        (ready 0x03 0xC0 15 0 (sofUpTo [⟨7, 4, 1, 0⟩] [7, 0x11, 0]) []) ∧
      (15#16).toNat = 6 + 3 * 3 ∧ (∀ c ∈ ([⟨7, 4, 1, 0⟩] : List Component), c.sound) ∧
      (7#8 ∈ ([⟨7, 4, 1, 0⟩] : List Component).map (fun e => e.id) ∧
        8#8 ∉ ([⟨7, 4, 1, 0⟩] : List Component).map (fun e => e.id)) ∧
      4 < (hiNibble 0x51).toNat ∧ loNibble 0x10 = 0#4 ∧
      (1 ≤ (hiNibble 0x41).toNat ∧ (hiNibble 0x41).toNat ≤ 4 ∧ 1 ≤ (loNibble 0x41).toNat ∧ 3 < (4#8).toNat) := by
  refine ⟨ready_is .., rfl, ?_, ?_⟩
  · simp only [Component.sound]; decide
  · decide

theorem witness_LoadSofRejectsABadComponent_sequence :
    CommandReady 0x03 0xC0 15 0 (sofUpTo [⟨7, 4, 1, 0⟩] [8, 0x11]) [.cmd 0 0 0 0]
        (ready 0x03 0xC0 15 0 (sofUpTo [⟨7, 4, 1, 0⟩] [8, 0x11]) [.cmd 0 0 0 0]) ∧
      ([⟨7, 4, 1, 0⟩] : List Component).length < 3 ∧ ([8, 0x11] : List Byte).length < 3 := ⟨ready_is .., by decide⟩

/-- Eleven blocks, and factors 3 and 2. -/
def elevenBlocks : List Component := [⟨1, 3, 3, 0⟩, ⟨2, 1, 1, 0⟩, ⟨3, 1, 1, 0⟩]
def oddRatio : List Component := [⟨1, 3, 1, 0⟩, ⟨2, 2, 1, 0⟩, ⟨3, 1, 1, 0⟩]

theorem witness_LoadSofRejectsABadComponent_sampling :
    CommandReady 0x03 0xC0 15 0 (sofUpTo elevenBlocks []) [] (ready 0x03 0xC0 15 0 (sofUpTo elevenBlocks []) []) ∧
      10 < (elevenBlocks.map (fun c => c.h.toNat * c.v.toNat)).sum ∧
      (oddRatio.map (fun c => c.h.toNat * c.v.toNat)).sum ≤ 10 ∧
      ∃ c ∈ oddRatio, ∃ d ∈ oddRatio, (∀ e ∈ oddRatio, e.h.toNat ≤ d.h.toNat) ∧ d.h.toNat % c.h.toNat ≠ 0 :=
  ⟨ready_is .., by decide, by decide, by decide⟩

/-- A scan header's component of `gray`. -/
def grayScan : List ScanComp := [⟨1, 3, 2⟩]

theorem grayScan_names : NamesFrame grayScan gray := by
  refine ⟨rfl, fun j c h => ?_⟩
  fin_cases j
  · obtain rfl := Option.some.inj h; rfl
  · cases h
  · cases h

theorem grayScan_loaded (s : State) : NeedsLoaded grayScan (loaded gray s) := by
  intro j c _
  simp [loaded]

theorem witness_StartScanStartsTheScan :
    CommandReady 0x04 0 6 0xFFFFFFFD (sosBytes grayScan) [] (loaded gray (ready 0x04 0 6 0xFFFFFFFD (sosBytes grayScan) [])) ∧
      (6#16).toNat = 4 + 2 * grayScan.length ∧ NamesFrame grayScan gray ∧
      NeedsLoaded grayScan (loaded gray (ready 0x04 0 6 0xFFFFFFFD (sosBytes grayScan) [])) ∧
      (0xFFFFFFFD#32).toNat + 3 * gray.x.toNat * gray.y.toNat ≤ 2 ^ 32 :=
  ⟨ready_is .., rfl, grayScan_names, grayScan_loaded _, by decide⟩

theorem witness_StartScanRejectsABadHeader_start :
    CommandReady 0x04 0 6 0 [5] [] (loaded gray (ready 0x04 0 6 0 [5] [])) ∧
      (ready 0x04 0 6 0 [5] []).frame.valid = false ∧ (loaded gray (ready 0x04 0 6 0 [5] [])).frame.valid = true ∧
      4 < (5#8).toNat ∧ (1 ≤ (4#8).toNat ∧ (4#8).toNat ≤ 4 ∧ (6#16).toNat ≠ 4 + 2 * (4#8).toNat) ∧
      ((10#16).toNat = 4 + 2 * (3#8).toNat ∧ (3#8).toNat ≠ gray.nf.toNat) :=
  ⟨ready_is .., by decide⟩

theorem witness_StartScanRejectsABadHeader_component :
    CommandReady 0x04 0 6 0 (BitVec.ofNat 8 1 :: ([] : List ScanComp).flatMap
        (fun c => [c.cs, joinNibbles (BitVec.ofNat 4 c.td.val) (BitVec.ofNat 4 c.ta.val)]) ++ [1, 0x40]) []
        (loaded gray (ready 0x04 0 6 0 (BitVec.ofNat 8 1 :: ([] : List ScanComp).flatMap
          (fun c => [c.cs, joinNibbles (BitVec.ofNat 4 c.td.val) (BitVec.ofNat 4 c.ta.val)]) ++ [1, 0x40]) [])) ∧
      gray.nf.toNat = 1 ∧ 2#8 ≠ gray.comps[0].id ∧ 1#8 = gray.comps[0].id ∧ 3 < (hiNibble 0x40).toNat ∧
      3 < (loNibble 0x04).toNat :=
  ⟨ready_is .., by decide⟩

theorem witness_StartScanRejectsABadHeader_tail :
    (∀ (j : Fin 3) (c : ScanComp), grayScan[j.val]? = some c → c.cs = gray.comps[j].id) ∧
      62#8 ≠ 63#8 ∧ ¬ NeedsLoaded grayScan { ready 0x04 0 6 0 [] [] with frame := gray } ∧
      NeedsLoaded grayScan (loaded gray (ready 0x04 0 6 0xFFFFFFFE [] [])) ∧
      2 ^ 32 < (0xFFFFFFFE#32).toNat + 3 * gray.x.toNat * gray.y.toNat := by
  refine ⟨grayScan_names.2, by decide, fun h => ?_, grayScan_loaded _, by decide⟩
  exact absurd (h 0 ⟨1, 3, 2⟩ rfl).1 (by decide)

theorem witness_StartScanRejectsABadHeader_sequence :
    CommandReady 0x04 0 6 0 [] [.cmd 0 0 0 0] (loaded gray (ready 0x04 0 6 0 [] [.cmd 0 0 0 0])) ∧ 6#16 ≠ 0#16 ∧
      CommandReady 0x04 0 6 0 (BitVec.ofNat 8 1 :: grayScan.flatMap
        (fun c => [c.cs, joinNibbles (BitVec.ofNat 4 c.td.val) (BitVec.ofNat 4 c.ta.val)]) ++ [0, 63]) [.cmd 0 0 0 0]
        (loaded gray (ready 0x04 0 6 0 (BitVec.ofNat 8 1 :: grayScan.flatMap
          (fun c => [c.cs, joinNibbles (BitVec.ofNat 4 c.td.val) (BitVec.ofNat 4 c.ta.val)]) ++ [0, 63]) [.cmd 0 0 0 0])) ∧
      (([] : List ScanComp).length < 1 ∧ ([1] : List Byte).length < 2) ∧
      (grayScan.length = 1 ∧ ([0, 63] : List Byte).length < 3) :=
  ⟨ready_is .., by decide, ready_is .., by decide, by decide⟩

/-- A first byte of a LOAD_DQT unit is there: the loader waits; with a bad one it raises, a LOAD_DHT table ends. -/
theorem witness_LoadersDoNotDependOnTimingOrCut_turns :
    WaitsForPayload { idle [] with seq := .payload (.dqtId 65) } ∧
      (idle [.cmd 1 0 65 0, .data 3]).seq = .idle ∧ (idle [.cmd 1 0 65 0, .data 3]).fifo ≠ [] ∧
      (∃ u, coreTurn (idle [.cmd 1 0 65 0, .data 3]) = .next u ∧ WaitsForPayload u) ∧
      (∃ u, coreTurn (idle [.cmd 1 0 65 0, .data 4]) = .next u ∧ u.seq = .error) ∧
      ∃ u, coreTurn (idle (.cmd 2 0 17 0 :: dataEntries (List.replicate 17 0))) = .next u ∧ u.seq = .idle :=
  ⟨⟨_, rfl⟩, rfl, nofun, ⟨_, rfl, .dqtCoef 65 3 [], by decide⟩, ⟨_, rfl, by decide⟩, _, rfl, by decide⟩

theorem witness_LoadersDoNotDependOnTimingOrCut :
    (runLoad 1 { idle [.data 3] with seq := .payload (.dqtId 65) }).seq = .payload (.dqtCoef 65 3 []) := by decide

theorem witness_FillByteTakesOneByteOfCodedData :
    (idle [.data 0xFE]).fifo = [.data 0xFE] ∧ 0xFE#8 ≠ 0xFF#8 ∧ 0x01#8 ≠ 0x00#8 ∧
      (idle [.data 0xFF, .cmd 0 0 0 0]).fifo = .data 0xFF#8 :: .cmd 0 0 0 0 :: [] := by decide

theorem witness_ReadBitsDeliversTheCodedBits :
    (codedBits (scan gray (.dcHuff 0 0) 0x01 1 [.data 0xFF, .data 0, .data 0x80])).length = 17 := by decide

/-- A table with a code of length 1 and one of length 16. -/
def longTable : HuffTable := ⟨#v[1, 0, 0, 0, 0, 0, 0, 0, 0, 0, 0, 0, 0, 0, 0, 1], [5, 6]⟩

theorem longTable_sound : longTable.sound := by unfold HuffTable.sound; decide

theorem witness_HuffmanCodesArePrefixFree :
    overfull longTable.bits.toList = false ∧ longTable.vals.length = symbolCount longTable.bits.toList := by decide

/-- A descent at `q`, `n` bits of `cur` left, and every table slot holds `longTable`. -/
def descent (q : ScanPos) (cur : Byte) (n : Nat) (fifo : List FifoEntry) : State :=
  { scan gray q cur n fifo with htDc := Vector.replicate 4 longTable, htAc := Vector.replicate 4 longTable }

theorem descent_dc (l c : Nat) (taken : List Bool) (cur : Byte) (n : Nat) (fifo : List FifoEntry) (hl : taken.length = l)
    (hc : bitsValue taken = c) : DescentAt (descent (.dcHuff l c) cur n fifo) taken longTable .dcHuff .dcSymbol := by
  subst hl hc
  exact .dc (s := descent (.dcHuff taken.length (bitsValue taken)) cur n fifo) rfl

theorem descent_ac (l c : Nat) (taken : List Bool) (cur : Byte) (n : Nat) (fifo : List FifoEntry) (hl : taken.length = l)
    (hc : bitsValue taken = c) : DescentAt (descent (.acHuff l c) cur n fifo) taken longTable .acHuff .acSymbol := by
  subst hl hc
  exact .ac (s := descent (.acHuff taken.length (bitsValue taken)) cur n fifo) rfl

/-- The code word 1000000000000000 of `longTable` from its start, and from its third bit. -/
theorem witness_HuffDecodeInvertsTheCode_step :
    nextTurn (descent (.acHuff 0 0) 0x80 8 [.data 0x00, .data 0x7F]) = .core ∧
      DescentAt (descent (.acHuff 0 0) 0x80 8 [.data 0x00, .data 0x7F]) [] longTable .acHuff .acSymbol ∧
      [] ++ codedBits (descent (.acHuff 0 0) 0x80 8 [.data 0x00, .data 0x7F]) =
        codeBits ⟨16, 0x8000, 6⟩ ++ [false, true, true, true, true, true, true, true] ∧
      DescentAt (descent (.dcHuff 2 2) 0x00 8 [.data 0x00]) [true, false] longTable .dcHuff .dcSymbol ∧
      [true, false] ++ codedBits (descent (.dcHuff 2 2) 0x00 8 [.data 0x00]) =
        codeBits ⟨16, 0x8000, 6⟩ ++ [false, false] ∧
      (descent (.dcHuff 2 2) 0x00 8 []).pace = .whole :=
  ⟨by decide, descent_ac 0 0 [] _ _ _ rfl rfl, by decide, descent_dc 2 2 [true, false] _ _ _ rfl rfl, by decide, rfl⟩

theorem witness_HuffDecodeInvertsTheCode_waits :
    EndsInside (descent (.dcHuff 2 2) 0x00 1 [.data 0x00, .data 0xFF]) [true, false] ⟨16, 0x8000, 6⟩ ∧
      (descent (.dcHuff 2 2) 0x00 1 [.data 0x00, .data 0xFF]).fifo = dataEntries (stuffed [0x00] ++ [0xFF]) ∧
      (∃ u, coreTurn (descent (.dcHuff 2 2) 0x00 1 [.data 0xFF]) = .next u ∧ ∃ l c, u.seq = .scan (.dcHuff l c)) ∧
      ∃ u, coreTurn (descent (.acHuff 2 2) 0x00 1 []) = .next u ∧ ∃ l c, u.seq = .scan (.acHuff l c) :=
  ⟨⟨by decide, by decide⟩, rfl, ⟨_, rfl, 3, 4, by decide⟩, _, rfl, 3, 4, by decide⟩

theorem witness_HuffDecodeInvertsTheCode_fill :
    nextTurn (descent (.dcBits 3 3 0) 0 0 [.data 0x7F]) = .core ∧ (ScanPos.dcBits 3 3 0).needsBit = true ∧
      codedBits (descent (.dcBits 3 3 0) 0 0 [.data 0x7F]) ≠ [] ∧
      nextTurn (descent (.acHuff 3 4) 0 0 [.data 0xFF, .cmd 1 0 0 0]) = .core ∧
      nextTurn (descent (.acHuff 3 4) 0 0 [.data 0xFF]) = .core := by decide

theorem witness_HuffDecodeInvertsTheCode :
    longTable.sound ∧ (⟨16, 0x8000, 6⟩ : Code) ∈ longTable.codes ∧
      codedBits (scan gray (.dcHuff 0 0) 0x80 8 [.data 0x00, .data 0x7F]) =
        codeBits ⟨16, 0x8000, 6⟩ ++ [false, true, true, true, true, true, true, true] :=
  ⟨longTable_sound, by decide, by decide⟩

theorem witness_HuffDecodeEndsOrRaises_long :
    16 ≤ (codedBits (scan gray (.dcHuff 0 0) 0x80 8 [.data 0x01])).length := by decide

/-- The 16 bits 1, 0 (14 times), 1 are no code word, and the 15 before the last begin one. -/
theorem longTable_dead : DeadWord longTable (true :: List.replicate 14 false ++ [true]) := by
  have key : ∀ k : Fin 16, ∃ e ∈ longTable.codes,
      (true :: List.replicate 14 false ++ [true]).take k.val <+: codeBits e := by decide
  refine ⟨by decide, by decide, by decide, fun shorter h hne _ => ?_⟩
  have hlen := h.length_le
  have htake := List.prefix_iff_eq_take.1 h
  have hlt : shorter.length < 16 := by
    rcases Nat.lt_or_ge shorter.length 16 with h16 | h16
    · exact h16
    · exact absurd (h.eq_of_length (le_antisymm hlen h16)) hne
  rw [htake]
  exact key ⟨shorter.length, hlt⟩

theorem witness_HuffDecodeEndsOrRaises_dead :
    codedBits (descent (.dcHuff 0 0) 0x80 8 [.data 0x01]) = (true :: List.replicate 14 false ++ [true]) ++ [] ∧
      DescentAt (descent (.acHuff 2 2) 0x00 6 [.data 0x01]) [true, false] longTable .acHuff .acSymbol ∧
      [true, false] ++ codedBits (descent (.acHuff 2 2) 0x00 6 [.data 0x01]) =
        (true :: List.replicate 14 false ++ [true]) ++ [] :=
  ⟨by decide, descent_ac 2 2 [true, false] _ _ _ rfl rfl, by decide⟩

theorem witness_HuffDecodeEndsOrRaises_stop :
    EndsInside (descent (.dcHuff 2 2) 0x00 1 [.data 0x00, .data 0xFF, .data 0xD9]) [true, false] ⟨16, 0x8000, 6⟩ ∧
      (descent (.dcHuff 2 2) 0x00 1 [.data 0x00, .data 0xFF, .data 0xD9]).fifo =
        dataEntries (stuffed [0x00]) ++ [.data 0xFF, .data 0xD9] ∧
      EndsInside (descent (.dcHuff 2 2) 0x00 1 [.cmd 1 0 0 0]) [true, false] ⟨16, 0x8000, 6⟩ ∧
      EndsInside (descent (.dcHuff 2 2) 0x00 1 [.data 0xFF, .cmd 1 0 0 0]) [true, false] ⟨16, 0x8000, 6⟩ :=
  ⟨⟨by decide, by decide⟩, rfl, ⟨by decide, by decide⟩, by decide, by decide⟩

theorem witness_ExtendIsABijection :
    1 ≤ 10 ∧ 511 < 2 ^ (10 - 1) ∧ 2 ^ (10 - 1) ≤ 512 ∧ 1023 < 2 ^ 10 ∧
      (2 ^ (10 - 1) ≤ (1023 : Int) ∧ (1023 : Int) ≤ 2 ^ 10 - 1) ∧
      (-(2 ^ 10 - 1) ≤ (-512 : Int) ∧ (-512 : Int) ≤ -2 ^ (10 - 1)) := by decide

theorem witness_StuffedPairGivesOnes :
    (scan gray (.dcHuff 0 0) 0 0 [.data 0xFF, .data 0]).fifo = [.data 0xFF#8, .data 0x00#8] ∧
      (scan gray (.dcHuff 0 0) 0 0 [.data 0xFF, .data 0]).nbits = 0 := by decide

theorem witness_RestartResetsThePredictors :
    (scan color .mcuStart 0 0 [.data 0xFF, .data 0xD7]).fifo = .data 0xFF#8 :: .data 0xD7 :: [] := by decide

/-- The start of `color`'s second MCU. -/
def secondMcu (fifo : List FifoEntry) : State := { scan color .mcuStart 0x2A 5 fifo with m := 1, mcuDone := 1 }

theorem witness_RestartResetsThePredictors_begin :
    nextTurn (scan color .mcuStart 0 0 []) = .core ∧ (scan color .mcuStart 0 0 []).m = 0 ∧
      nextTurn (secondMcu [.data 0xFE]) = .core ∧ (secondMcu [.data 0xFE]).m ≠ 0 ∧ 0xFE#8 ≠ 0xFF#8 ∧
      nextTurn (secondMcu [.data 0xFF, .data 0xCF]) = .core ∧ (0xCF#8).toNat < 0xD0 ∧
      nextTurn (secondMcu [.data 0xFF, .data 0xD8]) = .core ∧ 0xD7 < (0xD8#8).toNat := by decide

theorem witness_RestartResetsThePredictors_waits :
    nextTurn (secondMcu [.cmd 1 0 0 0]) = .core ∧ nextTurn (secondMcu [.data 0xFF, .cmd 1 0 0 0]) = .core ∧
      nextTurn (secondMcu []) = .core ∧ nextTurn (secondMcu [.data 0xFF]) = .core ∧
      (secondMcu [.data 0xFF]).fifo = [.data 0xFF#8] := by decide

theorem witness_MarkerEndsTheSegment : (scan gray (.dcHuff 0 0) 0 0 [.data 0xFF, .data 0xD9]).seq = .scan (.dcHuff 0 0) := by
  decide

/-- Eleven bits ready, the predictor at its largest value. -/
def elevenBits : State :=
  { scan gray (.dcSymbol 11) 0x00 8 [.data 0x00] with pred := #v[32767, 0, 0], k := 48 }

theorem witness_DcCategorySetsTheCoefficient :
    elevenBits.pace = .whole ∧ (11#8).toNat ≤ 11 ∧ (11#8).toNat ≤ (codedBits elevenBits).length ∧
      InS16 (elevenBits.pred[(curBlock elevenBits).j] + extend (bitsValue ((codedBits elevenBits).take 11)) 11) :=
  ⟨rfl, by decide, by decide, by unfold InS16; decide⟩

theorem witness_IllegalSymbolsRaise :
    11 < (12#8).toNat ∧ 1 ≤ (codedBits { elevenBits with cur := 0xFF }).length ∧
      ¬ (-32768 ≤ (32767 : Int) + extend 1 1 ∧ (32767 : Int) + extend 1 1 ≤ 32767) ∧
      bitsValue ((codedBits { elevenBits with cur := 0xFF }).take 1) = 1 ∧
      10 < (11#4).toNat ∧ 63 < 49 + (15#4).toNat ∧ 64 < 49 + 16 := by decide

/-- Ten bits ready of the eleven a DC symbol takes, among them a stuffed pair, and an FF whose second byte is not there. -/
def tenBits : State := scan gray (.dcSymbol 11) 0x03 2 [.data 0xFF, .data 0x00, .data 0xFF]

theorem witness_SymbolsWaitForTheirBits :
    tenBits.pace = .whole ∧ tenBits.fifo = dataEntries (stuffed [0xFF] ++ [0xFF]) ∧
      (codedBits tenBits).length < (11#8).toNat ∧
      (scan gray (.acSymbol 0xFA) 0x03 2 []).fifo = dataEntries (stuffed [] ++ []) ∧
      (codedBits (scan gray (.acSymbol 0xFA) 0x03 2 [])).length < (10#4).toNat ∧ 48 + (15#4).toNat ≤ 63 := by decide

theorem witness_SymbolsWaitForTheirBits_later :
    tenBits.seq = .scan (.dcSymbol 11) ∧
      (∃ u, exec (.dcCategory 11) tenBits = .next u ∧ ∃ n v, u.seq = .scan (.dcBits (11#8).toNat n v)) ∧
      ∃ u, exec (.acRunSize 15 10) { scan gray (.acSymbol 0xFA) 0x03 2 [] with k := 48 } = .next u ∧
        ∃ n v, u.seq = .scan (.acBits (10#4).toNat n v) :=
  ⟨rfl, ⟨_, rfl, 1, 1023, by decide⟩, _, rfl, 8, 3, by decide⟩

theorem witness_EobAndZrlAdvance : 47 + 16 < 64 ∧ elevenBits.k + 16 = 64 := by decide

theorem witness_RunSizeSetsTheCoefficient :
    elevenBits.pace = .whole ∧ 1 ≤ (10#4).toNat ∧ (10#4).toNat ≤ 10 ∧ elevenBits.k + (15#4).toNat ≤ 63 ∧
      (10#4).toNat ≤ (codedBits elevenBits).length := by decide

theorem witness_EcsInstructionsKeepTheRest :
    ∃ t, exec (.acRunSize 15 10) elevenBits = .next t ∧ t.k = 64 := ⟨_, rfl, by decide⟩

theorem witness_CommandsKeepTheRest :
    encode (.loadSof 0xC2 0) = .command 0x0000C203 ∧
      (∃ t, exec (.loadSof 0xC2 0) (ready 0x03 0xC2 0 0 [] []) = .next t ∧ t.curOp = 3) ∧
      opcodeOf (.startScan 0 0) = 0x04#8 ∧ encode (.startScan 0 0) = .command 0x00000004 ∧
      ∃ t, exec (.startScan 0 0) (ready 0x04 0 0 0 [] []) = .next t ∧ ∀ q, t.seq ≠ .scan q :=
  ⟨by decide, ⟨_, rfl, by decide⟩, rfl, by decide, _, rfl, nofun⟩

theorem gray_sound : gray.sound := by
  constructor <;> (try simp only [Component.sound]) <;> decide

theorem color_sound : color.sound := by
  constructor <;> (try simp only [Component.sound]) <;> decide

theorem witness_BlocksComeInCodingOrder :
    color.sound ∧ (2 : Fin 3).val < color.nf.toNat ∧ 1 < (color.comps[0]).h.toNat ∧ 1 < (color.comps[0]).v.toNat ∧
      { scan color .transform 0 0 [] with blk := 5 }.blk < (mcuBlocks color).length :=
  ⟨color_sound, by decide⟩

theorem witness_DequantMultipliesAndDezigzags : InS16 (-32768) ∧ InS16 32767 := by unfold InS16; decide

theorem witness_IdctOfDcOnlyIsUniform :
    ((Vector.replicate 64 0).set 0 (-32768) : Vector Int 64)[0] = -32768 ∧
      ∀ n : Fin 64, n ≠ 0 → ((Vector.replicate 64 0).set 0 (-32768) : Vector Int 64)[n] = 0 := by decide

theorem witness_IdctFitsFortyEightBits :
    ∀ n : Fin 64, -(32768 * 255) ≤ (Vector.replicate 64 (-(32768 * 255)) : Vector Int 64)[n] ∧
      (Vector.replicate 64 (-(32768 * 255)) : Vector Int 64)[n] ≤ 32768 * 255 := by decide

theorem witness_UpsamplingAndColourFollowTheEquations :
    color.sound ∧ (1 : Fin 3).val < color.nf.toNat ∧ 15 < 8 * color.hmax.toNat ∧ 15 < 8 * color.vmax.toNat ∧
      color.nf = 3#2 ∧ gray.sound ∧ gray.nf = 1#2 :=
  ⟨color_sound, by decide, by decide, by decide, rfl, gray_sound, rfl⟩

/-- A complete block: the last of `color`'s first MCU. -/
def lastBlock : State := { scan color .transform 0 0 [] with blk := 5 }

theorem witness_TransformStoresTheBlock :
    lastBlock.seq = .scan .transform ∧ nextTurn lastBlock = .core ∧ curBlock lastBlock = ⟨2, 0, 0⟩ ∧
      curBlock { lastBlock with blk := 3 } = ⟨0, 1, 1⟩ := by decide

/-- The commit of `color`'s second MCU, one column of which lies in the image; the bus answers an error at 0x101. -/
def commitAt (i : Nat) : State :=
  { scan color (.commit i 0) 0 0 [] with
    m := 1, mcuDone := 1, ob := 0xD0, platform := { fifoExtra := 0, busErr := [⟨0x100, 0x101⟩], regBase := 0 } }

theorem commitAt_inBounds : ScanInBounds (commitAt 16) := by
  refine ⟨rfl, by decide, rfl, by decide, ?_⟩
  show 16 < mcuPixels (commitAt 16)
  decide

theorem witness_CommitWritesThePixelByte_address :
    (commitAt 16).seq = .scan (.commit 16 0) ∧ ScanInBounds (commitAt 16) ∧ 16 < (commitAt 16).frame.x.toNat ∧
      8 < (commitAt 16).frame.y.toNat := ⟨rfl, commitAt_inBounds, by decide, by decide⟩

/-- Pixel (0, 0) of the second MCU answers a bus error, pixel (0, 1) is written, pixel (1, 0) and pixel (0, 9) are outside. -/
theorem witness_CommitWritesThePixelByte :
    nextTurn (commitAt 0) = .core ∧ 15 < 8 * color.hmax.toNat ∧ 0 * (8 * color.hmax.toNat) + 0 = 0 ∧
      (8 * color.hmax.toNat * (1 % color.mcux) + 0 = 16 ∧ 8 * color.vmax.toNat * (1 / color.mcux) + 0 = 0) ∧
      16 < color.x.toNat ∧ pixelAddr (commitAt 0) 16 0 0 = 0x100 ∧ busErr (commitAt 0) 0x100 = true ∧
      1 * (8 * color.hmax.toNat) + 0 = 16 ∧ busErr (commitAt 16) (pixelAddr (commitAt 16) 16 1 0) = false ∧
      color.x.toNat ≤ 8 * color.hmax.toNat * (1 % color.mcux) + 1 ∧
      color.y.toNat ≤ 8 * color.vmax.toNat * (1 / color.mcux) + 9 := by decide

theorem witness_EachImagePixelIsCoveredOnce : (commitAt 0).frame.sound ∧ 16 < color.x.toNat ∧ 8 < color.y.toNat :=
  ⟨color_sound, by decide⟩

theorem witness_CoreWritesOnlyTheRegion :
    ScanInBounds (commitAt 16) ∧ nextTurn (commitAt 16) = .core ∧
      ∃ t, step (commitAt 16) = .next t ∧ Memory.read t.mem 0x133 ≠ Memory.read (commitAt 16).mem 0x133 :=
  ⟨commitAt_inBounds, by decide, _, rfl, by decide⟩

theorem witness_LastMcuCompletesTheScan :
    nextTurn (scan color .mcuEnd 0 0 []) = .core ∧ (scan color .mcuEnd 0 0 []).m + 1 < color.mcuTotal ∧
      nextTurn (scan gray .mcuEnd 0 0 []) = .core ∧ gray.mcuTotal ≤ (scan gray .mcuEnd 0 0 []).m + 1 := by decide

theorem witness_EveryStepKeepsMemoryFrontEndAndReader :
    MemoryCanonical scan100 ∧ FifoBounded (frontEnd .count 1 [.data 0, .data 1]) ∧
      FrontEndCounts (frontEnd .count 1 []) ∧ BitReaderBounded elevenBits ∧
      ∃ t, step (hostTurnOf scan100 (.memWrite 0xFFFFFFFF 3)) = .next t :=
  ⟨by unfold MemoryCanonical; decide, by unfold FifoBounded; decide, by unfold FrontEndCounts; decide,
    by unfold BitReaderBounded; decide, _, rfl⟩

theorem witness_EveryStepKeepsCoefficientsInRange :
    CoefficientsInRange elevenBits ∧ ∃ t, step elevenBits = .next t :=
  ⟨⟨by unfold InS16; decide, by unfold InS16; decide, by decide, trivial⟩, _, rfl⟩

theorem witness_EveryStepKeepsTheErrorLatch :
    ErrorLatchAgrees (raise .busError (idle [])) ∧ TerminalFlushed (raise .busError (idle [])) ∧
      ∃ t, step (raise .busError (idle [])) = .next t :=
  ⟨by unfold ErrorLatchAgrees; decide, fun _ => ⟨rfl, rfl, rfl, rfl⟩, _, rfl⟩

theorem witness_EveryStepKeepsLoadedTablesSound :
    QuantTablesNonzero { idle [.data 9] with seq := .payload (.dqtCoef 65 3 (List.replicate 63 1)) } ∧
      HuffTablesSound { idle [.data 9] with seq := .payload (.dqtCoef 65 3 (List.replicate 63 1)) } ∧
      ∃ t, step { idle [.data 9] with seq := .payload (.dqtCoef 65 3 (List.replicate 63 1)) } = .next t ∧
        t.qtValid[3] = true := by
  refine ⟨⟨?_, ?_⟩, ⟨?_, ?_, trivial⟩, _, rfl, by decide⟩
  · intro t k h; fin_cases t <;> cases h
  · exact ⟨by decide, by decide⟩
  · intro t h; fin_cases t <;> cases h
  · intro t h; fin_cases t <;> cases h

theorem witness_EveryStepKeepsTheFrameSound : FrameSound (commitAt 16) ∧ ∃ t, step (commitAt 16) = .next t :=
  ⟨⟨fun _ => color_sound, trivial⟩, _, rfl⟩

theorem witness_EveryStepKeepsTheScanInBounds :
    FrameSound (commitAt 16) ∧ ScanInBounds (commitAt 16) ∧ ∃ t, step (commitAt 16) = .next t :=
  ⟨⟨fun _ => color_sound, trivial⟩, commitAt_inBounds, _, rfl⟩

theorem witness_DoneAndErrorAreLeftOnlyByReset :
    { idle [] with seq := .done }.seq = .done ∧ (raise .busError (idle [])).seq = .error ∧
      ∃ t, step (hostTurnOf (raise .busError (idle [])) (.memWrite 0 1)) = .next t := ⟨rfl, rfl, _, rfl⟩

theorem witness_CoreWaitsOrMovesOn :
    coreReady (idle []) = false ∧ coreReady (idle [.data 0]) = true ∧ (idle [.data 0]).seq = .idle ∧
      (idle [.data 0]).fifo = .data 0 :: [] := by decide

theorem witness_CoreAndHostKeepToTheirOwn :
    nextTurn elevenBits = .core ∧ (∃ t, step elevenBits = .next t) ∧
      nextTurn (hostTurnOf elevenBits (.regWrite 4 0xFFFFFF1C 5)) = .host ∧
      ∃ t, step (hostTurnOf elevenBits (.regWrite 4 0xFFFFFF1C 5)) = .next t ∧ t.outBase = 5 :=
  ⟨by decide, ⟨_, rfl⟩, by decide, _, rfl, rfl⟩

end Sys2Proof.Tests
end

section
/-! SUPPORT. What a payload byte, a dispatch and a turn of the host can do, each said once; and from these the induction by
which a fact is kept by every step. -/

namespace Sys2Proof.Machine

/-- What the head of the `while` loops of R95 and R96 can leave: the end of the command, an error, or the wait for the next
unit's id byte. -/
inductive NextUnit (s : State) : State → Prop
  | ends : NextUnit s (loadEnd s)
  | truncated (c : Cause) : NextUnit s (raise c s)
  | dqtId (rem : Nat) : NextUnit s (loadAt (.dqtId rem) s)
  | dhtId (rem : Nat) : NextUnit s (loadAt (.dhtId rem) s)

theorem dqtNext_nextUnit (rem : Nat) (s : State) : NextUnit s (dqtNext rem s) := by
  unfold dqtNext
  split_ifs
  · exact .ends
  · exact .truncated _
  · exact .dqtId rem

theorem dhtNext_nextUnit (rem : Nat) (s : State) : NextUnit s (dhtNext rem s) := by
  unfold dhtNext
  split_ifs
  · exact .ends
  · exact .truncated _
  · exact .dhtId rem

/-- What the payload byte at position `l` can leave, the byte itself already removed from the FIFO (R95 to R98). -/
inductive LoadStep (s : State) : LoadPos → State → Prop
  | raised (l : LoadPos) (c : Cause) : LoadStep s l (raise c s)
  | dqtId (rem : Nat) (tq : Fin 4) : LoadStep s (.dqtId rem) (loadAt (.dqtCoef rem tq []) s)
  | dqtCoef (rem : Nat) (tq : Fin 4) (q : List Byte) (b : Byte) : b ≠ 0#8 → q.length + 1 < 64 →
      LoadStep s (.dqtCoef rem tq q) (loadAt (.dqtCoef rem tq (q ++ [b])) s)
  | dqtStored (rem : Nat) (tq : Fin 4) (q : List Byte) (b : Byte) (t : State) : b ≠ 0#8 → 64 ≤ q.length + 1 →
      NextUnit (storeQt tq (qtOfBytes (q ++ [b])) s) t → LoadStep s (.dqtCoef rem tq q) t
  | dhtId (rem : Nat) (tc : TableClass) (th : Fin 4) : LoadStep s (.dhtId rem) (loadAt (.dhtBits rem tc th []) s)
  | dhtBits (rem : Nat) (tc : TableClass) (th : Fin 4) (bits : List Byte) (b : Byte) : bits.length + 1 < 16 →
      LoadStep s (.dhtBits rem tc th bits) (loadAt (.dhtBits rem tc th (bits ++ [b])) s)
  | dhtNoSymbols (rem : Nat) (tc : TableClass) (th : Fin 4) (bits : List Byte) (b : Byte) (t : State) :
      16 ≤ bits.length + 1 → overfull (bits ++ [b]) = false → symbolCount (bits ++ [b]) = 0 →
      NextUnit (storeHt tc th { bits := bitsOfBytes (bits ++ [b]), vals := [] } s) t →
      LoadStep s (.dhtBits rem tc th bits) t
  | dhtChecked (rem : Nat) (tc : TableClass) (th : Fin 4) (bits : List Byte) (b : Byte) : 16 ≤ bits.length + 1 →
      overfull (bits ++ [b]) = false → 0 < symbolCount (bits ++ [b]) → symbolCount (bits ++ [b]) ≤ 256 →
      LoadStep s (.dhtBits rem tc th bits) (loadAt (.dhtVals rem tc th (bitsOfBytes (bits ++ [b])) []) s)
  | dhtVals (rem : Nat) (tc : TableClass) (th : Fin 4) (bits : Vector Byte 16) (vals : List Byte) (b : Byte) :
      vals.length + 1 < symbolCount bits.toList →
      LoadStep s (.dhtVals rem tc th bits vals) (loadAt (.dhtVals rem tc th bits (vals ++ [b])) s)
  | dhtStored (rem : Nat) (tc : TableClass) (th : Fin 4) (bits : Vector Byte 16) (vals : List Byte) (b : Byte) (t : State) :
      symbolCount bits.toList ≤ vals.length + 1 → NextUnit (storeHt tc th { bits := bits, vals := vals ++ [b] } s) t →
      LoadStep s (.dhtVals rem tc th bits vals) t
  | sofHeader (len : Nat) (got : List Byte) (b : Byte) :
      LoadStep s (.sofHeader len got) (loadAt (.sofHeader len (got ++ [b])) s)
  | sofRejected (len : Nat) (got : List Byte) (f : Frame) (c : Cause) : f.valid = s.frame.valid →
      LoadStep s (.sofHeader len got) (raise c { s with frame := f })
  | sofAccepted (len : Nat) (got : List Byte) (f : Frame) : f.valid = s.frame.valid → f.nf = 1#2 ∨ f.nf = 3#2 →
      f.x ≠ 0#16 → f.y ≠ 0#16 → LoadStep s (.sofHeader len got) (loadAt (.sofComp 0 []) { s with frame := f })
  | sofComp (j : Nat) (got : List Byte) (b : Byte) : LoadStep s (.sofComp j got) (loadAt (.sofComp j (got ++ [b])) s)
  | sofStored (j : Nat) (got : List Byte) (comp : Component) : comp.sound → j + 1 < s.frame.nf.toNat →
      LoadStep s (.sofComp j got)
        (loadAt (.sofComp (j + 1) []) { s with frame := { s.frame with comps := s.frame.comps.setIfInBounds j comp } })
  | sofEnded (j : Nat) (got : List Byte) (comp : Component) : comp.sound → s.frame.nf.toNat ≤ j + 1 →
      LoadStep s (.sofComp j got)
        (sofEnd { s with frame := { s.frame with comps := s.frame.comps.setIfInBounds j comp } })
  | sosCount (len : Nat) (ob : Word) : LoadStep s (.sosCount len ob) (loadAt (.sosComp 0 ob []) s)
  | sosComp (j : Nat) (ob : Word) (got : List Byte) (b : Byte) :
      LoadStep s (.sosComp j ob got) (loadAt (.sosComp j ob (got ++ [b])) s)
  | sosNamed (j : Nat) (ob : Word) (got : List Byte) (td ta : Vector (Fin 4) 3) :
      LoadStep s (.sosComp j ob got) (loadAt (.sosComp (j + 1) ob []) { s with td := td, ta := ta })
  | sosAllNamed (j : Nat) (ob : Word) (got : List Byte) (td ta : Vector (Fin 4) 3) :
      LoadStep s (.sosComp j ob got) (loadAt (.sosTail ob []) { s with td := td, ta := ta })
  | sosTail (ob : Word) (got : List Byte) (b : Byte) : LoadStep s (.sosTail ob got) (loadAt (.sosTail ob (got ++ [b])) s)
  | scanStarts (ob : Word) (got : List Byte) : (regionAt ob s.frame).hi ≤ 2 ^ 32 →
      LoadStep s (.sosTail ob got) (scanInit { s with ob := ob })

theorem loadStep_dqtId (rem : Nat) (b : Byte) (s : State) : LoadStep s (.dqtId rem) (dqtId rem b s) := by
  unfold dqtId
  split_ifs
  · exact .raised _ _
  · exact .raised _ _
  · exact .dqtId rem _

theorem loadStep_dqtCoef (rem : Nat) (tq : Fin 4) (q : List Byte) (b : Byte) (s : State) :
    LoadStep s (.dqtCoef rem tq q) (dqtCoef rem tq q b s) := by
  unfold dqtCoef
  split_ifs with hb hq
  · exact .raised _ _
  · exact .dqtCoef rem tq q b hb hq
  · exact .dqtStored rem tq q b _ hb (Nat.le_of_not_lt hq) (dqtNext_nextUnit _ _)

theorem loadStep_dhtId (rem : Nat) (b : Byte) (s : State) : LoadStep s (.dhtId rem) (dhtId rem b s) := by
  unfold dhtId
  split_ifs
  · exact .raised _ _
  · exact .raised _ _
  · exact .dhtId rem _ _
  · exact .dhtId rem _ _

theorem loadStep_dhtBits (rem : Nat) (tc : TableClass) (th : Fin 4) (bits : List Byte) (b : Byte) (s : State) :
    LoadStep s (.dhtBits rem tc th bits) (dhtBits rem tc th bits b s) := by
  unfold dhtBits dhtChecked
  split_ifs with hlen hmany hfull hrem hzero
  · exact .dhtBits rem tc th bits b hlen
  · exact .raised _ _
  · exact .raised _ _
  · exact .raised _ _
  · exact .dhtNoSymbols rem tc th bits b _ (by omega) (by simpa using hfull) hzero (dhtNext_nextUnit _ _)
  · exact .dhtChecked rem tc th bits b (by omega) (by simpa using hfull) (by omega) (by omega)

theorem loadStep_dhtVals (rem : Nat) (tc : TableClass) (th : Fin 4) (bits : Vector Byte 16) (vals : List Byte) (b : Byte)
    (s : State) : LoadStep s (.dhtVals rem tc th bits vals) (dhtVals rem tc th bits vals b s) := by
  unfold dhtVals
  split_ifs with h
  · exact .dhtVals rem tc th bits vals b h
  · exact .dhtStored rem tc th bits vals b _ (Nat.le_of_not_lt h) (dhtNext_nextUnit _ _)

/-- The two bits of Nf hold the component counts that are accepted (R97 step 2, log 14). -/
theorem nf_of_count {n : Byte} (h : n = 1#8 ∨ n = 3#8) : n.setWidth 2 = 1#2 ∨ n.setWidth 2 = 3#2 := by
  rcases h with rfl | rfl <;> decide

theorem loadStep_sofHeader (len : Nat) (got h : List Byte) (s : State) :
    LoadStep s (.sofHeader len got) (sofHeader len h s) := by
  unfold sofHeader
  simp only
  split_ifs with h8 hy hx h0 hn hlen
  · exact .sofRejected len got _ _ rfl
  · exact .sofRejected len got _ _ rfl
  · exact .sofRejected len got _ _ rfl
  · exact .sofRejected len got _ _ rfl
  · exact .sofRejected len got _ _ rfl
  · exact .sofRejected len got _ _ rfl
  · exact .sofAccepted len got _ rfl (nf_of_count (by tauto)) hx hy

/-- Sampling factors that pass the checks of R97 step 3 are 1 to 4 in the three bits that hold them. -/
theorem nibble_toNat_setWidth {n : BitVec 4} (h : n.toNat ≤ 4) : (n.setWidth 3).toNat = n.toNat := by
  rw [BitVec.toNat_setWidth]; omega

theorem loadStep_sofComponent (j : Nat) (got : List Byte) (c hv tq : Byte) (s : State) :
    LoadStep s (.sofComp j got) (sofComponent j c hv tq s) := by
  unfold sofComponent
  simp only
  split_ifs with hdup hsamp htq hj
  · exact .raised _ _
  · exact .raised _ _
  · exact .raised _ _
  all_goals
    have hsound : Component.sound
        { id := c, h := (hiNibble hv).setWidth 3, v := (loNibble hv).setWidth 3, tq := tableId tq.toNat } := by
      simp only [Component.sound, nibble_toNat_setWidth (n := hiNibble hv) (by omega),
        nibble_toNat_setWidth (n := loNibble hv) (by omega)]
      omega
  · exact .sofStored j got _ hsound hj
  · exact .sofEnded j got _ hsound (Nat.le_of_not_lt hj)

theorem loadStep_sosCount (len : Nat) (ob : Word) (ns : Byte) (s : State) :
    LoadStep s (.sosCount len ob) (sosCount len ob ns s) := by
  unfold sosCount
  split_ifs
  · exact .raised _ _
  · exact .raised _ _
  · exact .raised _ _
  · exact .sosCount len ob

theorem loadStep_sosComponent (j : Nat) (ob : Word) (got : List Byte) (cs t : Byte) (s : State) :
    LoadStep s (.sosComp j ob got) (sosComponent j ob cs t s) := by
  unfold sosComponent
  simp only
  split_ifs
  · exact .raised _ _
  · exact .raised _ _
  · exact .sosNamed j ob got _ _
  · exact .sosAllNamed j ob got _ _

theorem loadStep_sosEnd (ob : Word) (got : List Byte) (ss se a : Byte) (s : State) :
    LoadStep s (.sosTail ob got) (sosEnd ob ss se a s) := by
  unfold sosEnd
  split_ifs with hprog htab hrange
  · exact .raised _ _
  · exact .raised _ _
  · exact .raised _ _
  · exact .scanStarts ob got (Nat.le_of_not_lt hrange)

/-- Every payload byte does what `LoadStep` says. -/
theorem loadByte_step (l : LoadPos) (b : Byte) (s : State) : LoadStep s l (loadByte l b s) := by
  unfold loadByte
  cases l with
  | dqtId rem => exact loadStep_dqtId rem b s
  | dqtCoef rem tq q => exact loadStep_dqtCoef rem tq q b s
  | dhtId rem => exact loadStep_dhtId rem b s
  | dhtBits rem tc th bits => exact loadStep_dhtBits rem tc th bits b s
  | dhtVals rem tc th bits vals => exact loadStep_dhtVals rem tc th bits vals b s
  | sofHeader len got =>
    simp only
    split_ifs
    · exact .sofHeader len got b
    · exact loadStep_sofHeader len got _ s
  | sofComp j got =>
    simp only
    split_ifs
    · exact .sofComp j got b
    · exact loadStep_sofComponent j got _ _ _ s
  | sosCount len ob => exact loadStep_sosCount len ob b s
  | sosComp j ob got =>
    simp only
    split_ifs
    · exact .sosComp j ob got b
    · exact loadStep_sosComponent j ob got _ _ s
  | sosTail ob got =>
    simp only
    split_ifs
    · exact .sosTail ob got b
    · exact loadStep_sosEnd ob got _ _ _ s

/-- What the checks at a command's dispatch leave, before its payload is read (R91, R92, R95 to R98). -/
inductive LoadStart (s : State) : State → Prop
  | raised (c : Cause) : LoadStart s (raise c s)
  | units (t : State) : NextUnit s t → LoadStart s t
  | sof (len : Nat) : s.frame.valid = false → LoadStart s (loadAt (.sofHeader len []) s)
  | scan (len : Nat) (ob : Word) : s.frame.valid = true → LoadStart s (beginScanHeader len ob s)
  | scanRejected (len : Nat) (ob : Word) (c : Cause) : s.frame.valid = true →
      LoadStart s (raise c (beginScanHeader len ob s))

theorem loadDqt_start (len : Nat) (s : State) : ∃ u fuel, LoadStart s u ∧ loadDqt len s = runLoad fuel u := by
  unfold loadDqt
  split_ifs
  · exact ⟨_, 0, .raised _, rfl⟩
  · exact ⟨_, _, .units _ (dqtNext_nextUnit len s), rfl⟩

theorem loadDht_start (len : Nat) (s : State) : ∃ u fuel, LoadStart s u ∧ loadDht len s = runLoad fuel u := by
  unfold loadDht
  split_ifs
  · exact ⟨_, 0, .raised _, rfl⟩
  · exact ⟨_, _, .units _ (dhtNext_nextUnit len s), rfl⟩

theorem loadSof_start (arg : Byte) (len : Nat) (s : State) :
    ∃ u fuel, LoadStart s u ∧ loadSof arg len s = runLoad fuel u := by
  unfold loadSof
  split
  · exact ⟨_, 0, .raised _, rfl⟩
  · exact ⟨_, 0, .raised _, rfl⟩
  · split_ifs with hv
    · exact ⟨_, 0, .raised _, rfl⟩
    · exact ⟨_, 0, .raised _, rfl⟩
    · exact ⟨_, _, .sof len (by simpa using hv), rfl⟩

theorem startScan_start (len : Nat) (ob : Word) (s : State) :
    ∃ u fuel, LoadStart s u ∧ startScan len ob s = runLoad fuel u := by
  unfold startScan
  split_ifs with hv
  · exact ⟨_, 0, .raised _, rfl⟩
  · exact ⟨_, 0, .scanRejected len ob _ (by simpa using hv), rfl⟩
  · exact ⟨_, _, .scan len ob (by simpa using hv), rfl⟩

/-- The four kinds of core steps: none, a dispatch from IDLE with what its payload does, more of a payload, or a step of the
scan program. -/
theorem coreStep_kinds {s t : State} (h : CoreStep s t) :
    t = s ∨
    (s.seq = .idle ∧ ∃ op rest u fuel, rest <:+ s.fifo ∧ LoadStart { s with fifo := rest, curOp := op } u ∧
      t = runLoad fuel u) ∨
    (∃ fuel, t = runLoad fuel s) ∨
    ∃ q, s.seq = .scan q ∧ ScanStep s q t := by
  cases h with
  | waits => exact .inl rfl
  | idleData b rest hs hf =>
    exact .inr (.inl ⟨hs, 0#8, s.fifo, _, 0, List.suffix_rfl, .raised .sequence, rfl⟩)
  | loadDqt arg len ob rest hs hf =>
    obtain ⟨u, fuel, hu, e⟩ := loadDqt_start len.toNat (takeCommand 0x01 s)
    exact .inr (.inl ⟨hs, _, _, u, fuel, List.tail_suffix _, hu, e⟩)
  | loadDht arg len ob rest hs hf =>
    obtain ⟨u, fuel, hu, e⟩ := loadDht_start len.toNat (takeCommand 0x02 s)
    exact .inr (.inl ⟨hs, _, _, u, fuel, List.tail_suffix _, hu, e⟩)
  | loadSof arg len ob rest hs hf =>
    obtain ⟨u, fuel, hu, e⟩ := loadSof_start arg len.toNat (takeCommand 0x03 s)
    exact .inr (.inl ⟨hs, _, _, u, fuel, List.tail_suffix _, hu, e⟩)
  | startScan arg len ob rest hs hf =>
    obtain ⟨u, fuel, hu, e⟩ := startScan_start len.toNat ob (takeCommand 0x04 s)
    exact .inr (.inl ⟨hs, _, _, u, fuel, List.tail_suffix _, hu, e⟩)
  | illegal op op' arg len ob rest hs hf =>
    exact .inr (.inl ⟨hs, _, _, _, 0, List.tail_suffix _, .raised .illegalCommand, rfl⟩)
  | payload l hs => exact .inr (.inr (.inl ⟨_, rfl⟩))
  | scan q t hs ht => exact .inr (.inr (.inr ⟨q, hs, ht⟩))

/-- What a dispatch leaves, every payload byte and every step of the scan program keep, each step of the core keeps. -/
theorem coreStep_keeps {P : State → Prop} {s t : State} (h : CoreStep s t)
    (start : ∀ op rest u, s.seq = .idle → rest <:+ s.fifo → LoadStart { s with fifo := rest, curOp := op } u → P u)
    (raised : ∀ c u l, u.seq = .payload l → P u → P (raise c u))
    (byte : ∀ u l b rest v, u.seq = .payload l → u.fifo = .data b :: rest → P u →
      LoadStep { u with fifo := rest } l v → P v)
    (scan : ∀ q, s.seq = .scan q → ScanStep s q t → P t) (hs : P s) : P t := by
  have run : ∀ fuel u, P u → P (runLoad fuel u) :=
    runLoad_induct raised fun u l b rest hl hf hu => byte u l b rest _ hl hf hu (loadByte_step l b _)
  rcases coreStep_kinds h with rfl | ⟨hi, op, rest, u, fuel, hr, hu, rfl⟩ | ⟨fuel, rfl⟩ | ⟨q, hq, hstep⟩
  · exact hs
  · exact run fuel u (start op rest u hi hr hu)
  · exact run fuel s hs
  · exact scan q hq hstep

/-- What an access of the host can do to the core and the memory, but by a reset (R83 to R88, R55). -/
inductive HostEffect (s : State) : State → Prop
  | nothing : HostEffect s s
  | command (w : Word) : terminal s = false → s.fifo.length < fifoDepth s → HostEffect s (appendCmd w s)
  | dropped : HostEffect s { s with dropped := true }
  | counted (b : Byte) : terminal s = false → s.feMode = .count → s.fifo.length < fifoDepth s →
      HostEffect s (appendCounted b s)
  | streamed (b : Byte) : terminal s = false → s.fifo.length < fifoDepth s → HostEffect s (appendStreamed b s)
  | outBase (v : Word) : HostEffect s { s with outBase := v }
  | events (d e : Bool) : HostEffect s { s with doneEvt := s.doneEvt && d, errEvt := s.errEvt && e }
  | enables (d e : Bool) : HostEffect s { s with doneIe := d, errIe := e }
  | memory (a : Word) (v : Byte) : HostEffect s (hostMemWrite a v s)

/-- A register write that completes has an effect, or is the reset (R83, R137). -/
theorem regWrite_effect {o : Nat} {v : Word} {s u : State} (h : regWrite o v s = some u) :
    HostEffect s u ∨ (u = resetCore s ∧ o = 4 ∧ v.getLsbD 0 = true) := by
  rcases regWrite_cases o v s with ⟨ho, e⟩ | ⟨-, e⟩ | ⟨-, e⟩ | ⟨-, e⟩ | ⟨-, e⟩ | ⟨-, e⟩ | ⟨-, e⟩ <;> rw [e] at h
  · obtain rfl := Option.some.inj h
    split_ifs with hv
    · exact .inr ⟨rfl, ho, hv⟩
    · exact .inl .nothing
  · rcases cmdWrite_cases v s with ⟨-, e'⟩ | ⟨-, -, e'⟩ | ⟨ht, hl, e'⟩ <;> rw [e'] at h <;> cases h
    · exact .inl .nothing
    · exact .inl (.command v ht hl)
  · rcases dataWrite_cases v s with ⟨-, e'⟩ | ⟨-, -, e'⟩ | ⟨-, -, -, e'⟩ | ⟨ht, hm, hl, e'⟩ | ⟨ht, hm, hl, e'⟩ <;>
      rw [e'] at h <;> cases h
    · exact .inl .nothing
    · exact .inl .dropped
    · exact .inl (.counted _ ht hm hl)
    · exact .inl (.streamed _ ht hl)
  · obtain rfl := Option.some.inj h; exact .inl (.outBase v)
  · obtain rfl := Option.some.inj h; exact .inl (.events _ _)
  · obtain rfl := Option.some.inj h; exact .inl (.enables _ _)
  · obtain rfl := Option.some.inj h; exact .inl .nothing

/-- A state with the model's own record of the host replaced (logs 1, 17, 21). -/
def withHost (ops : List HostOp) (stalled : Bool) (reads : List HostRead) (sched : List Turn) (n : Nat) (s : State) : State :=
  { s with hostOps := ops, stalled := stalled, reads := reads, sched := sched, freeCount := n }

/-- A turn of the host: an effect, or the reset that a write of 1 to CTRL bit 0 performs. -/
theorem hostStep_effect {s t : State} (h : HostStep s t) :
    ∃ u ops stalled reads n, t = withHost ops stalled reads u.sched n u ∧ (HostEffect s u ∨
      (u = resetCore s ∧ ∃ addr v rest, s.hostOps = .regWrite 4 addr v :: rest ∧
        (addr - s.platform.regBase).toNat = 4 ∧ v.getLsbD 0 = true)) := by
  cases h with
  | nothing => exact ⟨s, _, _, _, _, rfl, .inl .nothing⟩
  | stalls => exact ⟨s, _, _, _, _, rfl, .inl .nothing⟩
  | waited => exact ⟨s, _, _, _, _, rfl, .inl .nothing⟩
  | reads r n => exact ⟨s, _, _, _, _, rfl, .inl .nothing⟩
  | memWrites a v rest ho =>
    exact ⟨_, _, _, _, _, rfl, .inl (.memory a v)⟩
  | regWrites addr v rest u ho hu =>
    exact ⟨u, _, _, _, _, rfl, (regWrite_effect hu).imp_right fun ⟨e, ho4, hv⟩ => ⟨e, addr, v, rest, ho, ho4, hv⟩⟩

/-- What the core's steps, the host's effects and a reset keep, whatever the record of the host is, every step keeps. -/
theorem step_keeps {P : State → Prop} {s t : State} (h : step s = .next t)
    (record : ∀ ops stalled reads sched n u, P u → P (withHost ops stalled reads sched n u))
    (core : ∀ u v, CoreStep u v → P u → P v) (host : ∀ u v, HostEffect u v → P u → P v)
    (reset : ∀ u, P u → P (resetCore u)) (hs : P s) : P t := by
  have hs' : P (afterTurn s) := record s.hostOps s.stalled s.reads s.sched.tail s.freeCount s hs
  rcases step_cases h with ⟨-, hc⟩ | ⟨-, hh⟩ | ⟨-, rfl⟩
  · exact core _ _ hc hs'
  · obtain ⟨u, ops, stalled, reads, n, rfl, he | ⟨rfl, -⟩⟩ := hostStep_effect hh
    · exact record _ _ _ _ _ _ (host _ _ he hs')
    · exact record _ _ _ _ _ _ (reset _ hs')
  · unfold hwReset
    simp only
    split_ifs
    · exact record _ _ _ _ _ _ (reset _ hs')
    · exact reset _ hs'

end Sys2Proof.Machine
end

section
/-! SUPPORT. The core and the host share no mutable state: what the core's work changes, how a step of the core ends, and
the invariants that follow from that alone. -/

namespace Sys2Proof.Machine

/-- `u` is `s` after work of the core: the front end, the events and enables, ERR and the host's record are those of `s`,
entries are taken off the FIFO's head only, `nbits` and the form of the memory are kept. -/
structure Worked (s u : State) : Prop where
  same : u = { s with
    seq := u.seq, fifo := u.fifo, qt := u.qt, qtValid := u.qtValid, htDc := u.htDc, htAc := u.htAc,
    htDcValid := u.htDcValid, htAcValid := u.htAcValid, frame := u.frame, td := u.td, ta := u.ta, ob := u.ob, cur := u.cur,
    nbits := u.nbits, p := u.p, pred := u.pred, m := u.m, blk := u.blk, k := u.k, rst := u.rst, mcuDone := u.mcuDone,
    zz := u.zz, b := u.b, ws := u.ws, samples := u.samples, curOp := u.curOp, mem := u.mem, clobbered := u.clobbered }
  fifo : u.fifo <:+ s.fifo
  bits : BitReaderBounded s → BitReaderBounded u
  mem  : MemoryCanonical s → MemoryCanonical u

theorem Worked.refl (s : State) : Worked s s := ⟨rfl, List.suffix_rfl, id, id⟩

theorem Worked.trans {s u v : State} (h : Worked s u) (h' : Worked u v) : Worked s v := by
  refine ⟨?_, h'.fifo.trans h.fifo, h'.bits ∘ h.bits, h'.mem ∘ h.mem⟩
  rw [h'.same, h.same]

theorem Worked.of_reader {s u : State} {k : Nat} (h : ReaderMoved u { s with k := k }) : Worked s u := by
  refine ⟨?_, h.suffix, h.bits, fun hm => ?_⟩
  · rw [h.same.1]
  · unfold MemoryCanonical; rw [h.same.1]; exact hm

/-- How a turn of the core ends: it has waited, it has worked and stands in no terminal state, it has raised an error, or it
has completed the scan. -/
inductive CoreLeaves (s : State) : State → Prop
  | waits : CoreLeaves s s
  | works (u : State) : terminal s = false → terminal u = false → Worked s u → CoreLeaves s u
  | raises (c : Cause) (u : State) : Worked s u → CoreLeaves s (raise c u)
  | completes (u : State) : terminal s = false → Worked s u → CoreLeaves s (scanComplete u)

/-- Work before a turn's end belongs to the turn. -/
theorem CoreLeaves.after {s u t : State} (hs : terminal s = false) (hu : terminal u = false) (h : Worked s u)
    (h' : CoreLeaves u t) : CoreLeaves s t := by
  cases h' with
  | waits => exact .works _ hs hu h
  | works _ _ ht w => exact .works _ hs ht (h.trans w)
  | raises c v w => exact .raises c v (h.trans w)
  | completes v _ w => exact .completes v hs (h.trans w)

theorem terminal_payload {s : State} {l : LoadPos} (h : s.seq = .payload l) : terminal s = false := by
  simp [terminal, isDone, isError, h]

theorem terminal_scan {s : State} {q : ScanPos} (h : s.seq = .scan q) : terminal s = false := by
  simp [terminal, isDone, isError, h]

theorem terminal_idle {s : State} (h : s.seq = .idle) : terminal s = false := by
  simp [terminal, isDone, isError, h]

theorem nextUnit_leaves {s t : State} (hs : terminal s = false) (h : NextUnit s t) : CoreLeaves s t := by
  cases h with
  | truncated c => exact .raises c s (.refl s)
  | _ => exact .works _ hs rfl ⟨rfl, List.suffix_rfl, id, id⟩

theorem storeHt_nextUnit_leaves {s t : State} {tc : TableClass} {th : Fin 4} {table : HuffTable} (hs : terminal s = false)
    (h : NextUnit (storeHt tc th table s) t) : CoreLeaves s t := by
  have hu : terminal (storeHt tc th table s) = false := by cases tc <;> exact hs
  have w : Worked s (storeHt tc th table s) := by cases tc <;> exact ⟨rfl, List.suffix_rfl, id, id⟩
  exact .after hs hu w (nextUnit_leaves hu h)

theorem loadStep_leaves {s t : State} {l : LoadPos} (hs : terminal s = false) (h : LoadStep s l t) : CoreLeaves s t := by
  cases h with
  | raised _ c => exact .raises c s (.refl s)
  | dqtStored rem tq q b _ _ _ hnext =>
    have hu : terminal (storeQt tq (qtOfBytes (q ++ [b])) s) = false := hs
    exact .after hs hu ⟨rfl, List.suffix_rfl, id, id⟩ (nextUnit_leaves hu hnext)
  | dhtNoSymbols _ _ _ _ _ _ _ _ _ hnext => exact storeHt_nextUnit_leaves hs hnext
  | dhtStored _ _ _ _ _ _ _ _ hnext => exact storeHt_nextUnit_leaves hs hnext
  | sofRejected len got f c => exact .raises c _ ⟨rfl, List.suffix_rfl, id, id⟩
  | sofEnded j got comp =>
    unfold sofEnd
    simp only
    split_ifs
    · exact .raises _ _ ⟨rfl, List.suffix_rfl, id, id⟩
    · exact .works _ hs rfl ⟨rfl, List.suffix_rfl, id, id⟩
  | scanStarts ob got => exact .works _ hs rfl ⟨rfl, List.suffix_rfl, fun _ => Nat.zero_le _, id⟩
  | _ => exact .works _ hs rfl ⟨rfl, List.suffix_rfl, id, id⟩

theorem loadStart_leaves {s t : State} (hs : terminal s = false) (h : LoadStart s t) : CoreLeaves s t := by
  cases h with
  | raised c => exact .raises c s (.refl s)
  | units _ hnext => exact nextUnit_leaves hs hnext
  | scanRejected len ob c => exact .raises c _ ⟨rfl, List.suffix_rfl, id, id⟩
  | _ => exact .works _ hs rfl ⟨rfl, List.suffix_rfl, id, id⟩

theorem dcFinish_leaves {s : State} (hs : terminal s = false) (t v : Nat) : CoreLeaves s (dcFinish t v s) := by
  unfold dcFinish
  simp only
  split_ifs
  · exact .raises _ s (.refl s)
  · exact .works _ hs rfl ⟨rfl, List.suffix_rfl, id, id⟩

theorem acNext_leaves {s : State} (hs : terminal s = false) (k : Nat) : CoreLeaves s (acNext k s) := by
  unfold acNext
  split_ifs <;> exact .works _ hs rfl ⟨rfl, List.suffix_rfl, id, id⟩

theorem acFinish_leaves {s : State} (hs : terminal s = false) (sz v : Nat) : CoreLeaves s (acFinish sz v s) := by
  unfold acFinish acNext
  split_ifs <;> exact .works _ hs rfl ⟨rfl, List.suffix_rfl, id, id⟩

theorem transformBlock_leaves {s : State} (hs : terminal s = false) : CoreLeaves s (transformBlock s) := by
  unfold transformBlock
  simp only
  split_ifs <;> exact .works _ hs rfl ⟨rfl, List.suffix_rfl, id, id⟩

theorem pixelAddr_lt (s : State) (x y : Nat) (c : Fin 3) : pixelAddr s x y c < 2 ^ 32 := Nat.mod_lt _ (by decide)

theorem commitStep_leaves {s : State} (hs : terminal s = false) (i : Nat) (c : Fin 3) :
    CoreLeaves s (commitStep i c s) := by
  unfold commitStep memWrite
  split_ifs
  · exact .raises _ s (.refl s)
  · exact .works _ hs rfl ⟨rfl, List.suffix_rfl, id, fun h => Memory.wf_write _ h (pixelAddr_lt ..)⟩
  · exact .works _ hs rfl ⟨rfl, List.suffix_rfl, id, id⟩

theorem mcuEndStep_leaves {s : State} (hs : terminal s = false) : CoreLeaves s (mcuEndStep s) := by
  unfold mcuEndStep
  split_ifs
  · exact .works _ hs rfl ⟨rfl, List.suffix_rfl, id, id⟩
  · exact .completes _ hs ⟨rfl, List.suffix_rfl, id, id⟩

theorem terminal_reader {s u : State} (h : ReaderMoved u s) : terminal u = terminal s := by
  rw [h.same.1]; rfl

theorem scanStep_leaves {s t : State} {q : ScanPos} (hs : terminal s = false) (h : ScanStep s q t) : CoreLeaves s t := by
  cases h with
  | raised c k u hu => exact .raises c u (.of_reader hu)
  | moved _ hu => exact .works _ hs ((terminal_reader hu).trans hs) (.of_reader hu)
  | begins => exact .works _ hs rfl ⟨rfl, List.suffix_rfl, id, id⟩
  | restart => exact .works _ hs rfl ⟨rfl, List.drop_suffix _ _, fun _ => Nat.zero_le _, id⟩
  | eob => exact .works _ hs rfl ⟨rfl, List.suffix_rfl, id, id⟩
  | zrl => exact acNext_leaves hs _
  | transform => exact transformBlock_leaves hs
  | commit i c => exact commitStep_leaves hs i c
  | mcuEnd => exact mcuEndStep_leaves hs
  | dcDone t v u _ hu =>
    have hut := (terminal_reader hu).trans hs
    exact .after hs hut (.of_reader hu) (dcFinish_leaves hut t v)
  | runDone rs k sz v u _ _ _ _ _ hu =>
    have hut := (terminal_reader hu).trans hs
    exact .after hs hut (.of_reader hu) (acFinish_leaves hut _ _)
  | acDone sz n v v' u _ _ hu =>
    have hut := (terminal_reader hu).trans hs
    exact .after hs hut (.of_reader hu) (acFinish_leaves hut _ _)
  | dcHuff _ _ _ _ u _ hu | dcSymbol _ _ _ u _ hu | dcBits _ _ _ u _ hu | acHuff _ _ _ _ u _ hu
  | acSymbol _ _ _ u _ hu | runBits _ _ _ _ _ u _ _ _ _ _ _ hu | acBits _ _ _ _ _ u _ _ _ hu =>
    have hut := (terminal_reader hu).trans hs
    exact .after hs hut (.of_reader hu) (.works _ hut rfl ⟨rfl, List.suffix_rfl, id, id⟩)

/-- Every turn of the core ends in one of the ways of `CoreLeaves`. -/
theorem coreStep_leaves {s t : State} (h : CoreStep s t) : CoreLeaves s t := by
  refine coreStep_keeps h (P := CoreLeaves s) ?start ?raised ?byte ?scan .waits
  case start =>
    intro op rest u hs hr hu
    have htaken : Worked s { s with fifo := rest, curOp := op } := ⟨rfl, hr, id, id⟩
    have hidle : terminal { s with fifo := rest, curOp := op } = false := terminal_idle hs
    exact .after (terminal_idle hs) hidle htaken (loadStart_leaves hidle hu)
  case raised =>
    intro c u l hl hu
    cases hu with
    | waits => exact .raises c s (.refl s)
    | works _ _ _ w => exact .raises c u w
    | raises c' v w => cases hl
    | completes v _ w => cases hl
  case byte =>
    intro u l b rest v hl hf hu hv
    have hfifo : Worked u { u with fifo := rest } := ⟨rfl, hf ▸ List.suffix_cons _ _, id, id⟩
    have hload : terminal { u with fifo := rest } = false := terminal_payload hl
    have hstep : CoreLeaves { u with fifo := rest } v := loadStep_leaves hload hv
    cases hu with
    | waits => exact .after (terminal_payload hl) hload hfifo hstep
    | works _ hs _ w => exact .after hs hload (w.trans hfifo) hstep
    | raises c' v w => cases hl
    | completes v _ w => cases hl
  case scan =>
    intro q hq hstep
    exact scanStep_leaves (terminal_scan hq) hstep

/-- What the turns of the core keep (R16, R21, R28, R29, R54, R86). -/
theorem coreLeaves_keeps {s t : State} (h : CoreLeaves s t) :
    t.outBase = s.outBase ∧ t.doneIe = s.doneIe ∧ t.errIe = s.errIe ∧ t.dropped = s.dropped ∧
      (s.doneEvt = true → t.doneEvt = true) ∧ (s.errEvt = true → t.errEvt = true) ∧ t.fifo <:+ s.fifo ∧
      t.hostOps = s.hostOps ∧ t.reads = s.reads ∧ t.stalled = s.stalled ∧ t.freeCount = s.freeCount ∧
      t.platform = s.platform ∧ t.pace = s.pace ∧
      ((t.feMode = s.feMode ∧ t.feCount = s.feCount ∧ t.feThenStream = s.feThenStream) ∨
        (t.feMode = .none ∧ t.feCount = 0#16 ∧ t.feThenStream = false)) := by
  cases h with
  | waits => exact ⟨rfl, rfl, rfl, rfl, id, id, List.suffix_rfl, rfl, rfl, rfl, rfl, rfl, rfl, .inl ⟨rfl, rfl, rfl⟩⟩
  | works _ _ _ w =>
    have hf := w.fifo
    rw [w.same]
    exact ⟨rfl, rfl, rfl, rfl, id, id, hf, rfl, rfl, rfl, rfl, rfl, rfl, .inl ⟨rfl, rfl, rfl⟩⟩
  | raises c u w =>
    rw [w.same]
    exact ⟨rfl, rfl, rfl, rfl, id, fun _ => rfl, List.nil_suffix, rfl, rfl, rfl, rfl, rfl, rfl, .inr ⟨rfl, rfl, rfl⟩⟩
  | completes u _ w =>
    rw [w.same]
    exact ⟨rfl, rfl, rfl, rfl, fun _ => rfl, id, List.nil_suffix, rfl, rfl, rfl, rfl, rfl, rfl, .inr ⟨rfl, rfl, rfl⟩⟩

/-- What an access of the host may change: the front end, OUT_BASE, the enables, DROPPED, the events it clears and the output
memory. -/
structure HostChanges (s u : State) : Prop where
  same : u = { s with
    fifo := u.fifo, feMode := u.feMode, feCount := u.feCount, feThenStream := u.feThenStream, dropped := u.dropped,
    outBase := u.outBase, doneIe := u.doneIe, errIe := u.errIe, doneEvt := u.doneEvt, errEvt := u.errEvt,
    mem := u.mem, indet := u.indet, clobbered := u.clobbered }
  fifo : s.fifo <+: u.fifo
  done : u.doneEvt = true → s.doneEvt = true
  err  : u.errEvt = true → s.errEvt = true

theorem hostMemWrite_changes (a : Word) (v : Byte) (s : State) : HostChanges s (hostMemWrite a v s) := by
  unfold hostMemWrite
  split_ifs <;> exact ⟨rfl, List.prefix_rfl, id, id⟩

theorem hostEffect_changes {s u : State} (h : HostEffect s u) : HostChanges s u := by
  cases h with
  | command w => exact ⟨rfl, List.prefix_append _ _, id, id⟩
  | counted b => exact ⟨rfl, List.prefix_append _ _, id, id⟩
  | streamed b => exact ⟨rfl, List.prefix_append _ _, id, id⟩
  | events d e => exact ⟨rfl, List.prefix_rfl, fun h => (Bool.and_eq_true_iff.1 h).1, fun h => (Bool.and_eq_true_iff.1 h).1⟩
  | memory a v => exact hostMemWrite_changes a v s
  | _ => exact ⟨rfl, List.prefix_rfl, id, id⟩

/-- Settles O60: a turn of the core ends in one of the ways of `CoreLeaves`, a turn of the host changes what `HostChanges`
names. -/
theorem coreAndHostKeepToTheirOwn : Obligations.CoreAndHostKeepToTheirOwn := by
  intro s t h
  rcases step_cases h with ⟨hn, hc⟩ | ⟨hn, hh⟩ | ⟨hn, -⟩ <;> rw [hn]
  · exact ⟨fun _ => coreLeaves_keeps (s := afterTurn s) (coreStep_leaves hc), nofun⟩
  · refine ⟨nofun, fun _ => ?_⟩
    obtain ⟨u, ops, stalled, reads, n, rfl, he | ⟨-, hreset⟩⟩ := hostStep_effect hh
    · obtain ⟨same, fifo, done, err⟩ := hostEffect_changes he
      refine .inl ⟨?_, fifo, done, err⟩
      rw [same]; rfl
    · exact .inr hreset
  · exact ⟨nofun, nofun⟩

/-! The invariants of memory, FIFO, front end and bit reader. -/

theorem coreLeaves_memoryCanonical {s t : State} (h : CoreLeaves s t) (hs : MemoryCanonical s) : MemoryCanonical t := by
  cases h with
  | waits => exact hs
  | works _ _ _ w => exact w.mem hs
  | raises c u w => exact w.mem hs
  | completes u _ w => exact w.mem hs

theorem coreLeaves_bitReaderBounded {s t : State} (h : CoreLeaves s t) (hs : BitReaderBounded s) : BitReaderBounded t := by
  cases h with
  | waits => exact hs
  | works _ _ _ w => exact w.bits hs
  | raises c u w => exact w.bits hs
  | completes u _ w => exact Nat.zero_le 8

theorem coreLeaves_fifoBounded {s t : State} (h : CoreLeaves s t) (hs : FifoBounded s) : FifoBounded t := by
  obtain ⟨-, -, -, -, -, -, hfifo, -, -, -, -, hplatform, -⟩ := coreLeaves_keeps h
  have hlen := hfifo.length_le
  unfold FifoBounded fifoDepth at *
  rw [hplatform]
  omega

theorem coreLeaves_frontEndCounts {s t : State} (h : CoreLeaves s t) (hs : FrontEndCounts s) : FrontEndCounts t := by
  obtain ⟨-, -, -, -, -, -, -, -, -, -, -, -, -, ⟨hm, hc, -⟩ | ⟨hm, hc, -⟩⟩ := coreLeaves_keeps h
  · unfold FrontEndCounts; rw [hm, hc]; exact hs
  · simp [FrontEndCounts, hm, hc]

theorem hostMemWrite_memoryCanonical (a : Word) (v : Byte) {s : State} (hs : MemoryCanonical s) :
    MemoryCanonical (hostMemWrite a v s) := by
  unfold hostMemWrite
  split_ifs
  · exact hs
  · exact Memory.wf_write v hs a.isLt

theorem hostEffect_memoryCanonical {s u : State} (h : HostEffect s u) (hs : MemoryCanonical s) : MemoryCanonical u := by
  cases h with
  | memory a v => exact hostMemWrite_memoryCanonical a v hs
  | _ => exact hs

/-- An append keeps the bound where the FIFO is not full (R88). -/
theorem fifoBounded_append {s u : State} {e : FifoEntry} (hlen : s.fifo.length < fifoDepth s)
    (hfifo : u.fifo = s.fifo ++ [e]) (hplatform : u.platform = s.platform) : FifoBounded u := by
  unfold FifoBounded fifoDepth at *
  rw [hfifo, hplatform, List.length_append, List.length_singleton]
  omega

theorem hostEffect_fifoBounded {s u : State} (h : HostEffect s u) (hs : FifoBounded s) : FifoBounded u := by
  cases h with
  | command w _ hl => exact fifoBounded_append hl rfl rfl
  | counted b _ _ hl => exact fifoBounded_append hl rfl rfl
  | streamed b _ hl => exact fifoBounded_append hl rfl rfl
  | memory a v => unfold hostMemWrite; split_ifs <;> exact hs
  | _ => exact hs

theorem feModeAfterCmd_count (op : Byte) (len : Half) : feModeAfterCmd op len = .count ↔ len ≠ 0#16 := by
  unfold feModeAfterCmd
  split_ifs with h <;> simp [h]

theorem appendCounted_counts (b : Byte) (s : State) : FrontEndCounts (appendCounted b s) := by
  unfold FrontEndCounts appendCounted
  simp only
  generalize s.feCount - 1 = n
  split_ifs with h <;> simpa using h

theorem hostEffect_frontEndCounts {s u : State} (h : HostEffect s u) (hs : FrontEndCounts s) : FrontEndCounts u := by
  cases h with
  | command w => exact feModeAfterCmd_count _ _
  | counted b => exact appendCounted_counts b s
  | memory a v => unfold hostMemWrite; split_ifs <;> exact hs
  | _ => exact hs

theorem hostEffect_bitReaderBounded {s u : State} (h : HostEffect s u) (hs : BitReaderBounded s) : BitReaderBounded u := by
  have e : u.nbits = s.nbits := by rw [(hostEffect_changes h).same]
  unfold BitReaderBounded
  rw [e]
  exact hs

/-- Settles O52: each of the four facts is kept by the ends of the core's turns, by the effects of the host's, and by a
reset. -/
theorem everyStepKeepsMemoryFrontEndAndReader : Obligations.EveryStepKeepsMemoryFrontEndAndReader := by
  intro s t h
  refine ⟨fun hs => ?_, fun hs => ?_, fun hs => ?_, fun hs => ?_⟩
  · exact step_keeps h (P := MemoryCanonical) (fun _ _ _ _ _ _ hu => hu)
      (fun _ _ hc => coreLeaves_memoryCanonical (coreStep_leaves hc)) (fun _ _ => hostEffect_memoryCanonical)
      (fun _ hu => hu) hs
  · exact step_keeps h (P := FifoBounded) (fun _ _ _ _ _ _ hu => hu) (fun _ _ hc => coreLeaves_fifoBounded (coreStep_leaves hc))
      (fun _ _ => hostEffect_fifoBounded) (fun _ _ => Nat.zero_le _) hs
  · exact step_keeps h (P := FrontEndCounts) (fun _ _ _ _ _ _ hu => hu)
      (fun _ _ hc => coreLeaves_frontEndCounts (coreStep_leaves hc)) (fun _ _ => hostEffect_frontEndCounts)
      (fun _ _ => by simp [FrontEndCounts, resetCore, State.reset]) hs
  · exact step_keeps h (P := BitReaderBounded) (fun _ _ _ _ _ _ hu => hu)
      (fun _ _ hc => coreLeaves_bitReaderBounded (coreStep_leaves hc)) (fun _ _ => hostEffect_bitReaderBounded)
      (fun _ _ => Nat.zero_le 8) hs

/-! The error latch and the flushed front end. -/

theorem cls_ne_zero (c : Cause) : c.cls ≠ 0#2 := by cases c <;> decide

theorem errorLatchAgrees_raise (c : Cause) (s : State) : ErrorLatchAgrees (raise c s) :=
  ⟨⟨fun _ => cls_ne_zero c, fun _ => rfl⟩, fun h => absurd h (cls_ne_zero c)⟩

theorem isError_of_not_terminal {s : State} (h : terminal s = false) : isError s = false :=
  (Bool.or_eq_false_iff.1 h).2

/-- Out of ERROR the latch agrees where it holds what it held out of ERROR (R18, R129). -/
theorem errorLatchAgrees_of_same {s u : State} (h : ErrorLatchAgrees s) (hs : isError s = false) (hu : isError u = false)
    (hcls : u.errClass = s.errClass) (hcause : u.errCause = s.errCause) (hop : u.errOp = s.errOp) : ErrorLatchAgrees u := by
  unfold ErrorLatchAgrees at *
  rw [hcls, hcause, hop, hu]
  rwa [hs] at h

theorem coreLeaves_errorLatchAgrees {s t : State} (h : CoreLeaves s t) (hs : ErrorLatchAgrees s) : ErrorLatchAgrees t := by
  cases h with
  | waits => exact hs
  | works _ hns hnt w =>
    refine errorLatchAgrees_of_same hs (isError_of_not_terminal hns) (isError_of_not_terminal hnt) ?_ ?_ ?_ <;> rw [w.same]
  | raises c u w => exact errorLatchAgrees_raise c u
  | completes u hns w =>
    refine errorLatchAgrees_of_same hs (isError_of_not_terminal hns) rfl ?_ ?_ ?_ <;> rw [w.same] <;> rfl

theorem coreLeaves_terminalFlushed {s t : State} (h : CoreLeaves s t) (hs : TerminalFlushed s) : TerminalFlushed t := by
  cases h with
  | waits => exact hs
  | works _ _ hnt w => exact fun ht => absurd ht (by simp [hnt])
  | raises c u w => exact fun _ => ⟨rfl, rfl, rfl, rfl⟩
  | completes u _ w => exact fun _ => ⟨rfl, rfl, rfl, rfl⟩

theorem hostEffect_errorLatchAgrees {s u : State} (h : HostEffect s u) (hs : ErrorLatchAgrees s) : ErrorLatchAgrees u := by
  rw [(hostEffect_changes h).same]
  exact hs

/-- Where the host's accesses change the front end or the FIFO, `seq` is not DONE or ERROR (R87). -/
theorem hostEffect_terminalFlushed {s u : State} (h : HostEffect s u) (hs : TerminalFlushed s) : TerminalFlushed u := by
  cases h with
  | command w hn => exact fun ht => absurd (ht.symm.trans hn) (by decide)
  | counted b hn => exact fun ht => absurd (ht.symm.trans hn) (by decide)
  | streamed b hn => exact fun ht => absurd (ht.symm.trans hn) (by decide)
  | memory a v => unfold hostMemWrite; split_ifs <;> exact hs
  | _ => exact hs

/-- Settles O54: the latch and the flushed front end are kept by the ends of the core's turns, by the effects of the host's,
and by a reset. -/
theorem everyStepKeepsTheErrorLatch : Obligations.EveryStepKeepsTheErrorLatch := by
  intro s t hlatch hflushed h
  constructor
  · exact step_keeps h (P := ErrorLatchAgrees) (fun _ _ _ _ _ _ hu => hu)
      (fun _ _ hc => coreLeaves_errorLatchAgrees (coreStep_leaves hc)) (fun _ _ => hostEffect_errorLatchAgrees)
      (fun _ _ => ⟨by simp [isError, resetCore, State.reset], fun _ => ⟨rfl, rfl⟩⟩) hlatch
  · exact step_keeps h (P := TerminalFlushed) (fun _ _ _ _ _ _ hu => hu)
      (fun _ _ hc => coreLeaves_terminalFlushed (coreStep_leaves hc)) (fun _ _ => hostEffect_terminalFlushed)
      (fun _ _ ht => absurd ht (by simp [terminal, isDone, isError, resetCore, State.reset])) hflushed

end Sys2Proof.Machine
end

section
/-! SUPPORT. Loaded tables stay sound: what LOAD_DQT and LOAD_DHT store, and that nothing else writes the stores. -/

namespace Sys2Proof.Machine

/-- The stores and the frame registers (R33 to R35). -/
structure Stores where
  qt        : Vector (Vector Byte 64) 4
  qtValid   : Vector Bool 4
  htDc      : Vector HuffTable 4
  htAc      : Vector HuffTable 4
  htDcValid : Vector Bool 4
  htAcValid : Vector Bool 4
  frame     : Frame

/-- The stores of a state. -/
def storesOf (s : State) : Stores :=
  { qt := s.qt, qtValid := s.qtValid, htDc := s.htDc, htAc := s.htAc, htDcValid := s.htDcValid, htAcValid := s.htAcValid,
    frame := s.frame }

theorem storesOf_reader {s u : State} {k : Nat} (h : ReaderMoved u { s with k := k }) : storesOf u = storesOf s := by
  rw [h.same.1]; rfl

theorem storesOf_hostChanges {s u : State} (h : HostChanges s u) : storesOf u = storesOf s ∧ u.seq = s.seq := by
  rw [h.same]; exact ⟨rfl, rfl⟩

/-- `t` stands at no payload position and has the stores of `s`. -/
def OnlyScanned (s t : State) : Prop := storesOf t = storesOf s ∧ ∀ l, t.seq ≠ .payload l

theorem dcFinish_onlyScanned (t v : Nat) (s : State) : OnlyScanned s (dcFinish t v s) := by
  unfold dcFinish
  simp only
  split_ifs <;> exact ⟨rfl, nofun⟩

theorem acNext_onlyScanned (k : Nat) (s : State) : OnlyScanned s (acNext k s) := by
  unfold acNext
  split_ifs <;> exact ⟨rfl, nofun⟩

theorem acFinish_onlyScanned (sz v : Nat) (s : State) : OnlyScanned s (acFinish sz v s) := by
  unfold acFinish acNext
  split_ifs <;> exact ⟨rfl, nofun⟩

theorem transformBlock_onlyScanned (s : State) : OnlyScanned s (transformBlock s) := by
  unfold transformBlock
  simp only
  split_ifs <;> exact ⟨rfl, nofun⟩

theorem commitStep_onlyScanned (i : Nat) (c : Fin 3) (s : State) : OnlyScanned s (commitStep i c s) := by
  unfold commitStep memWrite
  split_ifs <;> exact ⟨rfl, nofun⟩

theorem mcuEndStep_onlyScanned (s : State) : OnlyScanned s (mcuEndStep s) := by
  unfold mcuEndStep
  split_ifs <;> exact ⟨rfl, nofun⟩

theorem OnlyScanned.after_reader {s u t : State} {k : Nat} (h : ReaderMoved u { s with k := k }) (h' : OnlyScanned u t) :
    OnlyScanned s t := ⟨h'.1.trans (storesOf_reader h), h'.2⟩

/-- The scan program writes no store and leads to no payload position. -/
theorem scanStep_onlyScanned {s t : State} {q : ScanPos} (hq : s.seq = .scan q) (h : ScanStep s q t) : OnlyScanned s t := by
  cases h with
  | raised c k u hu => exact .after_reader hu ⟨rfl, nofun⟩
  | moved _ hu =>
    refine ⟨storesOf_reader (k := s.k) hu, fun l hl => ?_⟩
    rw [hu.same.1] at hl
    exact absurd (hq.symm.trans hl) nofun
  | begins => exact ⟨rfl, nofun⟩
  | restart => exact ⟨rfl, nofun⟩
  | eob => exact ⟨rfl, nofun⟩
  | zrl => exact acNext_onlyScanned _ s
  | transform => exact transformBlock_onlyScanned s
  | commit i c => exact commitStep_onlyScanned i c s
  | mcuEnd => exact mcuEndStep_onlyScanned s
  | dcDone t v u _ hu => exact .after_reader (k := s.k) hu (dcFinish_onlyScanned t v u)
  | runDone rs k sz v u _ _ _ _ _ hu => exact .after_reader hu (acFinish_onlyScanned sz v u)
  | acDone sz n v v' u _ _ hu => exact .after_reader (k := s.k) hu (acFinish_onlyScanned sz v' u)
  | runBits _ _ _ _ _ u _ _ _ _ _ _ hu => exact .after_reader hu ⟨rfl, nofun⟩
  | dcHuff _ _ _ _ u _ hu | dcSymbol _ _ _ u _ hu | dcBits _ _ _ u _ hu | acHuff _ _ _ _ u _ hu
  | acSymbol _ _ _ u _ hu | acBits _ _ _ _ _ u _ _ _ hu => exact .after_reader (k := s.k) hu ⟨rfl, nofun⟩

/-! Quantization tables. -/

/-- Every loaded quantization table is free of 0 (R33). -/
def QuantStored (s : State) : Prop := ∀ (t : Fin 4) (k : Fin 64), s.qtValid[t] = true → s.qt[t][k] ≠ 0#8

theorem quantTables_of_stores {s t : State} (h : storesOf t = storesOf s) (loading : DqtCollected t.seq)
    (hs : QuantTablesNonzero s) : QuantTablesNonzero t := by
  have hqt : t.qt = s.qt := congrArg Stores.qt h
  have hvalid : t.qtValid = s.qtValid := congrArg Stores.qtValid h
  refine ⟨fun i k => ?_, loading⟩
  rw [hqt, hvalid]
  exact hs.stored i k

theorem dqtCollected_of_no_payload {q : Seq} (h : ∀ l, q ≠ .payload l) : DqtCollected q := by
  cases q with
  | payload l => exact absurd rfl (h l)
  | _ => trivial

theorem byteAt_mem {l : List Byte} {i : Nat} (h : i < l.length) : byteAt l i ∈ l := by
  rw [byteAt, List.getD_eq_getElem _ _ h]
  exact List.getElem_mem h

/-- 64 coefficients that passed the check of R95 make a table free of 0. -/
theorem qtOfBytes_ne_zero {q : List Byte} (hlen : 64 ≤ q.length) (h : ∀ b ∈ q, b ≠ 0#8) (k : Fin 64) :
    (qtOfBytes q)[k] ≠ 0#8 := by
  have e : (qtOfBytes q)[k] = byteAt q k := by simp [qtOfBytes]
  rw [e]
  exact h _ (byteAt_mem (k.isLt.trans_le hlen))

theorem storeQt_stored {s : State} {tq : Fin 4} {q : Vector Byte 64} (hs : QuantStored s) (hq : ∀ k : Fin 64, q[k] ≠ 0#8) :
    QuantStored (storeQt tq q s) := by
  intro t k hv
  by_cases ht : tq = t
  · subst ht
    simpa [storeQt] using hq k
  · have ht' : tq.val ≠ t.val := fun e => ht (Fin.ext e)
    simp only [storeQt, Fin.getElem_fin, Vector.getElem_set_ne _ _ ht'] at hv ⊢
    exact hs t k hv

theorem nextUnit_quantTables {s t : State} (h : NextUnit s t) (hs : QuantStored s) : QuantTablesNonzero t := by
  cases h <;> exact ⟨hs, trivial⟩

theorem storeHt_quantStored {s : State} (tc : TableClass) (th : Fin 4) (t : HuffTable) (hs : QuantStored s) :
    QuantStored (storeHt tc th t s) := by
  cases tc <;> exact hs

theorem sofEnd_quantTables {s : State} (hs : QuantStored s) : QuantTablesNonzero (sofEnd s) := by
  unfold sofEnd
  simp only
  split_ifs <;> exact ⟨hs, trivial⟩

/-- One more coefficient that passed the check of R95. -/
theorem append_ne_zero {q : List Byte} {b : Byte} (h : ∀ x ∈ q, x ≠ 0#8) (hb : b ≠ 0#8) : ∀ x ∈ q ++ [b], x ≠ 0#8 := by
  intro x hx
  rcases List.mem_append.1 hx with hx | hx
  · exact h x hx
  · rwa [List.mem_singleton.1 hx]

theorem loadStep_quantTables {s t : State} {l : LoadPos} (h : LoadStep s l t) (stored : QuantStored s)
    (loading : DqtCollected (.payload l)) : QuantTablesNonzero t := by
  cases h with
  | dqtId rem tq => exact ⟨stored, by decide, nofun⟩
  | dqtCoef rem tq q b hb hlen => exact ⟨stored, by simpa using hlen, append_ne_zero loading.2 hb⟩
  | dqtStored rem tq q b _ hb hlen hnext =>
    have hlen' : 64 ≤ (q ++ [b]).length := by simpa using hlen
    exact nextUnit_quantTables hnext (storeQt_stored stored (qtOfBytes_ne_zero hlen' (append_ne_zero loading.2 hb)))
  | dhtNoSymbols _ tc th _ _ _ _ _ _ hnext => exact nextUnit_quantTables hnext (storeHt_quantStored tc th _ stored)
  | dhtStored _ tc th _ _ _ _ _ hnext => exact nextUnit_quantTables hnext (storeHt_quantStored tc th _ stored)
  | sofEnded j got comp => exact sofEnd_quantTables stored
  | _ => exact ⟨stored, trivial⟩

theorem loadStart_quantTables {s t : State} (h : LoadStart s t) (stored : QuantStored s) : QuantTablesNonzero t := by
  cases h with
  | units _ hnext => exact nextUnit_quantTables hnext stored
  | _ => exact ⟨stored, trivial⟩

theorem coreStep_quantTables {s t : State} (h : CoreStep s t) (hs : QuantTablesNonzero s) : QuantTablesNonzero t := by
  refine coreStep_keeps h (P := QuantTablesNonzero) ?start ?raised ?byte ?scan hs
  case start => exact fun _ _ _ _ _ hu => loadStart_quantTables hu hs.stored
  case raised => exact fun _ _ _ _ hu => ⟨hu.stored, trivial⟩
  case byte => exact fun u l b rest v hl _ hu hv => loadStep_quantTables hv hu.stored (hl ▸ hu.loading)
  case scan =>
    intro q hq hstep
    obtain ⟨same, hseq⟩ := scanStep_onlyScanned hq hstep
    exact quantTables_of_stores same (dqtCollected_of_no_payload hseq) hs

theorem hostEffect_quantTables {s u : State} (h : HostEffect s u) (hs : QuantTablesNonzero s) : QuantTablesNonzero u := by
  obtain ⟨same, hseq⟩ := storesOf_hostChanges (hostEffect_changes h)
  exact quantTables_of_stores same (hseq ▸ hs.loading) hs

theorem resetCore_quantTables (s : State) : QuantTablesNonzero (resetCore s) :=
  ⟨fun t k h => by simp [resetCore, State.reset] at h, trivial⟩

/-! Huffman tables. -/

/-- Every loaded Huffman table is sound (R34). -/
def HuffStored (s : State) : Prop :=
  (∀ i : Fin 4, s.htDcValid[i] = true → (s.htDc[i]).sound) ∧ (∀ i : Fin 4, s.htAcValid[i] = true → (s.htAc[i]).sound)

theorem HuffTablesSound.stored {s : State} (h : HuffTablesSound s) : HuffStored s := ⟨h.dc, h.ac⟩

theorem huffTables_of_stores {s t : State} (h : storesOf t = storesOf s) (loading : DhtCollected t.seq)
    (hs : HuffTablesSound s) : HuffTablesSound t := by
  have hdc : t.htDc = s.htDc := congrArg Stores.htDc h
  have hac : t.htAc = s.htAc := congrArg Stores.htAc h
  have hdcValid : t.htDcValid = s.htDcValid := congrArg Stores.htDcValid h
  have hacValid : t.htAcValid = s.htAcValid := congrArg Stores.htAcValid h
  refine ⟨fun i => ?_, fun i => ?_, loading⟩
  · rw [hdc, hdcValid]; exact hs.dc i
  · rw [hac, hacValid]; exact hs.ac i

theorem dhtCollected_of_no_payload {q : Seq} (h : ∀ l, q ≠ .payload l) : DhtCollected q := by
  cases q with
  | payload l => exact absurd rfl (h l)
  | _ => trivial

/-- The 16 collected counts are the table's. -/
theorem bitsOfBytes_toList {bits : List Byte} (h : bits.length = 16) : (bitsOfBytes bits).toList = bits := by
  refine List.ext_getElem (by simp [h]) fun i h1 h2 => ?_
  simp [bitsOfBytes, byteAt, h2]

/-- A store of a sound table, in either class. -/
theorem set_sound {ts : Vector HuffTable 4} {valid : Vector Bool 4} {th : Fin 4} {t : HuffTable} (ht : t.sound)
    (h : ∀ i : Fin 4, valid[i] = true → (ts[i]).sound) (i : Fin 4) (hv : (valid.set th true)[i] = true) :
    ((ts.set th t)[i]).sound := by
  by_cases hi : th = i
  · subst hi
    simpa using ht
  · have hi' : th.val ≠ i.val := fun e => hi (Fin.ext e)
    simp only [Fin.getElem_fin, Vector.getElem_set_ne _ _ hi'] at hv ⊢
    exact h i hv

theorem storeHt_huffStored {s : State} (tc : TableClass) (th : Fin 4) {t : HuffTable} (ht : t.sound) (hs : HuffStored s) :
    HuffStored (storeHt tc th t s) := by
  cases tc with
  | dc => exact ⟨set_sound ht hs.1, hs.2⟩
  | ac => exact ⟨hs.1, set_sound ht hs.2⟩

theorem nextUnit_huffTables {s t : State} (h : NextUnit s t) (hs : HuffStored s) : HuffTablesSound t := by
  cases h <;> exact ⟨hs.1, hs.2, trivial⟩

theorem sofEnd_huffTables {s : State} (hs : HuffStored s) : HuffTablesSound (sofEnd s) := by
  unfold sofEnd
  simp only
  split_ifs <;> exact ⟨hs.1, hs.2, trivial⟩

theorem loadStep_huffTables {s t : State} {l : LoadPos} (h : LoadStep s l t) (stored : HuffStored s)
    (loading : DhtCollected (.payload l)) : HuffTablesSound t := by
  cases h with
  | dqtStored _ _ _ _ _ _ _ hnext => exact nextUnit_huffTables hnext stored
  | dhtId rem tc th => exact ⟨stored.1, stored.2, (by decide : 0 < 16)⟩
  | dhtBits rem tc th bits b hlen => exact ⟨stored.1, stored.2, (by simpa using hlen : (bits ++ [b]).length < 16)⟩
  | dhtNoSymbols rem tc th bits b _ hlen hfull hzero hnext =>
    have hbits : bits.length < 16 := loading
    have e := bitsOfBytes_toList (bits := bits ++ [b]) (by simp; omega)
    have hsound : HuffTable.sound { bits := bitsOfBytes (bits ++ [b]), vals := [] } := by
      simp [HuffTable.sound, e, hzero, hfull]
    exact nextUnit_huffTables hnext (storeHt_huffStored tc th hsound stored)
  | dhtChecked rem tc th bits b hlen hfull hpos hmany =>
    have hbits : bits.length < 16 := loading
    have e := bitsOfBytes_toList (bits := bits ++ [b]) (by simp; omega)
    refine ⟨stored.1, stored.2, ?_⟩
    simp only [loadAt_seq, DhtCollected, e]
    exact ⟨hpos, hmany, hfull⟩
  | dhtVals rem tc th bits vals b hlen =>
    obtain ⟨-, hmany, hfull⟩ := loading
    exact ⟨stored.1, stored.2, by simpa using hlen, hmany, hfull⟩
  | dhtStored rem tc th bits vals b _ hlen hnext =>
    obtain ⟨hless, hmany, hfull⟩ := loading
    have hsound : HuffTable.sound { bits := bits, vals := vals ++ [b] } :=
      ⟨by simp only [List.length_append, List.length_singleton]; omega, hmany, hfull⟩
    exact nextUnit_huffTables hnext (storeHt_huffStored tc th hsound stored)
  | sofEnded j got comp => exact sofEnd_huffTables stored
  | _ => exact ⟨stored.1, stored.2, trivial⟩

theorem loadStart_huffTables {s t : State} (h : LoadStart s t) (stored : HuffStored s) : HuffTablesSound t := by
  cases h with
  | units _ hnext => exact nextUnit_huffTables hnext stored
  | _ => exact ⟨stored.1, stored.2, trivial⟩

theorem coreStep_huffTables {s t : State} (h : CoreStep s t) (hs : HuffTablesSound s) : HuffTablesSound t := by
  refine coreStep_keeps h (P := HuffTablesSound) ?start ?raised ?byte ?scan hs
  case start => exact fun _ _ _ _ _ hu => loadStart_huffTables hu hs.stored
  case raised => exact fun _ _ _ _ hu => ⟨hu.dc, hu.ac, trivial⟩
  case byte => exact fun u l b rest v hl _ hu hv => loadStep_huffTables hv hu.stored (hl ▸ hu.loading)
  case scan =>
    intro q hq hstep
    obtain ⟨same, hseq⟩ := scanStep_onlyScanned hq hstep
    exact huffTables_of_stores same (dhtCollected_of_no_payload hseq) hs

theorem hostEffect_huffTables {s u : State} (h : HostEffect s u) (hs : HuffTablesSound s) : HuffTablesSound u := by
  obtain ⟨same, hseq⟩ := storesOf_hostChanges (hostEffect_changes h)
  exact huffTables_of_stores same (hseq ▸ hs.loading) hs

theorem resetCore_huffTables (s : State) : HuffTablesSound (resetCore s) :=
  ⟨fun t h => by simp [resetCore, State.reset] at h, fun t h => by simp [resetCore, State.reset] at h, trivial⟩

/-- Settles O55: a table is stored only by its loader, from bytes that were checked, and a reset clears the valid bits. -/
theorem everyStepKeepsLoadedTablesSound : Obligations.EveryStepKeepsLoadedTablesSound := by
  intro s t hquant hhuff h
  constructor
  · exact step_keeps h (P := QuantTablesNonzero) (fun _ _ _ _ _ _ hu => ⟨hu.stored, hu.loading⟩)
      (fun _ _ => coreStep_quantTables) (fun _ _ => hostEffect_quantTables) (fun u _ => resetCore_quantTables u) hquant
  · exact step_keeps h (P := HuffTablesSound) (fun _ _ _ _ _ _ hu => ⟨hu.dc, hu.ac, hu.loading⟩)
      (fun _ _ => coreStep_huffTables) (fun _ _ => hostEffect_huffTables) (fun u _ => resetCore_huffTables u) hhuff

end Sys2Proof.Machine
end

section
/-! SUPPORT. The frame registers: the geometry that LOAD_SOF computes (R97, R106), and that nothing else writes them. -/

namespace Sys2Proof.Machine

/-! The components of a frame, its maxima and its MCUs. -/

theorem frameComps_one {f : Frame} (h : f.nf = 1#2) : frameComps f = [f.comps[0]] := by
  unfold frameComps
  rw [h]
  refine List.ext_getElem (by simp) fun i h1 h2 => ?_
  obtain rfl : i = 0 := by simpa using h2
  simp

theorem comp_mem_frameComps {f : Frame} {j : Fin 3} (h : j.val < f.nf.toNat) : f.comps[j] ∈ frameComps f := by
  unfold frameComps
  rw [List.mem_take_iff_getElem]
  exact ⟨j.val, by simp; omega, by simp⟩

/-- The component count, and factors of 1 to 4 in each component of the frame (R97). -/
def Factored (f : Frame) : Prop :=
  (f.nf = 1#2 ∨ f.nf = 3#2) ∧ ∀ j : Fin 3, j.val < f.nf.toNat → (f.comps[j]).sound

theorem Factored.mem {f : Frame} (h : Factored f) {c : Component} (hc : c ∈ frameComps f) : c.sound := by
  unfold frameComps at hc
  obtain ⟨j, hj, rfl⟩ := List.mem_take_iff_getElem.1 hc
  obtain ⟨hnf, hlen⟩ := lt_min_iff.1 hj
  rw [Vector.length_toList] at hlen
  exact h.2 ⟨j, hlen⟩ hnf

theorem Factored.comps_ne_nil {f : Frame} (h : Factored f) : frameComps f ≠ [] := by
  have hn : 0 < f.nf.toNat := by rcases h.1 with e | e <;> rw [e] <;> decide
  exact List.ne_nil_of_mem (comp_mem_frameComps (j := 0) hn)

theorem foldl_max_bounds {l : List Nat} (hl : ∀ n ∈ l, n ≤ 4) : ∀ a ≤ 4, a ≤ l.foldl max a ∧ l.foldl max a ≤ 4 := by
  induction l with
  | nil => intro a ha; exact ⟨le_rfl, ha⟩
  | cons n l ih =>
    intro a ha
    have hn := hl n List.mem_cons_self
    have := ih (fun m hm => hl m (List.mem_cons_of_mem n hm)) (max a n) (by omega)
    rw [List.foldl_cons]
    omega

/-- The maximum of factors of 1 to 4 is 1 to 4. -/
theorem max_factor_bounds {l : List Nat} (hne : l ≠ []) (hl : ∀ n ∈ l, 1 ≤ n ∧ n ≤ 4) :
    1 ≤ l.foldl max 0 ∧ l.foldl max 0 ≤ 4 := by
  obtain ⟨n, rest, rfl⟩ := List.exists_cons_of_ne_nil hne
  have hn := hl n List.mem_cons_self
  have := foldl_max_bounds (fun m hm => (hl m (List.mem_cons_of_mem n hm)).2) n hn.2
  rw [List.foldl_cons, Nat.zero_max]
  omega

theorem maxH_bounds {f : Frame} (h : Factored f) : 1 ≤ maxH f ∧ maxH f ≤ 4 := by
  refine max_factor_bounds (by simpa using h.comps_ne_nil) fun n hn => ?_
  obtain ⟨c, hc, rfl⟩ := List.mem_map.1 hn
  obtain ⟨h1, h2, -, -⟩ := h.mem hc
  exact ⟨h1, h2⟩

theorem maxV_bounds {f : Frame} (h : Factored f) : 1 ≤ maxV f ∧ maxV f ≤ 4 := by
  refine max_factor_bounds (by simpa using h.comps_ne_nil) fun n hn => ?_
  obtain ⟨c, hc, rfl⟩ := List.mem_map.1 hn
  obtain ⟨-, -, h1, h2⟩ := h.mem hc
  exact ⟨h1, h2⟩

theorem mcuCount_pos {n f : Nat} (hn : 0 < n) (hf : 0 < f) : 1 ≤ mcuCount n f :=
  Nat.div_pos (by omega) (by omega)

theorem mcuCount_le {n f : Nat} (hn : n < 2 ^ 16) (hf : 0 < f) : mcuCount n f ≤ 2 ^ 13 := by
  unfold mcuCount
  rw [← Nat.lt_succ_iff, Nat.div_lt_iff_lt_mul (by omega)]
  omega

theorem Frame.sound.factored {f : Frame} (h : f.sound) : Factored f := ⟨h.count, h.comps⟩

theorem Frame.sound.maxima_pos {f : Frame} (h : f.sound) : 1 ≤ f.hmax.toNat ∧ 1 ≤ f.vmax.toNat := by
  rw [h.hmax, h.vmax]
  exact ⟨(maxH_bounds h.factored).1, (maxV_bounds h.factored).1⟩

theorem half_toNat_pos {x : Half} (h : x ≠ 0#16) : 0 < x.toNat :=
  Nat.pos_of_ne_zero fun e => h (BitVec.eq_of_toNat_eq (by simpa using e))

/-- R106's bound: at most 2^13 MCUs in each direction. -/
theorem Frame.sound.mcuTotal_bounds {f : Frame} (h : f.sound) : 1 ≤ f.mcuTotal ∧ f.mcuTotal ≤ 2 ^ 26 := by
  obtain ⟨hh, hv⟩ := h.maxima_pos
  rw [h.mcuTotal, h.mcux, h.mcuy]
  constructor
  · exact Nat.mul_pos (mcuCount_pos (half_toNat_pos h.size.1) hh) (mcuCount_pos (half_toNat_pos h.size.2) hv)
  · calc mcuCount f.x.toNat f.hmax.toNat * mcuCount f.y.toNat f.vmax.toNat
        ≤ 2 ^ 13 * 2 ^ 13 := Nat.mul_le_mul (mcuCount_le f.x.isLt hh) (mcuCount_le f.y.isLt hv)
      _ = 2 ^ 26 := by norm_num

/-! What step 4 of R97 makes of the components that were loaded. -/

theorem effectiveSampling_one {f : Frame} (h : f.nf = 1#2) :
    effectiveSampling f = { f with comps := f.comps.set 0 { f.comps[0] with h := 1, v := 1 } } := if_pos h

theorem effectiveSampling_three {f : Frame} (h : f.nf = 3#2) : effectiveSampling f = f :=
  if_neg (by rw [h]; decide)

theorem effectiveSampling_valid (f : Frame) : (effectiveSampling f).valid = f.valid := by
  unfold effectiveSampling; split_ifs <;> rfl

theorem effectiveSampling_size (f : Frame) : (effectiveSampling f).x = f.x ∧ (effectiveSampling f).y = f.y := by
  unfold effectiveSampling; split_ifs <;> exact ⟨rfl, rfl⟩

theorem effectiveSampling_factored {f : Frame} (h : Factored f) : Factored (effectiveSampling f) := by
  obtain ⟨hn | hn, hc⟩ := h
  · rw [effectiveSampling_one hn]
    refine ⟨.inl hn, fun j hj => ?_⟩
    obtain rfl : j = 0 := by simpa [hn] using hj
    simp [Component.sound]
  · rw [effectiveSampling_three hn]
    exact ⟨.inr hn, hc⟩

theorem effectiveSampling_single {f : Frame} (h : (effectiveSampling f).nf = 1#2) :
    (effectiveSampling f).comps[0].h = 1#3 ∧ (effectiveSampling f).comps[0].v = 1#3 := by
  unfold effectiveSampling at *
  split_ifs at * with hn
  · simp
  · exact absurd h hn

theorem withMaxima_hmax {f : Frame} (h : Factored f) : (withMaxima f).hmax.toNat = maxH f := by
  have := maxH_bounds h
  simp only [withMaxima, BitVec.toNat_ofNat]
  omega

theorem withMaxima_vmax {f : Frame} (h : Factored f) : (withMaxima f).vmax.toNat = maxV f := by
  have := maxV_bounds h
  simp only [withMaxima, BitVec.toNat_ofNat]
  omega

/-- What R97 step 4 has checked of a three-component frame it does not reject. -/
theorem sampling_supported {f : Frame} (h : samplingUnsupported f = false) (hn : f.nf = 3#2) :
    (∀ c ∈ frameComps f, f.hmax.toNat % c.h.toNat = 0 ∧ f.vmax.toNat % c.v.toNat = 0) ∧ blocksPerMcu f ≤ 10 := by
  simpa [samplingUnsupported, hn] using h

/-- The frame that step 4 of R97 loads is sound. -/
theorem withGeometry_sound {f : Frame} (h : Factored f) (hx : f.x ≠ 0#16) (hy : f.y ≠ 0#16)
    (single : f.nf = 1#2 → f.comps[0].h = 1#3 ∧ f.comps[0].v = 1#3) (hs : samplingUnsupported (withMaxima f) = false) :
    (withGeometry (withMaxima f)).sound where
  count := h.1
  size := ⟨hx, hy⟩
  comps := h.2
  single := single
  hmax := withMaxima_hmax h
  vmax := withMaxima_vmax h
  ratios j hj := by
    rcases h.1 with hn | hn
    · have hj0 : j.val < (1#2).toNat := hn ▸ hj
      obtain rfl : j = 0 := by simpa using hj0
      have hsingle : (withGeometry (withMaxima f)).comps[0].h = 1#3 ∧ (withGeometry (withMaxima f)).comps[0].v = 1#3 :=
        single hn
      simp [hsingle.1, hsingle.2, Nat.mod_one]
    · exact (sampling_supported hs hn).1 _ (comp_mem_frameComps hj)
  blocks := by
    rcases h.1 with hn | hn
    · have hcomps : frameComps (withGeometry (withMaxima f)) = [f.comps[0]] := frameComps_one hn
      simp [blocksPerMcu, hcomps, (single hn).1, (single hn).2]
    · exact (sampling_supported hs hn).2
  mcux := rfl
  mcuy := rfl
  mcuTotal := rfl

/-! The frame registers through a step. -/

/-- Storing a component's registers keeps those before it. -/
theorem setIfInBounds_sound {f : Frame} {j : Nat} {c : Component} (hc : c.sound)
    (h : ∀ i : Fin 3, i.val < j → (f.comps[i]).sound) (i : Fin 3) (hi : i.val < j + 1) :
    ((f.comps.setIfInBounds j c)[i]).sound := by
  by_cases hij : i.val = j
  · subst hij
    simpa using hc
  · rw [Fin.getElem_fin, Vector.getElem_setIfInBounds_ne _ (Ne.symm hij)]
    exact h i (by omega)

theorem frameSound_of_invalid {s : State} (h : s.frame.valid = false) (loading : SofLoading s.frame s.seq) : FrameSound s :=
  ⟨fun hv => absurd (h.symm.trans hv) (by decide), loading⟩

theorem sofEnd_frameSound {s : State} (hv : s.frame.valid = false) (h : Factored s.frame) (hx : s.frame.x ≠ 0#16)
    (hy : s.frame.y ≠ 0#16) : FrameSound (sofEnd s) := by
  unfold sofEnd
  simp only
  split_ifs with hs
  · exact frameSound_of_invalid ((effectiveSampling_valid s.frame).trans hv) trivial
  · obtain ⟨ex, ey⟩ := effectiveSampling_size s.frame
    refine ⟨fun _ => ?_, trivial⟩
    exact withGeometry_sound (effectiveSampling_factored h) (ex ▸ hx) (ey ▸ hy) effectiveSampling_single (by simpa using hs)

theorem nextUnit_frameSound {s t : State} (h : NextUnit s t) (valid : s.frame.valid = true → s.frame.sound) :
    FrameSound t := by
  cases h <;> exact ⟨valid, trivial⟩

theorem loadStep_frameSound {s t : State} {l : LoadPos} (h : LoadStep s l t) (valid : s.frame.valid = true → s.frame.sound)
    (loading : SofLoading s.frame (.payload l)) : FrameSound t := by
  cases h with
  | dqtStored _ _ _ _ _ _ _ hnext => exact nextUnit_frameSound hnext valid
  | dhtNoSymbols _ _ _ _ _ _ _ _ _ hnext => exact nextUnit_frameSound hnext (by simpa using valid)
  | dhtStored _ _ _ _ _ _ _ _ hnext => exact nextUnit_frameSound hnext (by simpa using valid)
  | sofHeader len got b => exact ⟨valid, loading⟩
  | sofRejected len got f c hv => exact frameSound_of_invalid (hv.trans loading) trivial
  | sofAccepted len got f hv hn hx hy =>
    have hpos : 0 < f.nf.toNat := by rcases hn with hn | hn <;> rw [hn] <;> decide
    exact frameSound_of_invalid (hv.trans loading) ⟨hv.trans loading, hn, hx, hy, hpos, fun i hi => absurd hi (by omega)⟩
  | sofComp j got b => exact ⟨valid, loading⟩
  | sofStored j got comp hsound hj =>
    obtain ⟨hv, hn, hx, hy, -, hbefore⟩ := loading
    exact frameSound_of_invalid hv ⟨hv, hn, hx, hy, hj, setIfInBounds_sound hsound hbefore⟩
  | sofEnded j got comp hsound hj =>
    obtain ⟨hv, hn, hx, hy, -, hbefore⟩ := loading
    have hcomps := setIfInBounds_sound hsound hbefore
    exact sofEnd_frameSound hv ⟨hn, fun i hi => hcomps i (lt_of_lt_of_le hi hj)⟩ hx hy
  | _ => exact ⟨valid, trivial⟩

theorem loadStart_frameSound {s t : State} (h : LoadStart s t) (valid : s.frame.valid = true → s.frame.sound) :
    FrameSound t := by
  cases h with
  | units _ hnext => exact nextUnit_frameSound hnext valid
  | sof len hv => exact frameSound_of_invalid hv hv
  | _ => exact ⟨valid, trivial⟩

theorem frameSound_of_stores {s t : State} (h : storesOf t = storesOf s) (loading : SofLoading t.frame t.seq)
    (hs : FrameSound s) : FrameSound t := by
  have hf : t.frame = s.frame := congrArg Stores.frame h
  exact ⟨hf ▸ hs.valid, loading⟩

theorem sofLoading_of_no_payload {f : Frame} {q : Seq} (h : ∀ l, q ≠ .payload l) : SofLoading f q := by
  cases q with
  | payload l => exact absurd rfl (h l)
  | _ => trivial

theorem coreStep_frameSound {s t : State} (h : CoreStep s t) (hs : FrameSound s) : FrameSound t := by
  refine coreStep_keeps h (P := FrameSound) ?start ?raised ?byte ?scan hs
  case start => exact fun _ _ _ _ _ hu => loadStart_frameSound hu hs.valid
  case raised => exact fun _ _ _ _ hu => ⟨hu.valid, trivial⟩
  case byte => exact fun u l b rest v hl _ hu hv => loadStep_frameSound hv hu.valid (hl ▸ hu.loading)
  case scan =>
    intro q hq hstep
    obtain ⟨same, hseq⟩ := scanStep_onlyScanned hq hstep
    exact frameSound_of_stores same (sofLoading_of_no_payload hseq) hs

theorem hostEffect_frameSound {s u : State} (h : HostEffect s u) (hs : FrameSound s) : FrameSound u := by
  obtain ⟨same, hseq⟩ := storesOf_hostChanges (hostEffect_changes h)
  have hf : u.frame = s.frame := congrArg Stores.frame same
  exact frameSound_of_stores same (by rw [hf, hseq]; exact hs.loading) hs

theorem resetCore_frameSound (s : State) : FrameSound (resetCore s) := frameSound_of_invalid rfl trivial

theorem step_frameSound {s t : State} (h : step s = .next t) (hs : FrameSound s) : FrameSound t :=
  step_keeps h (P := FrameSound) (fun _ _ _ _ _ _ hu => ⟨hu.valid, hu.loading⟩) (fun _ _ => coreStep_frameSound)
    (fun _ _ => hostEffect_frameSound) (fun u _ => resetCore_frameSound u) hs

/-- Settles O56: only LOAD_SOF writes the frame registers, and the frame it ends with has the geometry of R106, whose MCU
counts R106 bounds. -/
theorem everyStepKeepsTheFrameSound : Obligations.EveryStepKeepsTheFrameSound := by
  intro s t hs h
  have ht := step_frameSound h hs
  exact ⟨ht, fun hv => (ht.valid hv).mcuTotal_bounds⟩

end Sys2Proof.Machine
end

section
/-! SUPPORT. The scan position stays in its bounds: block, coefficient, pixel and MCU (R11, R107, R108). -/

namespace Sys2Proof.Machine

/-- What holds of a running scan at every position. -/
structure InMcu (s : State) : Prop where
  valid  : s.frame.valid = true
  mcu    : s.m < s.frame.mcuTotal
  done   : s.mcuDone = s.m
  region : (region s).hi ≤ 2 ^ 32

theorem scanInBounds_scan {s : State} {q : ScanPos} (h : s.seq = .scan q) :
    ScanInBounds s ↔ InMcu s ∧ ScanPosInBounds s q := by
  unfold ScanInBounds
  rw [h]
  exact ⟨fun ⟨hv, hm, hd, hr, hp⟩ => ⟨⟨hv, hm, hd, hr⟩, hp⟩, fun ⟨⟨hv, hm, hd, hr⟩, hp⟩ => ⟨hv, hm, hd, hr, hp⟩⟩

theorem scanInBounds_scanAt {s : State} {q : ScanPos} (h : InMcu s) (hp : ScanPosInBounds s q) :
    ScanInBounds (scanAt q s) := by
  cases q <;> exact ⟨h.valid, h.mcu, h.done, h.region, hp⟩

theorem InMcu.after_reader {s u : State} {k : Nat} (h : InMcu s) (hu : ReaderMoved u { s with k := k }) : InMcu u := by
  rw [hu.same.1]
  exact ⟨h.valid, h.mcu, h.done, h.region⟩

theorem ScanPosInBounds.after_reader {s u : State} {q : ScanPos} (h : ScanPosInBounds s q) (hu : ReaderMoved u s) :
    ScanPosInBounds u q := by
  rw [hu.same.1]
  cases q <;> exact h

/-- A scan that reads coded bits goes on in bounds where the position is in bounds before. -/
theorem scanInBounds_reader {s u : State} {q : ScanPos} {k : Nat} (h : InMcu s) (hu : ReaderMoved u { s with k := k })
    (hp : ScanPosInBounds { s with k := k } q) : ScanInBounds (scanAt q u) :=
  scanInBounds_scanAt (h.after_reader hu) (hp.after_reader hu)

/-- A sound frame has a block in its MCU (R107). -/
theorem mcuBlocks_pos {f : Frame} (h : f.sound) : 0 < (mcuBlocks f).length := by
  have hn : 0 < f.nf.toNat := by rcases h.count with e | e <;> rw [e] <;> decide
  obtain ⟨hh, -, hv, -⟩ := h.comps 0 hn
  refine List.length_pos_of_mem (a := ⟨0, 0, 0⟩) ?_
  simp only [mcuBlocks, List.mem_flatMap, List.mem_map, List.mem_range]
  exact ⟨0, List.mem_take_iff_getElem.2 ⟨0, by simpa using hn, by simp⟩, 0, hv, 0, hh, rfl⟩

/-- A sound frame has a pixel in its MCU (R106). -/
theorem mcuPixels_pos {s : State} (h : s.frame.sound) : 0 < mcuPixels s := by
  obtain ⟨hh, hv⟩ := h.maxima_pos
  exact Nat.mul_pos (by omega) (by omega)

theorem dcFinish_scanInBounds {s : State} (h : InMcu s) (hblk : s.blk < (mcuBlocks s.frame).length) (t v : Nat) :
    ScanInBounds (dcFinish t v s) := by
  unfold dcFinish
  simp only
  split_ifs
  · trivial
  · exact ⟨h.valid, h.mcu, h.done, h.region, hblk, le_rfl, (by decide : 1 ≤ 63)⟩

theorem acNext_scanInBounds {s : State} (h : InMcu s) (hblk : s.blk < (mcuBlocks s.frame).length) {k : Nat} (hk : 1 ≤ k) :
    ScanInBounds (acNext k s) := by
  unfold acNext
  split_ifs with hend
  · exact ⟨h.valid, h.mcu, h.done, h.region, hblk⟩
  · exact ⟨h.valid, h.mcu, h.done, h.region, hblk, hk, Nat.le_of_not_lt hend⟩

theorem acFinish_scanInBounds {s : State} (h : InMcu s) (hblk : s.blk < (mcuBlocks s.frame).length) (sz v : Nat) :
    ScanInBounds (acFinish sz v s) :=
  acNext_scanInBounds (s := { s with zz := s.zz.setIfInBounds s.k (extend v sz) }) ⟨h.valid, h.mcu, h.done, h.region⟩ hblk
    (Nat.le_add_left 1 s.k)

theorem transformBlock_scanInBounds {s : State} (h : InMcu s) (hf : s.frame.sound) : ScanInBounds (transformBlock s) := by
  unfold transformBlock
  simp only
  split_ifs with hlast
  · exact ⟨h.valid, h.mcu, h.done, h.region, hlast⟩
  · exact ⟨h.valid, h.mcu, h.done, h.region, mcuPixels_pos hf⟩

theorem nextPixel_inBounds (s : State) (i : Nat) : ScanPosInBounds s (nextPixel s i) := by
  unfold nextPixel
  split_ifs with hi
  · exact hi
  · trivial

theorem nextChannel_inBounds {s : State} {i : Nat} (c : Fin 3) (h : i < mcuPixels s) :
    ScanPosInBounds s (nextChannel s i c) := by
  unfold nextChannel
  split_ifs
  · exact nextPixel_inBounds s i
  · exact h

theorem scanPosInBounds_mem {s : State} {q : ScanPos} (mem : List Host.Cell) (h : ScanPosInBounds s q) :
    ScanPosInBounds { s with mem := mem } q := by
  cases q <;> exact h

theorem commitStep_scanInBounds {s : State} (h : InMcu s) {i : Nat} (c : Fin 3) (hi : i < mcuPixels s) :
    ScanInBounds (commitStep i c s) := by
  unfold commitStep memWrite
  split_ifs
  · trivial
  · exact scanInBounds_scanAt ⟨h.valid, h.mcu, h.done, h.region⟩ (scanPosInBounds_mem _ (nextChannel_inBounds c hi))
  · exact scanInBounds_scanAt h (nextPixel_inBounds s i)

theorem mcuEndStep_scanInBounds {s : State} (h : InMcu s) : ScanInBounds (mcuEndStep s) := by
  unfold mcuEndStep
  split_ifs with hm
  · exact ⟨h.valid, hm, congrArg (· + 1) h.done, h.region, trivial⟩
  · trivial

theorem scanStep_scanInBounds {s t : State} {q : ScanPos} (hq : s.seq = .scan q) (h : ScanStep s q t) (hframe : FrameSound s)
    (hs : ScanInBounds s) : ScanInBounds t := by
  obtain ⟨hmcu, hpos⟩ := (scanInBounds_scan hq).1 hs
  have hf : s.frame.sound := hframe.valid hmcu.valid
  cases h with
  | raised c k u hu => trivial
  | moved _ hu =>
    have hseq : t.seq = .scan q := by rw [hu.same.1]; exact hq
    exact (scanInBounds_scan hseq).2 ⟨hmcu.after_reader (k := s.k) hu, hpos.after_reader hu⟩
  | begins => exact ⟨hmcu.valid, hmcu.mcu, hmcu.done, hmcu.region, mcuBlocks_pos hf⟩
  | restart => exact ⟨hmcu.valid, hmcu.mcu, hmcu.done, hmcu.region, mcuBlocks_pos hf⟩
  | dcHuff l c l' c' u e hu => subst e; exact scanInBounds_reader (k := s.k) hmcu hu hpos
  | dcSymbol l c t u e hu => subst e; exact scanInBounds_reader (k := s.k) hmcu hu hpos
  | dcBits t n v u e hu =>
    have hblk : s.blk < (mcuBlocks s.frame).length := by rcases e with ⟨b, rfl⟩ | ⟨n', v', rfl⟩ <;> exact hpos
    exact scanInBounds_reader (k := s.k) hmcu hu hblk
  | dcDone t v u e hu =>
    have hblk : s.blk < (mcuBlocks s.frame).length := by rcases e with ⟨b, rfl⟩ | ⟨n', v', rfl⟩ <;> exact hpos
    exact dcFinish_scanInBounds (hmcu.after_reader (k := s.k) hu) (by rw [hu.same.1]; exact hblk) t v
  | acHuff l c l' c' u e hu => subst e; exact scanInBounds_reader (k := s.k) hmcu hu hpos
  | acSymbol l c rs u e hu => subst e; exact scanInBounds_reader (k := s.k) hmcu hu hpos
  | eob rs e => subst e; exact scanInBounds_scanAt hmcu hpos.1
  | zrl rs e => subst e; exact acNext_scanInBounds hmcu hpos.1 (by omega)
  | runBits rs k sz n v u e hk hk' _ _ _ hu =>
    subst e
    obtain ⟨hblk, hk1, -⟩ := hpos
    exact scanInBounds_reader hmcu hu ⟨hblk, hk1.trans hk, hk'⟩
  | runDone rs k sz v u e _ _ _ _ hu =>
    subst e
    exact acFinish_scanInBounds (hmcu.after_reader hu) (by rw [hu.same.1]; exact hpos.1) sz v
  | acBits sz n v n' v' u e _ _ hu => subst e; exact scanInBounds_reader (k := s.k) hmcu hu hpos
  | acDone sz n v v' u e _ hu =>
    subst e
    exact acFinish_scanInBounds (hmcu.after_reader (k := s.k) hu) (by rw [hu.same.1]; exact hpos.1) sz v'
  | transform => exact transformBlock_scanInBounds hmcu hf
  | commit i c e => subst e; exact commitStep_scanInBounds hmcu c hpos
  | mcuEnd => exact mcuEndStep_scanInBounds hmcu

theorem nextUnit_scanInBounds {s t : State} (h : NextUnit s t) : ScanInBounds t := by
  cases h <;> trivial

theorem sofEnd_scanInBounds (s : State) : ScanInBounds (sofEnd s) := by
  unfold sofEnd
  simp only
  split_ifs <;> trivial

theorem loadStep_scanInBounds {s t : State} {l : LoadPos} (hl : s.seq = .payload l) (h : LoadStep s l t)
    (hframe : FrameSound s) (hs : ScanInBounds s) : ScanInBounds t := by
  unfold ScanInBounds at hs
  rw [hl] at hs
  cases h with
  | dqtStored _ _ _ _ _ _ _ hnext => exact nextUnit_scanInBounds hnext
  | dhtNoSymbols _ _ _ _ _ _ _ _ _ hnext => exact nextUnit_scanInBounds hnext
  | dhtStored _ _ _ _ _ _ _ _ hnext => exact nextUnit_scanInBounds hnext
  | sofEnded => exact sofEnd_scanInBounds _
  | sosCount | sosComp | sosNamed | sosAllNamed | sosTail => exact hs
  | scanStarts ob got hregion =>
    have hvalid : s.frame.valid = true := hs
    exact ⟨hvalid, (hframe.valid hvalid).mcuTotal_bounds.1, rfl, hregion, trivial⟩
  | _ => trivial

theorem loadStart_scanInBounds {s t : State} (h : LoadStart s t) : ScanInBounds t := by
  cases h with
  | units _ hnext => exact nextUnit_scanInBounds hnext
  | scan len ob hv => exact hv
  | _ => trivial

theorem coreStep_scanInBounds {s t : State} (h : CoreStep s t) (hframe : FrameSound s) (hs : ScanInBounds s) :
    FrameSound t ∧ ScanInBounds t := by
  refine coreStep_keeps h (P := fun u => FrameSound u ∧ ScanInBounds u) ?start ?raised ?byte ?scan ⟨hframe, hs⟩
  case start => exact fun _ _ _ _ _ hu => ⟨loadStart_frameSound hu hframe.valid, loadStart_scanInBounds hu⟩
  case raised => exact fun _ _ _ _ hu => ⟨⟨hu.1.valid, trivial⟩, trivial⟩
  case byte =>
    intro u l b rest v hl _ ⟨huframe, hu⟩ hv
    have htaken : { u with fifo := rest }.seq = .payload l := hl
    exact ⟨loadStep_frameSound hv huframe.valid (hl ▸ huframe.loading),
      loadStep_scanInBounds htaken hv ⟨huframe.valid, huframe.loading⟩ hu⟩
  case scan => exact fun q hq hstep => ⟨coreStep_frameSound h hframe, scanStep_scanInBounds hq hstep hframe hs⟩

theorem hostEffect_scanInBounds {s u : State} (h : HostEffect s u) (hs : ScanInBounds s) : ScanInBounds u := by
  rw [(hostEffect_changes h).same]
  exact hs

/-- Settles O57: with the frame's soundness, every step of the core keeps the bounds; the host's effects change nothing they
speak of, and a reset leaves the scan. -/
theorem everyStepKeepsTheScanInBounds : Obligations.EveryStepKeepsTheScanInBounds := by
  intro s t hframe hs h
  have ht : FrameSound t ∧ ScanInBounds t :=
    step_keeps h (P := fun u => FrameSound u ∧ ScanInBounds u)
      (fun _ _ _ _ _ _ hu => ⟨⟨hu.1.valid, hu.1.loading⟩, hu.2⟩) (fun _ _ hc hu => coreStep_scanInBounds hc hu.1 hu.2)
      (fun _ _ he hu => ⟨hostEffect_frameSound he hu.1, hostEffect_scanInBounds he hu.2⟩)
      (fun u _ => ⟨resetCore_frameSound u, trivial⟩) ⟨hframe, hs⟩
  exact ht.2

end Sys2Proof.Machine
end

section
/-! SUPPORT. The register port: what reads answer, what writes change, and which accesses are refused (R13 to R30, R81 to
R83). -/

namespace Sys2Proof.Machine

theorem busy_iff (s : State) :
    busy s = true ↔ (∃ l, s.seq = .payload l) ∨ (∃ q, s.seq = .scan q) ∨ (s.seq = .idle ∧ s.fifo ≠ []) := by
  cases h : s.seq <;> simp [busy, h]

theorem isDone_iff (s : State) : isDone s = true ↔ s.seq = .done := by
  cases h : s.seq <;> simp [isDone, h]

theorem scanActive_iff (s : State) : scanActive s = true ↔ ∃ q, s.seq = .scan q := by
  cases h : s.seq <;> simp [scanActive, h]

theorem payloadActive_iff (s : State) : payloadActive s = true ↔ ∃ l, s.seq = .payload l := by
  cases h : s.seq <;> simp [payloadActive, h]

/-- A register whose only field is `v`, from bit `k` on. -/
def regField {w : Nat} (v : BitVec w) (k : Nat) : Word := v.setWidth 32 <<< k

/-- A field of a register reads back where it was placed. -/
theorem regField_at {w : Nat} (v : BitVec w) (k : Nat) (h : k + w ≤ 32) : (regField v k).extractLsb' k w = v := by
  ext i hi
  simp [regField, show k + i < 32 by omega, hi]

/-- A field of a register is 0 elsewhere. -/
theorem regField_off {w : Nat} (v : BitVec w) (k i n : Nat) (h : i + n ≤ k ∨ k + w ≤ i) : (regField v k).extractLsb' i n = 0#n := by
  ext j hj
  have hv : k ≤ i + j → v.getLsbD (i + j - k) = false := fun hk => BitVec.getLsbD_of_ge _ _ (by omega)
  by_cases hk : i + j < k
  · simp [regField, hk]
  · simp [regField, hv (by omega)]

/-- The fields of ERR (R18). -/
theorem errReg_fields (s : State) :
    (errReg s).extractLsb' 0 2 = s.errClass ∧ (errReg s).extractLsb' 2 6 = 0#6 ∧ (errReg s).extractLsb' 8 8 = s.errCause ∧
      (errReg s).extractLsb' 16 8 = s.errOp ∧ (errReg s).extractLsb' 24 8 = 0#8 := by
  have e : errReg s = regField s.errClass 0 ||| regField s.errCause 8 ||| regField s.errOp 16 := by
    simp [errReg, regField]
  rw [e]
  simp only [BitVec.extractLsb'_or]
  refine ⟨?_, ?_, ?_, ?_, ?_⟩ <;> simp [regField_at, regField_off]

/-- The fields of FRAME_DIM (R22). -/
theorem frameDimReg_fields {s : State} (h : s.frame.valid = true) :
    (frameDimReg s).extractLsb' 0 16 = s.frame.x ∧ (frameDimReg s).extractLsb' 16 16 = s.frame.y := by
  have e : frameDimReg s = regField s.frame.y 16 ||| regField s.frame.x 0 := by
    simp [frameDimReg, regField, h]
  rw [e]
  simp only [BitVec.extractLsb'_or]
  constructor <;> simp [regField_at, regField_off]

/-- The component count that FRAME_INFO shows (R23). -/
def shownCount (f : Frame) : BitVec 2 := if f.valid then f.nf else 0

/-- The fields of FRAME_INFO (R23). -/
theorem frameInfoReg_fields (s : State) :
    (frameInfoReg s).extractLsb' 0 2 = shownCount s.frame ∧ (frameInfoReg s).extractLsb' 2 2 = 0#2 ∧
      (frameInfoReg s).extractLsb' 4 3 = s.frame.hmax ∧ (frameInfoReg s).extractLsb' 7 1 = 0#1 ∧
      (frameInfoReg s).extractLsb' 8 3 = s.frame.vmax ∧ (frameInfoReg s).extractLsb' 11 21 = 0#21 := by
  have e : frameInfoReg s = regField (shownCount s.frame) 0 ||| regField s.frame.hmax 4 ||| regField s.frame.vmax 8 := by
    unfold frameInfoReg shownCount
    split_ifs <;> simp [regField]
  rw [e]
  simp only [BitVec.extractLsb'_or]
  refine ⟨?_, ?_, ?_, ?_, ?_, ?_⟩ <;> simp [regField_at, regField_off]

theorem tablesReg_valid (s : State) (i : Fin 4) :
    (tablesReg s).getLsbD i.val = s.qtValid[i] ∧ (tablesReg s).getLsbD (4 + i.val) = s.htDcValid[i] ∧
      (tablesReg s).getLsbD (8 + i.val) = s.htAcValid[i] := by
  simp only [tablesReg_getLsbD]
  fin_cases i <;> simp

theorem statusReg_reserved (s : State) {i : Nat} (h : 8 ≤ i) : (statusReg s).getLsbD i = false := by
  have hne : ∀ j, j < 8 → decide (i = j) = false := fun j hj => decide_eq_false (by omega)
  simp [statusReg_getLsbD, hne]

theorem tablesReg_reserved (s : State) {i : Nat} (h : 12 ≤ i) : (tablesReg s).getLsbD i = false := by
  have hne : ∀ j, j < 12 → decide (i = j) = false := fun j hj => decide_eq_false (by omega)
  simp [tablesReg_getLsbD, hne]

theorem irqStatusReg_reserved (s : State) {i : Nat} (h : 2 ≤ i) : (irqStatusReg s).getLsbD i = false := by
  have hne : ∀ j, j < 2 → decide (i = j) = false := fun j hj => decide_eq_false (by omega)
  simp [irqStatusReg_getLsbD, hne]

theorem irqEnReg_reserved (s : State) {i : Nat} (h : 2 ≤ i) : (irqEnReg s).getLsbD i = false := by
  have hne : ∀ j, j < 2 → decide (i = j) = false := fun j hj => decide_eq_false (by omega)
  simp [irqEnReg_getLsbD, hne]

/-- The write-only registers and the offsets past IRQ_EN read 0 (R82). -/
theorem regRead_zero {o : Nat} (s : State) (h : o = 0x04 ∨ o = 0x14 ∨ o = 0x18 ∨ 0x40 ≤ o) : regRead o s = 0#32 := by
  unfold regRead
  split
  pick_goal 14
  · rfl
  all_goals omega

theorem statusReg_bits (s : State) :
    (statusReg s).getLsbD 0 = busy s ∧ (statusReg s).getLsbD 1 = isDone s ∧ (statusReg s).getLsbD 2 = isError s ∧
      (statusReg s).getLsbD 3 = s.frame.valid ∧ (statusReg s).getLsbD 4 = scanActive s ∧
      (statusReg s).getLsbD 5 = payloadActive s ∧ (statusReg s).getLsbD 6 = s.dropped ∧
      (statusReg s).getLsbD 7 = irq s := by
  simp only [statusReg_getLsbD]
  simp

theorem irqStatusReg_bits (s : State) :
    (irqStatusReg s).getLsbD 0 = s.doneEvt ∧ (irqStatusReg s).getLsbD 1 = s.errEvt := by
  simp only [irqStatusReg_getLsbD]
  simp

theorem irqEnReg_bits (s : State) : (irqEnReg s).getLsbD 0 = s.doneIe ∧ (irqEnReg s).getLsbD 1 = s.errIe := by
  simp only [irqEnReg_getLsbD]
  simp

/-- Settles O8: each register's view, by its bits or its fields. -/
theorem viewRegistersShowTheState : Obligations.ViewRegistersShowTheState := by
  intro s
  obtain ⟨hbusy, hdone, herror, hvalid, hscan, hpayload, hdropped, hirq⟩ := statusReg_bits s
  obtain ⟨hclass, hclassRes, hcause, hop, hopRes⟩ := errReg_fields s
  obtain ⟨hcount, hcountRes, hhmax, hhmaxRes, hvmax, hvmaxRes⟩ := frameInfoReg_fields s
  obtain ⟨hdoneEvt, herrEvt⟩ := irqStatusReg_bits s
  obtain ⟨hdoneIe, herrIe⟩ := irqEnReg_bits s
  refine ⟨rfl, hbusy ▸ busy_iff s, hdone ▸ isDone_iff s, herror ▸ isError_iff s, hvalid, hscan ▸ scanActive_iff s,
    hpayload ▸ payloadActive_iff s, hdropped, hirq, fun i hi => statusReg_reserved s hi, tablesReg_valid s,
    fun i hi => tablesReg_reserved s hi, hclass, hclassRes, hcause, hop, hopRes, rfl, fun hv => ?valid, fun hv => ?invalid,
    hhmax, hvmax, hcountRes, hhmaxRes, hvmaxRes, BitVec.toNat_ofNat _ _, BitVec.toNat_ofNat _ _, BitVec.toNat_ofNat _ _,
    hdoneEvt, herrEvt, hdoneIe, herrIe, fun i hi => ⟨irqStatusReg_reserved s hi, irqEnReg_reserved s hi⟩,
    fun o ho => regRead_zero s ho⟩
  case valid =>
    obtain ⟨hx, hy⟩ := frameDimReg_fields hv
    exact ⟨hx, hy, hcount.trans (if_pos hv), if_pos hv⟩
  case invalid =>
    have hno : ¬ s.frame.valid = true := by simp [hv]
    exact ⟨if_neg hno, hcount.trans (if_neg hno), if_neg hno⟩

/-- IRQ_STATUS is write-1-to-clear (R28). -/
theorem irqStatusReg_clear (v : Word) (s : State) :
    irqStatusReg { s with doneEvt := s.doneEvt && !v.getLsbD 0, errEvt := s.errEvt && !v.getLsbD 1 } =
      irqStatusReg s &&& ~~~v := by
  refine BitVec.eq_of_getLsbD_eq fun i hi => ?_
  simp only [irqStatusReg_getLsbD, BitVec.getLsbD_and, BitVec.getLsbD_not, hi, decide_true, Bool.true_and]
  by_cases h0 : i = 0
  · subst h0; simp
  · by_cases h1 : i = 1
    · subst h1; simp
    · simp [h0, h1]

/-- IRQ_EN keeps bits 1:0 of what is written (R29). -/
theorem irqEnReg_write (v : Word) (s : State) :
    irqEnReg { s with doneIe := v.getLsbD 0, errIe := v.getLsbD 1 } = v &&& 3#32 := by
  refine BitVec.eq_of_getLsbD_eq fun i hi => ?_
  have hmask : ∀ i < 32, (3#32).getLsbD i = decide (i < 2) := by decide
  simp only [irqEnReg_getLsbD, BitVec.getLsbD_and, hmask i hi]
  by_cases h0 : i = 0
  · subst h0; simp
  · by_cases h1 : i = 1
    · subst h1; simp
    · simp [h0, h1, show ¬ i < 2 by omega]

/-- Settles O9: the three writes by the registers' views. -/
theorem writableRegistersAndIrqFollowTheWrite : Obligations.WritableRegistersAndIrqFollowTheWrite := by
  intro v s
  refine ⟨⟨_, rfl, rfl, irqStatusReg_clear v s, rfl⟩, ⟨_, rfl, rfl, irqEnReg_write v s, rfl⟩, ⟨_, rfl, rfl, rfl⟩, ?_⟩
  simp [irq]

/-- A write without an effect register (R83). -/
theorem regWrite_none {o : Nat} (v : Word) (s : State) (h : o ∉ [0x04, 0x14, 0x18, 0x1C, 0x38, 0x3C]) :
    regWrite o v s = some s := by
  simp only [List.mem_cons, List.not_mem_nil, or_false, not_or] at h
  obtain ⟨h1, h2, h3, h4, h5, h6⟩ := h
  rcases regWrite_cases o v s with ⟨e, -⟩ | ⟨e, -⟩ | ⟨e, -⟩ | ⟨e, -⟩ | ⟨e, -⟩ | ⟨e, -⟩ | ⟨-, e⟩
  · exact absurd e h1
  · exact absurd e h2
  · exact absurd e h3
  · exact absurd e h4
  · exact absurd e h5
  · exact absurd e h6
  · exact e

theorem regRead_afterTurn (o : Nat) (s : State) : regRead o (afterTurn s) = regRead o s := rfl

theorem cmdWrite_afterTurn (w : Word) (s : State) : cmdWrite w (afterTurn s) = (cmdWrite w s).map afterTurn := by
  have ht : terminal (afterTurn s) = terminal s := rfl
  have hf : fifoFull (afterTurn s) = fifoFull s := rfl
  unfold cmdWrite
  rw [ht, hf]
  split_ifs <;> rfl

theorem dataWrite_afterTurn (v : Word) (s : State) : dataWrite v (afterTurn s) = (dataWrite v s).map afterTurn := by
  have ht : terminal (afterTurn s) = terminal s := rfl
  have hf : fifoFull (afterTurn s) = fifoFull s := rfl
  unfold dataWrite
  rw [ht, hf, afterTurn_feMode]
  cases s.feMode <;> simp only <;> split_ifs <;> rfl

/-- A register write neither reads nor changes whose turns come next. -/
theorem regWrite_afterTurn (o : Nat) (v : Word) (s : State) :
    regWrite o v (afterTurn s) = (regWrite o v s).map afterTurn := by
  rcases regWrite_cases o v s with ⟨rfl, -⟩ | ⟨rfl, -⟩ | ⟨rfl, -⟩ | ⟨rfl, -⟩ | ⟨rfl, -⟩ | ⟨rfl, -⟩ | ⟨ho, -⟩
  · simp only [regWrite]
    split_ifs <;> rfl
  · exact cmdWrite_afterTurn v s
  · exact dataWrite_afterTurn v s
  · rfl
  · rfl
  · rfl
  · rw [regWrite_none v _ ho, regWrite_none v _ ho]; rfl

/-- A register write changes neither the host's operations nor whose turns come next. -/
theorem regWrite_host {o : Nat} {v : Word} {s t : State} (h : regWrite o v s = some t) :
    t.hostOps = s.hostOps ∧ t.sched = s.sched := by
  rcases regWrite_effect h with he | ⟨rfl, -⟩
  · rw [(hostEffect_changes he).same]
    exact ⟨rfl, rfl⟩
  · exact ⟨rfl, rfl⟩

theorem hostTurn_none {s : State} (h : s.hostOps = []) : hostTurn s = .next s := by
  unfold hostTurn; rw [h]

theorem hostTurn_wait {s : State} {rest : List HostOp} (h : s.hostOps = .wait :: rest) :
    hostTurn s = .next (if terminal s then hostDone s else s) := by
  unfold hostTurn
  rw [h]
  simp only
  split_ifs <;> rfl

/-- The status bits that WAIT reads (R16, R80). -/
theorem terminal_iff_status (s : State) :
    terminal s = true ↔ (regRead 0x08 s).getLsbD 1 = true ∨ (regRead 0x08 s).getLsbD 2 = true := by
  obtain ⟨-, hdone, herror, -⟩ := statusReg_bits s
  have hread : regRead 0x08 s = statusReg s := rfl
  rw [hread, hdone, herror, terminal, Bool.or_eq_true]

/-- The register access at the head of the host's operations is one the port does not define (R45). -/
def OutsideWindow (s : State) : Prop :=
  ∃ bytes addr rest, (s.hostOps = .regRead bytes addr :: rest ∨ ∃ v, s.hostOps = .regWrite bytes addr v :: rest) ∧
    ¬ (bytes = 4 ∧ (addr - s.platform.regBase).toNat < 256 ∧ (addr - s.platform.regBase).toNat % 4 = 0)

/-- A turn of the host is refused just where its access is outside the window (R45). -/
theorem hostTurn_refused_iff (s : State) (r : Refusal) :
    hostTurn s = .refused r ↔ r = .accessOutsideWindow ∧ OutsideWindow s := by
  constructor
  · intro h
    unfold hostTurn at h
    split at h
    · cases h
    · rename_i bytes addr rest ho
      split_ifs at h with ha
      rw [accessDefined_iff] at ha
      exact ⟨(Host.Outcome.refused.inj h).symm, bytes, addr, rest, .inl ho, ha⟩
    · rename_i bytes addr v rest ho
      split_ifs at h with ha
      · split at h <;> cases h
      · rw [accessDefined_iff] at ha
        exact ⟨(Host.Outcome.refused.inj h).symm, bytes, addr, rest, .inr ⟨v, ho⟩, ha⟩
    · cases h
    · cases h
    · split_ifs at h
  · rintro ⟨rfl, bytes, addr, rest, ho, ha⟩
    rw [← accessDefined_iff] at ha
    unfold hostTurn
    rcases ho with ho | ⟨v, ho⟩ <;> rw [ho] <;> exact if_neg ha

/-- Settles O10: by the register port's reads and writes, and the outcomes of a turn of the host. -/
theorem registerPortAccesses : Obligations.RegisterPortAccesses := by
  refine ⟨fun o v s => regWrite_none v s, ?access, ?waiting, ?refused⟩
  case access =>
    intro s o rest hn ho h4
    rw [step_host hn]
    refine ⟨fun hops => ?_, fun v hops => ⟨fun t ht => ?_, fun ht => ?_⟩⟩
    · rw [hostTurn_regRead (s := afterTurn s) ho h4 hops, regRead_afterTurn]
      simp only [hostDone, afterTurn, hops, List.tail_cons]
    · have hw : regWrite o v (afterTurn s) = some (afterTurn t) := by rw [regWrite_afterTurn, ht]; rfl
      rw [hostTurn_regWrite (s := afterTurn s) ho h4 hops, hw]
      obtain ⟨hopsSame, hschedSame⟩ := regWrite_host ht
      simp only [hostDone, afterTurn, hopsSame, hschedSame, hops, List.tail_cons]
    · have hw : regWrite o v (afterTurn s) = none := by rw [regWrite_afterTurn, ht]; rfl
      rw [hostTurn_regWrite (s := afterTurn s) ho h4 hops, hw]
      rfl
  case waiting =>
    intro s hn
    rw [step_host hn]
    refine ⟨fun rest hops => ?_, fun hops => hostTurn_none (s := afterTurn s) hops⟩
    rw [hostTurn_wait (s := afterTurn s) hops]
    simp only [← terminal_iff_status]
    have ht : terminal (afterTurn s) = terminal s := rfl
    rw [ht]
    split_ifs
    · simp only [hostDone, afterTurn, hops, List.tail_cons]
    · rfl
  case refused =>
    intro s r
    cases hn : nextTurn s with
    | core =>
      obtain ⟨t, ht⟩ := coreTurn_next (afterTurn s)
      simp [step_core hn, ht]
    | host =>
      rw [step_host hn, hostTurn_refused_iff]
      simp [OutsideWindow]
    | hwReset => simp [step_hwReset hn]

end Sys2Proof.Machine
end

section
/-! SUPPORT. The only step of the core that writes output memory is the commit's, at the address of a pixel of the image
(R44, R48, R50, R123, R124). -/

namespace Sys2Proof.Machine

/-! A step of the commit, a case each. -/

theorem pixelInside_iff (s : State) (i : Nat) :
    pixelInside s i = true ↔ pixelX s i < s.frame.x.toNat ∧ pixelY s i < s.frame.y.toNat := by
  rw [pixelInside, decide_eq_true_eq]

/-- A pixel outside the image is skipped (R124). -/
theorem commitStep_outside {s : State} {i : Nat} (c : Fin 3) (h : ¬ pixelInside s i = true) :
    commitStep i c s = scanAt (nextPixel s i) s := if_neg h

/-- An error response performs no write (R48, R49). -/
theorem commitStep_busErr {s : State} {i : Nat} {c : Fin 3} (h : pixelInside s i = true)
    (hbus : busErr s (pixelAddr s (pixelX s i) (pixelY s i) c) = true) : commitStep i c s = raise .busError s := by
  rw [commitStep, if_pos h, memWrite, if_pos hbus]

/-- The byte of channel `c` is written (R48, R123). -/
theorem commitStep_writes {s : State} {i : Nat} {c : Fin 3} (h : pixelInside s i = true)
    (hbus : busErr s (pixelAddr s (pixelX s i) (pixelY s i) c) = false) :
    commitStep i c s = scanAt (nextChannel s i c) { s with
      mem := Memory.write s.mem (pixelAddr s (pixelX s i) (pixelY s i) c)
        ((pixelAt s (pixelPx s i) (pixelPy s i)).channel c) } := by
  rw [commitStep, if_pos h, memWrite, hbus]
  rfl

/-- At a position of the commit the core meets no instruction and commits. -/
theorem coreTurn_commit {s : State} {i : Nat} {c : Fin 3} (h : s.seq = .scan (.commit i c)) :
    coreTurn s = .next (commitStep i c s) := by
  have hfetch : fetch s = none := by rw [fetch, h]; rfl
  have hadvance : advance s = commitStep i c s := by rw [advance, h]; rfl
  rw [coreTurn, hfetch, hadvance]

/-! The address of a pixel (R44). -/

/-- Where the output region ends in the address space, addresses do not wrap. -/
theorem pixelAddr_eq {s : State} {x y : Nat} (c : Fin 3) (hregion : (region s).hi ≤ 2 ^ 32) (hx : x < s.frame.x.toNat)
    (hy : y < s.frame.y.toNat) :
    pixelAddr s x y c = s.ob.toNat + 3 * (y * s.frame.x.toNat + x) + c.val ∧ pixelAddr s x y c < (region s).hi := by
  have hpixel : y * s.frame.x.toNat + x + 1 ≤ s.frame.x.toNat * s.frame.y.toNat := by
    calc y * s.frame.x.toNat + x + 1 ≤ (y + 1) * s.frame.x.toNat := by rw [Nat.succ_mul]; omega
      _ ≤ s.frame.y.toNat * s.frame.x.toNat := Nat.mul_le_mul_right _ hy
      _ = s.frame.x.toNat * s.frame.y.toNat := Nat.mul_comm _ _
  have hhi : (region s).hi = s.ob.toNat + 3 * (s.frame.x.toNat * s.frame.y.toNat) := by
    rw [region, regionAt, Nat.mul_assoc]
  have hc := c.isLt
  have hlt : s.ob.toNat + 3 * (y * s.frame.x.toNat + x) + c.val < (region s).hi := by omega
  rw [pixelAddr, Nat.mod_eq_of_lt (hlt.trans_le hregion)]
  exact ⟨rfl, hlt⟩

/-- The bytes of a pixel of the image lie in the output region. -/
theorem pixelAddr_in_region {s : State} {i : Nat} (c : Fin 3) (hregion : (region s).hi ≤ 2 ^ 32)
    (h : pixelInside s i = true) :
    (region s).lo ≤ pixelAddr s (pixelX s i) (pixelY s i) c ∧ pixelAddr s (pixelX s i) (pixelY s i) c < (region s).hi := by
  obtain ⟨hx, hy⟩ := (pixelInside_iff s i).1 h
  obtain ⟨he, hlt⟩ := pixelAddr_eq c hregion hx hy
  refine ⟨?_, hlt⟩
  rw [he, Nat.add_assoc]
  exact Nat.le_add_right _ _

/-! What every other step of the core does to output memory: nothing. -/

theorem nextUnit_mem {s t : State} (h : NextUnit s t) : t.mem = s.mem := by
  cases h <;> rfl

theorem sofEnd_mem (s : State) : (sofEnd s).mem = s.mem := by
  unfold sofEnd
  simp only
  split_ifs <;> rfl

theorem loadStep_mem {s t : State} {l : LoadPos} (h : LoadStep s l t) : t.mem = s.mem := by
  cases h with
  | dqtStored _ _ _ _ _ _ _ hnext => exact (nextUnit_mem hnext).trans (storeQt_mem ..)
  | dhtNoSymbols _ _ _ _ _ _ _ _ _ hnext => exact (nextUnit_mem hnext).trans (storeHt_mem ..)
  | dhtStored _ _ _ _ _ _ _ _ hnext => exact (nextUnit_mem hnext).trans (storeHt_mem ..)
  | sofEnded => exact sofEnd_mem _
  | _ => rfl

theorem loadStart_mem {s t : State} (h : LoadStart s t) : t.mem = s.mem := by
  cases h with
  | units _ hnext => exact nextUnit_mem hnext
  | _ => rfl

/-- A loader writes no output memory, however many bytes it takes, and even where it starts the scan. -/
theorem runLoad_mem (fuel : Nat) (s : State) : (runLoad fuel s).mem = s.mem :=
  runLoad_induct (P := fun u => u.mem = s.mem) (fun _ _ _ _ hu => hu)
    (fun _ l b _ _ _ hu => (loadStep_mem (loadByte_step l b _)).trans hu) fuel s rfl

theorem dcFinish_mem (t v : Nat) (s : State) : (dcFinish t v s).mem = s.mem := by
  unfold dcFinish
  simp only
  split_ifs <;> rfl

theorem acNext_mem (k : Nat) (s : State) : (acNext k s).mem = s.mem := by
  unfold acNext
  split_ifs <;> rfl

theorem transformBlock_mem (s : State) : (transformBlock s).mem = s.mem := by
  unfold transformBlock
  simp only
  split_ifs <;> rfl

theorem mcuEndStep_mem (s : State) : (mcuEndStep s).mem = s.mem := by
  unfold mcuEndStep
  split_ifs <;> rfl

theorem ReaderMoved.mem {s u : State} (h : ReaderMoved u s) : u.mem = s.mem := by
  rw [h.same.1]

/-- Of the scan program only the commit may write output memory. -/
theorem scanStep_mem {s t : State} {q : ScanPos} (h : ScanStep s q t) :
    t.mem = s.mem ∨ ∃ i c, q = .commit i c ∧ t = commitStep i c s := by
  cases h with
  | commit i c e => exact .inr ⟨i, c, e, rfl⟩
  | begins | restart | eob => exact .inl rfl
  | zrl => exact .inl (acNext_mem _ s)
  | transform => exact .inl (transformBlock_mem s)
  | mcuEnd => exact .inl (mcuEndStep_mem s)
  | raised c k u hu => exact .inl hu.mem
  | runDone _ _ _ _ u _ _ _ _ _ hu => exact .inl ((acNext_mem _ _).trans hu.mem)
  | acDone _ _ _ _ u _ _ hu => exact .inl ((acNext_mem _ _).trans hu.mem)
  | dcDone t v u _ hu => exact .inl ((dcFinish_mem t v u).trans hu.mem)
  | runBits _ _ _ _ _ u _ _ _ _ _ _ hu => exact .inl hu.mem
  | moved u hu | dcHuff _ _ _ _ u _ hu | dcSymbol _ _ _ u _ hu | dcBits _ _ _ u _ hu | acHuff _ _ _ _ u _ hu
  | acSymbol _ _ _ u _ hu | acBits _ _ _ _ _ u _ _ _ hu => exact .inl hu.mem

/-- Of the steps of the core only a step of the commit may write output memory (R50). -/
theorem coreStep_mem {s t : State} (h : CoreStep s t) :
    t.mem = s.mem ∨ ∃ i c, s.seq = .scan (.commit i c) ∧ t = commitStep i c s := by
  rcases coreStep_kinds h with rfl | ⟨-, op, rest, u, fuel, -, hu, rfl⟩ | ⟨fuel, rfl⟩ | ⟨q, hq, hstep⟩
  · exact .inl rfl
  · exact .inl ((runLoad_mem fuel u).trans (loadStart_mem hu :))
  · exact .inl (runLoad_mem fuel s)
  · rcases scanStep_mem hstep with hmem | ⟨i, c, rfl, rfl⟩
    · exact .inl hmem
    · exact .inr ⟨i, c, hq, rfl⟩

/-- A byte that a step of the commit changes lies in the output region. -/
theorem commitStep_changes_region {s : State} {i : Nat} {c : Fin 3} {a : Nat} (hregion : (region s).hi ≤ 2 ^ 32)
    (h : Memory.read (commitStep i c s).mem a ≠ Memory.read s.mem a) : (region s).lo ≤ a ∧ a < (region s).hi := by
  by_cases hin : pixelInside s i = true
  · cases hbus : busErr s (pixelAddr s (pixelX s i) (pixelY s i) c) with
    | true => exact absurd (by rw [commitStep_busErr hin hbus, raise_mem]) h
    | false =>
      have ha : a = pixelAddr s (pixelX s i) (pixelY s i) c := by
        by_contra hne
        exact h (by rw [commitStep_writes hin hbus, scanAt_mem, Memory.read_write_other _ _ _ _ hne])
      rw [ha]
      exact pixelAddr_in_region c hregion hin
  · exact absurd (by rw [commitStep_outside c hin, scanAt_mem]) h

/-- Settles O49: only a step of the commit writes, and it writes a byte of a pixel of the image, which lies in the region. -/
theorem coreWritesOnlyTheRegion : Obligations.CoreWritesOnlyTheRegion := by
  intro s t a hs hn h hread
  rw [step_core hn] at h
  rcases coreStep_mem (coreTurn_step h) with hmem | ⟨i, c, hq, rfl⟩
  · exact absurd (by rw [hmem, afterTurn_mem]) hread
  · rw [afterTurn_seq] at hq
    obtain ⟨hmcu, -⟩ := (scanInBounds_scan hq).1 hs
    exact ⟨⟨_, hq⟩, commitStep_changes_region (s := afterTurn s) hmcu.region hread⟩

/-! The order of the commit's positions (R106, R123, R124). -/

/-- The pixel at column `px` of row `py` of the MCU, in raster order. -/
theorem pixel_of_index (s : State) (px py : Nat) (h : px < 8 * s.frame.hmax.toNat) :
    pixelPx s (py * (8 * s.frame.hmax.toNat) + px) = px ∧ pixelPy s (py * (8 * s.frame.hmax.toNat) + px) = py := by
  refine ⟨?_, ?_⟩
  · rw [pixelPx, Nat.mul_add_mod_of_lt h]
  · rw [pixelPy, Nat.mul_comm, Nat.mul_add_div (by omega), Nat.div_eq_of_lt h, Nat.add_zero]

theorem mcuPixels_eq (s : State) : mcuPixels s = 64 * s.frame.hmax.toNat * s.frame.vmax.toNat := by
  unfold mcuPixels
  ring

theorem nextChannel_eq (s : State) (i : Nat) (c : Fin 3) :
    nextChannel s i c = if c = 0 then .commit i 1 else if c = 1 then .commit i 2 else nextPixel s i := by
  fin_cases c <;> rfl

/-- Settles O47: the position names the pixel, and a step of the commit is one of its three cases. -/
theorem commitWritesThePixelByte : Obligations.CommitWritesThePixelByte := by
  constructor
  · intro s q x y c hq hs hx hy
    obtain ⟨hmcu, -⟩ := (scanInBounds_scan hq).1 hs
    exact (pixelAddr_eq c hmcu.region hx hy).1
  intro s px py hpx i x y after
  obtain ⟨hPx, hPy⟩ := pixel_of_index s px py hpx
  have hX : pixelX s i = x := congrArg (8 * s.frame.hmax.toNat * (s.m % s.frame.mcux) + ·) hPx
  have hY : pixelY s i = y := congrArg (8 * s.frame.vmax.toNat * (s.m / s.frame.mcux) + ·) hPy
  refine ⟨⟨hPx, hPy, hX, hY, mcuPixels_eq s⟩, fun c hq hn => ?_⟩
  have hstep : step s = .next (commitStep i c (afterTurn s)) := by rw [step_core hn, coreTurn_commit (by exact hq)]
  have hafter : nextPixel (afterTurn s) i = after := by rw [nextPixel, mcuPixels_eq]; rfl
  have hinside : pixelInside (afterTurn s) i = true ↔ x < s.frame.x.toNat ∧ y < s.frame.y.toNat := by
    rw [← hX, ← hY]; exact pixelInside_iff _ i
  have haddr : pixelAddr (afterTurn s) (pixelX (afterTurn s) i) (pixelY (afterTurn s) i) c = pixelAddr s x y c := by
    rw [← hX, ← hY]; rfl
  have hpixel : pixelAt (afterTurn s) (pixelPx (afterTurn s) i) (pixelPy (afterTurn s) i) = pixelAt s px py :=
    congrArg₂ (pixelAt s) hPx hPy
  refine ⟨fun hx hy hbus => ?writes, fun hx hy hbus => ?busError, fun hout => ?outside⟩
  case writes =>
    have hw := commitStep_writes (s := afterTurn s) (c := c) (hinside.2 ⟨hx, hy⟩) (by rw [haddr]; exact hbus)
    rw [haddr, hpixel, nextChannel_eq, hafter] at hw
    refine ⟨_, hstep.trans (congrArg _ hw), rfl, ?_, fun a' ha' => Memory.read_write_other _ _ _ _ ha'⟩
    rw [scanAt_mem, Memory.read_write_same, Rgb.channel]
  case busError =>
    rw [hstep, commitStep_busErr (hinside.2 ⟨hx, hy⟩) (by rw [haddr]; exact hbus)]
    rfl
  case outside =>
    rw [hstep, commitStep_outside c (by rw [hinside]; omega), hafter]
    rfl

end Sys2Proof.Machine
end

section
/-! SUPPORT. The host's reads and writes of output memory, by who owns the byte (R55, R57, R58). -/

namespace Sys2Proof.Machine

theorem Span.has_byte (a a' : Nat) : Span.has ⟨a, a + 1⟩ a' = decide (a' = a) := by
  rw [Bool.eq_iff_iff, Span.has_iff, decide_eq_true_eq]
  simp only
  omega

theorem inSpans_byte_cons (a a' : Nat) (rs : List Span) :
    inSpans (⟨a, a + 1⟩ :: rs) a' = (decide (a' = a) || inSpans rs a') := by
  rw [inSpans, List.any_cons, Span.has_byte, inSpans]

theorem inSpans_minus_byte (rs : List Span) (a a' : Nat) :
    inSpans (minusSpan rs ⟨a, a + 1⟩) a' = (inSpans rs a' && !decide (a' = a)) := by
  rw [inSpans_minusSpan, Span.has_byte]

/-- Where nothing fixes the byte, the host reads a free value (R55, R57, R58). -/
theorem hostMemRead_free {s : State} {a : Word}
    (h : CoreOwns s a.toNat ∨ inSpans s.indet a.toNat = true ∨ Memory.read s.mem a.toNat = none) :
    hostMemRead a s = (Config.freeByte s.freeCount, { s with freeCount := s.freeCount + 1 }) := by
  rw [← inSpans_owned] at h
  unfold hostMemRead
  simp only
  split_ifs with hspan
  · rfl
  · rw [Bool.or_eq_true, not_or] at hspan
    rw [(h.resolve_left hspan.1).resolve_left hspan.2]

/-- Elsewhere the host reads the byte written (R57). -/
theorem hostMemRead_written {s : State} {a : Word} {v : Byte} (howns : ¬ CoreOwns s a.toNat)
    (hindet : inSpans s.indet a.toNat = false) (hread : Memory.read s.mem a.toNat = some v) : hostMemRead a s = (v, s) := by
  rw [← inSpans_owned, Bool.not_eq_true] at howns
  rw [hostMemRead, howns, hindet, hread]
  rfl

/-- A host write of the region that belongs to the core marks the byte (R55). -/
theorem hostMemWrite_owned {s : State} {a : Word} (v : Byte) (h : CoreOwns s a.toNat) :
    hostMemWrite a v s = { s with clobbered := ⟨a.toNat, a.toNat + 1⟩ :: s.clobbered } :=
  if_pos ((inSpans_owned s a.toNat).2 h)

/-- Elsewhere memory takes the host's byte (log 9). -/
theorem hostMemWrite_not_owned {s : State} {a : Word} (v : Byte) (h : ¬ CoreOwns s a.toNat) :
    hostMemWrite a v s =
      { s with mem := Memory.write s.mem a.toNat v, indet := minusSpan s.indet ⟨a.toNat, a.toNat + 1⟩ } :=
  if_neg (mt (inSpans_owned s a.toNat).1 h)

theorem hostTurn_memRead {s : State} {a : Word} {rest : List HostOp} (h : s.hostOps = .memRead a :: rest) :
    hostTurn s = .next (hostDone { (hostMemRead a s).2 with reads := s.reads ++ [.mem a (hostMemRead a s).1] }) := by
  unfold hostTurn
  rw [h]

theorem hostTurn_memWrite {s : State} {a : Word} {v : Byte} {rest : List HostOp} (h : s.hostOps = .memWrite a v :: rest) :
    hostTurn s = .next (hostDone (hostMemWrite a v s)) := by
  unfold hostTurn
  rw [h]

/-- Settles O11: by the read and the write of a byte, inside the region that belongs to the core and elsewhere. -/
theorem hostAccessesToOutputMemory : Obligations.HostAccessesToOutputMemory := by
  intro s a rest hn
  rw [step_host hn]
  refine ⟨fun hops => ⟨fun hfree => ?free, fun v howns hindet hread => ?written⟩, fun v hops => ?write⟩
  case free =>
    rw [hostTurn_memRead (s := afterTurn s) hops, hostMemRead_free (s := afterTurn s) hfree]
    simp only [hostDone, afterTurn, hops, List.tail_cons]
  case written =>
    rw [hostTurn_memRead (s := afterTurn s) hops, hostMemRead_written (s := afterTurn s) howns hindet hread]
    simp only [hostDone, afterTurn, hops, List.tail_cons]
  case write =>
    rw [hostTurn_memWrite (s := afterTurn s) hops]
    by_cases howns : CoreOwns s a.toNat
    · rw [hostMemWrite_owned (s := afterTurn s) v howns]
      refine ⟨_, rfl, ?_, fun _ => ⟨rfl, rfl, ?_, fun a' ha' => ?_⟩, fun h => absurd howns h⟩
      · simp only [hostDone, afterTurn, hops, List.tail_cons]
      · simp [inSpans_byte_cons]
      · simp [inSpans_byte_cons, ha']
    · rw [hostMemWrite_not_owned (s := afterTurn s) v howns]
      refine ⟨_, rfl, ?_, fun h => absurd h howns,
        fun _ => ⟨Memory.read_write_same _ _ _, ?_, rfl, fun a' ha' => ⟨Memory.read_write_other _ _ _ _ ha', ?_⟩⟩⟩
      · simp only [hostDone, afterTurn, hops, List.tail_cons]
      · simp [inSpans_minus_byte]
      · simp [inSpans_minus_byte, ha']

end Sys2Proof.Machine
end

section
/-! SUPPORT. Decoding and encoding undo each other (R62, R63, R72, R74, R75). A word of the opcode table is a fixed part with
the row's free bits below it; the facts about such bytes are said once and serve every row. -/

namespace Sys2Proof

/-! A fixed part whose low `k` bits are 0, joined with `k` free bits. -/

theorem joined_low {k : Nat} {fixed : Byte} (lo : BitVec k) (hk : k ≤ 8) (h : fixed.extractLsb' 0 k = 0#k) :
    (fixed ||| lo.setWidth 8).extractLsb' 0 k = lo := by
  rw [BitVec.extractLsb'_or, h, BitVec.zero_or]
  ext i hi
  simp [show i < 8 by omega, hi]

theorem joined_high {k : Nat} (fixed : Byte) (lo : BitVec k) (m : Nat) :
    (fixed ||| lo.setWidth 8).extractLsb' k m = fixed.extractLsb' k m := by
  rw [BitVec.extractLsb'_or]
  ext i hi
  simp

theorem eq_of_high_low {k m : Nat} {b b' : Byte} (hm : k + m = 8) (hhigh : b.extractLsb' k m = b'.extractLsb' k m)
    (hlow : b.extractLsb' 0 k = b'.extractLsb' 0 k) : b = b' := by
  refine BitVec.eq_of_getLsbD_eq fun i hi => ?_
  by_cases hik : i < k
  · simpa [hik] using congrArg (·.getLsbD i) hlow
  · simpa [show i - k < m by omega, show k + (i - k) = i by omega] using congrArg (·.getLsbD (i - k)) hhigh

/-- No bit is dropped: a byte with the fixed part's high bits is the fixed part joined with the byte's own low bits. -/
theorem join_own_low {k m : Nat} {fixed b : Byte} (hm : k + m = 8) (hlow : fixed.extractLsb' 0 k = 0#k)
    (hhigh : b.extractLsb' k m = fixed.extractLsb' k m) : fixed ||| (b.extractLsb' 0 k).setWidth 8 = b :=
  eq_of_high_low hm ((joined_high ..).trans hhigh.symm) (joined_low _ (by omega) hlow)

/-! The opcode map R63: the rows cover every byte, and the match value of a row of reserved opcodes excludes the rows before
it. Both are facts about the opcode's number. -/

/-- The rows of reserved opcodes that have free bits: the match value of the opcode's high bits, and the free bits `lo`. -/
inductive ReservedRow (op arg : Byte) (len : Half) : Instr → Prop
  | row0607 {lo : BitVec 1} : op.extractLsb' 1 7 = 0x03#7 → op.extractLsb' 0 1 = lo →
      ReservedRow op arg len (.illegal0607 lo arg len)
  | row080F {lo : BitVec 3} : op.extractLsb' 3 5 = 0x01#5 → op.extractLsb' 0 3 = lo →
      ReservedRow op arg len (.illegal080F lo arg len)
  | row101F {lo : BitVec 4} : op.extractLsb' 4 4 = 0x01#4 → op.extractLsb' 0 4 = lo →
      ReservedRow op arg len (.illegal101F lo arg len)
  | row203F {lo : BitVec 5} : op.extractLsb' 5 3 = 0x01#3 → op.extractLsb' 0 5 = lo →
      ReservedRow op arg len (.illegal203F lo arg len)
  | row407F {lo : BitVec 6} : op.extractLsb' 6 2 = 0x01#2 → op.extractLsb' 0 6 = lo →
      ReservedRow op arg len (.illegal407F lo arg len)
  | row80FF {lo : BitVec 7} : op.extractLsb' 7 1 = 0x01#1 → op.extractLsb' 0 7 = lo →
      ReservedRow op arg len (.illegal80FF lo arg len)

theorem byte_eq_iff (b : Byte) (n : Nat) : b = BitVec.ofNat 8 n ↔ b.toNat = n % 2 ^ 8 := by
  rw [← BitVec.toNat_inj, BitVec.toNat_ofNat]

theorem bits_eq_iff (b : Byte) (k m n : Nat) :
    b.extractLsb' k m = BitVec.ofNat m n ↔ b.toNat / 2 ^ k % 2 ^ m = n % 2 ^ m := by
  rw [← BitVec.toNat_inj, BitVec.extractLsb'_toNat, Nat.shiftRight_eq_div_pow, BitVec.toNat_ofNat]

theorem opcode_mem_rows (op : Byte) :
    op = 0x01#8 ∨ op = 0x02#8 ∨ op = 0x03#8 ∨ op = 0x04#8 ∨ op = 0x00#8 ∨ op = 0x05#8 ∨
      op.extractLsb' 1 7 = 0x03#7 ∨ op.extractLsb' 3 5 = 0x01#5 ∨ op.extractLsb' 4 4 = 0x01#4 ∨
      op.extractLsb' 5 3 = 0x01#3 ∨ op.extractLsb' 6 2 = 0x01#2 ∨ op.extractLsb' 7 1 = 0x01#1 := by
  simp only [byte_eq_iff, bits_eq_iff]
  omega

theorem decodeFields_of_reservedRow {op arg : Byte} {len : Half} {i : Instr} (h : ReservedRow op arg len i) :
    decodeFields op arg len = i := by
  cases h
  all_goals
    rename_i h hlo
    simp only [decodeFields, byte_eq_iff, bits_eq_iff] at h ⊢
    simp (disch := omega) only [if_neg, if_pos, hlo]

theorem ReservedRow.wf_encode {op arg : Byte} {len : Half} {i : Instr} (h : ReservedRow op arg len i) :
    i.wf = true ∧ encode i = .command (cmdWord op arg len) := by
  cases h
  all_goals
    rename_i h hlo
    subst hlo
    exact ⟨rfl, congrArg (fun o => Coded.command (cmdWord o arg len)) (join_own_low rfl rfl h)⟩

theorem ReservedRow.decodeFields_wf_encode {op arg : Byte} {len : Half} {i : Instr} (h : ReservedRow op arg len i) :
    (decodeFields op arg len).wf = true ∧ encode (decodeFields op arg len) = .command (cmdWord op arg len) := by
  rw [decodeFields_of_reservedRow h]
  exact h.wf_encode

/-! Command words. -/

theorem decode_cmdWord {op arg : Byte} {len : Half} {i : Instr} (h : decodeFields op arg len = i) :
    decode (.command (cmdWord op arg len)) = .ok i :=
  congrArg Except.ok ((decodeCommand_cmdWord op arg len).trans h)

theorem decodeFields_wf_encode (op arg : Byte) (len : Half) :
    (decodeFields op arg len).wf = true ∧ encode (decodeFields op arg len) = .command (cmdWord op arg len) := by
  obtain rfl | rfl | rfl | rfl | rfl | rfl | h | h | h | h | h | h := opcode_mem_rows op
  iterate 6 exact ⟨rfl, rfl⟩
  · exact (ReservedRow.row0607 h rfl).decodeFields_wf_encode
  · exact (ReservedRow.row080F h rfl).decodeFields_wf_encode
  · exact (ReservedRow.row101F h rfl).decodeFields_wf_encode
  · exact (ReservedRow.row203F h rfl).decodeFields_wf_encode
  · exact (ReservedRow.row407F h rfl).decodeFields_wf_encode
  · exact (ReservedRow.row80FF h rfl).decodeFields_wf_encode

/-! Byte pairs of the entropy-coded segment. -/

theorem isRstByte_joined (n : BitVec 3) : isRstByte (0xD0#8 ||| n.setWidth 8) = true :=
  beq_iff_eq.2 (joined_high 0xD0#8 n 5)

theorem join_isRstByte {b : Byte} (h : isRstByte b = true) : 0xD0#8 ||| (b.extractLsb' 0 3).setWidth 8 = b :=
  join_own_low rfl rfl (beq_iff_eq.1 h)

theorem decodePair_rst (n : BitVec 3) : decodePair true 0xFF#8 (0xD0#8 ||| n.setWidth 8) = .ok (.ecsRst n) := by
  simp [decodePair, isRstByte_joined, joined_low n]

theorem decodePair_marker {x : Byte} (h : x ≠ 0#8) : decodePair false 0xFF#8 x = .ok (.ecsMarker x) := by
  simp [decodePair, h]

theorem decodePair_wf_encode {atBoundary : Bool} {b0 b1 : Byte} {i : Instr} (h : decodePair atBoundary b0 b1 = .ok i) :
    i.wf = true ∧ encode i = .pair atBoundary b0 b1 := by
  unfold decodePair at h
  split_ifs at h with hff hboundary hrst hzero <;> cases h
  all_goals obtain rfl := not_not.1 hff
  · exact ⟨rfl, by rw [hboundary, encode, join_isRstByte hrst]⟩
  · exact ⟨rfl, by rw [Bool.eq_false_of_not_eq_true hboundary, encode, hzero]⟩
  · exact ⟨bne_iff_ne.2 hzero, by rw [Bool.eq_false_of_not_eq_true hboundary, encode]⟩

/-! Symbols of an AC table. -/

@[simp] theorem hiNibble_joinNibbles (hi lo : BitVec 4) : hiNibble (joinNibbles hi lo) = hi := by
  refine (joined_high _ lo 4).trans ?_
  ext i hlt
  simp [show 4 + i < 8 by omega, hlt]

@[simp] theorem loNibble_joinNibbles (hi lo : BitVec 4) : loNibble (joinNibbles hi lo) = lo := by
  refine joined_low lo (by decide) ?_
  ext i hlt
  simp [hlt]

theorem joinNibbles_own (b : Byte) : joinNibbles (hiNibble b) (loNibble b) = b :=
  eq_of_high_low (k := 4) (m := 4) rfl (hiNibble_joinNibbles ..) (loNibble_joinNibbles ..)

theorem decodeAc_runSize (r : BitVec 4) {s : BitVec 4} (h : s ≠ 0#4) : decodeAc (joinNibbles r s) = .acRunSize r s := by
  simp [decodeAc, h]

theorem decodeAc_illegalR0 {r : BitVec 4} (h0 : r ≠ 0#4) (h15 : r ≠ 15#4) :
    decodeAc (joinNibbles r 0#4) = .acIllegalR0 r := by
  simp [decodeAc, h0, h15]

theorem decodeAc_wf_encode (rs : Byte) : (decodeAc rs).wf = true ∧ encode (decodeAc rs) = .acSymbol rs := by
  have hrs := joinNibbles_own rs
  unfold decodeAc
  split_ifs with hs hr hr15
  · rw [hs, hr] at hrs
    exact ⟨rfl, congrArg Coded.acSymbol hrs⟩
  · rw [hs, hr15] at hrs
    exact ⟨rfl, congrArg Coded.acSymbol hrs⟩
  · rw [hs] at hrs
    exact ⟨by simp [Instr.wf, hr, hr15], congrArg Coded.acSymbol hrs⟩
  · exact ⟨bne_iff_ne.2 hs, congrArg Coded.acSymbol hrs⟩

/-- Settles O1: by the rows of the opcode table; a row's fixed part and its free bits are both read back. -/
theorem decodeOfEncodeIsTheInstruction : Obligations.DecodeOfEncodeIsTheInstruction := by
  intro i hwf
  cases i with
  | loadDqt arg len => exact decode_cmdWord rfl
  | loadDht arg len => exact decode_cmdWord rfl
  | loadSof arg len => exact decode_cmdWord rfl
  | startScan arg len => exact decode_cmdWord rfl
  | illegal00 arg len => exact decode_cmdWord rfl
  | illegal05 arg len => exact decode_cmdWord rfl
  | illegal0607 lo arg len =>
    exact decode_cmdWord (decodeFields_of_reservedRow (.row0607 (joined_high _ lo 7) (joined_low lo (by decide) rfl)))
  | illegal080F lo arg len =>
    exact decode_cmdWord (decodeFields_of_reservedRow (.row080F (joined_high _ lo 5) (joined_low lo (by decide) rfl)))
  | illegal101F lo arg len =>
    exact decode_cmdWord (decodeFields_of_reservedRow (.row101F (joined_high _ lo 4) (joined_low lo (by decide) rfl)))
  | illegal203F lo arg len =>
    exact decode_cmdWord (decodeFields_of_reservedRow (.row203F (joined_high _ lo 3) (joined_low lo (by decide) rfl)))
  | illegal407F lo arg len =>
    exact decode_cmdWord (decodeFields_of_reservedRow (.row407F (joined_high _ lo 2) (joined_low lo (by decide) rfl)))
  | illegal80FF lo arg len =>
    exact decode_cmdWord (decodeFields_of_reservedRow (.row80FF (joined_high _ lo 1) (joined_low lo (by decide) rfl)))
  | ecsStuffed => rfl
  | ecsRst n => exact decodePair_rst n
  | ecsMarker x => exact decodePair_marker (bne_iff_ne.1 hwf)
  | dcCategory t => rfl
  | acEob => rfl
  | acZrl => rfl
  | acRunSize r s => exact congrArg Except.ok (decodeAc_runSize r (bne_iff_ne.1 hwf))
  | acIllegalR0 r =>
    obtain ⟨h0, h15⟩ := Bool.and_eq_true_iff.1 hwf
    exact congrArg Except.ok (decodeAc_illegalR0 (bne_iff_ne.1 h0) (bne_iff_ne.1 h15))

/-- Settles O2: by the place where the word is met; in each the row that is read joins the word's own bits again. -/
theorem encodeOfDecodeIsTheWord : Obligations.EncodeOfDecodeIsTheWord := by
  intro c i h
  cases c with
  | command w =>
    obtain rfl := Except.ok.inj h
    have hw := decodeFields_wf_encode (opField w) (argField w) (lenField w)
    rwa [cmdWord_fields] at hw
  | pair atBoundary b0 b1 => exact decodePair_wf_encode h
  | dcSymbol t =>
    obtain rfl := Except.ok.inj h
    exact ⟨rfl, rfl⟩
  | acSymbol rs =>
    obtain rfl := Except.ok.inj h
    exact decodeAc_wf_encode rs

/-- Settles O3: by evaluating the decoders on the words. -/
theorem tableWordsDecode : Obligations.TableWordsDecode := by
  unfold Obligations.TableWordsDecode
  decide

end Sys2Proof
end

section
/-! SUPPORT. DONE and ERROR: the core stands still there, and of the host's accesses only a reset leaves them (R83, R87, R129,
R130, R137). -/

namespace Sys2Proof.Machine

/-- In DONE and ERROR the core does nothing (R129). -/
theorem coreTurn_terminal {s : State} (h : terminal s = true) : coreTurn s = .next s := by
  rcases (terminal_iff s).1 h with hs | hs <;> simp only [coreTurn, fetch, advance, hs]

/-- `u` is `s` but for OUT_BASE, the interrupt enables and event bits that were cleared. -/
structure OnlySettings (s u : State) : Prop where
  same : u = { s with
    outBase := u.outBase, doneIe := u.doneIe, errIe := u.errIe, doneEvt := u.doneEvt, errEvt := u.errEvt }
  done : u.doneEvt = true → s.doneEvt = true
  err  : u.errEvt = true → s.errEvt = true

theorem OnlySettings.refl (s : State) : OnlySettings s s := ⟨rfl, id, id⟩

/-- In DONE and ERROR a CMD or DATA write is dropped with no effect (R87). -/
theorem regWrite_dropped {o : Nat} (v : Word) {s : State} (ho : o = 0x14 ∨ o = 0x18) (h : terminal s = true) :
    regWrite o v s = some s := by
  rcases ho with rfl | rfl <;> exact if_pos h

/-- What a register write can do in DONE and ERROR: change a setting, or reset the core (R83, R87, R137). -/
theorem regWrite_terminal {o : Nat} {v : Word} {s u : State} (hs : terminal s = true) (h : regWrite o v s = some u) :
    OnlySettings s u ∨ (o = 4 ∧ v.getLsbD 0 = true) := by
  rcases regWrite_cases o v s with ⟨ho, e⟩ | ⟨ho, -⟩ | ⟨ho, -⟩ | ⟨-, e⟩ | ⟨-, e⟩ | ⟨-, e⟩ | ⟨-, e⟩
  case inr.inl =>
    obtain rfl := Option.some.inj ((regWrite_dropped v (.inl ho) hs).symm.trans h)
    exact .inl (.refl s)
  case inr.inr.inl =>
    obtain rfl := Option.some.inj ((regWrite_dropped v (.inr ho) hs).symm.trans h)
    exact .inl (.refl s)
  all_goals obtain rfl := Option.some.inj (e.symm.trans h)
  · split_ifs with hv
    · exact .inr ⟨ho, hv⟩
    · exact .inl (.refl s)
  · exact .inl ⟨rfl, id, id⟩
  · exact .inl ⟨rfl, fun hd => (Bool.and_eq_true_iff.1 hd).1, fun he => (Bool.and_eq_true_iff.1 he).1⟩
  · exact .inl ⟨rfl, id, id⟩
  · exact .inl (.refl s)

/-- What a turn may change of a state in DONE or ERROR, but by a reset: a setting, a byte that the host writes, and the record
of the host. -/
structure TerminalChanges (s t : State) : Prop where
  same : t = { s with
    outBase := t.outBase, doneIe := t.doneIe, errIe := t.errIe, doneEvt := t.doneEvt, errEvt := t.errEvt, mem := t.mem,
    indet := t.indet, hostOps := t.hostOps, stalled := t.stalled, reads := t.reads, freeCount := t.freeCount }
  done : t.doneEvt = true → s.doneEvt = true
  err  : t.errEvt = true → s.errEvt = true
  mem  : ∀ a, Memory.read t.mem a ≠ Memory.read s.mem a → ∃ v rest, s.hostOps = .memWrite (BitVec.ofNat 32 a) v :: rest

theorem TerminalChanges.of_settings {s u : State} (h : OnlySettings s u) : TerminalChanges s (hostDone u) := by
  obtain ⟨same, done, err⟩ := h
  have hmem : u.mem = s.mem := by rw [same]
  refine ⟨?_, done, err, fun a ha => absurd (congrArg (Memory.read · a) hmem) ha⟩
  rw [same]; rfl

/-- No region belongs to the core in DONE and ERROR (R55). -/
theorem not_coreOwns_terminal {s : State} (h : terminal s = true) (a : Nat) : ¬ CoreOwns s a := by
  rw [terminal_iff] at h
  rintro ⟨base, -, -, ⟨_, hq⟩ | ⟨_, _, hq⟩ | ⟨_, hq⟩ | ⟨_, hq, -⟩⟩ <;> simp [hq] at h

/-- A turn of the host in DONE or ERROR. -/
theorem hostStep_terminal {s t : State} (hs : terminal s = true) (h : HostStep s t) :
    TerminalChanges s t ∨ ∃ addr v rest, s.hostOps = .regWrite 4 addr v :: rest ∧
      (addr - s.platform.regBase).toNat = 4 ∧ v.getLsbD 0 = true := by
  cases h with
  | memWrites a v rest ho =>
    rw [hostMemWrite_not_owned v (not_coreOwns_terminal hs a.toNat)]
    refine .inl ⟨rfl, id, id, fun a' ha' => ⟨v, rest, ?_⟩⟩
    have haddr : a' = a.toNat := by
      by_contra hne
      exact ha' (Memory.read_write_other _ _ _ _ hne)
    rw [haddr, BitVec.ofNat_toNat, BitVec.setWidth_eq]
    exact ho
  | regWrites addr v rest u ho hu =>
    rcases regWrite_terminal hs hu with hset | ⟨hoff, hv⟩
    · exact .inl (.of_settings hset)
    · exact .inr ⟨addr, v, rest, ho, hoff, hv⟩
  | _ => exact .inl ⟨rfl, id, id, fun a ha => absurd rfl ha⟩

/-- Settles O58: by whose turn it is; the core's changes nothing, and the host's changes what `TerminalChanges` names or is a
reset. -/
theorem doneAndErrorAreLeftOnlyByReset : Obligations.DoneAndErrorAreLeftOnlyByReset := by
  intro s t hs h
  have hterm : terminal (afterTurn s) = true := (terminal_iff s).2 hs
  cases hn : nextTurn s with
  | core =>
    rw [step_core hn, coreTurn_terminal hterm] at h
    obtain rfl := Host.Outcome.next.inj h
    exact .inl ⟨rfl, id, id, fun a ha => absurd rfl ha, fun _ => rfl⟩
  | host =>
    rw [step_host hn] at h
    refine (hostStep_terminal hterm (hostTurn_step h)).imp (fun hc => ?_) fun hreset => .inr ⟨rfl, hreset⟩
    exact ⟨hc.same, hc.done, hc.err, fun a ha => ⟨rfl, hc.mem a ha⟩, nofun⟩
  | hwReset => exact .inr (.inl rfl)

end Sys2Proof.Machine
end

section
/-! SUPPORT. The front end's CMD and DATA writes (R84 to R88), and the reserved opcodes (R92). -/

namespace Sys2Proof.Machine

theorem terminal_eq_false {s : State} (hd : s.seq ≠ .done) (he : s.seq ≠ .error) : terminal s = false := by
  rw [← Bool.not_eq_true, terminal_iff]
  exact not_or.2 ⟨hd, he⟩

theorem fifoFull_iff (s : State) : fifoFull s = true ↔ fifoDepth s ≤ s.fifo.length := decide_eq_true_iff

theorem fifoFull_eq_false {s : State} (h : s.fifo.length < fifoDepth s) : fifoFull s = false :=
  decide_eq_false (Nat.not_le_of_lt h)

/-- A CMD write with room in the FIFO (R85). -/
theorem cmdWrite_appends (w : Word) {s : State} (ht : terminal s = false) (hf : fifoFull s = false) :
    cmdWrite w s = some (appendCmd w s) := by
  simp [cmdWrite, ht, hf]

/-- A CMD or DATA write that would append to a full FIFO stalls (R88). -/
theorem cmdWrite_stalls (w : Word) {s : State} (ht : terminal s = false) (hf : fifoFull s = true) :
    cmdWrite w s = none := by
  simp [cmdWrite, ht, hf]

theorem dataWrite_stalls (v : Word) {s : State} (ht : terminal s = false) (hf : fifoFull s = true)
    (hm : s.feMode ≠ .none) : dataWrite v s = none := by
  cases h : s.feMode with
  | none => exact absurd h hm
  | count => simp [dataWrite, ht, hf, h]
  | stream => simp [dataWrite, ht, hf, h]

/-- Settles O12: the write appends the entry, and sets the front end by LEN and OP. -/
theorem cmdWriteAppendsTheEntry : Obligations.CmdWriteAppendsTheEntry := by
  intro w s hd he hlen
  have hw := cmdWrite_appends w (terminal_eq_false hd he) (fifoFull_eq_false hlen)
  refine ⟨appendCmd w s, hw, rfl, rfl, rfl, fun hl => ?_, fun hl ho => ?_, fun hl ho => ?_, ?_⟩
  · exact if_pos hl
  · exact (if_neg (not_not.2 hl)).trans (if_pos ho)
  · exact (if_neg (not_not.2 hl)).trans (if_neg ho)
  · simp [appendCmd, opField, lenField]

/-- A DATA write in mode COUNT (R84, R86). -/
theorem dataWrite_counted (v : Word) {s : State} (ht : terminal s = false) (hf : fifoFull s = false)
    (hm : s.feMode = .count) : dataWrite v s = some (appendCounted (v.extractLsb' 0 8) s) := by
  simp [dataWrite, ht, hf, hm]

/-- A DATA write in mode STREAM (R84, R86). -/
theorem dataWrite_streamed (v : Word) {s : State} (ht : terminal s = false) (hf : fifoFull s = false)
    (hm : s.feMode = .stream) : dataWrite v s = some (appendStreamed (v.extractLsb' 0 8) s) := by
  simp [dataWrite, ht, hf, hm]

/-- A DATA write in mode NONE is dropped and noted (R86). -/
theorem dataWrite_none (v : Word) {s : State} (ht : terminal s = false) (hm : s.feMode = .none) :
    dataWrite v s = some { s with dropped := true } := by
  simp [dataWrite, ht, hm]

/-- The count of a counted payload reaches 0 with its last byte, and not before (R84). -/
theorem half_sub_one_eq_zero_iff (n : Half) : n - 1 = 0#16 ↔ n = 1#16 := sub_eq_zero

theorem appendCounted_feMode (b : Byte) (s : State) :
    (appendCounted b s).feMode =
      if s.feCount = 1#16 then (if s.feThenStream = true then .stream else .none) else .count := by
  simp only [appendCounted, half_sub_one_eq_zero_iff]

/-- A turn of the host whose write does not complete leaves it waiting (R88). -/
theorem step_stalls {s : State} {o : Nat} {v : Word} {rest : List HostOp} (hn : nextTurn s = .host) (ho : o < 256)
    (h4 : o % 4 = 0) (hops : s.hostOps = .regWrite 4 (s.platform.regBase + BitVec.ofNat 32 o) v :: rest)
    (hw : regWrite o v s = none) : step s = .next { s with sched := s.sched.tail, stalled := true } :=
  ((registerPortAccesses.2.1 s o rest hn ho h4).2 v hops).2 hw

/-- Settles O13: a write by the front end's mode, by DONE and ERROR, and by the room in the FIFO. -/
theorem dataWritesFollowTheModeDropOrStall : Obligations.DataWritesFollowTheModeDropOrStall := by
  intro v s
  refine ⟨fun hd he => ?modes, fun o ho => ⟨fun hterm => ?dropped, fun hd he hlen hmode => ?stalls⟩⟩
  case modes =>
    have ht := terminal_eq_false hd he
    refine ⟨dataWrite_none v ht, fun hm hlen => dataWrite_streamed v ht (fifoFull_eq_false hlen) hm, fun hm hlen => ?_⟩
    refine ⟨_, dataWrite_counted v ht (fifoFull_eq_false hlen) hm, rfl, rfl, rfl, fun hc => ?_, fun hc => ?_⟩
    · rw [appendCounted_feMode, if_neg hc]
    · rw [appendCounted_feMode, if_pos hc]
  case dropped => exact regWrite_dropped v ho ((terminal_iff s).2 hterm)
  case stalls =>
    have ht := terminal_eq_false hd he
    have hf := (fifoFull_iff s).2 hlen
    have hw : regWrite o v s = none := by
      rcases ho with rfl | rfl
      · exact cmdWrite_stalls v ht hf
      · exact dataWrite_stalls v ht hf (hmode rfl)
    refine ⟨hw, fun rest hn hops => step_stalls hn ?_ ?_ hops hw⟩ <;> rcases ho with rfl | rfl <;> decide

/-- The fixed part of a row's match value and its free bits have no bit in common. -/
theorem joined_eq_add {k : Nat} {fixed : Byte} (lo : BitVec k) (h : fixed.extractLsb' 0 k = 0#k) :
    fixed ||| lo.setWidth 8 = fixed + lo.setWidth 8 := by
  refine (BitVec.add_eq_or_of_and_eq_zero _ _ ?_).symm
  refine BitVec.eq_of_getLsbD_eq fun i hi => ?_
  by_cases hik : i < k
  · have hbit := congrArg (·.getLsbD i) h
    simp [hik] at hbit
    simp [hbit]
  · simp [BitVec.getLsbD_of_ge lo i (Nat.le_of_not_lt hik)]

theorem opcodeOf_reservedRow {op arg : Byte} {len : Half} {i : Instr} (h : ReservedRow op arg len i) :
    opcodeOf i = op := by
  cases h
  all_goals
    rename_i h hlo
    subst hlo
    exact join_own_low rfl rfl h

theorem exec_reservedRow {op arg : Byte} {len : Half} {i : Instr} (h : ReservedRow op arg len i) (s : State) :
    exec i s = .next (illegalCommand op s) := by
  rw [← opcodeOf_reservedRow h]
  cases h <;> rfl

/-- The word of a reserved opcode is one of the eight rows, and its meaning is R92's. -/
theorem exec_decodeFields_reserved {op : Byte} (arg : Byte) (len : Half) (s : State)
    (h : op ∉ [0x01#8, 0x02#8, 0x03#8, 0x04#8]) : exec (decodeFields op arg len) s = .next (illegalCommand op s) := by
  have row : ∀ {i}, ReservedRow op arg len i → exec (decodeFields op arg len) s = .next (illegalCommand op s) := by
    intro i hi
    rw [decodeFields_of_reservedRow hi]
    exact exec_reservedRow hi s
  rcases opcode_mem_rows op with rfl | rfl | rfl | rfl | rfl | rfl | h | h | h | h | h | h
  iterate 4 exact absurd (by decide) h
  iterate 2 rfl
  · exact row (.row0607 h rfl)
  · exact row (.row080F h rfl)
  · exact row (.row101F h rfl)
  · exact row (.row203F h rfl)
  · exact row (.row407F h rfl)
  · exact row (.row80FF h rfl)

/-- A reserved opcode in IDLE changes what R127 names and CUR_OP; no region belongs to the core then (R55). -/
theorem illegalCommand_idle {s : State} (hs : s.seq = .idle) (op : Byte) :
    illegalCommand op s = { s with
      seq := .error, curOp := op, errClass := 1, errCause := 0x01, errOp := op, fifo := [], feMode := .none, feCount := 0,
      feThenStream := false, errEvt := true } := by
  have hnone : indetAfterAbort (takeCommand op s) = s.indet := by
    simp [indetAfterAbort, owned, scanBase, takeCommand, hs]
  rw [illegalCommand, raise, hnone]
  rfl

/-- Settles O14: each row is `illegalCommand` of its opcode, and DATA writes in ERROR are dropped. -/
theorem reservedOpcodesRaiseIllegalCommand : Obligations.ReservedOpcodesRaiseIllegalCommand := by
  intro s arg len hs failed
  have hfailed : ∀ op, .next (illegalCommand op s) = failed op := fun op => congrArg _ (illegalCommand_idle hs op)
  have hjoined : ∀ {k : Nat} {fixed : Byte} (lo : BitVec k), fixed.extractLsb' 0 k = 0#k →
      .next (illegalCommand (fixed ||| lo.setWidth 8) s) = failed (fixed + lo.setWidth 8) := by
    intro k fixed lo h
    rw [joined_eq_add lo h, hfailed]
  refine ⟨hfailed _, hfailed _, fun lo => hjoined lo rfl, fun lo => hjoined lo rfl, fun lo => hjoined lo rfl,
    fun lo => hjoined lo rfl, fun lo => hjoined lo rfl, fun lo => hjoined lo rfl, fun op hop => ?reserved,
    fun op t v ht => ?dropped⟩
  case reserved => rw [decodeCommand_cmdWord, exec_decodeFields_reserved arg len s hop, hfailed]
  case dropped =>
    obtain rfl := Host.Outcome.next.inj ht
    exact regWrite_dropped v (.inr rfl) rfl

end Sys2Proof.Machine
end

section
/-! SUPPORT. The frame of the commands (R91, R92, R95 to R98): what none of them changes, and what only one of them does. -/

namespace Sys2Proof.Machine

/-- The opcode of the command that waits at a position of its payload. -/
def LoadPos.opcode : LoadPos → Byte
  | .dqtId _ | .dqtCoef _ _ _ => 0x01
  | .dhtId _ | .dhtBits _ _ _ _ | .dhtVals _ _ _ _ _ => 0x02
  | .sofHeader _ _ | .sofComp _ _ => 0x03
  | .sosCount _ _ | .sosComp _ _ _ | .sosTail _ _ => 0x04

/-- Where a payload is read, it is the payload of the command `op`. -/
def ReadsFor (op : Byte) : Seq → Prop
  | .payload l => l.opcode = op
  | _ => True

theorem dqtNext_readsFor (rem : Nat) (s : State) : ReadsFor 0x01 (dqtNext rem s).seq := by
  unfold dqtNext
  split_ifs <;> trivial

theorem dhtNext_readsFor (rem : Nat) (s : State) : ReadsFor 0x02 (dhtNext rem s).seq := by
  unfold dhtNext
  split_ifs <;> trivial

/-- A payload byte leads to no other command's payload. -/
theorem loadByte_readsFor (l : LoadPos) (b : Byte) (s : State) : ReadsFor l.opcode (loadByte l b s).seq := by
  cases l with
  | dqtId rem => simp only [loadByte, dqtId]; split_ifs <;> trivial
  | dqtCoef rem tq q =>
    simp only [loadByte, dqtCoef]
    split_ifs
    · trivial
    · trivial
    · exact dqtNext_readsFor _ _
  | dhtId rem => simp only [loadByte, dhtId]; split_ifs <;> trivial
  | dhtBits rem tc th bits =>
    simp only [loadByte, dhtBits, dhtChecked]
    split_ifs
    · trivial
    · trivial
    · trivial
    · trivial
    · exact dhtNext_readsFor _ _
    · trivial
  | dhtVals rem tc th bits vals =>
    simp only [loadByte, dhtVals]
    split_ifs
    · trivial
    · exact dhtNext_readsFor _ _
  | sofHeader len got => simp only [loadByte, sofHeader]; split_ifs <;> trivial
  | sofComp j got => simp only [loadByte, sofComponent, sofEnd]; split_ifs <;> trivial
  | sosCount len ob => simp only [loadByte, sosCount]; split_ifs <;> trivial
  | sosComp j ob got => simp only [loadByte, sosComponent]; split_ifs <;> trivial
  | sosTail ob got => simp only [loadByte, sosEnd]; split_ifs <;> trivial

/-- What the start of a scan writes (R98, R99). -/
structure ScanRegs where
  ob      : Word
  pred    : Vector Int 3
  cur     : Byte
  nbits   : Nat
  p       : Nat
  m       : Nat
  rst     : Nat
  mcuDone : Nat

/-- The registers that the start of a scan writes, of a state. -/
def scanRegsOf (s : State) : ScanRegs :=
  { ob := s.ob, pred := s.pred, cur := s.cur, nbits := s.nbits, p := s.p, m := s.m, rst := s.rst, mcuDone := s.mcuDone }

/-- What the command `op` keeps between its dispatch and its end. -/
structure CommandKeeps (op : Byte) (s t : State) : Prop where
  same : t = { s with
    seq := t.seq, fifo := t.fifo, feMode := t.feMode, feCount := t.feCount, feThenStream := t.feThenStream, qt := t.qt,
    qtValid := t.qtValid, htDc := t.htDc, htAc := t.htAc, htDcValid := t.htDcValid, htAcValid := t.htAcValid,
    frame := t.frame, td := t.td, ta := t.ta, ob := t.ob, pred := t.pred, cur := t.cur, nbits := t.nbits, p := t.p,
    m := t.m, rst := t.rst, mcuDone := t.mcuDone, errEvt := t.errEvt, errClass := t.errClass, errCause := t.errCause,
    errOp := t.errOp, indet := t.indet, clobbered := t.clobbered }
  qt : op ≠ 0x01#8 → t.qt = s.qt ∧ t.qtValid = s.qtValid
  ht : op ≠ 0x02#8 → t.htDc = s.htDc ∧ t.htAc = s.htAc ∧ t.htDcValid = s.htDcValid ∧ t.htAcValid = s.htAcValid
  frame : op ≠ 0x03#8 → t.frame = s.frame
  selectors : op ≠ 0x04#8 → t.td = s.td ∧ t.ta = s.ta
  scan : (op ≠ 0x04#8 ∨ ∀ q, t.seq ≠ .scan q) → scanRegsOf t = scanRegsOf s

/-- The sequencer, the FIFO, the front end, the error latch and the ranges of any value are no command's to keep. -/
theorem CommandKeeps.of_sequencing {op : Byte} {s t : State} (h : t = { s with
    seq := t.seq, fifo := t.fifo, feMode := t.feMode, feCount := t.feCount, feThenStream := t.feThenStream,
    errEvt := t.errEvt, errClass := t.errClass, errCause := t.errCause, errOp := t.errOp, indet := t.indet,
    clobbered := t.clobbered }) : CommandKeeps op s t := by
  rw [h]
  exact ⟨rfl, fun _ => ⟨rfl, rfl⟩, fun _ => ⟨rfl, rfl, rfl, rfl⟩, fun _ => rfl, fun _ => ⟨rfl, rfl⟩, fun _ => rfl⟩

theorem CommandKeeps.trans {op : Byte} {s u t : State} (h : CommandKeeps op s u) (h' : CommandKeeps op u t)
    (hu : op ≠ 0x04#8 ∨ ∀ q, u.seq ≠ .scan q) : CommandKeeps op s t where
  same := by rw [h'.same, h.same]
  qt hop := by
    obtain ⟨e1, e2⟩ := h'.qt hop
    obtain ⟨f1, f2⟩ := h.qt hop
    exact ⟨e1.trans f1, e2.trans f2⟩
  ht hop := by
    obtain ⟨e1, e2, e3, e4⟩ := h'.ht hop
    obtain ⟨f1, f2, f3, f4⟩ := h.ht hop
    exact ⟨e1.trans f1, e2.trans f2, e3.trans f3, e4.trans f4⟩
  frame hop := (h'.frame hop).trans (h.frame hop)
  selectors hop := by
    obtain ⟨e1, e2⟩ := h'.selectors hop
    obtain ⟨f1, f2⟩ := h.selectors hop
    exact ⟨e1.trans f1, e2.trans f2⟩
  scan hop := (h'.scan hop).trans (h.scan hu)

theorem nextUnit_keeps {op : Byte} {s t : State} (h : NextUnit s t) : CommandKeeps op s t := by
  cases h <;> exact .of_sequencing rfl

theorem storeQt_keeps (tq : Fin 4) (q : Vector Byte 64) (s : State) : CommandKeeps 0x01 s (storeQt tq q s) :=
  ⟨rfl, fun h => absurd rfl h, fun _ => ⟨rfl, rfl, rfl, rfl⟩, fun _ => rfl, fun _ => ⟨rfl, rfl⟩, fun _ => rfl⟩

theorem storeHt_keeps (tc : TableClass) (th : Fin 4) (t : HuffTable) (s : State) :
    CommandKeeps 0x02 s (storeHt tc th t s) := by
  cases tc <;>
    exact ⟨rfl, fun _ => ⟨rfl, rfl⟩, fun h => absurd rfl h, fun _ => rfl, fun _ => ⟨rfl, rfl⟩, fun _ => rfl⟩

/-- LOAD_SOF writes the frame registers. -/
theorem CommandKeeps.of_frame {s t : State} (f : Frame) (h : CommandKeeps 0x03 { s with frame := f } t) :
    CommandKeeps 0x03 s t :=
  have hframe : CommandKeeps 0x03 s { s with frame := f } :=
    ⟨rfl, fun _ => ⟨rfl, rfl⟩, fun _ => ⟨rfl, rfl, rfl, rfl⟩, fun h => absurd rfl h, fun _ => ⟨rfl, rfl⟩, fun _ => rfl⟩
  hframe.trans h (.inl (by decide))

theorem sofEnd_keeps (s : State) : CommandKeeps 0x03 s (sofEnd s) := by
  unfold sofEnd
  simp only
  split_ifs
  · exact .of_frame (withMaxima (effectiveSampling s.frame)) (.of_sequencing rfl)
  · exact .of_frame (withGeometry (withMaxima (effectiveSampling s.frame))) (.of_sequencing rfl)

/-- A payload byte keeps what its command keeps. -/
theorem loadStep_keeps {s t : State} {l : LoadPos} (h : LoadStep s l t) : CommandKeeps l.opcode s t := by
  cases h with
  | dqtStored _ _ _ _ _ _ _ hnext => exact (storeQt_keeps _ _ s).trans (nextUnit_keeps hnext) (.inl (by decide))
  | dhtNoSymbols _ _ _ _ _ _ _ _ _ hnext =>
    exact (storeHt_keeps _ _ _ s).trans (nextUnit_keeps hnext) (.inl (by decide))
  | dhtStored _ _ _ _ _ _ _ _ hnext => exact (storeHt_keeps _ _ _ s).trans (nextUnit_keeps hnext) (.inl (by decide))
  | sofRejected len got f c => exact .of_frame f (.of_sequencing rfl)
  | sofAccepted len got f => exact .of_frame f (.of_sequencing rfl)
  | sofStored j got comp =>
    exact .of_frame { s.frame with comps := s.frame.comps.setIfInBounds j comp } (.of_sequencing rfl)
  | sofEnded j got comp =>
    exact .of_frame { s.frame with comps := s.frame.comps.setIfInBounds j comp } (sofEnd_keeps _)
  | sosNamed | sosAllNamed =>
    exact ⟨rfl, fun _ => ⟨rfl, rfl⟩, fun _ => ⟨rfl, rfl, rfl, rfl⟩, fun _ => rfl, fun h => absurd rfl h, fun _ => rfl⟩
  | scanStarts =>
    refine ⟨rfl, fun _ => ⟨rfl, rfl⟩, fun _ => ⟨rfl, rfl, rfl, rfl⟩, fun _ => rfl, fun _ => ⟨rfl, rfl⟩, ?_⟩
    rintro (hop | hseq)
    · exact absurd rfl hop
    · exact absurd rfl (hseq _)
  | _ => exact .of_sequencing rfl

/-- What a command keeps, however many bytes of its payload are there. -/
theorem runLoad_keeps {op : Byte} {s u : State} (fuel : Nat) (hkeeps : CommandKeeps op s u) (hreads : ReadsFor op u.seq) :
    CommandKeeps op s (runLoad fuel u) := by
  have not_scan : ∀ {v : State} {l : LoadPos}, v.seq = .payload l → ∀ q, v.seq ≠ .scan q := by
    intro v l hl q hq
    cases hl.symm.trans hq
  refine (runLoad_induct (P := fun v => CommandKeeps op s v ∧ ReadsFor op v.seq) ?raised ?byte fuel u
    ⟨hkeeps, hreads⟩).1
  case raised =>
    rintro c v l hl ⟨hv, -⟩
    exact ⟨hv.trans (.of_sequencing rfl) (.inr (not_scan hl)), trivial⟩
  case byte =>
    rintro v l b rest hl - ⟨hv, hop⟩
    rw [hl] at hop
    obtain rfl : l.opcode = op := hop
    have htaken : CommandKeeps l.opcode v { v with fifo := rest } := .of_sequencing rfl
    refine ⟨?_, loadByte_readsFor l b _⟩
    exact hv.trans (htaken.trans (loadStep_keeps (loadByte_step l b _)) (.inr (not_scan (l := l) hl)))
      (.inr (not_scan hl))

theorem loadDqt_keeps (len : Nat) (s : State) : CommandKeeps 0x01 s (loadDqt len s) := by
  unfold loadDqt
  split_ifs
  · exact .of_sequencing rfl
  · exact runLoad_keeps _ (nextUnit_keeps (dqtNext_nextUnit len s)) (dqtNext_readsFor len s)

theorem loadDht_keeps (len : Nat) (s : State) : CommandKeeps 0x02 s (loadDht len s) := by
  unfold loadDht
  split_ifs
  · exact .of_sequencing rfl
  · exact runLoad_keeps _ (nextUnit_keeps (dhtNext_nextUnit len s)) (dhtNext_readsFor len s)

theorem loadSof_keeps (arg : Byte) (len : Nat) (s : State) : CommandKeeps 0x03 s (loadSof arg len s) := by
  unfold loadSof
  cases sofKind arg with
  | variant => exact .of_sequencing rfl
  | notSof => exact .of_sequencing rfl
  | baseline =>
    simp only
    split_ifs
    · exact .of_sequencing rfl
    · exact .of_sequencing rfl
    · exact runLoad_keeps _ (.of_sequencing rfl) rfl

theorem startScan_keeps (len : Nat) (ob : Word) (s : State) : CommandKeeps 0x04 s (startScan len ob s) := by
  unfold startScan
  split_ifs
  · exact .of_sequencing rfl
  · exact .of_sequencing rfl
  · exact runLoad_keeps _ (.of_sequencing rfl) rfl

/-- Every command notes its opcode at its dispatch, and keeps from then on what `CommandKeeps` names. -/
theorem exec_command_keeps {i : Instr} {s t : State} {w : Word} (hi : encode i = .command w) (h : exec i s = .next t) :
    CommandKeeps (opcodeOf i) (takeCommand (opcodeOf i) s) t := by
  cases i with
  | loadDqt arg len =>
    obtain rfl := Host.Outcome.next.inj h
    exact loadDqt_keeps _ _
  | loadDht arg len =>
    obtain rfl := Host.Outcome.next.inj h
    exact loadDht_keeps _ _
  | loadSof arg len =>
    obtain rfl := Host.Outcome.next.inj h
    exact loadSof_keeps _ _ _
  | startScan arg len =>
    obtain rfl := Host.Outcome.next.inj h
    exact startScan_keeps _ _ _
  | ecsStuffed | ecsRst | ecsMarker | dcCategory | acEob | acZrl | acRunSize | acIllegalR0 => cases hi
  | _ =>
    obtain rfl := Host.Outcome.next.inj h
    exact .of_sequencing rfl

/-- Settles O40: the dispatch changes only the FIFO and CUR_OP, and what follows keeps what `CommandKeeps` names. -/
theorem commandsKeepTheRest : Obligations.CommandsKeepTheRest := by
  intro i s t w hi h
  obtain ⟨same, qt, ht, frame, selectors, scan⟩ := exec_command_keeps hi h
  refine ⟨?_, ?_, ?_, ?_, ?_, ?_, ?_, ?_, ?_, ?_, ?_, ?_, ?_, ?_, ?_, ?_, qt, ht, frame, selectors, fun hstart => ?_⟩
  case refine_17 =>
    obtain ⟨ob, pred, cur, nbits, p, m, rst, mcuDone⟩ := ScanRegs.mk.inj (scan hstart)
    exact ⟨ob, pred, cur, nbits, p, m, rst, mcuDone⟩
  all_goals rw [same]; rfl

end Sys2Proof.Machine
end

section
/-! SUPPORT. The instruction that the core meets (R91, R101, R109 to R111), and where it waits (R90, R136). -/

namespace Sys2Proof.Machine

/-! The instruction that is met. -/

theorem coreTurn_exec {s : State} {i : Instr} (h : fetch s = some i) : coreTurn s = exec i s := by
  rw [coreTurn, h]

theorem coreTurn_advance {s : State} (h : fetch s = none) : coreTurn s = .next (advance s) := by
  rw [coreTurn, h]

/-- A command entry at the head in IDLE (R91). -/
theorem fetch_command {s : State} {op arg : Byte} {len : Half} {ob : Word} {rest : List FifoEntry} (hs : s.seq = .idle)
    (hf : s.fifo = .cmd op arg len ob :: rest) : fetch s = some (decodeCommand (cmdWord op arg len)) := by
  simp only [fetch, hs, fetchCommand, hf]

theorem fetch_scan {s : State} {q : ScanPos} (hs : s.seq = .scan q) : fetch s = fetchScan q s := by
  simp only [fetch, hs]

/-- At the start of an MCU but the first a restart marker may stand (R109). -/
theorem fetch_mcuStart {s : State} (hs : s.seq = .scan .mcuStart) :
    fetch s = if s.m = 0 then none else fetchPair true s := by
  rw [fetch_scan hs, fetchScan]

/-- A byte pair is met where a bit is needed and `cur` is used up (R101). -/
theorem fetch_needsBit {s : State} {q : ScanPos} (hs : s.seq = .scan q) (hq : q.needsBit = true) (hn : s.nbits = 0) :
    fetch s = fetchPair false s := by
  rw [fetch_scan hs]
  cases q <;> simp_all [fetchScan, ScanPos.needsBit]

theorem fetchPair_data {s : State} {b0 b1 : Byte} {rest : List FifoEntry} (atBoundary : Bool)
    (hf : s.fifo = .data b0 :: .data b1 :: rest) : fetchPair atBoundary s = (decodePair atBoundary b0 b1).toOption := by
  rw [fetchPair, hf]

theorem decodePair_bit (b1 : Byte) :
    decodePair false 0xFF#8 b1 = .ok (if b1 = 0#8 then .ecsStuffed else .ecsMarker b1) := by
  rw [decodePair]
  split_ifs <;> simp_all

/-- Settles O4: by the place where the instruction is met. -/
theorem stepRunsTheInstructionMet : Obligations.StepRunsTheInstructionMet := by
  intro s hn
  have hstep : ∀ i, fetch (afterTurn s) = some i → step s = exec i (afterTurn s) := by
    intro i hi
    rw [step_core hn, coreTurn_exec hi]
  refine ⟨fun op arg len ob rest hs hf => ?command, fun t hs => ?dc, fun rs hs => ?ac, fun n rest hs hm hf => ?restart,
    fun q b1 rest hs hq hbits hf => ?bit⟩
  case command => exact hstep _ (fetch_command (s := afterTurn s) hs hf)
  case dc => exact hstep _ (fetch_scan (s := afterTurn s) hs)
  case ac => exact hstep _ (fetch_scan (s := afterTurn s) hs)
  case restart =>
    refine hstep _ ?_
    rw [fetch_mcuStart (s := afterTurn s) hs, afterTurn_m, if_neg hm, fetchPair_data (s := afterTurn s) true hf,
      decodePair_rst]
    rfl
  case bit =>
    refine hstep _ ?_
    rw [fetch_needsBit (s := afterTurn s) hs hq hbits, fetchPair_data (s := afterTurn s) false hf, decodePair_bit]
    rfl

/-! The core waits. -/

theorem bytesMissing_iff (s : State) : bytesMissing s = true ↔ s.fifo = [] ∨ s.fifo = [.data 0xFF#8] := by
  unfold bytesMissing
  split <;> simp_all

/-- The bytes that decide are not there: no pair is met, and `peek_byte` holds (R72, R90). -/
theorem fetchPair_missing {s : State} (atBoundary : Bool) (h : bytesMissing s = true) : fetchPair atBoundary s = none := by
  rw [bytesMissing_iff] at h
  rcases h with h | h <;> rw [fetchPair, h]

theorem fillByte_hold_iff (s : State) : fillByte s = .hold ↔ bytesMissing s = true := by
  rw [bytesMissing_iff]
  match hf : s.fifo with
  | [] => simp [fillByte, peekByte, hf]
  | .cmd _ _ _ _ :: _ => simp [fillByte, peekByte, hf, FifoEntry.isData]
  | [.data b] => by_cases hb : b = 0xFF#8 <;> simp [fillByte, peekByte, hf, FifoEntry.isData, FifoEntry.byte, hb]
  | .data b :: .cmd _ _ _ _ :: _ =>
    by_cases hb : b = 0xFF#8 <;> simp [fillByte, peekByte, hf, FifoEntry.isData, FifoEntry.byte, hb]
  | .data b :: .data b1 :: _ =>
    by_cases hb : b = 0xFF#8 <;> by_cases hb1 : b1 = 0#8 <;>
      simp [fillByte, peekByte, hf, FifoEntry.isData, FifoEntry.byte, hb, hb1]

theorem mcuStartStep_waits {s : State} (hm : s.m ≠ 0) (h : bytesMissing s = true) : mcuStartStep s = s := by
  rw [bytesMissing_iff] at h
  rcases h with h | h <;> simp [mcuStartStep, hm, peekByte, h, FifoEntry.isData, FifoEntry.byte]

/-- A coded bit is needed and `cur` is used up: the core's turn is `fill_byte`, the pair met or not (R101). -/
theorem coreTurn_fill {s : State} {q : ScanPos} (hs : s.seq = .scan q) (hq : q.needsBit = true) (hn : s.nbits = 0) :
    coreTurn s = .next (fillStep s) := by
  have hadvance : advance s = fillStep s := by simp only [advance, hs, scanStep, hq, hn]; rfl
  have hfetch := fetch_needsBit hs hq hn
  match hf : s.fifo with
  | .data b0 :: .data b1 :: rest =>
    rw [fetchPair_data false hf] at hfetch
    by_cases hb0 : b0 = 0xFF#8
    · subst hb0
      rw [decodePair_bit] at hfetch
      rw [coreTurn_exec hfetch]
      by_cases hb1 : b1 = 0#8 <;>
        simp [hb1, exec, execEcsStuffed, execEcsMarker, fillStep, fillByte, peekByte, hf, FifoEntry.isData, FifoEntry.byte]
    · rw [decodePair, if_pos hb0] at hfetch
      rw [coreTurn_advance hfetch, hadvance]
  | [] | [.data _] | .cmd _ _ _ _ :: _ | .data _ :: .cmd _ _ _ _ :: _ =>
    rw [fetchPair, hf] at hfetch
    rw [coreTurn_advance hfetch, hadvance]

/-- Where the core is not ready, it waits: it changes nothing (R90, R129, R136). -/
theorem coreTurn_waits {s : State} (h : coreReady s = false) : coreTurn s = .next s := by
  cases hs : s.seq with
  | idle =>
    have hf : s.fifo = [] := by simpa [coreReady, hs] using h
    simp [coreTurn, fetch, fetchCommand, advance, idleStep, hs, hf]
  | payload l =>
    have hf : s.fifo = [] := by simpa [coreReady, hs] using h
    simp [coreTurn, fetch, advance, hs, runLoad_empty _ hf]
  | done => exact coreTurn_terminal ((terminal_iff s).2 (.inl hs))
  | error => exact coreTurn_terminal ((terminal_iff s).2 (.inr hs))
  | scan q =>
    by_cases hq : q = .mcuStart
    · subst hq
      obtain ⟨hm, hmissing⟩ : s.m ≠ 0 ∧ bytesMissing s = true := by simpa [coreReady, hs] using h
      have hfetch : fetch s = none := by rw [fetch_mcuStart hs, if_neg hm, fetchPair_missing true hmissing]
      have hadvance : advance s = mcuStartStep s := by simp only [advance, hs]; rfl
      rw [coreTurn_advance hfetch, hadvance, mcuStartStep_waits hm hmissing]
    · obtain ⟨⟨hneeds, hn⟩, hmissing⟩ : (q.needsBit = true ∧ s.nbits = 0) ∧ bytesMissing s = true := by
        cases q <;> simp_all [coreReady]
      rw [coreTurn_fill hs hneeds hn, fillStep, (fillByte_hold_iff s).2 hmissing]

end Sys2Proof.Machine
end

section
/-! SUPPORT. The core moves on: a step that does not wait takes entries off the FIFO, fills `cur`, or leaves its position (R91,
R101, R108). -/

namespace Sys2Proof.Machine

theorem ne_of_fifo_taken {s t : State} (hs : s.fifo ≠ []) (h : t.fifo <:+ s.fifo.tail) : t ≠ s := by
  rintro rfl
  have hlen := h.length_le
  have hpos := List.length_pos_iff.2 hs
  rw [List.length_tail] at hlen
  omega

theorem ne_of_seq {s t : State} {q : Seq} (hs : s.seq = q) (h : t.seq ≠ q) : t ≠ s := by
  rintro rfl
  exact h hs

theorem CoreLeaves.fifo_suffix {s t : State} (h : CoreLeaves s t) : t.fifo <:+ s.fifo := by
  obtain ⟨-, -, -, -, -, -, hfifo, -⟩ := coreLeaves_keeps h
  exact hfifo

theorem loadByte_fifo {s : State} {l : LoadPos} (b : Byte) (hs : s.seq = .payload l) :
    (loadByte l b s).fifo <:+ s.fifo :=
  (loadStep_leaves (terminal_payload hs) (loadByte_step l b s)).fifo_suffix

theorem runLoad_fifo (fuel : Nat) (s : State) : (runLoad fuel s).fifo <:+ s.fifo := by
  refine runLoad_induct (P := fun u => u.fifo <:+ s.fifo) (fun _ _ _ _ _ => List.nil_suffix) ?_ fuel s List.suffix_rfl
  intro u l b rest hl hf hu
  have hload := loadByte_fifo (s := { u with fifo := rest }) b hl
  exact hload.trans ((hf ▸ List.suffix_cons _ _ : rest <:+ u.fifo).trans hu)

/-- A command removes its entry, checks its operands, and reads its payload (R91). -/
theorem exec_command_start (op arg : Byte) (len : Half) (s : State) :
    ∃ op' u fuel, LoadStart (takeCommand op' s) u ∧ exec (decodeFields op arg len) s = .next (runLoad fuel u) := by
  by_cases hop : op ∈ [0x01#8, 0x02#8, 0x03#8, 0x04#8]
  · simp only [List.mem_cons, List.not_mem_nil, or_false] at hop
    rcases hop with rfl | rfl | rfl | rfl
    · obtain ⟨u, fuel, hu, e⟩ := loadDqt_start len.toNat (takeCommand 0x01 s)
      exact ⟨_, u, fuel, hu, congrArg _ e⟩
    · obtain ⟨u, fuel, hu, e⟩ := loadDht_start len.toNat (takeCommand 0x02 s)
      exact ⟨_, u, fuel, hu, congrArg _ e⟩
    · obtain ⟨u, fuel, hu, e⟩ := loadSof_start arg len.toNat (takeCommand 0x03 s)
      exact ⟨_, u, fuel, hu, congrArg _ e⟩
    · obtain ⟨u, fuel, hu, e⟩ := startScan_start len.toNat (headOb s) (takeCommand 0x04 s)
      exact ⟨_, u, fuel, hu, congrArg _ e⟩
  · exact ⟨op, _, 0, .raised .illegalCommand, exec_decodeFields_reserved arg len s hop⟩

/-- A DATA entry at the head in IDLE (R91 step 1). -/
theorem coreTurn_idleData {s : State} {b : Byte} {rest : List FifoEntry} (hs : s.seq = .idle)
    (hf : s.fifo = .data b :: rest) : coreTurn s = .next (raise .sequence { s with curOp := 0#8 }) := by
  simp only [coreTurn, fetch, fetchCommand, advance, idleStep, hs, hf]

theorem coreTurn_idle_moves {s : State} (hs : s.seq = .idle) (hf : s.fifo ≠ []) : ∃ t, coreTurn s = .next t ∧ t ≠ s := by
  match hfifo : s.fifo with
  | [] => exact absurd hfifo hf
  | .data b :: rest => exact ⟨_, coreTurn_idleData hs hfifo, ne_of_seq hs nofun⟩
  | .cmd op arg len ob :: rest =>
    obtain ⟨op', u, fuel, hu, he⟩ := exec_command_start op arg len s
    refine ⟨runLoad fuel u, ?_, ne_of_fifo_taken hf ((runLoad_fifo fuel u).trans ?_)⟩
    · rw [coreTurn_exec (fetch_command hs hfifo), decodeCommand_cmdWord, he]
    · exact (loadStart_leaves (s := takeCommand op' s) (terminal_idle hs) hu).fifo_suffix

theorem resumeFuel_pos (s : State) {n : Nat} (h : 0 < n) : ∃ k, resumeFuel s n = k + 1 := by
  unfold resumeFuel
  cases s.pace with
  | whole => exact ⟨n - 1, by simp only; omega⟩
  | single => exact ⟨0, rfl⟩

theorem coreTurn_payload {s : State} {l : LoadPos} (hs : s.seq = .payload l) :
    coreTurn s = .next (runLoad (resumeFuel s s.fifo.length) s) := by
  simp only [coreTurn, fetch, advance, hs]

theorem coreTurn_payload_moves {s : State} {l : LoadPos} (hs : s.seq = .payload l) (hf : s.fifo ≠ []) :
    ∃ t, coreTurn s = .next t ∧ t ≠ s := by
  refine ⟨_, coreTurn_payload hs, ?_⟩
  obtain ⟨k, hk⟩ := resumeFuel_pos s (List.length_pos_iff.2 hf)
  rw [hk]
  match hfifo : s.fifo with
  | [] => exact absurd hfifo hf
  | .cmd op a n o :: rest =>
    rw [runLoad_cmd k hs hfifo]
    exact ne_of_seq hs nofun
  | .data b :: rest =>
    rw [runLoad_byte k hs hfifo]
    refine ne_of_fifo_taken hf ((runLoad_fifo k _).trans ?_)
    rw [hfifo]
    exact loadByte_fifo (s := { s with fifo := rest }) b hs

theorem fillStep_ne {s : State} {q : ScanPos} (hs : s.seq = .scan q) (hn : s.nbits = 0) (h : bytesMissing s = false) :
    fillStep s ≠ s := by
  rcases fillByte_cases s with e | ⟨c, e⟩ | ⟨u, e, -, hbits, -⟩
  · rw [(fillByte_hold_iff s).1 e] at h
    cases h
  · rw [fillStep, e]
    exact ne_of_seq hs nofun
  · rw [fillStep, e]
    intro he
    have hsame : u.nbits = s.nbits := congrArg State.nbits he
    omega

/-- At an MCU boundary the core's turn is that of the scan program, a restart marker met or not (R109). -/
theorem coreTurn_mcuStart {s : State} (hs : s.seq = .scan .mcuStart) : coreTurn s = .next (mcuStartStep s) := by
  have hadvance : advance s = mcuStartStep s := by simp only [advance, hs]; rfl
  have hfetch := fetch_mcuStart hs
  by_cases hm : s.m = 0
  · rw [if_pos hm] at hfetch
    rw [coreTurn_advance hfetch, hadvance]
  rw [if_neg hm] at hfetch
  match hf : s.fifo with
  | .data b0 :: .data b1 :: rest =>
    rw [fetchPair_data true hf, decodePair] at hfetch
    by_cases hb0 : b0 = 0xFF#8
    · by_cases hb1 : isRstByte b1 = true
      · have hrestart : mcuStartStep s = takeRestart s := by
          simp [mcuStartStep, hm, peekByte, hf, FifoEntry.isData, FifoEntry.byte, hb0, hb1]
        rw [if_neg (not_not.2 hb0), if_pos rfl, if_pos hb1] at hfetch
        rw [coreTurn_exec hfetch, hrestart]
        rfl
      · rw [if_neg (not_not.2 hb0), if_pos rfl, if_neg hb1] at hfetch
        rw [coreTurn_advance hfetch, hadvance]
    · rw [if_pos hb0] at hfetch
      rw [coreTurn_advance hfetch, hadvance]
  | [] | [.data _] | .cmd _ _ _ _ :: _ | .data _ :: .cmd _ _ _ _ :: _ =>
    rw [fetchPair, hf] at hfetch
    rw [coreTurn_advance hfetch, hadvance]

theorem mcuStartStep_moves {s : State} (h : s.m = 0 ∨ bytesMissing s = false) :
    (mcuStartStep s).seq ≠ .scan .mcuStart := by
  unfold mcuStartStep
  split_ifs with hm
  · nofun
  have hmissing := h.resolve_left hm
  match hf : s.fifo with
  | [] => simp [bytesMissing, hf] at hmissing
  | .cmd _ _ _ _ :: _ => simp [peekByte, hf, FifoEntry.isData]
  | [.data b] =>
    have hb : b ≠ 0xFF#8 := by simpa [bytesMissing, hf] using hmissing
    simp [peekByte, hf, FifoEntry.isData, FifoEntry.byte, hb, beginMcu]
  | .data b :: .cmd _ _ _ _ :: _ =>
    by_cases hb : b = 0xFF#8 <;> simp [peekByte, hf, FifoEntry.isData, FifoEntry.byte, hb, beginMcu]
  | .data b :: .data b1 :: _ =>
    by_cases hb : b = 0xFF#8
    · cases hb1 : isRstByte b1 <;>
        simp [peekByte, hf, FifoEntry.isData, FifoEntry.byte, hb, hb1, beginMcu, takeRestart]
    · simp [peekByte, hf, FifoEntry.isData, FifoEntry.byte, hb, beginMcu]

/-- Where `cur` has a bit, it is read (R102). -/
theorem readBit_takeBit {s : State} (hn : s.nbits ≠ 0) : readBit s = .got (takeBit s).1 (takeBit s).2 := if_neg hn

theorem readBitsLoop_zero (fuel v : Nat) (s : State) : readBitsLoop fuel 0 v s = .ended v s := by
  cases fuel <;> rfl

/-- The loop of `read_bits` takes a bit that is there (R103). -/
theorem readBitsLoop_takes {s u : State} {fuel n v n' v' : Nat} (hn : s.nbits ≠ 0)
    (h : readBitsLoop (fuel + 1) n v s = .waiting n' v' u) : n' < n := by
  cases n with
  | zero => cases h
  | succ n =>
    simp only [readBitsLoop, readBit_takeBit hn] at h
    have hlt := (2 * v + (takeBit s).1).lt_two_pow_self
    rcases readBitsLoop_cases fuel n _ _ (takeBit s).2 hlt with
      ⟨_, _, e, -⟩ | ⟨_, _, _, e, -, hle, -⟩ | ⟨_, _, e, -⟩ <;> rw [e] at h <;> cases h
    omega

theorem huffLoop_waiting_le {t : HuffTable} {fuel l c l' c' : Nat} {s u : State}
    (h : huffLoop t fuel l c s = .waiting l' c' u) : l ≤ l' := by
  induction fuel generalizing l c s with
  | zero =>
    cases h
    exact le_rfl
  | succ fuel ih =>
    simp only [huffLoop] at h
    split at h
    · cases h
      exact le_rfl
    · cases h
    · split at h
      · cases h
      · split_ifs at h
        exact (Nat.le_succ l).trans (ih h)

/-- The loop of `huff_decode` takes a bit that is there (R104). -/
theorem huffLoop_takes {t : HuffTable} {fuel l c l' c' : Nat} {s u : State} (hn : s.nbits ≠ 0)
    (h : huffLoop t (fuel + 1) l c s = .waiting l' c' u) : l < l' := by
  simp only [huffLoop, readBit_takeBit hn] at h
  split at h
  · cases h
  · split_ifs at h
    exact huffLoop_waiting_le h

theorem dcFinish_seq (t v : Nat) (s : State) :
    (dcFinish t v s).seq = .error ∨ (dcFinish t v s).seq = .scan (.acHuff 0 0) := by
  unfold dcFinish
  simp only
  split_ifs
  · exact .inl rfl
  · exact .inr rfl

theorem acNext_seq (k : Nat) (s : State) :
    (acNext k s).seq = .scan .transform ∨ (acNext k s).seq = .scan (.acHuff 0 0) := by
  unfold acNext
  split_ifs
  · exact .inl rfl
  · exact .inr rfl

/-- Where the extra bits of a DC symbol lead. -/
theorem dcExtra_seq (fuel t n v : Nat) (s : State) :
    (dcExtra fuel t n v s).seq = .error ∨ (dcExtra fuel t n v s).seq = .scan (.acHuff 0 0) ∨
      ∃ n' v' u, readBitsLoop fuel n v s = .waiting n' v' u ∧ (dcExtra fuel t n v s).seq = .scan (.dcBits t n' v') := by
  unfold dcExtra
  rcases readBitsLoop_cases fuel n v v s v.lt_two_pow_self with ⟨v', u, e, -⟩ | ⟨n', v', u, e, -⟩ | ⟨c, u, e, -⟩ <;> rw [e]
  · exact (dcFinish_seq t v' u).imp_right .inl
  · exact .inr (.inr ⟨n', v', u, rfl, rfl⟩)
  · exact .inl rfl

/-- Where the extra bits of a run-size symbol lead. -/
theorem acExtra_seq (fuel sz n v : Nat) (s : State) :
    (acExtra fuel sz n v s).seq = .error ∨ (acExtra fuel sz n v s).seq = .scan .transform ∨
      (acExtra fuel sz n v s).seq = .scan (.acHuff 0 0) ∨
      ∃ n' v' u, readBitsLoop fuel n v s = .waiting n' v' u ∧ (acExtra fuel sz n v s).seq = .scan (.acBits sz n' v') := by
  unfold acExtra
  rcases readBitsLoop_cases fuel n v v s v.lt_two_pow_self with ⟨v', u, e, -⟩ | ⟨n', v', u, e, -⟩ | ⟨c, u, e, -⟩ <;> rw [e]
  · exact .inr ((acNext_seq (u.k + 1) _).imp_right .inl)
  · exact .inr (.inr (.inr ⟨n', v', u, rfl, rfl⟩))
  · exact .inl rfl

theorem dcDescend_moves {s : State} {fuel l c : Nat} (hn : s.nbits ≠ 0) :
    (dcDescend (fuel + 1) l c s).seq ≠ .scan (.dcHuff l c) := by
  unfold dcDescend
  rcases huffLoop_cases (dcTable s) (fuel + 1) l c s with ⟨t, u, e, -⟩ | ⟨l', c', u, e, -⟩ | ⟨x, u, e, -⟩ <;> rw [e]
  · nofun
  · have hlt := huffLoop_takes hn e
    intro hseq
    cases hseq
    omega
  · nofun

theorem acDescend_moves {s : State} {fuel l c : Nat} (hn : s.nbits ≠ 0) :
    (acDescend (fuel + 1) l c s).seq ≠ .scan (.acHuff l c) := by
  unfold acDescend
  rcases huffLoop_cases (acTable s) (fuel + 1) l c s with ⟨t, u, e, -⟩ | ⟨l', c', u, e, -⟩ | ⟨x, u, e, -⟩ <;> rw [e]
  · nofun
  · have hlt := huffLoop_takes hn e
    intro hseq
    cases hseq
    omega
  · nofun

/-- A resumed read of extra bits takes one: `cur` has a bit, or none is left to read. -/
theorem resumed_takes {s u : State} {n v n' v' : Nat} (hn : n = 0 ∨ s.nbits ≠ 0)
    (h : readBitsLoop (resumeFuel s n) n v s = .waiting n' v' u) : n' < n := by
  rcases Nat.eq_zero_or_pos n with rfl | hpos
  · rw [readBitsLoop_zero] at h
    cases h
  · obtain ⟨k, hk⟩ := resumeFuel_pos s hpos
    rw [hk] at h
    exact readBitsLoop_takes (hn.resolve_left (by omega)) h

theorem dcBits_moves {s : State} {t n v : Nat} (hn : n = 0 ∨ s.nbits ≠ 0) :
    (dcExtra (resumeFuel s n) t n v s).seq ≠ .scan (.dcBits t n v) := by
  rcases dcExtra_seq (resumeFuel s n) t n v s with e | e | ⟨n', v', u, hwait, e⟩ <;> rw [e]
  · nofun
  · nofun
  · have hlt := resumed_takes hn hwait
    intro hseq
    cases hseq
    omega

theorem acBits_moves {s : State} {sz n v : Nat} (hn : n = 0 ∨ s.nbits ≠ 0) :
    (acExtra (resumeFuel s n) sz n v s).seq ≠ .scan (.acBits sz n v) := by
  rcases acExtra_seq (resumeFuel s n) sz n v s with e | e | e | ⟨n', v', u, hwait, e⟩ <;> rw [e]
  · nofun
  · nofun
  · nofun
  · have hlt := resumed_takes hn hwait
    intro hseq
    cases hseq
    omega

theorem exec_dcSymbol_moves (t : Byte) (s : State) :
    ∃ u, exec (decodeDc t) s = .next u ∧ u.seq ≠ .scan (.dcSymbol t) := by
  refine ⟨_, rfl, ?_⟩
  split_ifs
  · nofun
  · rcases dcExtra_seq (dispatchFuel s t.toNat) t.toNat t.toNat 0 s with e | e | ⟨n', v', u, -, e⟩ <;> rw [e] <;> nofun

theorem exec_acSymbol_moves (rs : Byte) (s : State) :
    ∃ u, exec (decodeAc rs) s = .next u ∧ u.seq ≠ .scan (.acSymbol rs) := by
  unfold decodeAc
  split_ifs
  · exact ⟨_, rfl, nofun⟩
  · refine ⟨_, rfl, ?_⟩
    split_ifs
    · nofun
    · rcases acNext_seq (s.k + 16) s with e | e <;> rw [e] <;> nofun
  · exact ⟨_, rfl, nofun⟩
  · refine ⟨_, rfl, ?_⟩
    split_ifs
    · nofun
    · nofun
    · rcases acExtra_seq (dispatchFuel s (loNibble rs).toNat) (loNibble rs).toNat (loNibble rs).toNat 0
        { s with k := s.k + (hiNibble rs).toNat } with e | e | e | ⟨n', v', u, -, e⟩ <;> rw [e] <;> nofun

theorem transformBlock_moves (s : State) : (transformBlock s).seq ≠ .scan .transform := by
  unfold transformBlock
  simp only
  split_ifs <;> nofun

theorem nextPixel_ne (s : State) (i : Nat) (c : Fin 3) : nextPixel s i ≠ .commit i c := by
  unfold nextPixel
  split_ifs
  · intro h
    cases h
  · nofun

theorem nextChannel_ne (s : State) (i : Nat) (c : Fin 3) : nextChannel s i c ≠ .commit i c := by
  unfold nextChannel
  split_ifs
  · exact nextPixel_ne s i c
  · intro h
    have hc : c + 1 = c := (ScanPos.commit.inj h).2
    exact absurd hc (by fin_cases c <;> decide)

theorem commitStep_moves (i : Nat) (c : Fin 3) (s : State) : (commitStep i c s).seq ≠ .scan (.commit i c) := by
  unfold commitStep memWrite
  split_ifs
  · nofun
  · exact fun h => nextChannel_ne s i c (Seq.scan.inj h)
  · exact fun h => nextPixel_ne s i c (Seq.scan.inj h)

theorem mcuEndStep_moves (s : State) : (mcuEndStep s).seq ≠ .scan .mcuEnd := by
  unfold mcuEndStep
  split_ifs <;> nofun

/-- Where the scan program meets no instruction and needs no byte, it goes on from its position. -/
theorem scanStep_moves {s : State} {q : ScanPos} (hq : q ≠ .mcuStart) (hbits : q.needsBit = true → s.nbits ≠ 0)
    (hfetch : fetchScan q s = none) : (scanStep q s).seq ≠ .scan q := by
  have hfill : ¬ (q.needsBit && s.nbits == 0) = true := by simpa using hbits
  unfold scanStep
  rw [if_neg hfill]
  cases q with
  | mcuStart => exact absurd rfl hq
  | dcSymbol t => cases hfetch
  | acSymbol rs => cases hfetch
  | dcHuff l c =>
    obtain ⟨k, hk⟩ := resumeFuel_pos s (n := 16) (by decide)
    simp only [hk]
    exact dcDescend_moves (hbits rfl)
  | acHuff l c =>
    obtain ⟨k, hk⟩ := resumeFuel_pos s (n := 16) (by decide)
    simp only [hk]
    exact acDescend_moves (hbits rfl)
  | dcBits t n v => exact dcBits_moves (or_iff_not_imp_left.2 fun hn => hbits (bne_iff_ne.2 hn))
  | acBits sz n v => exact acBits_moves (or_iff_not_imp_left.2 fun hn => hbits (bne_iff_ne.2 hn))
  | transform => exact transformBlock_moves s
  | commit i c => exact commitStep_moves i c s
  | mcuEnd => exact mcuEndStep_moves s

theorem coreTurn_scan_moves {s : State} {q : ScanPos} (hs : s.seq = .scan q) (h : coreReady s = true) :
    ∃ t, coreTurn s = .next t ∧ t ≠ s := by
  by_cases hstart : q = .mcuStart
  · subst hstart
    refine ⟨_, coreTurn_mcuStart hs, ne_of_seq hs (mcuStartStep_moves ?_)⟩
    simpa [coreReady, hs] using h
  by_cases hfill : q.needsBit = true ∧ s.nbits = 0
  · obtain ⟨hneeds, hn⟩ := hfill
    refine ⟨_, coreTurn_fill hs hneeds hn, fillStep_ne hs hn ?_⟩
    cases q <;> simp_all [coreReady]
  have hbits : q.needsBit = true → s.nbits ≠ 0 := not_and.1 hfill
  cases hfetch : fetchScan q s with
  | none =>
    refine ⟨_, coreTurn_advance ((fetch_scan hs).trans hfetch), ?_⟩
    have hadvance : advance s = scanStep q s := by simp only [advance, hs]
    rw [hadvance]
    exact ne_of_seq hs (scanStep_moves hstart hbits hfetch)
  | some i =>
    rw [coreTurn_exec ((fetch_scan hs).trans hfetch)]
    cases q with
    | dcSymbol t =>
      obtain rfl := Option.some.inj hfetch
      obtain ⟨u, hu, hseq⟩ := exec_dcSymbol_moves t s
      exact ⟨u, hu, ne_of_seq hs hseq⟩
    | acSymbol rs =>
      obtain rfl := Option.some.inj hfetch
      obtain ⟨u, hu, hseq⟩ := exec_acSymbol_moves rs s
      exact ⟨u, hu, ne_of_seq hs hseq⟩
    | mcuStart => exact absurd rfl hstart
    | _ => simp_all [fetchScan, ScanPos.needsBit]

/-- Where the core is ready, it moves on (R91, R108). -/
theorem coreTurn_moves {s : State} (h : coreReady s = true) : ∃ t, coreTurn s = .next t ∧ t ≠ s := by
  cases hs : s.seq with
  | idle => exact coreTurn_idle_moves hs (by simpa [coreReady, hs] using h)
  | payload l => exact coreTurn_payload_moves hs (by simpa [coreReady, hs] using h)
  | scan q => exact coreTurn_scan_moves hs h
  | done => simp [coreReady, hs] at h
  | error => simp [coreReady, hs] at h

/-- Settles O59: by whether the core is ready. -/
theorem coreWaitsOrMovesOn : Obligations.CoreWaitsOrMovesOn := by
  intro s
  refine ⟨coreTurn_waits, coreTurn_moves, fun b rest hs hf => ⟨coreTurn_idleData hs hf, ?_⟩⟩
  exact ⟨rfl, rfl, rfl, rfl, rfl, rfl, rfl, rfl, rfl⟩

end Sys2Proof.Machine
end

section
/-! SUPPORT. A symbol whose extra bits are not all there (R90, R103, R110, R111, R128): the loop of `read_bits` goes on where it
waited, and a scan position does not matter to it. -/

namespace Sys2Proof.Machine

open Sys2Proof.Spec

/-! What later entries add. -/

/-- Once as many bits may be read as there are to read, more makes no difference. -/
theorem readBitsLoop_fuel {n fuel : Nat} (h : n ≤ fuel) (v : Nat) (s : State) :
    readBitsLoop fuel n v s = readBitsLoop n n v s := by
  induction n generalizing fuel v s with
  | zero => rw [readBitsLoop_zero, readBitsLoop_zero]
  | succ n ih =>
    obtain ⟨fuel, rfl⟩ : ∃ k, fuel = k + 1 := ⟨fuel - 1, by omega⟩
    simp only [readBitsLoop, ih (Nat.le_of_succ_le_succ h)]

/-- A read that waits has used `cur` up. -/
theorem nbits_of_readBit_hold {s : State} (h : readBit s = .hold) : s.nbits = 0 := by
  by_contra hn
  rw [readBit_takeBit hn] at h
  cases h

/-- A loop that waited goes on, with later entries, as if they had been there at once. -/
theorem readBitsLoop_later {fuel n v n' v' : Nat} {s w : State} (later : List FifoEntry) (hn : n ≤ fuel)
    (h : readBitsLoop fuel n v s = .waiting n' v' w) :
    readBitsLoop fuel n v (withLater s later) = readBitsLoop n' n' v' (withLater w later) ∧ w.nbits = 0 ∧
      0 < n' := by
  induction fuel generalizing n v s with
  | zero =>
    obtain rfl := Nat.le_zero.1 hn
    cases h
  | succ fuel ih =>
    cases n with
    | zero => cases h
    | succ n =>
      rcases readBit_cases s with e | ⟨c, e⟩ | ⟨bit, u, e, -⟩ <;> simp only [readBitsLoop, e] at h
      · cases h
        exact ⟨readBitsLoop_fuel hn _ _, nbits_of_readBit_hold e, Nat.succ_pos n⟩
      · cases h
      · have hmore : readBit (withLater s later) = .got bit (withLater u later) := readBit_more e later
        have hnext := ih (Nat.le_of_succ_le_succ hn) h
        simp only [readBitsLoop, hmore]
        exact hnext

/-! The reader does not see at which position of the scan it is used. -/

/-- The result of a read, its state at the scan position `q`. -/
def Got.atPos {α : Type} (q : ScanPos) : Got α → Got α
  | .got a s => .got a (scanAt q s)
  | .hold => .hold
  | .raised s => .raised s

/-- The result of the loop of `read_bits`, its state at the scan position `q`. -/
def Bits.atPos (q : ScanPos) : Bits → Bits
  | .ended v s => .ended v (scanAt q s)
  | .waiting n v s => .waiting n v (scanAt q s)
  | .raised s => .raised s

theorem raise_scanAt {s : State} {q : ScanPos} (hs : s.seq = .scan q) (c : Cause) (q' : ScanPos) :
    raise c (scanAt q' s) = raise c s := by
  simp [raise, scanAt, indetAfterAbort, owned, scanBase, hs]

theorem peekByte_scanAt (i : Nat) (q : ScanPos) (s : State) : peekByte i (scanAt q s) = peekByte i s := rfl

theorem fillByte_scanAt {s : State} {q : ScanPos} (hs : s.seq = .scan q) (q' : ScanPos) :
    fillByte (scanAt q' s) = (fillByte s).atPos q' := by
  simp only [fillByte, peekByte_scanAt, raise_scanAt hs]
  cases peekByte 0 s with
  | hold => rfl
  | sequence => rfl
  | byte b0 =>
    simp only
    split_ifs
    · rfl
    · cases peekByte 1 s with
      | hold => rfl
      | sequence => rfl
      | byte b1 =>
        simp only
        split_ifs <;> rfl

theorem readBit_scanAt {s : State} {q : ScanPos} (hs : s.seq = .scan q) (q' : ScanPos) :
    readBit (scanAt q' s) = (readBit s).atPos q' := by
  simp only [readBit, scanAt_nbits, fillByte_scanAt hs]
  split_ifs
  · cases fillByte s <;> rfl
  · rfl

/-- What the reader leaves stands at the same scan position. -/
theorem ReaderMoved.seq {s u : State} (h : ReaderMoved u s) : u.seq = s.seq := by
  rw [h.same.1]

theorem readBitsLoop_scanAt {s : State} {q : ScanPos} (hs : s.seq = .scan q) (q' : ScanPos) (fuel n v : Nat) :
    readBitsLoop fuel n v (scanAt q' s) = (readBitsLoop fuel n v s).atPos q' := by
  induction fuel generalizing n v s with
  | zero => cases n <;> rfl
  | succ fuel ih =>
    cases n with
    | zero => rfl
    | succ n =>
      simp only [readBitsLoop, readBit_scanAt hs]
      rcases readBit_cases s with e | ⟨c, e⟩ | ⟨bit, u, e, -, hu⟩ <;> simp only [e, Got.atPos]
      · rfl
      · rfl
      · exact ih (hu.seq.trans hs) _ _

/-! A symbol with extra bits: where it waits for them, and what it does once they are there. -/

/-- What becomes of the loop over a symbol's extra bits: `finish` with their value, or waiting at `pos`. -/
def afterBits (finish : Nat → State → State) (pos : Nat → Nat → ScanPos) : Bits → State
  | .ended v s => finish v s
  | .waiting n v s => scanAt (pos n v) s
  | .raised s => s

theorem dcExtra_eq (fuel t n v : Nat) (s : State) :
    dcExtra fuel t n v s = afterBits (dcFinish t) (.dcBits t) (readBitsLoop fuel n v s) := by
  unfold dcExtra
  cases readBitsLoop fuel n v s <;> rfl

theorem acExtra_eq (fuel sz n v : Nat) (s : State) :
    acExtra fuel sz n v s = afterBits (acFinish sz) (.acBits sz) (readBitsLoop fuel n v s) := by
  unfold acExtra
  cases readBitsLoop fuel n v s <;> rfl

/-- What DC symbols and run-size symbols have in common: they need bits as long as some are left to read, read all of them in one
step, and end alike from every scan position. -/
structure ExtraBits (finish : Nat → State → State) (pos : Nat → Nat → ScanPos) : Prop where
  needsBit : ∀ n v, (pos n v).needsBit = (n != 0)
  resumes  : ∀ (n v : Nat) (s : State), s.pace = .whole → s.seq = .scan (pos n v) → s.nbits ≠ 0 →
    coreTurn s = .next (afterBits finish pos (readBitsLoop n n v s))
  anyPos   : ∀ (v : Nat) (s : State) (q q' : ScanPos), s.seq = .scan q → finish v (scanAt q' s) = finish v s

theorem resumeFuel_whole {s : State} (h : s.pace = .whole) (n : Nat) : resumeFuel s n = n := by
  rw [resumeFuel, h]

theorem dispatchFuel_whole {s : State} (h : s.pace = .whole) (n : Nat) : dispatchFuel s n = n := by
  rw [dispatchFuel, h]

theorem dcFinish_scanAt (t v : Nat) {s : State} {q : ScanPos} (hs : s.seq = .scan q) (q' : ScanPos) :
    dcFinish t v (scanAt q' s) = dcFinish t v s := by
  unfold dcFinish
  rw [raise_scanAt hs]
  rfl

theorem dcExtraBits (t : Nat) : ExtraBits (dcFinish t) (.dcBits t) where
  needsBit _ _ := rfl
  resumes n v s hpace hs hn := by
    have hfill : ((ScanPos.dcBits t n v).needsBit && s.nbits == 0) = false := by simp [hn]
    have hfetch : fetch s = none := by simp [fetch_scan hs, fetchScan, hn]
    rw [coreTurn_advance hfetch, ← dcExtra_eq]
    simp only [advance, hs, scanStep, hfill, resumeFuel_whole hpace]
    rfl
  anyPos v s q q' hs := dcFinish_scanAt t v hs q'

theorem acExtraBits (sz : Nat) : ExtraBits (acFinish sz) (.acBits sz) where
  needsBit _ _ := rfl
  resumes n v s hpace hs hn := by
    have hfill : ((ScanPos.acBits sz n v).needsBit && s.nbits == 0) = false := by simp [hn]
    have hfetch : fetch s = none := by simp [fetch_scan hs, fetchScan, hn]
    rw [coreTurn_advance hfetch, ← acExtra_eq]
    simp only [advance, hs, scanStep, hfill, resumeFuel_whole hpace]
    rfl
  anyPos v s q q' _ := rfl

section
variable {finish : Nat → State → State} {pos : Nat → Nat → ScanPos} (hx : ExtraBits finish pos)
include hx

/-- A symbol's extra bits lead to the same state from every scan position. -/
theorem ExtraBits.afterBits_scanAt {s : State} {q : ScanPos} (hs : s.seq = .scan q) (q' : ScanPos) (fuel n v : Nat) :
    afterBits finish pos (readBitsLoop fuel n v (scanAt q' s)) = afterBits finish pos (readBitsLoop fuel n v s) := by
  rw [readBitsLoop_scanAt hs]
  rcases readBitsLoop_cases fuel n v v s v.lt_two_pow_self with
    ⟨v', u, e, -, hu⟩ | ⟨n', v', u, e, -⟩ | ⟨c, u, e, -⟩ <;> rw [e]
  · exact hx.anyPos v' u q q' (hu.seq.trans hs)
  · rfl
  · rfl

/-- Two turns of the core where bits are waited for: the next byte, then the rest (R101, R103, log 3). -/
theorem ExtraBits.coreTurns_two {n v : Nat} {s : State} (hpace : s.pace = .whole) (hs : s.seq = .scan (pos n v))
    (hn : 0 < n) (hbits : s.nbits = 0) : coreTurns 2 s = afterBits finish pos (readBitsLoop n n v s) := by
  have hneeds : (pos n v).needsBit = true := by rw [hx.needsBit, bne_iff_ne]; omega
  have hfirst := coreTurn_fill hs hneeds hbits
  obtain ⟨n, rfl⟩ : ∃ k, n = k + 1 := ⟨n - 1, by omega⟩
  rcases fillByte_cases s with e | ⟨c, e⟩ | ⟨u, e, hu, hu8, -⟩
  · have hread : readBit s = .hold := by simp only [readBit, hbits, if_true, e]
    have hstay : scanAt (pos (n + 1) v) s = s := by rw [scanAt, ← hs]
    rw [fillStep, e] at hfirst
    simp only [coreTurns, hfirst, readBitsLoop, hread, afterBits, hstay]
  · have hread : readBit s = .raised (raise c s) := by simp only [readBit, hbits, if_true, e]
    have hterm : terminal (raise c s) = true := rfl
    rw [fillStep, e] at hfirst
    simp only [coreTurns, hfirst, coreTurn_terminal hterm, readBitsLoop, hread, afterBits]
  · have hu0 : u.nbits ≠ 0 := by omega
    have hread : readBit s = readBit u := by simp only [readBit, hbits, if_true, e, hu0, if_false]
    have hpace' : u.pace = .whole := by rw [hu.1]; exact hpace
    have hs' : u.seq = .scan (pos (n + 1) v) := by rw [hu.1]; exact hs
    rw [fillStep, e] at hfirst
    have hsecond := hx.resumes (n + 1) v u hpace' hs' hu0
    simp only [coreTurns, hfirst, hsecond, readBitsLoop, hread, readBit_takeBit hu0]

/-- A symbol that waits for extra bits ends, two turns after later entries have come, where it would have ended had they been
there at once (R90, R128). -/
theorem ExtraBits.resume_later {fuel n v n' v' : Nat} {s w : State} {q : ScanPos} (later : List FifoEntry)
    (hpace : s.pace = .whole) (hs : s.seq = .scan q) (hn : n ≤ fuel)
    (h : readBitsLoop fuel n v s = .waiting n' v' w) :
    afterBits finish pos (readBitsLoop fuel n v (withLater s later)) =
      coreTurns 2 (withLater (scanAt (pos n' v') w) later) := by
  obtain ⟨hlater, hbits, hpos⟩ := readBitsLoop_later later hn h
  have hmoved : ReaderMoved w s := by
    rcases readBitsLoop_cases fuel n v v s v.lt_two_pow_self with
      ⟨_, _, e, -⟩ | ⟨_, _, _, e, -, -, -, hw⟩ | ⟨_, _, e, -⟩ <;> rw [e] at h <;> cases h
    exact hw
  have hwpace : w.pace = .whole := by rw [hmoved.same.1]; exact hpace
  have hwseq : (withLater w later).seq = .scan q := hmoved.seq.trans hs
  have hmove : withLater (scanAt (pos n' v') w) later = scanAt (pos n' v') (withLater w later) := rfl
  have htwo := hx.coreTurns_two (s := scanAt (pos n' v') (withLater w later)) hwpace rfl hpos hbits
  rw [hlater, hmove, htwo]
  exact (hx.afterBits_scanAt hwseq _ _ _ _).symm

end

/-! The two kinds of symbols. -/

/-- A DC symbol of an accepted category (R110). -/
theorem exec_dcCategory {s : State} {t : Byte} (hpace : s.pace = .whole) (ht : t.toNat ≤ 11) :
    exec (.dcCategory t) s = .next (afterBits (dcFinish t.toNat) (.dcBits t.toNat) (readBitsLoop t.toNat t.toNat 0 s)) := by
  rw [← dcExtra_eq, exec, execDcCategory, if_neg (Nat.not_lt.2 ht), dispatchFuel_whole hpace]

/-- A run-size symbol of an accepted size whose run stays in the block (R111). -/
theorem exec_acRunSize {s : State} {r sz : BitVec 4} (hpace : s.pace = .whole) (hsz : sz.toNat ≤ 10)
    (hk : s.k + r.toNat ≤ 63) :
    exec (.acRunSize r sz) s = .next (afterBits (acFinish sz.toNat) (.acBits sz.toNat)
      (readBitsLoop sz.toNat sz.toNat 0 { s with k := s.k + r.toNat })) := by
  rw [← acExtra_eq, exec, execAcRunSize, if_neg (Nat.not_lt.2 hsz), if_neg (Nat.not_lt.2 hk), dispatchFuel_whole hpace]

/-- A DC symbol that waits for extra bits is of an accepted category, and its loop over them waits. -/
theorem waits_of_dcCategory {s u : State} {t : Byte} (hpace : s.pace = .whole) (h : exec (.dcCategory t) s = .next u)
    (hwait : ∃ n v, u.seq = .scan (.dcBits t.toNat n v)) :
    t.toNat ≤ 11 ∧ ∃ n v w, readBitsLoop t.toNat t.toNat 0 s = .waiting n v w ∧ u = scanAt (.dcBits t.toNat n v) w := by
  obtain ⟨n, v, hseq⟩ := hwait
  by_cases ht : t.toNat ≤ 11
  · rw [exec_dcCategory hpace ht] at h
    obtain rfl := Host.Outcome.next.inj h
    refine ⟨ht, ?_⟩
    rw [← dcExtra_eq] at hseq
    rcases dcExtra_seq t.toNat t.toNat t.toNat 0 s with e | e | ⟨n', v', w, e, -⟩
    · cases e.symm.trans hseq
    · cases e.symm.trans hseq
    · exact ⟨n', v', w, e, by rw [e]; rfl⟩
  · obtain rfl := Host.Outcome.next.inj h
    rw [if_pos (Nat.lt_of_not_le ht)] at hseq
    cases hseq

/-- A run-size symbol that waits for extra bits is accepted, and its loop over them waits. -/
theorem waits_of_acRunSize {s u : State} {r sz : BitVec 4} (hpace : s.pace = .whole)
    (h : exec (.acRunSize r sz) s = .next u) (hwait : ∃ n v, u.seq = .scan (.acBits sz.toNat n v)) :
    sz.toNat ≤ 10 ∧ s.k + r.toNat ≤ 63 ∧ ∃ n v w,
      readBitsLoop sz.toNat sz.toNat 0 { s with k := s.k + r.toNat } = .waiting n v w ∧
        u = scanAt (.acBits sz.toNat n v) w := by
  obtain ⟨n, v, hseq⟩ := hwait
  by_cases hsz : sz.toNat ≤ 10
  · by_cases hk : s.k + r.toNat ≤ 63
    · rw [exec_acRunSize hpace hsz hk] at h
      obtain rfl := Host.Outcome.next.inj h
      refine ⟨hsz, hk, ?_⟩
      rw [← acExtra_eq] at hseq
      rcases acExtra_seq sz.toNat sz.toNat sz.toNat 0 { s with k := s.k + r.toNat } with e | e | e | ⟨n', v', w, e, -⟩
      · cases e.symm.trans hseq
      · cases e.symm.trans hseq
      · cases e.symm.trans hseq
      · exact ⟨n', v', w, e, by rw [e]; rfl⟩
    · obtain rfl := Host.Outcome.next.inj h
      rw [if_neg (Nat.not_lt.2 hsz), if_pos (Nat.lt_of_not_le hk)] at hseq
      cases hseq
  · obtain rfl := Host.Outcome.next.inj h
    rw [if_pos (Nat.lt_of_not_le hsz)] at hseq
    cases hseq

/-- What is there of a symbol's extra bits is taken, and the rest waited for (R90, R101). -/
theorem readBitsLoop_takes_all {s : State} {bytes left : List Byte} {n : Nat}
    (hf : s.fifo = dataEntries (stuffed bytes ++ left)) (hleft : left = [] ∨ left = [0xFF#8])
    (hn : (codedBits s).length < n) :
    ∃ u, readBitsLoop n n 0 s = .waiting (n - (codedBits s).length) (bitsValue (codedBits s)) u ∧
      u = { s with cur := u.cur, nbits := 0, fifo := dataEntries left, p := s.p + (stuffed bytes).length } := by
  have hsplit : s.fifo = (stuffed bytes).map FifoEntry.data ++ left.map FifoEntry.data := by
    rw [hf, dataEntries, List.map_append]
  obtain ⟨u, hu, ⟨hsame, hcount⟩, hbits, hfifo⟩ := readBitsLoop_waiting n hleft n 0 bytes s hn le_rfl hsplit
  have hp : u.p = s.p + (stuffed bytes).length := by
    rw [hsplit, hfifo, List.length_append, List.length_map, List.length_map] at hcount
    omega
  refine ⟨u, by rw [hu, Nat.mul_zero, Nat.zero_add], ?_⟩
  rw [hbits, hp, hfifo] at hsame
  exact hsame

/-- Settles O36: the loop over the extra bits takes what is there and waits, and goes on where it waited. -/
theorem symbolsWaitForTheirBits : Obligations.SymbolsWaitForTheirBits := by
  constructor
  · intro s bytes left hpace hf hleft
    refine ⟨fun t ht hlen => ?dcWaits, fun r sz hsz hk hlen => ?acWaits⟩
    case dcWaits =>
      obtain ⟨w, hw, hsame⟩ := readBitsLoop_takes_all hf hleft hlen
      refine ⟨_, exec_dcCategory hpace ht, ?_⟩
      rw [hw, afterBits, hsame]
      rfl
    case acWaits =>
      obtain ⟨w, hw, hsame⟩ := readBitsLoop_takes_all (s := { s with k := s.k + r.toNat }) hf hleft hlen
      refine ⟨_, exec_acRunSize hpace hsz hk, ?_⟩
      rw [hw, afterBits, hsame]
      rfl
  · intro s u q later hpace hs
    refine ⟨fun t h hwait => ?dcLater, fun r sz h hwait => ?acLater⟩
    case dcLater =>
      obtain ⟨ht, n, v, w, hw, rfl⟩ := waits_of_dcCategory hpace h hwait
      rw [exec_dcCategory (s := withLater s later) hpace ht]
      exact congrArg _ ((dcExtraBits t.toNat).resume_later later hpace hs le_rfl hw)
    case acLater =>
      obtain ⟨hsz, hk, n, v, w, hw, rfl⟩ := waits_of_acRunSize hpace h hwait
      rw [exec_acRunSize (s := withLater s later) hpace hsz hk]
      exact congrArg _ ((acExtraBits sz.toNat).resume_later (s := { s with k := s.k + r.toNat }) later hpace hs le_rfl hw)

end Sys2Proof.Machine
end

section
/-! SUPPORT. A loader's run over everything that is in the FIFO, said without fuel: what it does with one byte, with the
bytes of one operand that is collected byte by byte (R89), and with a command entry; and how an `exec` of a loader begins. -/

namespace Sys2Proof.Machine

open Sys2Proof.Spec

/-- The run of a loader over everything that is in the FIFO. -/
def loadAll (s : State) : State := runLoad s.fifo.length s

/-- The core is between two commands, or between two units of a payload, and `f` is in the FIFO. -/
def idleWith (f : List FifoEntry) (s : State) : State := { s with seq := .idle, fifo := f }

/-- The loader waits for its next byte at `l`, and `f` is in the FIFO. -/
def loading (l : LoadPos) (f : List FifoEntry) (s : State) : State := { s with seq := .payload l, fifo := f }

@[simp] theorem loadAt_loading (l l' : LoadPos) (f : List FifoEntry) (s : State) :
    loadAt l (loading l' f s) = loading l f s := rfl

/-- Fuel for each entry in the FIFO is enough. -/
theorem runLoad_enough {m n : Nat} {s : State} (hm : s.fifo.length ≤ m) (hn : s.fifo.length ≤ n) :
    runLoad m s = runLoad n s := by
  induction m generalizing n s with
  | zero =>
    have hf : s.fifo = [] := List.length_eq_zero_iff.1 (Nat.le_zero.1 hm)
    rw [runLoad_empty _ hf, runLoad_empty _ hf]
  | succ m ih =>
    by_cases hp : ∃ l, s.seq = .payload l
    · obtain ⟨l, hl⟩ := hp
      rcases nextPayloadByte_cases s with ⟨hf, -⟩ | ⟨b, rest, hf, -⟩ | ⟨op, a, len, o, rest, hf, -⟩
      · rw [runLoad_empty _ hf, runLoad_empty _ hf]
      · rw [hf, List.length_cons] at hm hn
        obtain ⟨n, rfl⟩ := Nat.exists_eq_add_of_lt hn
        have hfifo := (loadByte_fifo (s := { s with fifo := rest }) b hl).length_le
        simp only at hfifo
        rw [runLoad_byte _ hl hf, runLoad_byte _ hl hf]
        exact ih (by omega) (by omega)
      · rw [hf, List.length_cons] at hn
        obtain ⟨n, rfl⟩ := Nat.exists_eq_add_of_lt hn
        rw [runLoad_cmd _ hl hf, runLoad_cmd _ hl hf]
    · have hp' : ∀ l, s.seq ≠ .payload l := fun l h => hp ⟨l, h⟩
      rw [runLoad_ended _ hp', runLoad_ended _ hp']

theorem loadAll_byte (l : LoadPos) (b : Byte) (f : List FifoEntry) (s : State) :
    loadAll (loading l (.data b :: f) s) = loadAll (loadByte l b (loading l f s)) := by
  have hfifo := (loadByte_fifo (s := loading l f s) b rfl).length_le
  exact (runLoad_byte f.length rfl rfl).trans (runLoad_enough hfifo le_rfl)

theorem loadAll_cmd (l : LoadPos) (op a : Byte) (n : Half) (o : Word) (f : List FifoEntry) (s : State) :
    loadAll (loading l (.cmd op a n o :: f) s) = raise .sequence (loading l (.cmd op a n o :: f) s) :=
  runLoad_cmd f.length rfl rfl

theorem loadAll_ended {s : State} (h : ∀ l, s.seq ≠ .payload l) : loadAll s = s := runLoad_ended _ h

@[simp] theorem loadAll_raise (c : Cause) (s : State) : loadAll (raise c s) = raise c s := loadAll_ended fun _ => nofun

@[simp] theorem loadAll_loadEnd (s : State) : loadAll (loadEnd s) = loadEnd s := loadAll_ended fun _ => nofun

@[simp] theorem dataEntries_nil : dataEntries [] = [] := rfl

@[simp] theorem dataEntries_cons (b : Byte) (bytes : List Byte) :
    dataEntries (b :: bytes) = .data b :: dataEntries bytes := rfl

@[simp] theorem dataEntries_append (bytes more : List Byte) :
    dataEntries (bytes ++ more) = dataEntries bytes ++ dataEntries more := List.map_append

/-! An operand of `n` bytes. -/

/-- The positions `pos got` collect an operand of `n` bytes, each of which must be `Good`; with the last one the loader goes
on as `finish` says. -/
structure Collects (pos : List Byte → LoadPos) (n : Nat) (Good : Byte → Prop) (finish : List Byte → State → State) :
    Prop where
  more : ∀ got b s, got.length + 1 < n → Good b → loadByte (pos got) b s = loadAt (pos (got ++ [b])) s
  last : ∀ got b s, got.length + 1 = n → Good b → loadByte (pos got) b s = finish (got ++ [b]) s

section
variable {pos : List Byte → LoadPos} {n : Nat} {Good : Byte → Prop} {finish : List Byte → State → State}

theorem Collects.extends (h : Collects pos n Good finish) {bytes : List Byte} (hgood : ∀ b ∈ bytes, Good b)
    (got : List Byte) (hlen : got.length + bytes.length < n) (f : List FifoEntry) (s : State) :
    loadAll (loading (pos got) (dataEntries bytes ++ f) s) = loadAll (loading (pos (got ++ bytes)) f s) := by
  induction bytes generalizing got with
  | nil => rw [List.append_nil]; rfl
  | cons b bytes ih =>
    rw [List.length_cons] at hlen
    have hb := hgood b List.mem_cons_self
    rw [dataEntries_cons, List.cons_append, loadAll_byte, h.more _ _ _ (by omega) hb, loadAt_loading,
      ih (fun c hc => hgood c (List.mem_cons_of_mem b hc)) _ (by rw [List.length_append, List.length_singleton]; omega),
      List.append_assoc, List.singleton_append]

/-- The loader waits inside an operand of which not all bytes are there. -/
theorem Collects.waits (h : Collects pos n Good finish) {bytes : List Byte} (hgood : ∀ b ∈ bytes, Good b)
    (hlen : bytes.length < n) (f : List FifoEntry) (s : State) :
    loadAll (loading (pos []) (dataEntries bytes ++ f) s) = loadAll (loading (pos bytes) f s) :=
  h.extends hgood [] (by simpa using hlen) f s

/-- The loader takes a whole operand. -/
theorem Collects.takes (h : Collects pos n Good finish) {bytes : List Byte} (hgood : ∀ b ∈ bytes, Good b)
    (hlen : bytes.length = n) (hn : n ≠ 0) (f : List FifoEntry) (s : State) :
    loadAll (loading (pos []) (dataEntries bytes ++ f) s) =
      loadAll (finish bytes (loading (pos bytes.dropLast) f s)) := by
  obtain ⟨init, b, rfl⟩ := (List.eq_nil_or_concat' bytes).resolve_left (fun e => hn (by rw [← hlen, e]; rfl))
  rw [List.length_append, List.length_singleton] at hlen
  rw [dataEntries_append, List.append_assoc, h.waits (fun c hc => hgood c (List.mem_append_left _ hc)) (by omega),
    List.dropLast_concat]
  exact (loadAll_byte _ _ _ _).trans
    (congrArg loadAll (h.last _ _ _ hlen (hgood b (List.mem_append_right _ (List.mem_singleton_self b)))))

end

/-! Errors. -/

theorem errorIs_raise (c : Cause) {s : State} {op : Byte} (h : s.curOp = op) : ErrorIs (raise c s) c op :=
  ⟨rfl, rfl, rfl, h, rfl, rfl, rfl, rfl, rfl⟩

/-- A loader's run has ended where it has reached an error entry. -/
theorem errorIs_loadAll (c : Cause) {s : State} {op : Byte} (h : s.curOp = op) : ErrorIs (loadAll (raise c s)) c op := by
  rw [loadAll_raise]
  exact errorIs_raise c h

/-- A command entry stands where a byte is due (R89). -/
theorem errorIs_cmd (l : LoadPos) {f : List FifoEntry} (hf : ∃ op a n o rest, f = .cmd op a n o :: rest) {s : State}
    {op : Byte} (hop : s.curOp = op) : ErrorIs (loadAll (loading l f s)) .sequence op := by
  obtain ⟨op', a, n, o, rest, rfl⟩ := hf
  rw [loadAll_cmd]
  exact errorIs_raise _ hop

/-- A command entry stands inside an operand (R89). -/
theorem Collects.errorIs_cmd {pos : List Byte → LoadPos} {n : Nat} {Good : Byte → Prop}
    {finish : List Byte → State → State} (h : Collects pos n Good finish) {bytes : List Byte} (hgood : ∀ b ∈ bytes, Good b) (hlen : bytes.length < n)
    {f : List FifoEntry} (hf : ∃ op a n o rest, f = .cmd op a n o :: rest) {s : State} {op : Byte} (hop : s.curOp = op) :
    ErrorIs (loadAll (loading (pos []) (dataEntries bytes ++ f) s)) .sequence op := by
  rw [h.waits hgood hlen]
  exact Machine.errorIs_cmd _ hf hop

/-! The dispatch of a loader whose entry is at the head, and the `while` loop over the units of its payload. -/

/-- The entry's payload and what follows are left in the FIFO (R91 step 2). -/
theorem takeCommand_ready {op arg : Byte} {len : Half} {ob : Word} {payload : List Byte} {rest : List FifoEntry} {s : State}
    (h : CommandReady op arg len ob payload rest s) :
    takeCommand op s = idleWith (dataEntries payload ++ rest) (takeCommand op s) := by
  obtain ⟨hseq, hf⟩ := h
  unfold takeCommand idleWith
  rw [hseq, hf]
  rfl

theorem runLoad_dispatch {s u : State} (hpace : s.pace = .whole) (hf : u.fifo.length ≤ s.fifo.length) :
    runLoad (dispatchFuel s s.fifo.length) u = loadAll u := by
  rw [dispatchFuel_whole hpace]
  exact runLoad_enough hf le_rfl

theorem NextUnit.fifo_length_le {s t : State} (h : NextUnit s t) : t.fifo.length ≤ s.fifo.length := by
  cases h
  case truncated => exact Nat.zero_le _
  all_goals exact le_rfl

/-- Where a loader has no region of the output memory, an error entry leaves nothing of its position (R127). -/
theorem raise_loading {l : LoadPos} {f : List FifoEntry} {s : State} (hl : scanBase (loading l f s) = none) (c : Cause) :
    raise c (loading l f s) = raise c (idleWith f s) := by
  unfold raise indetAfterAbort owned
  rw [hl]
  rfl

/-- The units of a payload (R95, R96) are stored one after another, where one unit is. `next n` is the head of the loop with
`n` payload bytes left. -/
theorem loadAll_units {U : Type} {next : Nat → State → State} {bytes : U → List Byte} {store : State → U → State}
    {units : List U}
    (hunit : ∀ u ∈ units, ∀ n f s, loadAll (next ((bytes u).length + n) (idleWith (dataEntries (bytes u) ++ f) s)) =
      loadAll (next n (idleWith f (store s u)))) (n : Nat) (f : List FifoEntry) (s : State) :
    loadAll (next ((units.flatMap bytes).length + n) (idleWith (dataEntries (units.flatMap bytes) ++ f) s)) =
      loadAll (next n (idleWith f (units.foldl store s))) := by
  induction units generalizing s with
  | nil => rw [List.flatMap_nil, List.length_nil, Nat.zero_add]; rfl
  | cons u units ih =>
    rw [List.flatMap_cons, dataEntries_append, List.append_assoc, List.length_append, Nat.add_assoc,
      hunit u List.mem_cons_self, ih fun v hv => hunit v (List.mem_cons_of_mem u hv), List.foldl_cons]

end Sys2Proof.Machine
end

section
/-! SUPPORT. LOAD_DQT (R95): what it does with the bytes of a unit. -/

namespace Sys2Proof.Machine

open Sys2Proof.Spec

theorem exec_loadDqt {s : State} {arg : Byte} {len : Half} {ob : Word} {payload : List Byte} {rest : List FifoEntry}
    (hpace : s.pace = .whole) (h : CommandReady 0x01 arg len ob payload rest s) (hlen : len.toNat ≠ 0) :
    exec (.loadDqt arg len) s =
      .next (loadAll (dqtNext len.toNat (idleWith (dataEntries payload ++ rest) (takeCommand 0x01 s)))) := by
  refine congrArg Host.Outcome.next ?_
  rw [loadDqt, if_neg hlen, ← takeCommand_ready h]
  exact runLoad_dispatch hpace (dqtNext_nextUnit _ _).fifo_length_le

theorem dqtNext_zero (s : State) : dqtNext 0 s = loadEnd s := if_pos rfl

theorem dqtNext_truncated {n : Nat} (h0 : 0 < n) (h : n < 65) (s : State) : dqtNext n s = raise .dqtTruncated s := by
  rw [dqtNext, if_neg (by omega), if_pos h]

theorem dqtNext_id {n : Nat} (h : 65 ≤ n) (f : List FifoEntry) (s : State) :
    dqtNext n (idleWith f s) = loading (.dqtId n) f s := by
  rw [dqtNext, if_neg (by omega), if_neg (by omega)]
  rfl

theorem dqtNext_loading {l : LoadPos} {f : List FifoEntry} {s : State} (hl : scanBase (loading l f s) = none) (n : Nat) :
    dqtNext n (loading l f s) = dqtNext n (idleWith f s) := by
  unfold dqtNext
  rw [raise_loading hl]
  rfl

theorem dqtId_accepts {b : Byte} (hp : hiNibble b = 0#4) (ht : (loNibble b).toNat ≤ 3) (n : Nat) (s : State) :
    dqtId n b s = loadAt (.dqtCoef n (tableId (loNibble b).toNat) []) s := by
  rw [dqtId, if_neg (by rw [hp]; decide), if_neg (by rw [hp]; simp; omega)]

theorem dqtId_precision {b : Byte} (h : hiNibble b = 1#4) (n : Nat) (s : State) : dqtId n b s = raise .dqtPrecision s :=
  if_pos h

theorem dqtId_badId {b : Byte} (h : 1 < (hiNibble b).toNat ∨ hiNibble b = 0#4 ∧ 3 < (loNibble b).toNat) (n : Nat)
    (s : State) : dqtId n b s = raise .dqtBadId s := by
  rcases h with hp | ⟨hp, ht⟩
  · rw [dqtId, if_neg (by rintro e; simp [e] at hp), if_pos (.inl hp)]
  · rw [dqtId, if_neg (by rw [hp]; decide), if_pos (.inr ht)]

theorem dqtCoef_zero (n : Nat) (tq : Fin 4) (q : List Byte) (s : State) : dqtCoef n tq q 0#8 s = raise .dqtZeroCoef s :=
  if_pos rfl

/-- The coefficients of a unit, none of them 0. -/
theorem dqtCoef_collects (n : Nat) (tq : Fin 4) :
    Collects (.dqtCoef n tq) 64 (· ≠ 0#8) (fun q s => dqtNext (n - 65) (storeQt tq (qtOfBytes q) s)) where
  more _ _ _ hlen hb := (if_neg hb).trans (if_pos hlen)
  last _ _ _ hlen hb := (if_neg hb).trans (if_neg (by omega))

theorem qtOfBytes_toList (q : Vector Byte 64) : qtOfBytes q.toList = q := by
  ext i hi
  simp [qtOfBytes, byteAt]

theorem qtUnit_length (u : QtUnit) : u.bytes.length = 65 := by
  rw [QtUnit.bytes, List.length_cons, Vector.length_toList]

theorem qtUnits_length (units : List QtUnit) : (units.flatMap QtUnit.bytes).length = 65 * units.length := by
  rw [List.length_flatMap, List.map_congr_left fun u _ => qtUnit_length u, List.map_const', List.sum_replicate, smul_eq_mul,
    Nat.mul_comm]

/-- The id byte of a unit: precision 0 and the slot. -/
theorem nibbles_qtIdByte (tq : Fin 4) :
    hiNibble (BitVec.ofNat 8 tq.val) = 0#4 ∧ (loNibble (BitVec.ofNat 8 tq.val)).toNat = tq.val := by
  revert tq; decide

theorem tableId_val (t : Fin 4) : tableId t.val = t := by revert t; decide

/-- LOAD_DQT stores a unit without zero coefficients. -/
theorem dqtNext_unit {u : QtUnit} (hu : ∀ k : Fin 64, u.q[k] ≠ 0#8) (n : Nat) (f : List FifoEntry) (s : State) :
    loadAll (dqtNext (u.bytes.length + n) (idleWith (dataEntries u.bytes ++ f) s)) =
      loadAll (dqtNext n (idleWith f (u.store s))) := by
  obtain ⟨hp, ht⟩ := nibbles_qtIdByte u.tq
  have hq : ∀ b ∈ u.q.toList, b ≠ 0#8 := by
    intro b hb
    obtain ⟨k, hk, rfl⟩ := List.getElem_of_mem hb
    simpa using hu ⟨k, by simpa using hk⟩
  rw [qtUnit_length u, dqtNext_id (by omega), QtUnit.bytes, dataEntries_cons, List.cons_append, loadAll_byte, loadByte,
    dqtId_accepts hp (by omega), loadAt_loading, ht, tableId_val, (dqtCoef_collects _ _).takes hq (by simp) (by decide),
    qtOfBytes_toList, Nat.add_sub_cancel_left]
  exact congrArg loadAll (dqtNext_loading (s := u.store s) rfl n)

theorem storeUnits_curOp (units : List QtUnit) (s : State) : (units.foldl QtUnit.store s).curOp = s.curOp := by
  induction units generalizing s with
  | nil => rfl
  | cons u units ih => exact ih _

/-- LOAD_DQT at the head of its loop after some good units. -/
theorem exec_loadDqt_units {s : State} {units : List QtUnit} {more : List Byte} {arg : Byte} {len : Half} {ob : Word}
    {rest : List FifoEntry} {n : Nat} (hpace : s.pace = .whole)
    (h : CommandReady 0x01 arg len ob (units.flatMap QtUnit.bytes ++ more) rest s)
    (hunits : ∀ u ∈ units, ∀ k : Fin 64, u.q[k] ≠ 0#8) (hlen : len.toNat = 65 * units.length + n) (h0 : len.toNat ≠ 0) :
    exec (.loadDqt arg len) s =
      .next (loadAll (dqtNext n (idleWith (dataEntries more ++ rest) (units.foldl QtUnit.store (takeCommand 0x01 s))))) := by
  rw [exec_loadDqt hpace h h0, dataEntries_append, List.append_assoc, hlen, ← qtUnits_length,
    loadAll_units fun u hu => dqtNext_unit (hunits u hu)]

/-- Settles O15: each good unit is stored, and the loop ends with the payload. -/
theorem loadDqtStoresEveryTable : Obligations.LoadDqtStoresEveryTable := by
  intro s units arg len ob rest hpace hready hne hlen hunits
  have hpos := List.length_pos_iff.2 hne
  rw [← List.append_nil (units.flatMap QtUnit.bytes)] at hready
  rw [exec_loadDqt_units (n := 0) hpace hready hunits hlen (by omega), dqtNext_zero, loadAll_loadEnd]
  exact congrArg _ (List.foldl_hom (fun u => loadEnd (idleWith rest u)) fun _ _ => rfl).symm

/-- Settles O16: after the good units the loader stands at the head of the loop, and each check raises its error. -/
theorem loadDqtRejectsABadUnit : Obligations.LoadDqtRejectsABadUnit := by
  intro s units bad arg len ob rest hpace hready hunits
  have hop : (units.foldl QtUnit.store (takeCommand 0x01 s)).curOp = 0x01 := storeUnits_curOp _ _
  refine ⟨fun _ hlen => ?noBytes, fun hlo hhi => ?fewBytes, fun hlen => ?_⟩
  case noBytes =>
    subst hlen
    exact ⟨_, rfl, errorIs_raise _ rfl⟩
  case fewBytes =>
    refine ⟨_, exec_loadDqt_units hpace hready hunits (Nat.add_sub_of_le hlo.le).symm (by omega), ?_⟩
    rw [dqtNext_truncated (by omega) (by omega)]
    exact errorIs_loadAll _ hop
  obtain ⟨n, hn⟩ := Nat.exists_eq_add_of_le (le_trans (Nat.le_add_right _ _) hlen)
  have hexec := exec_loadDqt_units hpace hready hunits hn (by omega)
  rw [dqtNext_id (by omega)] at hexec
  refine ⟨fun hbad op a l o rest' hrest => ⟨_, hexec, ?_⟩, fun b qs hbad => ?_⟩
  · subst hbad
    exact errorIs_cmd _ ⟨op, a, l, o, rest', hrest⟩ hop
  subst hbad
  rw [dataEntries_cons, List.cons_append, loadAll_byte, loadByte] at hexec
  refine ⟨fun hp => ⟨_, hexec, ?precision⟩, fun hp => ⟨_, hexec, ?badPrecision⟩, fun hp ht => ⟨_, hexec, ?badId⟩,
    fun hp ht pre post hqs hpre hlen64 => ⟨_, hexec, ?zeroCoef⟩,
    fun hp ht hqs hlen64 op a l o rest' hrest => ⟨_, hexec, ?sequence⟩⟩
  case precision =>
    rw [dqtId_precision hp]
    exact errorIs_loadAll _ hop
  case badPrecision =>
    rw [dqtId_badId (.inl hp)]
    exact errorIs_loadAll _ hop
  case badId =>
    rw [dqtId_badId (.inr ⟨hp, ht⟩)]
    exact errorIs_loadAll _ hop
  case zeroCoef =>
    rw [dqtId_accepts hp ht, loadAt_loading, hqs, dataEntries_append, List.append_assoc,
      (dqtCoef_collects _ _).waits hpre hlen64, dataEntries_cons, List.cons_append, loadAll_byte, loadByte, dqtCoef_zero]
    exact errorIs_loadAll _ hop
  case sequence =>
    rw [dqtId_accepts hp ht, loadAt_loading]
    exact (dqtCoef_collects _ _).errorIs_cmd hqs hlen64 ⟨op, a, l, o, rest', hrest⟩ hop

end Sys2Proof.Machine
end

section
/-! SUPPORT. LOAD_DHT (R96): what it does with the bytes of a table. -/

namespace Sys2Proof.Machine

open Sys2Proof.Spec

theorem exec_loadDht {s : State} {arg : Byte} {len : Half} {ob : Word} {payload : List Byte} {rest : List FifoEntry}
    (hpace : s.pace = .whole) (h : CommandReady 0x02 arg len ob payload rest s) (hlen : len.toNat ≠ 0) :
    exec (.loadDht arg len) s =
      .next (loadAll (dhtNext len.toNat (idleWith (dataEntries payload ++ rest) (takeCommand 0x02 s)))) := by
  refine congrArg Host.Outcome.next ?_
  rw [loadDht, if_neg hlen, ← takeCommand_ready h]
  exact runLoad_dispatch hpace (dhtNext_nextUnit _ _).fifo_length_le

theorem dhtNext_zero (s : State) : dhtNext 0 s = loadEnd s := if_pos rfl

theorem dhtNext_truncated {n : Nat} (h0 : 0 < n) (h : n < 17) (s : State) : dhtNext n s = raise .dhtTruncated s := by
  rw [dhtNext, if_neg (by omega), if_pos h]

theorem dhtNext_id {n : Nat} (h : 17 ≤ n) (f : List FifoEntry) (s : State) :
    dhtNext n (idleWith f s) = loading (.dhtId n) f s := by
  rw [dhtNext, if_neg (by omega), if_neg (by omega)]
  rfl

theorem dhtNext_loading {l : LoadPos} {f : List FifoEntry} {s : State} (hl : scanBase (loading l f s) = none) (n : Nat) :
    dhtNext n (loading l f s) = dhtNext n (idleWith f s) := by
  unfold dhtNext
  rw [raise_loading hl]
  rfl

/-- The class of an id byte that is accepted. -/
def tableClass (b : Byte) : TableClass := if hiNibble b = 0#4 then .dc else .ac

theorem dhtId_accepts {b : Byte} (hc : (hiNibble b).toNat ≤ 1) (ht : (loNibble b).toNat ≤ 3) (n : Nat) (s : State) :
    dhtId n b s = loadAt (.dhtBits n (tableClass b) (tableId (loNibble b).toNat) []) s := by
  rw [dhtId, if_neg (by omega), if_neg (by omega)]
  rfl

theorem dhtId_badClass {b : Byte} (h : 1 < (hiNibble b).toNat) (n : Nat) (s : State) : dhtId n b s = raise .dhtBadClass s :=
  if_pos h

theorem dhtId_badId {b : Byte} (hc : (hiNibble b).toNat ≤ 1) (ht : 3 < (loNibble b).toNat) (n : Nat) (s : State) :
    dhtId n b s = raise .dhtBadId s := by
  rw [dhtId, if_neg (by omega), if_pos ht]

/-- The code-length counts of a table. -/
theorem dhtBits_collects (n : Nat) (tc : TableClass) (th : Fin 4) :
    Collects (.dhtBits n tc th) 16 (fun _ => True) (dhtChecked n tc th) where
  more _ _ _ hlen _ := if_pos hlen
  last _ _ _ hlen _ := if_neg (by omega)

/-- The symbols of a table. -/
theorem dhtVals_collects (n : Nat) (tc : TableClass) (th : Fin 4) (bits : Vector Byte 16) :
    Collects (.dhtVals n tc th bits) (symbolCount bits.toList) (fun _ => True)
      (fun vals s => dhtNext (n - 17 - symbolCount bits.toList) (storeHt tc th ⟨bits, vals⟩ s)) where
  more _ _ _ hlen _ := if_pos hlen
  last _ _ _ hlen _ := if_neg (by omega)

theorem bitsOfBytes_of_toList (bits : Vector Byte 16) : bitsOfBytes bits.toList = bits :=
  Vector.toList_inj.1 (bitsOfBytes_toList bits.length_toList)

theorem dhtChecked_tooManySymbols {bits : List Byte} (h : 256 < symbolCount bits) (n : Nat) (tc : TableClass) (th : Fin 4)
    (s : State) : dhtChecked n tc th bits s = raise .dhtTooManySymbols s := if_pos h

theorem dhtChecked_empty {bits : List Byte} (hfull : overfull bits = false) (h0 : symbolCount bits = 0)
    (n : Nat) (tc : TableClass) (th : Fin 4) (s : State) :
    dhtChecked n tc th bits s = dhtNext (n - 17) (storeHt tc th ⟨bitsOfBytes bits, []⟩ s) := by
  rw [dhtChecked, if_neg (by omega), hfull, if_neg nofun, if_neg (by omega), if_pos h0]

section
variable {bits : List Byte} {n : Nat} (hcount : symbolCount bits ≤ 256) (tc : TableClass) (th : Fin 4) (s : State)
include hcount

theorem dhtChecked_overfull (hfull : overfull bits = true) : dhtChecked n tc th bits s = raise .dhtOverfull s := by
  rw [dhtChecked, if_neg (by omega), if_pos hfull]

theorem dhtChecked_truncated (hfull : overfull bits = false) (hn : n < 17 + symbolCount bits)
    (h0 : 17 ≤ n) : dhtChecked n tc th bits s = raise .dhtTruncated s := by
  rw [dhtChecked, if_neg (by omega), hfull, if_neg nofun, if_pos (by omega)]

theorem dhtChecked_symbols (hfull : overfull bits = false) (hn : 17 + symbolCount bits ≤ n) (h0 : symbolCount bits ≠ 0) :
    dhtChecked n tc th bits s = loadAt (.dhtVals n tc th (bitsOfBytes bits) []) s := by
  rw [dhtChecked, if_neg (by omega), hfull, if_neg nofun, if_neg (by omega), if_neg h0]

end

theorem storeHt_loading (tc : TableClass) (th : Fin 4) (t : HuffTable) (l : LoadPos) (f : List FifoEntry) (s : State) :
    storeHt tc th t (loading l f s) = loading l f (storeHt tc th t s) := by cases tc <;> rfl

theorem store_eq_storeHt (u : HtUnit) (s : State) : u.store s = storeHt u.tc u.th u.t s := rfl

theorem store_idleWith (f : List FifoEntry) (u : HtUnit) (s : State) :
    u.store (idleWith f s) = idleWith f (u.store s) := by
  rw [store_eq_storeHt, store_eq_storeHt]
  cases u.tc <;> rfl

theorem storeTables_curOp (tables : List HtUnit) (s : State) : (tables.foldl HtUnit.store s).curOp = s.curOp := by
  induction tables generalizing s with
  | nil => rfl
  | cons u tables ih =>
    rw [List.foldl_cons, ih, store_eq_storeHt]
    cases u.tc <;> rfl

/-- The symbols of a sound table are taken and the table is stored; one without symbols is stored at once. -/
theorem dhtChecked_stores {t : HuffTable} (ht : t.sound) {n : Nat} (tc : TableClass) (th : Fin 4) (f : List FifoEntry)
    (s : State) (l : List Byte) :
    loadAll (dhtChecked (17 + t.vals.length + n) tc th t.bits.toList
        (loading (.dhtBits (17 + t.vals.length + n) tc th l) (dataEntries t.vals ++ f) s)) =
      loadAll (dhtNext n (idleWith f (storeHt tc th t s))) := by
  obtain ⟨bits, vals⟩ := t
  obtain ⟨hvals, hcount, hfull⟩ := ht
  simp only at hvals hcount hfull ⊢
  by_cases h0 : symbolCount bits.toList = 0
  · obtain rfl : vals = [] := List.length_eq_zero_iff.1 (hvals.trans h0)
    rw [dhtChecked_empty hfull h0, bitsOfBytes_of_toList, storeHt_loading, dhtNext_loading rfl, List.length_nil, Nat.add_zero,
      Nat.add_sub_cancel_left, dataEntries_nil, List.nil_append]
  · rw [dhtChecked_symbols hcount _ _ _ hfull (by omega) h0, bitsOfBytes_of_toList, loadAt_loading,
      (dhtVals_collects _ _ _ _).takes (fun _ _ => trivial) hvals h0, storeHt_loading, dhtNext_loading rfl,
      show 17 + vals.length + n - 17 - symbolCount bits.toList = n by omega]

theorem htUnit_length (u : HtUnit) : u.bytes.length = 17 + u.t.vals.length := by
  rw [HtUnit.bytes, List.length_cons, List.length_append, Vector.length_toList]
  omega

/-- The id byte of a table: the class and the slot. -/
theorem nibbles_htIdByte (u : HtUnit) : (hiNibble u.idByte).toNat ≤ 1 ∧ (loNibble u.idByte).toNat = u.th.val ∧
    tableClass u.idByte = u.tc := by
  obtain ⟨tc, th, t⟩ := u
  have hth : ∀ th : Fin 4, (BitVec.ofNat 4 th.val).toNat = th.val := by decide
  cases tc <;> simp [HtUnit.idByte, tableClass, hth]

/-- LOAD_DHT stores a sound table. -/
theorem dhtNext_unit {u : HtUnit} (hu : u.t.sound) (n : Nat) (f : List FifoEntry) (s : State) :
    loadAll (dhtNext (u.bytes.length + n) (idleWith (dataEntries u.bytes ++ f) s)) =
      loadAll (dhtNext n (idleWith f (u.store s))) := by
  obtain ⟨hc, ht, htc⟩ := nibbles_htIdByte u
  rw [htUnit_length, dhtNext_id (by omega), HtUnit.bytes, dataEntries_cons, List.cons_append, loadAll_byte, loadByte,
    dhtId_accepts hc (by omega), loadAt_loading, htc, ht, tableId_val, dataEntries_append, List.append_assoc,
    (dhtBits_collects _ _ _).takes (fun _ _ => trivial) (by simp) (by decide), dhtChecked_stores hu]
  rfl

/-- LOAD_DHT at the head of its loop after some good tables. -/
theorem exec_loadDht_tables {s : State} {tables : List HtUnit} {more : List Byte} {arg : Byte} {len : Half} {ob : Word}
    {rest : List FifoEntry} {n : Nat} (hpace : s.pace = .whole)
    (h : CommandReady 0x02 arg len ob (tables.flatMap HtUnit.bytes ++ more) rest s) (htables : ∀ u ∈ tables, u.t.sound)
    (hlen : len.toNat = (tables.flatMap HtUnit.bytes).length + n) (h0 : len.toNat ≠ 0) :
    exec (.loadDht arg len) s =
      .next (loadAll (dhtNext n (idleWith (dataEntries more ++ rest) (tables.foldl HtUnit.store (takeCommand 0x02 s))))) := by
  rw [exec_loadDht hpace h h0, dataEntries_append, List.append_assoc, hlen,
    loadAll_units fun u hu => dhtNext_unit (htables u hu)]

/-- Settles O17: each sound table is stored, and the loop ends with the payload. -/
theorem loadDhtStoresEveryTable : Obligations.LoadDhtStoresEveryTable := by
  intro s tables arg len ob rest hpace hready hne hlen htables
  have hpos : len.toNat ≠ 0 := by
    obtain ⟨u, tables, rfl⟩ := List.exists_cons_of_ne_nil hne
    rw [hlen, List.flatMap_cons, List.length_append, htUnit_length]
    omega
  rw [← List.append_nil (tables.flatMap HtUnit.bytes)] at hready
  rw [exec_loadDht_tables (n := 0) hpace hready htables hlen hpos, dhtNext_zero, loadAll_loadEnd]
  exact congrArg _ (List.foldl_hom (idleWith rest) fun s u => store_idleWith rest u s).symm

/-- Settles O18: after the good tables the loader stands at the head of the loop, and each check raises its error. -/
theorem loadDhtRejectsABadTable : Obligations.LoadDhtRejectsABadTable := by
  intro s tables bad arg len ob rest hpace hready htables used
  have hop : (tables.foldl HtUnit.store (takeCommand 0x02 s)).curOp = 0x02 := storeTables_curOp _ _
  refine ⟨fun _ hlen => ?noBytes, fun hlo hhi => ?fewBytes, fun hlen => ?_⟩
  case noBytes =>
    subst hlen
    exact ⟨_, rfl, errorIs_raise _ rfl⟩
  case fewBytes =>
    refine ⟨_, exec_loadDht_tables hpace hready htables (Nat.add_sub_of_le hlo.le).symm (by omega), ?_⟩
    rw [dhtNext_truncated (by omega) (by omega)]
    exact errorIs_loadAll _ hop
  obtain ⟨n, hn⟩ := Nat.exists_eq_add_of_le (le_trans (Nat.le_add_right _ _) hlen)
  have hexec := exec_loadDht_tables hpace hready htables hn (by omega)
  rw [dhtNext_id (by omega)] at hexec
  refine ⟨fun hbad op a l o rest' hrest => ⟨_, hexec, ?_⟩, fun b more hbad => ?_⟩
  · subst hbad
    exact errorIs_cmd _ ⟨op, a, l, o, rest', hrest⟩ hop
  subst hbad
  rw [dataEntries_cons, List.cons_append, loadAll_byte, loadByte] at hexec
  refine ⟨fun hc => ⟨_, hexec, ?badClass⟩, fun hc ht => ⟨_, hexec, ?badId⟩, fun hc ht bits post hmore hbits => ?_,
    fun hc ht hbits op a l o rest' hrest => ⟨_, hexec, ?inBits⟩⟩
  case badClass =>
    rw [dhtId_badClass hc]
    exact errorIs_loadAll _ hop
  case badId =>
    rw [dhtId_badId hc ht]
    exact errorIs_loadAll _ hop
  case inBits =>
    rw [dhtId_accepts hc ht, loadAt_loading]
    exact (dhtBits_collects _ _ _).errorIs_cmd (fun _ _ => trivial) hbits ⟨op, a, l, o, rest', hrest⟩ hop
  rw [dhtId_accepts hc ht, loadAt_loading, hmore, dataEntries_append, List.append_assoc,
    (dhtBits_collects _ _ _).takes (fun _ _ => trivial) hbits (by decide)] at hexec
  refine ⟨fun hcount => ⟨_, hexec, ?tooMany⟩, fun hcount hfull => ⟨_, hexec, ?overfull⟩,
    fun hcount hfull hlen' => ⟨_, hexec, ?truncated⟩,
    fun hcount hfull hlen' hpost op a l o rest' hrest => ⟨_, hexec, ?inSymbols⟩⟩
  case tooMany =>
    rw [dhtChecked_tooManySymbols hcount]
    exact errorIs_loadAll _ hop
  case overfull =>
    rw [dhtChecked_overfull hcount _ _ _ hfull]
    exact errorIs_loadAll _ hop
  case truncated =>
    rw [dhtChecked_truncated hcount _ _ _ hfull (by omega) (by omega)]
    exact errorIs_loadAll _ hop
  case inSymbols =>
    rw [dhtChecked_symbols hcount _ _ _ hfull (by omega) (by omega), loadAt_loading]
    exact (dhtVals_collects _ _ _ _).errorIs_cmd (fun _ _ => trivial) (by rwa [bitsOfBytes_toList hbits])
      ⟨op, a, l, o, rest', hrest⟩ hop

end Sys2Proof.Machine
end

section
/-! SUPPORT. A vector of registers of which the first have been written one after another. -/

namespace Sys2Proof.Machine

/-- The vector with `l` in its first entries. -/
def overwrite {α : Type} {n : Nat} (v : Vector α n) (l : List α) : Vector α n := Vector.ofFn fun i => l.getD i.val v[i]

section
variable {α : Type} {n : Nat} (v : Vector α n) (l : List α)

theorem getElem_overwrite (i : Nat) (hi : i < n) : (overwrite v l)[i] = l.getD i v[i] := by
  simp [overwrite]

theorem overwrite_nil : overwrite v [] = v := by
  ext i hi
  simp [getElem_overwrite]

theorem setIfInBounds_overwrite (a : α) : (overwrite v l).setIfInBounds l.length a = overwrite v (l ++ [a]) := by
  ext i hi
  rw [Vector.getElem_setIfInBounds, getElem_overwrite, getElem_overwrite, List.getD_eq_getElem?_getD,
    List.getD_eq_getElem?_getD]
  rcases lt_trichotomy i l.length with h | rfl | h
  · rw [if_neg h.ne', List.getElem?_append_left h]
  · rw [if_pos rfl, List.getElem?_concat_length, Option.getD_some]
  · rw [if_neg h.ne, List.getElem?_eq_none h.le, List.getElem?_eq_none (by simpa using h)]

theorem take_overwrite (h : l.length ≤ n) : (overwrite v l).toList.take l.length = l := by
  refine List.ext_getElem (by simpa using h) fun i h1 h2 => ?_
  rw [List.getElem_take, Vector.getElem_toList, getElem_overwrite, List.getD_eq_getElem _ _ h2]

variable {v l}

theorem overwrite_some {i : Fin n} {a : α} (h : l[i.val]? = some a) : (overwrite v l)[i] = a := by
  rw [Fin.getElem_fin, getElem_overwrite, List.getD_eq_getElem?_getD, h, Option.getD_some]

theorem overwrite_none {i : Fin n} (h : l[i.val]? = none) : (overwrite v l)[i] = v[i] := by
  rw [Fin.getElem_fin, getElem_overwrite, List.getD_eq_getElem?_getD, h, Option.getD_none, Fin.getElem_fin]

end

end Sys2Proof.Machine
end

section
/-! SUPPORT. LOAD_SOF (R97): what it does with its header and with the components before the one in question. -/

namespace Sys2Proof.Machine

open Sys2Proof.Spec

/-! The frame registers while a frame is loaded. -/

/-- The state with `F` in the frame registers. -/
def withFrame (F : Frame) (s : State) : State := { s with frame := F }

@[simp] theorem withFrame_frame (F : Frame) (s : State) : (withFrame F s).frame = F := rfl
@[simp] theorem withFrame_loading (F : Frame) (l : LoadPos) (f : List FifoEntry) (s : State) :
    withFrame F (loading l f s) = loading l f (withFrame F s) := rfl

/-- The frame with the header's size and component count. -/
def sized (x y : Half) (nf : BitVec 2) (F : Frame) : Frame := { F with y := y, x := x, nf := nf }

/-- The frame with its first components loaded. -/
def withComps (comps : List Component) (F : Frame) : Frame := { F with comps := overwrite F.comps comps }

/-! The header. -/

theorem beHalf_extract (x : Half) : beHalf (x.extractLsb' 8 8) (x.extractLsb' 0 8) = x := by
  ext i hi
  by_cases h : i < 8
  · simp [beHalf, h, BitVec.getLsbD_eq_getElem hi]
  · simp [beHalf, h, show i - 8 < 8 by omega, show 8 + (i - 8) = i by omega, BitVec.getLsbD_eq_getElem hi]

theorem extract_beHalf (a b : Byte) :
    (beHalf a b).extractLsb' 8 8 = a ∧ (beHalf a b).extractLsb' 0 8 = b := by
  constructor <;> ext i hi
  · simp [beHalf, hi, show 8 + i < 16 by omega]
  · simp [beHalf, hi, show i < 16 by omega]

theorem beHalf_eq_zero_iff (a b : Byte) : beHalf a b = 0#16 ↔ a = 0#8 ∧ b = 0#8 := by
  obtain ⟨ha, hb⟩ := extract_beHalf a b
  refine ⟨fun h => ?_, ?_⟩
  · rw [h] at ha hb
    exact ⟨ha.symm, hb.symm⟩
  · rintro ⟨rfl, rfl⟩
    rfl

theorem loadSof_baseline {arg : Byte} (harg : arg = 0xC0#8) (len : Nat) (s : State) :
    loadSof arg len s =
      if s.frame.valid then raise .sequence s
      else if len < 6 then raise .sofLength s
      else runLoad (dispatchFuel s s.fifo.length) (loadAt (.sofHeader len []) s) := by
  subst harg
  rfl

theorem exec_loadSof {s : State} {len : Half} {ob : Word} {payload : List Byte} {rest : List FifoEntry}
    (hpace : s.pace = .whole) (h : CommandReady 0x03 0xC0 len ob payload rest s) (hv : s.frame.valid = false)
    (hlen : 6 ≤ len.toNat) :
    exec (.loadSof 0xC0 len) s =
      .next (loadAll (loading (.sofHeader len.toNat []) (dataEntries payload ++ rest) (takeCommand 0x03 s))) := by
  have hv' : ¬ (takeCommand 0x03 s).frame.valid = true := Bool.eq_false_iff.1 hv
  refine congrArg Host.Outcome.next ((loadSof_baseline rfl _ _).trans ?_)
  rw [if_neg hv', if_neg (by omega), takeCommand_ready h]
  exact runLoad_dispatch hpace le_rfl

/-- The header's bytes. -/
theorem sofHeader_collects (len : Nat) : Collects (.sofHeader len) 6 (fun _ => True) (sofHeader len) where
  more _ _ _ hlen _ := if_pos hlen
  last _ _ _ hlen _ := if_neg (by omega)

/-- The checks of R97 step 2, in their order. -/
theorem sofHeader_eq (len : Nat) (p y1 y0 x1 x0 nf : Byte) (l : LoadPos) (f : List FifoEntry) (s : State) :
    sofHeader len [p, y1, y0, x1, x0, nf] (loading l f s) =
      let t := loading l f (withFrame (sized (beHalf x1 x0) (beHalf y1 y0) (nf.setWidth 2) s.frame) s)
      if p ≠ 8#8 then raise .precision t
      else if beHalf y1 y0 = 0#16 then raise .dnl t
      else if beHalf x1 x0 = 0#16 then raise .sofBadDimension t
      else if nf = 0#8 then raise .sofBadComponentCount t
      else if nf ≠ 1#8 ∧ nf ≠ 3#8 then raise .componentCount t
      else if len ≠ 6 + 3 * nf.toNat then raise .sofLength t
      else loadAt (.sofComp 0 []) t := rfl

theorem loadAll_sofHeader (len : Nat) (p y1 y0 x1 x0 nf : Byte) (more : List Byte) (f : List FifoEntry) (s : State) :
    loadAll (loading (.sofHeader len []) (dataEntries (p :: y1 :: y0 :: x1 :: x0 :: nf :: more) ++ f) s) =
      loadAll (sofHeader len [p, y1, y0, x1, x0, nf]
        (loading (.sofHeader len [p, y1, y0, x1, x0]) (dataEntries more ++ f) s)) :=
  (sofHeader_collects len).takes (bytes := [p, y1, y0, x1, x0, nf]) (fun _ _ => trivial) rfl (by decide) _ s

theorem sofHeader_accepts {x y : Half} (hx : x ≠ 0#16) (hy : y ≠ 0#16) {n : Nat} (hn : n = 1 ∨ n = 3) {len : Nat}
    (hlen : len = 6 + 3 * n) (l : LoadPos) (f : List FifoEntry) (s : State) :
    sofHeader len [8, y.extractLsb' 8 8, y.extractLsb' 0 8, x.extractLsb' 8 8, x.extractLsb' 0 8, BitVec.ofNat 8 n]
        (loading l f s) =
      loading (.sofComp 0 []) f (withFrame (sized x y (BitVec.ofNat 2 n) s.frame) s) := by
  rw [sofHeader_eq, beHalf_extract, beHalf_extract, if_neg (by decide), if_neg hy, if_neg hx]
  rcases hn with rfl | rfl
  · rw [if_neg (by decide), if_neg (by decide), if_neg (by simpa using hlen)]
    rfl
  · rw [if_neg (by decide), if_neg (by decide), if_neg (by simpa using hlen)]
    rfl

/-! The components. -/

/-- The head of R97's loop over the components. -/
def sofNext (j : Nat) (s : State) : State := if j < s.frame.nf.toNat then loadAt (.sofComp j []) s else sofEnd s

theorem sofEnd_loading {l : LoadPos} {f : List FifoEntry} {s : State} (hl : scanBase (loading l f s) = none) :
    sofEnd (loading l f s) = sofEnd (idleWith f s) := by
  have hraise := raise_loading (f := f) (s := withFrame (withMaxima (effectiveSampling s.frame)) s) hl .sampling
  exact if_congr Iff.rfl hraise rfl

theorem sofNext_waits {j : Nat} {s : State} (h : j < s.frame.nf.toNat) (f : List FifoEntry) :
    sofNext j (idleWith f s) = loading (.sofComp j []) f s := if_pos h

theorem sofNext_loading {l : LoadPos} {f : List FifoEntry} {s : State} (hl : scanBase (loading l f s) = none) (j : Nat) :
    sofNext j (loading l f s) = sofNext j (idleWith f s) :=
  if_congr Iff.rfl rfl (sofEnd_loading hl)

/-- The bytes of a component. -/
theorem sofComp_collects (j : Nat) : Collects (.sofComp j) 3 (fun _ => True)
    (fun got s => sofComponent j (byteAt got 0) (byteAt got 1) (byteAt got 2) s) where
  more _ _ _ hlen _ := if_pos hlen
  last _ _ _ hlen _ := if_neg (by omega)

theorem loadAll_sofComp (j : Nat) (c hv tq : Byte) (post : List Byte) (f : List FifoEntry) (s : State) :
    loadAll (loading (.sofComp j []) (dataEntries (c :: hv :: tq :: post) ++ f) s) =
      loadAll (sofComponent j c hv tq (loading (.sofComp j [c, hv]) (dataEntries post ++ f) s)) :=
  (sofComp_collects j).takes (bytes := [c, hv, tq]) (fun _ _ => trivial) rfl (by decide) _ s

theorem dupId_withComps {good : List Component} (hlen : good.length ≤ 3) (F : Frame) (c : Byte) :
    dupId (withComps good F) good.length c = true ↔ c ∈ good.map (fun e => e.id) := by
  rw [dupId, withComps, take_overwrite _ _ hlen]
  simp

theorem setWidth_factor (h : BitVec 3) : (h.setWidth 4).toNat = h.toNat ∧ (h.setWidth 4).setWidth 3 = h := by
  revert h; decide

theorem toNat_tableIdByte (tq : Fin 4) : (BitVec.ofNat 8 tq.val).toNat = tq.val := by revert tq; decide

/-- A component whose identifier is new is loaded. -/
theorem sofComponent_accepts {c : Component} (hc : c.sound) {j : Nat} {s : State} (hdup : dupId s.frame j c.id = false) :
    sofComponent j c.id (joinNibbles (c.h.setWidth 4) (c.v.setWidth 4)) (BitVec.ofNat 8 c.tq.val) s =
      sofNext (j + 1) (withFrame { s.frame with comps := s.frame.comps.setIfInBounds j c } s) := by
  obtain ⟨h1, h2, v1, v2⟩ := hc
  obtain ⟨hh, eh⟩ := setWidth_factor c.h
  obtain ⟨hv, ev⟩ := setWidth_factor c.v
  have htq := c.tq.isLt
  rw [sofComponent, hdup, if_neg nofun]
  simp only [hiNibble_joinNibbles, loNibble_joinNibbles, hh, hv, eh, ev, toNat_tableIdByte, tableId_val]
  rw [if_neg (by omega), if_neg (by omega)]
  rfl

/-- The good components of a payload are loaded one after another. -/
theorem loadAll_sofComponents {good : List Component} {s : State} (hpos : 0 < s.frame.nf.toNat)
    (hlen : good.length ≤ s.frame.nf.toNat) (hgood : ∀ c ∈ good, c.sound) (hids : (good.map (fun c => c.id)).Nodup)
    (f : List FifoEntry) :
    loadAll (loading (.sofComp 0 []) (dataEntries (good.flatMap componentBytes) ++ f) s) =
      loadAll (sofNext good.length (idleWith f (withFrame (withComps good s.frame) s))) := by
  induction good using List.reverseRecOn generalizing f with
  | nil =>
    rw [withComps, overwrite_nil]
    exact congrArg loadAll (if_pos hpos).symm
  | append_singleton good c ih =>
    rw [List.length_append, List.length_singleton] at hlen
    rw [List.map_append, List.nodup_append] at hids
    obtain ⟨hids, -, hnew⟩ := hids
    have hdup : dupId (withComps good s.frame) good.length c.id = false := by
      rw [← Bool.not_eq_true, dupId_withComps (by omega)]
      exact fun hc => hnew _ hc _ List.mem_cons_self rfl
    rw [List.flatMap_append, dataEntries_append, List.append_assoc,
      ih (by omega) (fun e he => hgood e (List.mem_append_left _ he)) hids, List.flatMap_singleton,
      sofNext_waits (s := withFrame (withComps good s.frame) s) hlen, List.length_append, List.length_singleton]
    refine (loadAll_sofComp _ _ _ _ [] f _).trans (congrArg loadAll ?_)
    refine (sofComponent_accepts (hgood c (by simp)) hdup).trans ?_
    rw [withFrame_loading, sofNext_loading rfl]
    refine congrArg (fun v => sofNext _ (idleWith f (withFrame { s.frame with comps := v } s))) ?_
    exact setIfInBounds_overwrite ..

/-- LOAD_SOF after an accepted header and some good components. -/
theorem exec_loadSof_components {s : State} {x y : Half} {n : Nat} {good : List Component} {more : List Byte} {len : Half}
    {ob : Word} {rest : List FifoEntry} (hpace : s.pace = .whole) (hv : s.frame.valid = false) (hx : x ≠ 0#16)
    (hy : y ≠ 0#16) (hn : n = 1 ∨ n = 3) (hlen : len.toNat = 6 + 3 * n) (hcount : good.length ≤ n)
    (hgood : ∀ c ∈ good, c.sound) (hids : (good.map (fun c => c.id)).Nodup)
    (h : CommandReady 0x03 0xC0 len ob
      ([8, y.extractLsb' 8 8, y.extractLsb' 0 8, x.extractLsb' 8 8, x.extractLsb' 0 8, BitVec.ofNat 8 n] ++
        good.flatMap componentBytes ++ more) rest s) :
    exec (.loadSof 0xC0 len) s =
      .next (loadAll (sofNext good.length (idleWith (dataEntries more ++ rest)
        (withFrame (withComps good (sized x y (BitVec.ofNat 2 n) s.frame)) (takeCommand 0x03 s))))) := by
  have hnf : (BitVec.ofNat 2 n).toNat = n := by rcases hn with rfl | rfl <;> rfl
  rw [exec_loadSof hpace h hv (by omega), List.append_assoc]
  simp only [List.cons_append, List.nil_append]
  rw [loadAll_sofHeader, sofHeader_accepts hx hy hn hlen, dataEntries_append,
    List.append_assoc, loadAll_sofComponents (by rw [withFrame_frame]; simp only [sized, hnf]; omega)
      (by rw [withFrame_frame]; simp only [sized, hnf]; exact hcount) hgood hids]
  rfl

end Sys2Proof.Machine
end

section
/-! SUPPORT. The last step of LOAD_SOF (R97 step 4), and what a payload of LOAD_SOF must not be. -/

namespace Sys2Proof.Machine

open Sys2Proof.Spec

/-! The maxima, the sampling check and the geometry. -/

theorem foldl_max_eq {l : List Nat} {m : Nat} (hm : m ∈ l) (hle : ∀ n ∈ l, n ≤ m) : l.foldl max 0 = m := by
  have h : (0 :: l).max? = some m :=
    List.max?_eq_some_iff.2 ⟨List.mem_cons_of_mem 0 hm, fun n hn =>
      (List.mem_cons.1 hn).elim (fun e => e ▸ m.zero_le) (hle n)⟩
  exact Option.some.inj (List.max?_cons'.symm.trans h)

theorem maxH_eq {F : Frame} {m : Nat} (hm : ∃ c ∈ frameComps F, c.h.toNat = m) (hle : ∀ c ∈ frameComps F, c.h.toNat ≤ m) :
    maxH F = m :=
  foldl_max_eq (List.mem_map.2 hm) (List.forall_mem_map.2 hle)

theorem maxV_eq {F : Frame} {m : Nat} (hm : ∃ c ∈ frameComps F, c.v.toNat = m) (hle : ∀ c ∈ frameComps F, c.v.toNat ≤ m) :
    maxV F = m :=
  foldl_max_eq (List.mem_map.2 hm) (List.forall_mem_map.2 hle)

theorem frameComps_withComps {comps : List Component} {F : Frame} (h : comps.length = F.nf.toNat) :
    frameComps (withComps comps F) = comps := by
  unfold frameComps
  rw [show (withComps comps F).nf.toNat = comps.length from h.symm]
  exact take_overwrite _ _ (by have := F.nf.isLt; omega)

theorem samplingUnsupported_iff {F : Frame} (h : F.nf = 3#2) :
    samplingUnsupported F = true ↔
      (∃ c ∈ frameComps F, F.hmax.toNat % c.h.toNat ≠ 0 ∨ F.vmax.toNat % c.v.toNat ≠ 0) ∨ 10 < blocksPerMcu F := by
  simp [samplingUnsupported, h]

theorem samplingUnsupported_one {F : Frame} (h : F.nf = 1#2) : samplingUnsupported F = false := by
  rw [samplingUnsupported, h]
  rfl

/-- R106: the least count of MCUs that cover the image. -/
theorem mcuCount_covers {n f : Nat} (hn : 0 < n) (hf : 0 < f) :
    8 * f * (mcuCount n f - 1) < n ∧ n ≤ 8 * f * mcuCount n f := by
  have hlo := Nat.mul_div_le (n + 8 * f - 1) (8 * f)
  have hhi := Nat.lt_mul_div_succ (n + 8 * f - 1) (show 0 < 8 * f by omega)
  have hpos := mcuCount_pos hn hf
  rw [mcuCount] at *
  rw [Nat.mul_add_one] at hhi
  rw [Nat.mul_sub_one]
  omega

theorem withGeometry_covers {F : Frame} (hx : F.x ≠ 0#16) (hy : F.y ≠ 0#16) (hmax : 0 < F.hmax.toNat ∧ 0 < F.vmax.toNat) :
    8 * F.hmax.toNat * ((withGeometry F).mcux - 1) < F.x.toNat ∧ F.x.toNat ≤ 8 * F.hmax.toNat * (withGeometry F).mcux ∧
      8 * F.vmax.toNat * ((withGeometry F).mcuy - 1) < F.y.toNat ∧ F.y.toNat ≤ 8 * F.vmax.toNat * (withGeometry F).mcuy := by
  obtain ⟨hxlo, hxhi⟩ := mcuCount_covers (half_toNat_pos hx) hmax.1
  obtain ⟨hylo, hyhi⟩ := mcuCount_covers (half_toNat_pos hy) hmax.2
  exact ⟨hxlo, hxhi, hylo, hyhi⟩

/-- LOAD_SOF ends with the frame loaded where the sampling is supported. -/
theorem sofEnd_accepts {F : Frame} (h : samplingUnsupported (withMaxima (effectiveSampling F)) = false)
    (f : List FifoEntry) (s : State) :
    sofEnd (idleWith f (withFrame F s)) = idleWith f (withFrame (withGeometry (withMaxima (effectiveSampling F))) s) :=
  if_neg (Bool.eq_false_iff.1 h)

theorem sofEnd_rejects {F : Frame} (h : samplingUnsupported (withMaxima (effectiveSampling F)) = true)
    (f : List FifoEntry) (s : State) :
    sofEnd (idleWith f (withFrame F s)) = raise .sampling (idleWith f (withFrame (withMaxima (effectiveSampling F)) s)) :=
  if_pos h

theorem sofNext_ends {j : Nat} {s : State} (h : s.frame.nf.toNat ≤ j) (f : List FifoEntry) :
    sofNext j (idleWith f s) = sofEnd (idleWith f s) := if_neg (Nat.not_lt.2 h)

theorem loadAll_idleWith (f : List FifoEntry) (s : State) : loadAll (idleWith f s) = idleWith f s :=
  loadAll_loadEnd (idleWith f s)

theorem factored_withComps {comps : List Component} {F : Frame} (hn : F.nf = 1#2 ∨ F.nf = 3#2)
    (hlen : comps.length = F.nf.toNat) (hcomps : ∀ c ∈ comps, c.sound) : Factored (withComps comps F) := by
  refine ⟨hn, fun j hj => hcomps _ ?_⟩
  have := comp_mem_frameComps (f := withComps comps F) hj
  rwa [frameComps_withComps hlen] at this

/-- The frame registers before step 4 of R97 (`takenFrame`), and with the effective factors and the maxima of that step. -/
def takenFrame (x y : Half) (comps : List Component) (F : Frame) : Frame :=
  withComps comps (sized x y (BitVec.ofNat 2 comps.length) F)

def loadedFrame (x y : Half) (comps : List Component) (F : Frame) : Frame :=
  withMaxima (effectiveSampling (takenFrame x y comps F))

section
variable {x y : Half} {comps : List Component} {F : Frame}

theorem takenFrame_factored (hn : comps.length = 1 ∨ comps.length = 3) (hsound : ∀ c ∈ comps, c.sound) :
    Factored (takenFrame x y comps F) := by
  refine factored_withComps ?_ ?_ hsound
  · rcases hn with h | h <;> simp [sized, h]
  · rcases hn with h | h <;> simp [sized, h]

theorem loadedFrame_maxima_pos (hn : comps.length = 1 ∨ comps.length = 3) (hsound : ∀ c ∈ comps, c.sound) :
    0 < (loadedFrame x y comps F).hmax.toNat ∧ 0 < (loadedFrame x y comps F).vmax.toNat := by
  have hfac := effectiveSampling_factored (takenFrame_factored (x := x) (y := y) (F := F) hn hsound)
  rw [loadedFrame, withMaxima_hmax hfac, withMaxima_vmax hfac]
  exact ⟨(maxH_bounds hfac).1, (maxV_bounds hfac).1⟩

theorem loadedFrame_size (x y : Half) (comps : List Component) (F : Frame) :
    (loadedFrame x y comps F).x = x ∧ (loadedFrame x y comps F).y = y ∧
      (loadedFrame x y comps F).nf = BitVec.ofNat 2 comps.length := by
  unfold loadedFrame effectiveSampling
  split_ifs <;> exact ⟨rfl, rfl, rfl⟩

/-! Three components are loaded as they are. -/

section
variable (h3 : comps.length = 3)
include h3

theorem takenFrame_three : (takenFrame x y comps F).nf = 3#2 := by
  rw [takenFrame, h3]
  rfl

theorem loadedFrame_three : loadedFrame x y comps F = withMaxima (takenFrame x y comps F) := by
  rw [loadedFrame, effectiveSampling_three (takenFrame_three h3)]

theorem frameComps_loadedFrame : frameComps (loadedFrame x y comps F) = comps := by
  rw [loadedFrame_three h3]
  exact frameComps_withComps (F := sized x y _ F) (by rw [h3]; rfl)

theorem loadedFrame_comps : (loadedFrame x y comps F).comps.toList = comps := by
  have hall := take_overwrite F.comps comps h3.le
  rw [h3, List.take_of_length_le (by simp)] at hall
  rw [loadedFrame_three h3]
  exact hall

theorem loadedFrame_hmax (hsound : ∀ c ∈ comps, c.sound) {m : Nat} (hm : ∃ c ∈ comps, c.h.toNat = m)
    (hle : ∀ c ∈ comps, c.h.toNat ≤ m) : (loadedFrame x y comps F).hmax.toNat = m := by
  rw [← frameComps_loadedFrame h3 (x := x) (y := y) (F := F), loadedFrame_three h3] at hm hle
  rw [loadedFrame_three h3, withMaxima_hmax (takenFrame_factored (.inr h3) hsound)]
  exact maxH_eq hm hle

theorem loadedFrame_vmax (hsound : ∀ c ∈ comps, c.sound) {m : Nat} (hm : ∃ c ∈ comps, c.v.toNat = m)
    (hle : ∀ c ∈ comps, c.v.toNat ≤ m) : (loadedFrame x y comps F).vmax.toNat = m := by
  rw [← frameComps_loadedFrame h3 (x := x) (y := y) (F := F), loadedFrame_three h3] at hm hle
  rw [loadedFrame_three h3, withMaxima_vmax (takenFrame_factored (.inr h3) hsound)]
  exact maxV_eq hm hle

/-- The sampling check of R97 step 4. -/
theorem samplingUnsupported_loadedFrame :
    samplingUnsupported (loadedFrame x y comps F) = true ↔
      (∃ c ∈ comps, (loadedFrame x y comps F).hmax.toNat % c.h.toNat ≠ 0 ∨
        (loadedFrame x y comps F).vmax.toNat % c.v.toNat ≠ 0) ∨
      10 < (comps.map (fun c => c.h.toNat * c.v.toNat)).sum := by
  have hnf : (loadedFrame x y comps F).nf = 3#2 := by
    rw [loadedFrame_three h3]
    exact takenFrame_three (x := x) (y := y) (F := F) h3
  rw [samplingUnsupported_iff hnf, blocksPerMcu, frameComps_loadedFrame h3]

theorem accepted_three_supported {hm vm : Nat} (h : AcceptedComponents comps hm vm) :
    samplingUnsupported (loadedFrame x y comps F) = false := by
  obtain ⟨hratio, hblocks⟩ := h.sampling h3
  rw [← Bool.not_eq_true, samplingUnsupported_loadedFrame h3, loadedFrame_hmax h3 h.factors h.hmax.2 h.hmax.1,
    loadedFrame_vmax h3 h.factors h.vmax.2 h.vmax.1]
  rintro (⟨c, hc, hbad⟩ | hmany)
  · have := hratio c hc
    omega
  · omega

end

/-- A single component is loaded with the effective factors 1x1. -/
theorem loadedFrame_one (c : Component) :
    (loadedFrame x y [c] F).hmax = 1#3 ∧ (loadedFrame x y [c] F).vmax = 1#3 ∧
      (loadedFrame x y [c] F).comps[0] = { c with h := 1, v := 1 } ∧
      (loadedFrame x y [c] F).comps[1] = F.comps[1] ∧ (loadedFrame x y [c] F).comps[2] = F.comps[2] ∧
      samplingUnsupported (loadedFrame x y [c] F) = false := by
  have hnf : (takenFrame x y [c] F).nf = 1#2 := rfl
  have h0 : (takenFrame x y [c] F).comps[0] = c := getElem_overwrite ..
  have hrest : ∀ i, (hi : i < 3) → i ≠ 0 → (takenFrame x y [c] F).comps[i] = F.comps[i] := by
    intro i hi hne
    refine (getElem_overwrite F.comps [c] i hi).trans (List.getD_eq_default _ _ ?_)
    simp only [List.length_singleton]
    omega
  rw [loadedFrame, effectiveSampling_one hnf, h0]
  refine ⟨?hmax, ?vmax, ?_, ?_, ?_, samplingUnsupported_one rfl⟩
  case hmax =>
    rw [withMaxima, maxH, frameComps_one rfl]
    simp
  case vmax =>
    rw [withMaxima, maxV, frameComps_one rfl]
    simp
  · exact Vector.getElem_set_self ..
  · exact (Vector.getElem_set_ne (by decide) (by decide) (by decide)).trans (hrest 1 (by decide) (by decide))
  · exact (Vector.getElem_set_ne (by decide) (by decide) (by decide)).trans (hrest 2 (by decide) (by decide))

theorem accepted_supported {hm vm : Nat} (h : AcceptedComponents comps hm vm) :
    samplingUnsupported (loadedFrame x y comps F) = false := by
  rcases h.count with h1 | h3
  · obtain ⟨c, rfl⟩ := List.length_eq_one_iff.1 h1
    obtain ⟨-, -, -, -, -, hs⟩ := loadedFrame_one (x := x) (y := y) (F := F) c
    exact hs
  · exact accepted_three_supported h3 h

end

/-- LOAD_SOF with the bytes of all its components good: step 4 of R97 is next. -/
theorem exec_loadSof_end {s : State} {x y : Half} {comps : List Component} {more : List Byte} {len : Half} {ob : Word}
    {rest : List FifoEntry} (hpace : s.pace = .whole) (hv : s.frame.valid = false) (hx : x ≠ 0#16) (hy : y ≠ 0#16)
    (hn : comps.length = 1 ∨ comps.length = 3) (hlen : len.toNat = 6 + 3 * comps.length) (hsound : ∀ c ∈ comps, c.sound)
    (hids : (comps.map (fun c => c.id)).Nodup) (h : CommandReady 0x03 0xC0 len ob (sofBytes x y comps ++ more) rest s) :
    exec (.loadSof 0xC0 len) s =
      .next (loadAll (sofEnd (idleWith (dataEntries more ++ rest)
        (withFrame (takenFrame x y comps s.frame) (takeCommand 0x03 s))))) := by
  have hnf : (takenFrame x y comps s.frame).nf.toNat ≤ comps.length := by
    rcases hn with h | h <;> rw [takenFrame, h] <;> exact le_rfl
  rw [exec_loadSof_components hpace hv hx hy hn hlen le_rfl hsound hids h]
  exact congrArg (fun t => Host.Outcome.next (loadAll t)) (sofNext_ends (s := withFrame _ _) hnf _)

/-- Settles O19: the header, the components and the geometry are loaded, and the sampling check passes. -/
theorem loadSofLoadsTheFrame : Obligations.LoadSofLoadsTheFrame := by
  intro s x y comps hm vm len ob rest hpace hready hv hx hy hacc hlen
  obtain ⟨ex, ey, enf⟩ := loadedFrame_size x y comps s.frame
  have hcount : (BitVec.ofNat 2 comps.length).toNat = comps.length := by rcases hacc.count with h | h <;> rw [h] <;> rfl
  rw [← List.append_nil (sofBytes x y comps)] at hready
  have hexec := exec_loadSof_end hpace hv hx hy hacc.count hlen hacc.factors hacc.ids hready
  rw [sofEnd_accepts (accepted_supported hacc), loadAll_idleWith] at hexec
  have hcovers := withGeometry_covers (by rwa [ex]) (by rwa [ey]) (loadedFrame_maxima_pos hacc.count hacc.factors)
  rw [ex, ey] at hcovers
  obtain ⟨hxlo, hxhi, hylo, hyhi⟩ := hcovers
  refine ⟨_, hexec, rfl, rfl, ex, ey, (congrArg BitVec.toNat enf).trans hcount, fun h3 => ?three, fun h1 => ?one,
    hxlo, hxhi, hylo, hyhi, rfl⟩
  case three =>
    exact ⟨loadedFrame_hmax h3 hacc.factors hacc.hmax.2 hacc.hmax.1,
      loadedFrame_vmax h3 hacc.factors hacc.vmax.2 hacc.vmax.1, loadedFrame_comps h3⟩
  case one =>
    obtain ⟨c, rfl⟩ := List.length_eq_one_iff.1 h1
    obtain ⟨eH, eV, e0, e1, e2, -⟩ := loadedFrame_one (x := x) (y := y) (F := s.frame) c
    exact ⟨eH, eV, fun _ hc => Option.some.inj hc ▸ e0, e1, e2⟩

end Sys2Proof.Machine
end

section
/-! SUPPORT. What LOAD_SOF rejects (R97, R91). -/

namespace Sys2Proof.Machine

open Sys2Proof.Spec

theorem loadSof_variant {arg : Byte} (h : sofKind arg = .variant) (len : Nat) (s : State) :
    loadSof arg len s = raise .sofVariant s := by
  rw [loadSof, h]

theorem loadSof_notSof {arg : Byte} (h : sofKind arg = .notSof) (len : Nat) (s : State) :
    loadSof arg len s = raise .badArg s := by
  rw [loadSof, h]

theorem sofKind_variant {arg : Byte}
    (h : arg ∈ [0xC1#8, 0xC2#8, 0xC3#8, 0xC5#8, 0xC6#8, 0xC7#8, 0xC9#8, 0xCA#8, 0xCB#8, 0xCD#8, 0xCE#8, 0xCF#8]) :
    sofKind arg = .variant := by
  rw [sofKind, if_neg (by rintro rfl; exact absurd h (by decide)), if_pos h]

theorem sofKind_notSof {arg : Byte} (h : arg.extractLsb' 4 4 ≠ 0xC#4 ∨ arg ∈ [0xC4#8, 0xC8#8, 0xCC#8]) :
    sofKind arg = .notSof := by
  revert arg; decide

/-- Settles O20: the argument, the state and the length stand before the header's bytes, and each check of the header raises
its error. -/
theorem loadSofRejectsABadHeader : Obligations.LoadSofRejectsABadHeader := by
  intro s arg len ob payload rest hpace hready
  refine ⟨fun h => ?variant, fun h => ?notSof, fun harg hv => ?loaded, fun harg hv hlen => ?short,
    fun harg hv hlen hbytes op a l o rest' hrest => ?sequence, fun harg hv hlen p y1 y0 x1 x0 nf more hbytes => ?header⟩
  case variant =>
    refine ⟨_, rfl, ?_⟩
    rw [loadSof_variant (sofKind_variant h)]
    exact errorIs_raise _ rfl
  case notSof =>
    refine ⟨_, rfl, ?_⟩
    rw [loadSof_notSof (sofKind_notSof h)]
    exact errorIs_raise _ rfl
  case loaded =>
    refine ⟨_, rfl, ?_⟩
    rw [loadSof_baseline harg, if_pos (by exact hv)]
    exact errorIs_raise _ rfl
  case short =>
    refine ⟨_, rfl, ?_⟩
    rw [loadSof_baseline harg, if_neg (by exact Bool.eq_false_iff.1 hv), if_pos hlen]
    exact errorIs_raise _ rfl
  case sequence =>
    subst harg
    refine ⟨_, exec_loadSof hpace hready hv hlen, ?_⟩
    exact (sofHeader_collects _).errorIs_cmd (fun _ _ => trivial) hbytes ⟨op, a, l, o, rest', hrest⟩ rfl
  case header =>
    subst harg
    have hexec := exec_loadSof hpace hready hv hlen
    rw [hbytes, loadAll_sofHeader, sofHeader_eq] at hexec
    simp only at hexec
    refine ⟨fun hp => ⟨_, hexec, ?precision⟩, fun hp h1 h0 => ⟨_, hexec, ?dnl⟩, fun hp hy => ⟨fun h1 h0 => ⟨_, hexec, ?width⟩,
      fun hx => ⟨fun h => ⟨_, hexec, ?noComponents⟩, fun h => ⟨_, hexec, ?count⟩, fun h hlen' => ⟨_, hexec, ?length⟩⟩⟩⟩
    case precision =>
      rw [if_pos hp]
      exact errorIs_loadAll _ rfl
    all_goals rw [if_neg (not_not.2 hp)]
    case dnl =>
      rw [if_pos ((beHalf_eq_zero_iff _ _).2 ⟨h1, h0⟩)]
      exact errorIs_loadAll _ rfl
    all_goals rw [if_neg (mt (beHalf_eq_zero_iff _ _).1 hy)]
    case width =>
      rw [if_pos ((beHalf_eq_zero_iff _ _).2 ⟨h1, h0⟩)]
      exact errorIs_loadAll _ rfl
    all_goals rw [if_neg (mt (beHalf_eq_zero_iff _ _).1 hx)]
    case noComponents =>
      rw [if_pos h]
      exact errorIs_loadAll _ rfl
    case count =>
      have hnf : nf ≠ 0#8 ∧ nf ≠ 1#8 ∧ nf ≠ 3#8 := by
        rcases h with rfl | h
        · decide
        · refine ⟨?_, ?_, ?_⟩ <;> rintro rfl <;> exact absurd h (by decide)
      rw [if_neg hnf.1, if_pos hnf.2]
      exact errorIs_loadAll _ rfl
    case length =>
      rw [if_neg (by rcases h with rfl | rfl <;> decide), if_neg (by rintro ⟨h1, h3⟩; exact h.elim h1 h3), if_pos hlen']
      exact errorIs_loadAll _ rfl

theorem sofComponent_dupId {j : Nat} {c : Byte} {s : State} (h : dupId s.frame j c = true) (hv tq : Byte) :
    sofComponent j c hv tq s = raise .sofDupId s := if_pos h

theorem sofComponent_badSampling {j : Nat} {c hv : Byte} {s : State} (hdup : dupId s.frame j c = false)
    (h : hiNibble hv = 0#4 ∨ 4 < (hiNibble hv).toNat ∨ loNibble hv = 0#4 ∨ 4 < (loNibble hv).toNat) (tq : Byte) :
    sofComponent j c hv tq s = raise .sofBadSampling s := by
  have hzero : ∀ b : BitVec 4, b = 0#4 ↔ b.toNat < 1 := by decide
  rw [hzero, hzero] at h
  rw [sofComponent, hdup, if_neg nofun, if_pos h]

theorem sofComponent_badQuantId {j : Nat} {c hv tq : Byte} {s : State} (hdup : dupId s.frame j c = false)
    (h1 : 1 ≤ (hiNibble hv).toNat) (h2 : (hiNibble hv).toNat ≤ 4) (v1 : 1 ≤ (loNibble hv).toNat)
    (v2 : (loNibble hv).toNat ≤ 4) (htq : 3 < tq.toNat) : sofComponent j c hv tq s = raise .sofBadQuantId s := by
  rw [sofComponent, hdup, if_neg nofun, if_neg (by omega), if_pos htq]

/-- Settles O21: the good components are loaded, and the next one's first failing check, or the sampling check, raises. -/
theorem loadSofRejectsABadComponent : Obligations.LoadSofRejectsABadComponent := by
  intro s x y n good len ob more rest hpace hv hx hy hn hlen hcount hsound hids hready
  have hnf : (BitVec.ofNat 2 n).toNat = n := by rcases hn with rfl | rfl <;> rfl
  have hexec := exec_loadSof_components hpace hv hx hy hn hlen hcount hsound hids hready
  refine ⟨fun hmore hshort op a l o rest' hrest => ⟨_, hexec, ?sequence⟩, fun hmore c hvByte tq post hbytes => ?component,
    fun h3 hn3 hbad => ?sampling⟩
  case sequence =>
    rw [sofNext_waits (s := withFrame _ _) (hnf.symm ▸ hmore)]
    exact (sofComp_collects _).errorIs_cmd (fun _ _ => trivial) hshort ⟨op, a, l, o, rest', hrest⟩ rfl
  case component =>
    rw [sofNext_waits (s := withFrame _ _) (hnf.symm ▸ hmore), hbytes, loadAll_sofComp] at hexec
    have hdup := dupId_withComps (hcount.trans (by omega)) (sized x y (BitVec.ofNat 2 n) s.frame) c
    refine ⟨fun hc => ⟨_, hexec, ?dupId⟩, fun hc => ⟨fun hfactor => ⟨_, hexec, ?badSampling⟩,
      fun h1 h2 v1 v2 htq => ⟨_, hexec, ?badQuantId⟩⟩⟩
    case dupId =>
      rw [sofComponent_dupId (hdup.2 hc)]
      exact errorIs_loadAll _ rfl
    all_goals have hnew := Bool.eq_false_iff.2 (mt hdup.1 hc)
    case badSampling =>
      rw [sofComponent_badSampling hnew hfactor]
      exact errorIs_loadAll _ rfl
    case badQuantId =>
      rw [sofComponent_badQuantId hnew h1 h2 v1 v2 htq]
      exact errorIs_loadAll _ rfl
  case sampling =>
    obtain rfl : n = good.length := hn3.trans h3.symm
    have hrejected : samplingUnsupported (loadedFrame x y good s.frame) = true := by
      rw [samplingUnsupported_loadedFrame h3]
      rcases hbad with hmany | ⟨c, hc, d, hd, hle, hratio⟩ | ⟨c, hc, d, hd, hle, hratio⟩
      · exact .inr hmany
      · exact .inl ⟨c, hc, .inl (by rwa [loadedFrame_hmax h3 hsound ⟨d, hd, rfl⟩ hle])⟩
      · exact .inl ⟨c, hc, .inr (by rwa [loadedFrame_vmax h3 hsound ⟨d, hd, rfl⟩ hle])⟩
    refine ⟨_, exec_loadSof_end hpace hv hx hy hn hlen hsound hids hready, ?_⟩
    rw [sofEnd_rejects hrejected]
    exact errorIs_loadAll _ rfl

end Sys2Proof.Machine
end

section
/-! SUPPORT. START_SCAN (R98, R99): what it does with its header and with the components before the one in question. -/

namespace Sys2Proof.Machine

open Sys2Proof.Spec

/-- The state when START_SCAN has taken its entry and the region at its output base (R55). -/
def scanTaken (s : State) : State := { takeCommand 0x04 s with clobbered := [] }

@[simp] theorem scanTaken_frame (s : State) : (scanTaken s).frame = s.frame := rfl

theorem headOb_ready {op arg : Byte} {len : Half} {ob : Word} {payload : List Byte} {rest : List FifoEntry} {s : State}
    (h : CommandReady op arg len ob payload rest s) : headOb s = ob := by
  obtain ⟨-, hf⟩ := h
  rw [headOb, hf]

theorem exec_startScan {s : State} {arg : Byte} {len : Half} {ob : Word} {payload : List Byte} {rest : List FifoEntry}
    (hpace : s.pace = .whole) (h : CommandReady 0x04 arg len ob payload rest s) (hv : s.frame.valid = true)
    (hlen : 1 ≤ len.toNat) :
    exec (.startScan arg len) s =
      .next (loadAll (loading (.sosCount len.toNat ob) (dataEntries payload ++ rest) (scanTaken s))) := by
  have hv' : ¬ (!(takeCommand 0x04 s).frame.valid) = true := by
    rw [Bool.not_eq_true, Bool.not_eq_false']
    exact hv
  refine congrArg Host.Outcome.next ?_
  rw [startScan, if_neg hv', if_neg (by omega), headOb_ready h, takeCommand_ready h]
  exact runLoad_dispatch hpace le_rfl

/-! The byte Ns. -/

theorem sosCount_badCount {ns : Byte} (h : ns = 0#8 ∨ 4 < ns.toNat) (len : Nat) (ob : Word) (s : State) :
    sosCount len ob ns s = raise .sosBadCount s := if_pos h

section
variable {ns : Byte} (h1 : 1 ≤ ns.toNat) (h4 : ns.toNat ≤ 4) {len : Nat} (ob : Word) {s : State}
include h1 h4

theorem sosCount_inRange :
    sosCount len ob ns s =
      if len ≠ 4 + 2 * ns.toNat then raise .sosLength s
      else if ns.toNat ≠ s.frame.nf.toNat then raise .scanSubset s
      else loadAt (.sosComp 0 ob []) s := by
  have hns : ¬ (ns = 0#8 ∨ 4 < ns.toNat) := by
    rintro (rfl | h)
    · exact absurd h1 (by decide)
    · omega
  rw [sosCount, if_neg hns]

theorem sosCount_badLength (hlen : len ≠ 4 + 2 * ns.toNat) : sosCount len ob ns s = raise .sosLength s := by
  rw [sosCount_inRange h1 h4, if_pos hlen]

theorem sosCount_subset (hlen : len = 4 + 2 * ns.toNat) (hnf : ns.toNat ≠ s.frame.nf.toNat) :
    sosCount len ob ns s = raise .scanSubset s := by
  rw [sosCount_inRange h1 h4, if_neg (not_not.2 hlen), if_pos hnf]

theorem sosCount_accepts (hlen : len = 4 + 2 * ns.toNat) (hnf : ns.toNat = s.frame.nf.toNat) :
    sosCount len ob ns s = loadAt (.sosComp 0 ob []) s := by
  rw [sosCount_inRange h1 h4, if_neg (not_not.2 hlen), if_neg (not_not.2 hnf)]

end

/-! The components. -/

/-- The two bytes of a component of a scan header (R71). -/
def scanCompBytes (c : ScanComp) : List Byte := [c.cs, joinNibbles (BitVec.ofNat 4 c.td.val) (BitVec.ofNat 4 c.ta.val)]

/-- The tables of the first components are selected. -/
def selecting (comps : List ScanComp) (s : State) : State :=
  { s with td := overwrite s.td (comps.map fun c => c.td), ta := overwrite s.ta (comps.map fun c => c.ta) }

/-- The tables of component `j` are selected. -/
def selectTables (j : Nat) (c : ScanComp) (s : State) : State :=
  { s with td := s.td.setIfInBounds j c.td, ta := s.ta.setIfInBounds j c.ta }

theorem selectTables_selecting (good : List ScanComp) (c : ScanComp) (s : State) :
    selectTables good.length c (selecting good s) = selecting (good ++ [c]) s := by
  have htd := setIfInBounds_overwrite s.td (good.map fun e => e.td) c.td
  have hta := setIfInBounds_overwrite s.ta (good.map fun e => e.ta) c.ta
  rw [List.length_map] at htd hta
  unfold selectTables selecting
  simp only [htd, hta, List.map_append, List.map_singleton]

theorem selecting_some {comps : List ScanComp} {j : Fin 3} {c : ScanComp} (h : comps[j.val]? = some c) (s : State) :
    (selecting comps s).td[j] = c.td ∧ (selecting comps s).ta[j] = c.ta := by
  constructor <;> exact overwrite_some (by rw [List.getElem?_map, h]; rfl)

theorem selecting_none {comps : List ScanComp} {j : Fin 3} (h : comps[j.val]? = none) (s : State) :
    (selecting comps s).td[j] = s.td[j] ∧ (selecting comps s).ta[j] = s.ta[j] := by
  constructor <;> exact overwrite_none (by rw [List.getElem?_map, h]; rfl)

/-- Where START_SCAN stands before component `j` of its header, or after all of them. -/
def sosNext (j : Nat) (ob : Word) (s : State) : State :=
  if j < s.frame.nf.toNat then loadAt (.sosComp j ob []) s else loadAt (.sosTail ob []) s

theorem sosNext_component {j : Nat} {ob : Word} {l : LoadPos} {f : List FifoEntry} {s : State} (h : j < s.frame.nf.toNat) :
    sosNext j ob (loading l f s) = loading (.sosComp j ob []) f s := if_pos h

theorem sosNext_tail {j : Nat} {ob : Word} {l : LoadPos} {f : List FifoEntry} {s : State} (h : s.frame.nf.toNat ≤ j) :
    sosNext j ob (loading l f s) = loading (.sosTail ob []) f s := if_neg (Nat.not_lt.2 h)

theorem sosComp_collects (j : Nat) (ob : Word) : Collects (.sosComp j ob) 2 (fun _ => True)
    (fun got s => sosComponent j ob (byteAt got 0) (byteAt got 1) s) where
  more _ _ _ hlen _ := if_pos hlen
  last _ _ _ hlen _ := if_neg (by omega)

theorem loadAll_sosComp (j : Nat) (ob : Word) (cs t : Byte) (post : List Byte) (f : List FifoEntry) (s : State) :
    loadAll (loading (.sosComp j ob []) (dataEntries (cs :: t :: post) ++ f) s) =
      loadAll (sosComponent j ob cs t (loading (.sosComp j ob [cs]) (dataEntries post ++ f) s)) :=
  (sosComp_collects j ob).takes (bytes := [cs, t]) (fun _ _ => trivial) rfl (by decide) _ s

theorem compId_eq (F : Frame) (j : Fin 3) : compId F j.val = F.comps[j].id := by
  rw [compId, Vector.getElem?_eq_getElem j.isLt]
  rfl

theorem sosComponent_badComponent {j : Fin 3} {cs : Byte} {s : State} (h : cs ≠ s.frame.comps[j].id) (ob : Word) (t : Byte) :
    sosComponent j ob cs t s = raise .sosBadComponent s := by
  rw [sosComponent, compId_eq, if_pos h]

theorem sosComponent_badTable {j : Fin 3} {cs t : Byte} {s : State} (hcs : cs = s.frame.comps[j].id)
    (h : 3 < (hiNibble t).toNat ∨ 3 < (loNibble t).toNat) (ob : Word) :
    sosComponent j ob cs t s = raise .sosBadTable s := by
  rw [sosComponent, compId_eq, if_neg (not_not.2 hcs), if_pos h]

theorem toNat_tableNibble (t : Fin 4) : (BitVec.ofNat 4 t.val).toNat = t.val := by revert t; decide

/-- A component that names the frame's selects its tables. -/
theorem sosComponent_accepts {c : ScanComp} {j : Fin 3} {s : State} (h : c.cs = s.frame.comps[j].id) (ob : Word) :
    sosComponent j ob c.cs (joinNibbles (BitVec.ofNat 4 c.td.val) (BitVec.ofNat 4 c.ta.val)) s =
      sosNext (j + 1) ob (selectTables j c s) := by
  rw [sosComponent, compId_eq, if_neg (not_not.2 h)]
  simp only [hiNibble_joinNibbles, loNibble_joinNibbles, toNat_tableNibble, tableId_val]
  rw [if_neg (by omega)]
  rfl

/-- The components of a scan header that name the frame's select their tables one after another. -/
theorem loadAll_sosComponents {good : List ScanComp} {s : State} (hpos : 0 < s.frame.nf.toNat)
    (hlen : good.length ≤ s.frame.nf.toNat)
    (hnames : ∀ (j : Fin 3) (c : ScanComp), good[j.val]? = some c → c.cs = s.frame.comps[j].id) (ob : Word)
    (f : List FifoEntry) :
    loadAll (loading (.sosComp 0 ob []) (dataEntries (good.flatMap scanCompBytes) ++ f) s) =
      loadAll (sosNext good.length ob (loading (.sosComp 0 ob []) f (selecting good s))) := by
  induction good using List.reverseRecOn generalizing f with
  | nil =>
    rw [selecting, List.map_nil, List.map_nil, overwrite_nil, overwrite_nil]
    exact congrArg loadAll (if_pos hpos).symm
  | append_singleton good c ih =>
    rw [List.length_append, List.length_singleton] at hlen
    have h3 : good.length < 3 := by have := s.frame.nf.isLt; omega
    have hname : c.cs = s.frame.comps[(⟨good.length, h3⟩ : Fin 3)].id := hnames ⟨good.length, h3⟩ c (by simp)
    have hbefore : ∀ (j : Fin 3) (e : ScanComp), good[j.val]? = some e → e.cs = s.frame.comps[j].id := fun j e he =>
      hnames j e (by rw [List.getElem?_append_left (List.getElem?_eq_some_iff.1 he).1, he])
    rw [List.flatMap_append, dataEntries_append, List.append_assoc, ih (by omega) hbefore, List.flatMap_singleton,
      sosNext_component (s := selecting good s) hlen, List.length_append, List.length_singleton]
    refine (loadAll_sosComp _ _ _ _ [] f _).trans (congrArg loadAll ?_)
    refine (sosComponent_accepts (s := loading _ f (selecting good s)) (j := ⟨good.length, h3⟩) hname ob).trans ?_
    rw [← selectTables_selecting]
    rfl

/-- START_SCAN after an accepted count and some good components. -/
theorem exec_startScan_components {s : State} {n : Nat} {good : List ScanComp} {more : List Byte} {arg : Byte} {len : Half}
    {ob : Word} {rest : List FifoEntry} (hpace : s.pace = .whole) (hv : s.frame.valid = true) (hn : n = 1 ∨ n = 3)
    (hnf : s.frame.nf.toNat = n) (hlen : len.toNat = 4 + 2 * n) (hcount : good.length ≤ n)
    (hnames : ∀ (j : Fin 3) (c : ScanComp), good[j.val]? = some c → c.cs = s.frame.comps[j].id)
    (h : CommandReady 0x04 arg len ob (BitVec.ofNat 8 n :: good.flatMap scanCompBytes ++ more) rest s) :
    exec (.startScan arg len) s =
      .next (loadAll (sosNext good.length ob
        (loading (.sosComp 0 ob []) (dataEntries more ++ rest) (selecting good (scanTaken s))))) := by
  have hns : (BitVec.ofNat 8 n).toNat = n := by rcases hn with rfl | rfl <;> rfl
  rw [exec_startScan hpace h hv (by omega), List.cons_append, dataEntries_cons, List.cons_append, loadAll_byte, loadByte,
    sosCount_accepts (by omega) (by omega) _ (by omega) (by exact hns.trans hnf.symm), loadAt_loading, dataEntries_append,
    List.append_assoc, loadAll_sosComponents (s := scanTaken s) (by rw [scanTaken_frame]; omega)
      (by rw [scanTaken_frame]; omega) hnames]

/-! The end of the header. -/

theorem loadAll_scanInit (s : State) : loadAll (scanInit s) = scanInit s := loadAll_ended fun _ => nofun

theorem sosTail_collects (ob : Word) : Collects (.sosTail ob) 3 (fun _ => True)
    (fun got s => sosEnd ob (byteAt got 0) (byteAt got 1) (byteAt got 2) s) where
  more _ _ _ hlen _ := if_pos hlen
  last _ _ _ hlen _ := if_neg (by omega)

theorem loadAll_sosTail (ob : Word) (ss se a : Byte) (post : List Byte) (f : List FifoEntry) (s : State) :
    loadAll (loading (.sosTail ob []) (dataEntries (ss :: se :: a :: post) ++ f) s) =
      loadAll (sosEnd ob ss se a (loading (.sosTail ob [ss, se]) (dataEntries post ++ f) s)) :=
  (sosTail_collects ob).takes (bytes := [ss, se, a]) (fun _ _ => trivial) rfl (by decide) _ s

theorem mem_take_finRange {n m : Nat} (j : Fin n) : j ∈ (List.finRange n).take m ↔ j.val < m := by
  rw [List.mem_take_iff_getElem]
  constructor
  · rintro ⟨i, hi, rfl⟩
    simpa using (lt_min_iff.1 hi).1
  · exact fun h => ⟨j.val, lt_min h (by simp), by simp⟩

/-- The check of the tables is about those the header selects. -/
theorem tablesLoaded_selecting {comps : List ScanComp} {s : State} (h : comps.length = s.frame.nf.toNat) :
    tablesLoaded (selecting comps s) = true ↔ NeedsLoaded comps s := by
  simp only [tablesLoaded, List.all_eq_true, mem_take_finRange, Bool.and_eq_true, and_assoc]
  constructor
  · intro hall j c hc
    obtain ⟨etd, eta⟩ := selecting_some hc s
    have hj : j.val < s.frame.nf.toNat := h ▸ (List.getElem?_eq_some_iff.1 hc).1
    have htables := hall j hj
    simp only [etd, eta] at htables
    exact htables
  · intro hall j hj
    have hc := List.getElem?_eq_getElem (l := comps) (h.symm ▸ hj : j.val < comps.length)
    obtain ⟨etd, eta⟩ := selecting_some hc s
    simp only [etd, eta]
    exact hall j _ hc

theorem sosEnd_progressive {ss se a : Byte} (h : ss ≠ 0#8 ∨ se ≠ 63#8 ∨ a ≠ 0#8) (ob : Word) (s : State) :
    sosEnd ob ss se a s = raise .progressive s := if_pos h

section
variable {ss se a : Byte} (hss : ss = 0#8) (hse : se = 63#8) (ha : a = 0#8) {ob : Word} {s : State}
include hss hse ha

theorem sosEnd_baseline :
    sosEnd ob ss se a s =
      if !tablesLoaded s then raise .tableNotLoaded s
      else if 2 ^ 32 < ob.toNat + 3 * s.frame.x.toNat * s.frame.y.toNat then raise .outRange s
      else scanInit { s with ob := ob } := by
  subst hss hse ha
  exact if_neg (by decide)

theorem sosEnd_notLoaded (h : ¬ tablesLoaded s = true) : sosEnd ob ss se a s = raise .tableNotLoaded s := by
  rw [sosEnd_baseline hss hse ha, if_pos (by simpa using h)]

theorem sosEnd_outRange (h : tablesLoaded s = true) (hregion : 2 ^ 32 < ob.toNat + 3 * s.frame.x.toNat * s.frame.y.toNat) :
    sosEnd ob ss se a s = raise .outRange s := by
  rw [sosEnd_baseline hss hse ha, h, if_neg nofun, if_pos hregion]

theorem sosEnd_starts (h : tablesLoaded s = true) (hregion : ob.toNat + 3 * s.frame.x.toNat * s.frame.y.toNat ≤ 2 ^ 32) :
    sosEnd ob ss se a s = scanInit { s with ob := ob } := by
  rw [sosEnd_baseline hss hse ha, h, if_neg nofun, if_neg (Nat.not_lt.2 hregion)]

end

/-- START_SCAN after its good components, all the frame's: the last three bytes of the header are next. -/
theorem exec_startScan_tail {s : State} {good : List ScanComp} {ss se a : Byte} {post : List Byte} {arg : Byte} {len : Half}
    {ob : Word} {rest : List FifoEntry} (hpace : s.pace = .whole) (hv : s.frame.valid = true)
    (hn : good.length = 1 ∨ good.length = 3) (hnf : s.frame.nf.toNat = good.length) (hlen : len.toNat = 4 + 2 * good.length)
    (hnames : ∀ (j : Fin 3) (c : ScanComp), good[j.val]? = some c → c.cs = s.frame.comps[j].id)
    (h : CommandReady 0x04 arg len ob
      (BitVec.ofNat 8 good.length :: good.flatMap scanCompBytes ++ ss :: se :: a :: post) rest s) :
    exec (.startScan arg len) s =
      .next (loadAll (sosEnd ob ss se a
        (loading (.sosTail ob [ss, se]) (dataEntries post ++ rest) (selecting good (scanTaken s))))) := by
  rw [exec_startScan_components hpace hv hn hnf hlen le_rfl hnames h,
    sosNext_tail (s := selecting good (scanTaken s)) (by exact hnf.le), loadAll_sosTail]

/-- The tables the scan needs, where the header's components are all read. -/
theorem tablesLoaded_tail {good : List ScanComp} {s : State} (h : good.length = s.frame.nf.toNat) (l : LoadPos)
    (f : List FifoEntry) :
    tablesLoaded (loading l f (selecting good (scanTaken s))) = true ↔ NeedsLoaded good s :=
  tablesLoaded_selecting (s := scanTaken s) h

/-- Settles O22: the header's components select their tables, and the last checks pass. -/
theorem startScanStartsTheScan : Obligations.StartScanStartsTheScan := by
  intro s comps arg len ob rest hpace hready hv hn hlen ⟨hcount, hnames⟩ hneeds hregion
  have hexec := exec_startScan_tail (ss := 0#8) (se := 63#8) (a := 0#8) (post := []) hpace hv hn hcount.symm
    hlen hnames hready
  rw [sosEnd_starts rfl rfl rfl ((tablesLoaded_tail hcount _ _).2 hneeds) hregion, loadAll_scanInit] at hexec
  refine ⟨_, hexec, rfl, fun j => ⟨?_, fun c hc => selecting_some hc (scanTaken s),
    fun hc => selecting_none hc (scanTaken s)⟩⟩
  simp

/-- Settles O23: the state, the length and the count are checked first; after the good components each check of the next
component, or of the end of the header, raises its error. -/
theorem startScanRejectsABadHeader : Obligations.StartScanRejectsABadHeader := by
  constructor
  · intro s arg len ob payload rest hpace hready
    have hpos : len ≠ 0#16 → 1 ≤ len.toNat := half_toNat_pos
    refine ⟨fun hv => ⟨_, rfl, ?noFrame⟩, fun hv hlen => ⟨_, rfl, ?noBytes⟩,
      fun hv hlen hbytes op a l o rest' hrest => ⟨_, exec_startScan hpace hready hv (hpos hlen), ?sequence⟩,
      fun hv hlen ns more hbytes => ?count⟩
    case noFrame =>
      rw [startScan, if_pos (by simpa using hv)]
      exact errorIs_raise _ rfl
    case noBytes =>
      subst hlen
      rw [startScan, if_neg (by simpa using hv), if_pos (by decide)]
      exact errorIs_raise _ rfl
    case sequence =>
      subst hbytes
      exact errorIs_cmd _ ⟨op, a, l, o, rest', hrest⟩ rfl
    case count =>
      have hexec := exec_startScan hpace hready hv (hpos hlen)
      rw [hbytes, dataEntries_cons, List.cons_append, loadAll_byte, loadByte] at hexec
      refine ⟨fun h => ⟨_, hexec, ?badCount⟩, fun h1 h4 h => ⟨_, hexec, ?badLength⟩, fun h1 h4 h hnf => ⟨_, hexec, ?subset⟩⟩
      case badCount =>
        rw [sosCount_badCount h]
        exact errorIs_loadAll _ rfl
      case badLength =>
        rw [sosCount_badLength h1 h4 _ h]
        exact errorIs_loadAll _ rfl
      case subset =>
        rw [sosCount_subset (s := loading _ _ (scanTaken s)) h1 h4 _ h hnf]
        exact errorIs_loadAll _ rfl
  · intro s n good more arg len ob rest hpace hv hn hnf hlen hcount hnames hready
    have hexec := exec_startScan_components hpace hv hn hnf hlen hcount hnames hready
    refine ⟨fun hshort op a l o rest' hrest => ⟨_, hexec, ?sequence⟩, fun j cs t post hj hjn hbytes => ?component,
      fun ss se a post hall hbytes => ?tail⟩
    case sequence =>
      rcases hshort with ⟨hlt, hshort⟩ | ⟨hall, hshort⟩
      · rw [sosNext_component (s := selecting good (scanTaken s)) (hnf.symm ▸ hlt)]
        exact (sosComp_collects _ _).errorIs_cmd (fun _ _ => trivial) hshort ⟨op, a, l, o, rest', hrest⟩ rfl
      · rw [sosNext_tail (s := selecting good (scanTaken s)) (hnf.trans hall.symm).le]
        exact (sosTail_collects _).errorIs_cmd (fun _ _ => trivial) hshort ⟨op, a, l, o, rest', hrest⟩ rfl
    case component =>
      have hwaits : good.length < s.frame.nf.toNat := by omega
      rw [sosNext_component (s := selecting good (scanTaken s)) hwaits, hbytes, loadAll_sosComp, ← hj] at hexec
      refine ⟨fun hcs => ⟨_, hexec, ?badComponent⟩, fun hcs ht => ⟨_, hexec, ?badTable⟩⟩
      case badComponent =>
        rw [sosComponent_badComponent (s := loading _ _ (selecting good (scanTaken s))) hcs]
        exact errorIs_loadAll _ rfl
      case badTable =>
        rw [sosComponent_badTable (s := loading _ _ (selecting good (scanTaken s))) hcs ht]
        exact errorIs_loadAll _ rfl
    case tail =>
      subst hall hbytes
      have hexec := exec_startScan_tail hpace hv hn hnf hlen hnames hready
      refine ⟨fun h => ⟨_, hexec, ?progressive⟩, ?_⟩
      case progressive =>
        rw [sosEnd_progressive h]
        exact errorIs_loadAll _ rfl
      have htables := tablesLoaded_tail hnf.symm (.sosTail ob [ss, se]) (dataEntries post ++ rest)
      refine ⟨fun hss hse ha hneeds => ⟨_, hexec, ?notLoaded⟩, fun hss hse ha hneeds hregion => ⟨_, hexec, ?outRange⟩⟩
      case notLoaded =>
        rw [sosEnd_notLoaded hss hse ha (mt htables.1 hneeds)]
        exact errorIs_loadAll _ rfl
      case outRange =>
        rw [sosEnd_outRange hss hse ha (htables.2 hneeds) hregion]
        exact errorIs_loadAll _ rfl

end Sys2Proof.Machine
end

section
/-! SUPPORT. The bit reader (R101 to R103): what `fill_byte` finds at the FIFO's head, and what a byte pair met where a coded
bit is needed does. -/

namespace Sys2Proof.Machine

theorem peekByte_head {s : State} {b : Byte} {rest : List FifoEntry} (h : s.fifo = .data b :: rest) :
    peekByte 0 s = .byte b := by
  simp [peekByte, h, FifoEntry.isData, FifoEntry.byte]

theorem peekByte_second {s : State} {a b : Byte} {rest : List FifoEntry} (h : s.fifo = .data a :: .data b :: rest) :
    peekByte 1 s = .byte b := by
  simp [peekByte, h, FifoEntry.isData, FifoEntry.byte]

theorem takeDataByte_eq {s : State} {b : Byte} {rest : List FifoEntry} (h : s.fifo = .data b :: rest) :
    takeDataByte b s = { s with fifo := rest, p := s.p + 1, cur := b, nbits := 8 } := by
  rw [takeDataByte, consume, h]
  rfl

theorem takeStuffed_eq {s : State} {a b : Byte} {rest : List FifoEntry} (h : s.fifo = .data a :: .data b :: rest) :
    takeStuffed s = { s with fifo := rest, p := s.p + 2, cur := 0xFF#8, nbits := 8 } := by
  rw [takeStuffed, consume, h]
  rfl

/-- A command entry that stands where the first byte is looked for, or the second after a byte FF (R90). -/
theorem fillByte_sequence {s : State} {op a : Byte} {l : Half} {o : Word} {rest : List FifoEntry}
    (h : s.fifo = .cmd op a l o :: rest ∨ s.fifo = .data 0xFF#8 :: .cmd op a l o :: rest) :
    fillByte s = .raised (raise .sequence s) := by
  rcases h with h | h
  · simp [fillByte, peekByte, h, FifoEntry.isData]
  · simp [fillByte, peekByte, h, FifoEntry.isData, FifoEntry.byte]

/-- Settles O25: by the entries at the FIFO's head. -/
theorem fillByteTakesOneByteOfCodedData : Obligations.FillByteTakesOneByteOfCodedData := by
  intro s
  refine ⟨fun b rest hf hb => ?dataByte, fun rest hf => ?stuffed, fun b rest hf hb => ?marker,
    fun op a l o rest hf => fillByte_sequence hf, fun hf => (fillByte_hold_iff s).2 ((bytesMissing_iff s).2 hf)⟩
  case dataByte => simp only [fillByte, peekByte_head hf, hb, ne_eq, not_false_eq_true, if_true, takeDataByte_eq hf]
  case stuffed =>
    simp only [fillByte, peekByte_head hf, peekByte_second hf, ne_eq, not_true_eq_false, if_false, if_true, takeStuffed_eq hf]
  case marker =>
    simp only [fillByte, peekByte_head hf, peekByte_second hf, ne_eq, not_true_eq_false, if_false, hb]

/-- Settles O26: the loop of `read_bits` from the value 0. -/
theorem readBitsDeliversTheCodedBits : Obligations.ReadBitsDeliversTheCodedBits := by
  intro s n hn
  obtain ⟨u, hloop, hrest⟩ := readBitsLoop_ended n 0 s hn
  rw [Nat.mul_zero, Nat.zero_add] at hloop
  exact ⟨u, hloop, hrest⟩

/-- Settles O31: the pair is taken whole, and the bits it stands for are those of a byte FF. -/
theorem stuffedPairGivesOnes : Obligations.StuffedPairGivesOnes := by
  intro s rest hf
  refine ⟨?_, fun hn => ?_⟩
  · rw [exec, execEcsStuffed, takeStuffed_eq hf]
  · rw [codedBits, codedBits, hf, hn, ecsBits_stuffed, lowBits_zero, List.nil_append]

/-- The region of a scan that an error ends holds any value (R55, R58, log 8). -/
theorem indetAfterAbort_scan {s : State} {q : ScanPos} (h : s.seq = .scan q) : indetAfterAbort s = region s :: s.indet := by
  simp only [indetAfterAbort, owned, scanBase, h]
  rfl

/-- Settles O33: the error entry, with the region of the running scan. -/
theorem markerEndsTheSegment : Obligations.MarkerEndsTheSegment := by
  intro s x q hs
  rw [exec, execEcsMarker, raise, indetAfterAbort_scan hs]
  rfl

end Sys2Proof.Machine
end

section
/-! SUPPORT. The signed values of a string of extra bits (R105). -/

namespace Sys2Proof.Machine

section
variable {sz : Nat} (hsz : 1 ≤ sz)
include hsz

theorem two_pow_pred : (2 : Int) ^ sz = 2 * 2 ^ (sz - 1) := by
  obtain ⟨k, rfl⟩ := Nat.exists_eq_succ_of_ne_zero (Nat.ne_of_gt hsz)
  exact pow_succ' 2 k

/-- Strings that begin with 0 give the lower range. -/
theorem extend_lower {v : Nat} (hv : v < 2 ^ (sz - 1)) : extend v sz = (v : Int) - 2 ^ sz + 1 := by
  rw [extend, if_neg (Nat.ne_of_gt hsz), if_pos hv]

/-- Strings that begin with 1 give the upper range. -/
theorem extend_upper {v : Nat} (hv : 2 ^ (sz - 1) ≤ v) : extend v sz = v := by
  rw [extend, if_neg (Nat.ne_of_gt hsz), if_neg (Nat.not_lt.2 hv)]

theorem extend_range (v : Nat) :
    (v < 2 ^ (sz - 1) ∧ extend v sz = (v : Int) - 2 ^ sz + 1 ∧ extend v sz < 0) ∨
      (2 ^ (sz - 1) ≤ v ∧ extend v sz = v ∧ 0 < extend v sz) := by
  have hpow := two_pow_pred hsz
  have hpos : (0 : Int) < 2 ^ (sz - 1) := by positivity
  rcases Nat.lt_or_ge v (2 ^ (sz - 1)) with h | h
  · have hv' : (v : Int) < 2 ^ (sz - 1) := by exact_mod_cast h
    exact .inl ⟨h, extend_lower hsz h, by rw [extend_lower hsz h]; omega⟩
  · have hv' : (2 : Int) ^ (sz - 1) ≤ v := by exact_mod_cast h
    exact .inr ⟨h, extend_upper hsz h, by rw [extend_upper hsz h]; omega⟩

/-- Different strings give different values. -/
theorem extend_injective {v w : Nat} (h : extend v sz = extend w sz) : v = w := by
  rcases extend_range hsz v with ⟨-, ev, sv⟩ | ⟨-, ev, sv⟩ <;>
    rcases extend_range hsz w with ⟨-, ew, sw⟩ | ⟨-, ew, sw⟩ <;> omega

/-- Every value of the two ranges is given. -/
theorem extend_surjective {d : Int}
    (hd : (2 ^ (sz - 1) ≤ d ∧ d ≤ 2 ^ sz - 1) ∨ (-(2 ^ sz - 1) ≤ d ∧ d ≤ -2 ^ (sz - 1))) :
    ∃ v : Nat, v < 2 ^ sz ∧ extend v sz = d := by
  have hpow := two_pow_pred hsz
  have hpos : (0 : Int) < 2 ^ (sz - 1) := by positivity
  rcases hd with ⟨hlo, hhi⟩ | ⟨hlo, hhi⟩
  · obtain ⟨v, rfl⟩ := Int.eq_ofNat_of_zero_le (a := d) (by omega)
    exact ⟨v, by zify; omega, extend_upper hsz (by zify; exact hlo)⟩
  · obtain ⟨v, hv⟩ := Int.eq_ofNat_of_zero_le (a := d + 2 ^ sz - 1) (by omega)
    have hlower : v < 2 ^ (sz - 1) := by zify; omega
    exact ⟨v, by zify; omega, by rw [extend_lower hsz hlower]; omega⟩

end

/-- Settles O30: by the string's first bit. -/
theorem extendIsABijection : Obligations.ExtendIsABijection := by
  refine ⟨fun v => if_pos rfl, fun sz hsz => ⟨fun v _ => ⟨extend_lower hsz, extend_upper hsz⟩, fun d hd => ?_⟩⟩
  obtain ⟨v, hv, hext⟩ := extend_surjective hsz hd
  exact ⟨v, ⟨hv, hext⟩, fun w ⟨_, hext'⟩ => extend_injective hsz (hext'.trans hext.symm)⟩

end Sys2Proof.Machine
end

section
/-! SUPPORT. The frame of the byte pairs and symbols of the entropy-coded segment (R101, R109 to R111). -/

namespace Sys2Proof.Machine

/-- `t` is `s` but for the reader, the predictors, the position in the block, the restart count, and what an error entry
writes. -/
def EcsKeeps (s t : State) : Prop :=
  t = { s with
    seq := t.seq, fifo := t.fifo, feMode := t.feMode, feCount := t.feCount, feThenStream := t.feThenStream, cur := t.cur,
    nbits := t.nbits, p := t.p, pred := t.pred, blk := t.blk, k := t.k, rst := t.rst, zz := t.zz, errEvt := t.errEvt,
    errClass := t.errClass, errCause := t.errCause, errOp := t.errOp, indet := t.indet }

theorem EcsKeeps.trans {s u t : State} (h : EcsKeeps s u) (h' : EcsKeeps u t) : EcsKeeps s t := by
  unfold EcsKeeps at h h' ⊢
  rw [h', h]

theorem ecsKeeps_reader {s u : State} (h : ReaderMoved u s) : EcsKeeps s u := by
  rw [EcsKeeps, h.same.1]

theorem raise_ecsKeeps (c : Cause) (s : State) : EcsKeeps s (raise c s) := rfl

theorem dcFinish_ecsKeeps (t v : Nat) (s : State) : EcsKeeps s (dcFinish t v s) := by
  unfold dcFinish
  simp only
  split_ifs <;> rfl

theorem acNext_ecsKeeps (k : Nat) (s : State) : EcsKeeps s (acNext k s) := by
  unfold acNext
  split_ifs <;> rfl

theorem acFinish_ecsKeeps (sz v : Nat) (s : State) : EcsKeeps s (acFinish sz v s) :=
  (show EcsKeeps s { s with zz := s.zz.setIfInBounds s.k (extend v sz) } from rfl).trans (acNext_ecsKeeps _ _)

/-- The extra bits of a symbol keep what its end keeps. -/
theorem afterBits_ecsKeeps {finish : Nat → State → State} (hfinish : ∀ v s, EcsKeeps s (finish v s))
    (pos : Nat → Nat → ScanPos) (fuel n v : Nat) (s : State) :
    EcsKeeps s (afterBits finish pos (readBitsLoop fuel n v s)) := by
  rcases readBitsLoop_cases fuel n v v s v.lt_two_pow_self with
    ⟨v', u, e, -, hu⟩ | ⟨n', v', u, e, -, -, -, hu⟩ | ⟨c, u, e, hu⟩ <;> rw [e]
  · exact (ecsKeeps_reader hu).trans (hfinish v' u)
  · exact (ecsKeeps_reader hu).trans rfl
  · exact (ecsKeeps_reader hu).trans (raise_ecsKeeps c u)

theorem execDcCategory_ecsKeeps {b : Byte} {s t : State} (h : execDcCategory b s = .next t) : EcsKeeps s t := by
  obtain rfl := Host.Outcome.next.inj h
  split_ifs
  · exact raise_ecsKeeps _ s
  · rw [dcExtra_eq]
    exact afterBits_ecsKeeps (dcFinish_ecsKeeps _) _ _ _ _ s

theorem execAcZrl_ecsKeeps {s t : State} (h : execAcZrl s = .next t) : EcsKeeps s t := by
  obtain rfl := Host.Outcome.next.inj h
  split_ifs
  · exact raise_ecsKeeps _ s
  · exact acNext_ecsKeeps _ s

theorem execAcRunSize_ecsKeeps {r sz : BitVec 4} {s t : State} (h : execAcRunSize r sz s = .next t) : EcsKeeps s t := by
  obtain rfl := Host.Outcome.next.inj h
  split_ifs
  · exact raise_ecsKeeps _ s
  · rfl
  · rw [acExtra_eq]
    exact (show EcsKeeps s { s with k := s.k + r.toNat } from rfl).trans
      (afterBits_ecsKeeps (acFinish_ecsKeeps _) _ _ _ _ _)

/-- Settles O39: no byte pair and no symbol writes another field. -/
theorem ecsInstructionsKeepTheRest : Obligations.EcsInstructionsKeepTheRest := by
  intro i s t hi h
  have hkeeps : EcsKeeps s t := by
    cases i with
    | dcCategory b => exact execDcCategory_ecsKeeps h
    | acZrl => exact execAcZrl_ecsKeeps h
    | acRunSize r sz => exact execAcRunSize_ecsKeeps h
    | ecsStuffed | ecsRst _ | ecsMarker _ | acEob | acIllegalR0 _ =>
      obtain rfl := Host.Outcome.next.inj h
      rfl
    | _ => exact hi.elim
  rw [EcsKeeps] at hkeeps
  rw [hkeeps]
  simp only [and_self]

end Sys2Proof.Machine
end

section
/-! SUPPORT. The canonical code of a Huffman table (R100): the values of its code words by length, and that none of them is the
beginning of another. -/

namespace Sys2Proof.Machine

open Sys2Proof.Spec

/-! The code words of one length. -/

theorem codesAt_syms (l first : Nat) (syms : List Byte) : (codesAt l first syms).map (fun e => e.sym) = syms := by
  induction syms generalizing first with
  | nil => rfl
  | cons sym syms ih => rw [codesAt, List.map_cons, ih]

theorem codesAt_values (l first : Nat) (syms : List Byte) :
    (codesAt l first syms).map (fun e => e.code) = (List.range syms.length).map (fun n => first + n) := by
  induction syms generalizing first with
  | nil => rfl
  | cons sym syms ih =>
    rw [codesAt, List.map_cons, ih, List.length_cons, List.range_succ_eq_map, List.map_cons, List.map_map]
    simp only [Nat.add_zero, Function.comp_def, Nat.succ_eq_add_one, Nat.add_right_comm, Nat.add_assoc]

theorem mem_codesAt {l first : Nat} {syms : List Byte} {e : Code} (h : e ∈ codesAt l first syms) :
    e.len = l ∧ first ≤ e.code ∧ e.code < first + syms.length := by
  induction syms generalizing first with
  | nil => cases h
  | cons sym syms ih =>
    rw [List.length_cons]
    rcases List.mem_cons.1 h with rfl | h
    · exact ⟨rfl, le_rfl, by simp only; omega⟩
    · obtain ⟨hlen, hlo, hhi⟩ := ih h
      exact ⟨hlen, by omega, by omega⟩

theorem codesAt_rising (l first : Nat) (syms : List Byte) :
    (codesAt l first syms).Pairwise (fun a b => a.code < b.code) := by
  induction syms generalizing first with
  | nil => exact .nil
  | cons sym syms ih =>
    refine List.pairwise_cons.2 ⟨fun b hb => ?_, ih _⟩
    exact (mem_codesAt hb).2.1

theorem filter_codesAt (l l' first : Nat) (syms : List Byte) :
    (codesAt l first syms).filter (fun e => e.len == l') = if l = l' then codesAt l first syms else [] := by
  split_ifs with h
  · exact List.filter_eq_self.2 fun e he => by rw [(mem_codesAt he).1, h, beq_self_eq_true]
  · exact List.filter_eq_nil_iff.2 fun e he => by rw [(mem_codesAt he).1, beq_iff_eq]; exact h

/-! The code words from one length on. -/

/-- The first `l` of `len` bits are the first `l + 1` without the last of them. -/
theorem div_two_pow_step (c : Nat) {l len : Nat} (h : l + 1 ≤ len) :
    c / 2 ^ (len - l) = c / 2 ^ (len - (l + 1)) / 2 := by
  rw [Nat.div_div_eq_div_mul, ← pow_succ, show len - (l + 1) + 1 = len - l by omega]

theorem mem_codesFrom {l first : Nat} {bits vals : List Byte} {e : Code} (h : e ∈ codesFrom l first bits vals) :
    l ≤ e.len ∧ e.len < l + bits.length ∧ first ≤ e.code / 2 ^ (e.len - l) := by
  induction bits generalizing l first vals with
  | nil => cases h
  | cons n bits ih =>
    rw [List.length_cons]
    rcases List.mem_append.1 h with h | h
    · obtain ⟨rfl, hlo, -⟩ := mem_codesAt h
      exact ⟨le_rfl, by omega, by rwa [Nat.sub_self, pow_zero, Nat.div_one]⟩
    · obtain ⟨hlen, hlen', hlo⟩ := ih h
      have hshift := div_two_pow_step e.code hlen
      exact ⟨by omega, by omega, by omega⟩

/-- A later code word is no shorter, and its beginning has a larger value. -/
theorem codesFrom_rising (l first : Nat) (bits vals : List Byte) :
    (codesFrom l first bits vals).Pairwise (fun a b => a.len ≤ b.len ∧ a.code < b.code / 2 ^ (b.len - a.len)) := by
  induction bits generalizing l first vals with
  | nil => exact .nil
  | cons n bits ih =>
    refine List.pairwise_append.2
      ⟨(codesAt_rising _ _ _).imp_of_mem fun {a b} ha hb hlt => ?_, ih _ _ _, fun a ha b hb => ?_⟩
    · rw [(mem_codesAt ha).1, (mem_codesAt hb).1, Nat.sub_self, pow_zero, Nat.div_one]
      exact ⟨le_rfl, hlt⟩
    · obtain ⟨hlen, -, hhi⟩ := mem_codesAt ha
      obtain ⟨hlen', -, hlo⟩ := mem_codesFrom hb
      have hcount : (vals.take n.toNat).length ≤ n.toNat := List.length_take_le _ _
      have hshift := div_two_pow_step b.code hlen'
      rw [hlen]
      exact ⟨by omega, by omega⟩

/-- Where the lengths are not overfull, every code word fits its length. -/
theorem codesFrom_fit {l first : Nat} {bits vals : List Byte} (hfit : overfullFrom l first bits = false) {e : Code}
    (h : e ∈ codesFrom l first bits vals) : e.code < 2 ^ e.len := by
  induction bits generalizing l first vals with
  | nil => cases h
  | cons n bits ih =>
    obtain ⟨hn, hrest⟩ : first + n.toNat ≤ 2 ^ l ∧ overfullFrom (l + 1) ((first + n.toNat) * 2) bits = false := by
      simpa [overfullFrom] using hfit
    rcases List.mem_append.1 h with h | h
    · obtain ⟨rfl, -, hhi⟩ := mem_codesAt h
      exact hhi.trans_le (Nat.le_trans (Nat.add_le_add_left (List.length_take_le _ _) _) hn)
    · exact ih hrest h

/-! The symbols and the values where `NSYM` symbols are stored. -/

theorem symbolCount_cons (n : Byte) (bits : List Byte) : symbolCount (n :: bits) = n.toNat + symbolCount bits := by
  rw [symbolCount, symbolCount, List.map_cons, List.sum_cons]

theorem codesFrom_syms {l first : Nat} {bits vals : List Byte} (h : vals.length = symbolCount bits) :
    (codesFrom l first bits vals).map (fun e => e.sym) = vals := by
  induction bits generalizing l first vals with
  | nil => exact (List.length_eq_zero_iff.1 h).symm
  | cons n bits ih =>
    rw [symbolCount_cons] at h
    have hrest : (vals.drop n.toNat).length = symbolCount bits := by rw [List.length_drop]; omega
    rw [codesFrom, List.map_append, codesAt_syms, ih hrest, List.take_append_drop]

/-- With the lengths `pre` before them, the code words of length `pre.length + i + 1` count up from its FIRST. -/
theorem codesFrom_values (pre : List Byte) {bits vals : List Byte} (h : vals.length = symbolCount bits) {i : Nat}
    (hi : i < bits.length) :
    ((codesFrom (pre.length + 1) (firstCode (pre ++ bits) pre.length) bits vals).filter
        (fun e => e.len == pre.length + i + 1)).map (fun e => e.code) =
      (List.range bits[i].toNat).map (fun n => firstCode (pre ++ bits) (pre.length + i) + n) := by
  induction bits generalizing pre vals i with
  | nil => cases hi
  | cons n bits ih =>
    rw [symbolCount_cons] at h
    have hrest : (vals.drop n.toNat).length = symbolCount bits := by rw [List.length_drop]; omega
    have hnext : (firstCode (pre ++ n :: bits) pre.length + n.toNat) * 2 =
        firstCode ((pre ++ [n]) ++ bits) (pre ++ [n]).length := by
      simp [firstCode, Nat.mul_comm]
    rw [codesFrom, List.filter_append, List.map_append, filter_codesAt, hnext]
    cases i with
    | zero =>
      have hnone : (codesFrom (pre.length + 1 + 1) (firstCode (pre ++ [n] ++ bits) (pre ++ [n]).length) bits
          (vals.drop n.toNat)).filter (fun e => e.len == pre.length + 0 + 1) = [] := by
        refine List.filter_eq_nil_iff.2 fun e he => ?_
        rw [beq_iff_eq]
        have := (mem_codesFrom he).1
        omega
      rw [if_pos rfl, hnone, codesAt_values, List.length_take, Nat.min_eq_left (by omega)]
      simp
    | succ i =>
      have hlater := ih (pre ++ [n]) hrest (i := i) (by simpa using hi)
      rw [if_neg (by omega)]
      simp only [List.length_append, List.length_singleton, List.append_assoc, List.singleton_append] at hlater ⊢
      rw [show pre.length + (i + 1) = pre.length + 1 + i by omega]
      simpa using hlater

/-! The code of a table. -/

theorem codes_rising (t : HuffTable) :
    t.codes.Pairwise (fun a b => a.len ≤ b.len ∧ a.code < b.code / 2 ^ (b.len - a.len)) := codesFrom_rising _ _ _ _

theorem len_of_mem_codes {t : HuffTable} {e : Code} (h : e ∈ t.codes) : 1 ≤ e.len ∧ e.len ≤ 16 := by
  obtain ⟨hlo, hhi, -⟩ := mem_codesFrom h
  rw [Vector.length_toList] at hhi
  omega

theorem code_lt_of_mem_codes {t : HuffTable} (ht : overfull t.bits.toList = false) {e : Code} (h : e ∈ t.codes) :
    e.code < 2 ^ e.len := codesFrom_fit ht h

/-- Settles O27: by induction on the lengths, the code words of each of which count up from its FIRST. -/
theorem huffmanCodesArePrefixFree : Obligations.HuffmanCodesArePrefixFree := by
  intro t
  refine ⟨(codes_rising t).imp fun {a b} h => ⟨h.1, (Nat.ne_of_lt h.2).symm⟩, fun ht e he => ?_,
    fun hvals => ⟨codesFrom_syms hvals, fun l => ?_⟩⟩
  · exact ⟨(len_of_mem_codes he).1, (len_of_mem_codes he).2, code_lt_of_mem_codes ht he⟩
  · simpa [HuffTable.codes, firstCode] using codesFrom_values [] hvals (i := l.val) (by simp)

end Sys2Proof.Machine
end

section
/-! SUPPORT. Code words as strings of bits (R73, R104): what a Huffman table answers for the bits read so far. -/

namespace Sys2Proof.Machine

/-! The `l` bits of a value, most significant first. -/

/-- The low `l` bits of `c`, most significant first (R73). -/
def wordBits (l c : Nat) : List Bool := (List.range l).reverse.map fun i => c.testBit i

theorem codeBits_eq (e : Code) : codeBits e = wordBits e.len e.code := rfl

@[simp] theorem length_wordBits (l c : Nat) : (wordBits l c).length = l := by simp [wordBits]

@[simp] theorem length_codeBits (e : Code) : (codeBits e).length = e.len := length_wordBits _ _

theorem wordBits_succ (l c : Nat) : wordBits (l + 1) c = wordBits l (c / 2) ++ [c.testBit 0] := by
  simp [wordBits, List.range_succ_eq_map, Nat.testBit_succ]

theorem bitsValue_snoc (bits : List Bool) (b : Bool) : bitsValue (bits ++ [b]) = 2 * bitsValue bits + b.toNat := by
  rw [bitsValue, List.foldl_append]
  rfl

theorem wordBits_bitsValue (bits : List Bool) : wordBits bits.length (bitsValue bits) = bits := by
  induction bits using List.reverseRecOn with
  | nil => rfl
  | append_singleton bits b ih =>
    have hhalf : (2 * bitsValue bits + b.toNat) / 2 = bitsValue bits := by
      have := b.toNat_le
      omega
    have hlast : (2 * bitsValue bits + b.toNat).testBit 0 = b := by cases b <;> simp [Nat.testBit_zero]
    rw [List.length_append, List.length_singleton, wordBits_succ, bitsValue_snoc, hhalf, hlast, ih]

theorem bitsValue_wordBits {l c : Nat} (h : c < 2 ^ l) : bitsValue (wordBits l c) = c := by
  induction l generalizing c with
  | zero => rw [Nat.lt_one_iff.1 h]; rfl
  | succ l ih =>
    have hlast : (c.testBit 0).toNat = c % 2 := by
      rw [Nat.testBit_zero]
      rcases Nat.mod_two_eq_zero_or_one c with e | e <;> simp [e]
    rw [wordBits_succ, bitsValue_snoc, ih (by rw [pow_succ] at h; omega), hlast]
    omega

theorem take_wordBits {k l : Nat} (h : k ≤ l) (c : Nat) : (wordBits l c).take k = wordBits k (c / 2 ^ (l - k)) := by
  obtain ⟨n, rfl⟩ := Nat.exists_eq_add_of_le h
  rw [Nat.add_sub_cancel_left]
  clear h
  induction n generalizing c with
  | zero => rw [Nat.add_zero, pow_zero, Nat.div_one, List.take_of_length_le (by rw [length_wordBits])]
  | succ n ih =>
    rw [← Nat.add_assoc, wordBits_succ, List.take_append_of_le_length (by rw [length_wordBits]; omega), ih,
      Nat.div_div_eq_div_mul, pow_succ']

/-! Code words and the bits read so far. -/

section
variable {e : Code} (he : e.code < 2 ^ e.len) (bits : List Bool)
include he

theorem bitsValue_codeBits : bitsValue (codeBits e) = e.code := bitsValue_wordBits he

/-- The bits are the beginning of a code word just where they have the value of its beginning. -/
theorem prefix_codeBits_iff :
    bits <+: codeBits e ↔ bits.length ≤ e.len ∧ e.code / 2 ^ (e.len - bits.length) = bitsValue bits := by
  refine ⟨fun h => ?_, fun ⟨hlen, hvalue⟩ => ?_⟩
  · have hlen : bits.length ≤ e.len := by simpa using h.length_le
    have hfit : e.code / 2 ^ (e.len - bits.length) < 2 ^ bits.length := by
      rw [Nat.div_lt_iff_lt_mul (by positivity), ← pow_add, Nat.add_sub_cancel' hlen]
      exact he
    have htake := List.prefix_iff_eq_take.1 h
    rw [codeBits_eq, take_wordBits hlen] at htake
    refine ⟨hlen, ?_⟩
    rw [← bitsValue_wordBits hfit, ← htake]
  · rw [List.prefix_iff_eq_take, codeBits_eq, take_wordBits hlen, hvalue, wordBits_bitsValue]

end

/-- The bits are a beginning of a code word, and not all of it. -/
def Inside (t : HuffTable) (bits : List Bool) : Prop := ∃ e ∈ t.codes, bits <+: codeBits e ∧ bits.length < e.len

theorem Inside.of_prefix {t : HuffTable} {bits more : List Bool} (h : Inside t more) (hp : bits <+: more) : Inside t bits := by
  obtain ⟨e, he, hpe, hlen⟩ := h
  exact ⟨e, he, hp.trans hpe, hp.length_le.trans_lt hlen⟩

/-- A table whose lengths are not overfull (R100). -/
theorem HuffTable.sound.fits {t : HuffTable} (ht : t.sound) {e : Code} (he : e ∈ t.codes) : e.code < 2 ^ e.len :=
  code_lt_of_mem_codes ht.2.2 he

section
variable {t : HuffTable} (ht : t.sound)
include ht

/-- No code word is the beginning of another (R100). -/
theorem code_eq_of_prefix {e e' : Code} (he : e ∈ t.codes) (he' : e' ∈ t.codes) (h : codeBits e <+: codeBits e') :
    e = e' := by
  have hfree : t.codes.Pairwise fun a b => codeBits a <+: codeBits b ∨ codeBits b <+: codeBits a → a = b := by
    refine (codes_rising t).imp_of_mem fun {a b} ha hb ⟨hlen, hlt⟩ hp => ?_
    have hab : codeBits a <+: codeBits b := by
      rcases hp with hp | hp
      · exact hp
      · have hlen' : b.len ≤ a.len := by simpa using hp.length_le
        rw [hp.eq_of_length (by simp only [length_codeBits]; omega)]
    have hvalue := ((prefix_codeBits_iff (ht.fits hb) _).1 hab).2
    rw [length_codeBits, bitsValue_codeBits (ht.fits ha)] at hvalue
    omega
  have hsymm : Std.Symm fun a b : Code => codeBits a <+: codeBits b ∨ codeBits b <+: codeBits a → a = b :=
    ⟨fun a b hab hba => (hab hba.symm).symm⟩
  exact hfree.forall_of_forall (fun _ _ _ => rfl) he he' (.inl h)

/-- The bits of a code word select its symbol. -/
theorem symbolOf_code {e : Code} (he : e ∈ t.codes) : symbolOf t e.len e.code = some e.sym := by
  rw [symbolOf]
  cases hfind : t.codes.find? fun x => x.len == e.len && x.code == e.code with
  | none => simpa using List.find?_eq_none.1 hfind e he
  | some x =>
    obtain ⟨hlen, hcode⟩ : x.len = e.len ∧ x.code = e.code := by simpa using List.find?_some hfind
    have hbits : codeBits x = codeBits e := by rw [codeBits_eq, codeBits_eq, hlen, hcode]
    rw [code_eq_of_prefix ht (List.mem_of_find?_eq_some hfind) he (hbits ▸ List.prefix_rfl)]
    rfl

/-- The bits go on just where they are inside a code word. -/
theorem livePrefix_iff (bits : List Bool) : livePrefix t bits.length (bitsValue bits) = true ↔ Inside t bits := by
  simp only [livePrefix, List.any_eq_true, Bool.and_eq_true, decide_eq_true_eq, beq_iff_eq, Inside]
  refine exists_congr fun e => and_congr_right fun he => ?_
  rw [prefix_codeBits_iff (ht.fits he)]
  exact ⟨fun ⟨hlen, hvalue⟩ => ⟨⟨hlen.le, hvalue⟩, hlen⟩, fun ⟨⟨_, hvalue⟩, hlen⟩ => ⟨hlen, hvalue⟩⟩

end

/-- Bits that are no code word select no symbol. -/
theorem symbolOf_none {t : HuffTable} {bits : List Bool} (h : ∀ e ∈ t.codes, codeBits e ≠ bits) :
    symbolOf t bits.length (bitsValue bits) = none := by
  rw [symbolOf, Option.map_eq_none_iff, List.find?_eq_none]
  intro e he hmatch
  obtain ⟨hlen, hcode⟩ : e.len = bits.length ∧ e.code = bitsValue bits := by simpa using hmatch
  exact h e he (by rw [codeBits_eq, hlen, hcode, wordBits_bitsValue])

/-- A code word has at most 16 bits, so no bits go on after 16 (R104). -/
theorem livePrefix_lt {t : HuffTable} {l c : Nat} (h : livePrefix t l c = true) : l < 16 := by
  simp only [livePrefix, List.any_eq_true, Bool.and_eq_true, decide_eq_true_eq] at h
  obtain ⟨e, he, hlen, -⟩ := h
  exact hlen.trans_le (len_of_mem_codes he).2

end Sys2Proof.Machine
end

section
/-! SUPPORT. `huff_decode` on the coded bits a state holds ready (R104): the reader takes them one by one, and the descent goes
on inside a code word until its last bit, or until the first bit that shows that there is none. -/

namespace Sys2Proof.Machine

open Sys2Proof.Spec

/-! The reader takes coded bits. -/

/-- Reading `bits` one after another leads from `s` to `w` (R102). -/
inductive BitsRead : List Bool → State → State → Prop
  | nil (s : State) : BitsRead [] s s
  | cons {b : Bool} {bits : List Bool} {s u w : State} :
      readBit s = .got b.toNat u → BitsRead bits u w → BitsRead (b :: bits) s w

/-- Coded bits that are ready can be read. -/
theorem exists_bitsRead {bits rest : List Bool} {s : State} (h : codedBits s = bits ++ rest) :
    ∃ w, BitsRead bits s w ∧ codedBits w = rest ∧ SameButReader w s := by
  induction bits generalizing s with
  | nil => exact ⟨s, .nil s, h, .refl s⟩
  | cons b bits ih =>
    obtain ⟨u, hread, hcoded, hsame⟩ := readBit_cons h
    obtain ⟨w, hbits, hrest, hsame'⟩ := ih hcoded
    exact ⟨w, .cons hread hbits, hrest, hsame'.trans hsame⟩

/-- The FIFO holds whole coded bytes as the stream carries them (R72), and `stop` behind them. -/
def CodedBefore (stop : List FifoEntry) (s : State) : Prop := ∃ bytes, s.fifo = dataEntries (stuffed bytes) ++ stop

/-- Where no coded bit is ready, no coded byte is left before `stop`. -/
theorem fifo_of_codedBits_nil {stop : List FifoEntry} {w : State} (hw : CodedBefore stop w) (h : codedBits w = []) :
    w.nbits = 0 ∧ w.fifo = stop := by
  obtain ⟨bytes, hf⟩ := hw
  obtain ⟨hn, hread⟩ := readBit_nil h
  refine ⟨hn, ?_⟩
  cases bytes with
  | nil => exact hf
  | cons b bytes => rcases hread with ⟨e, -⟩ | ⟨-, -, -, -, e⟩ | ⟨-, e⟩ <;> simp [readBit, hn, fillByte_stuffed hf] at e

section
variable {stop : List FifoEntry} (hstop : ecsBits stop = [])
include hstop

theorem readBit_codedBefore {s u : State} {bit : Nat} (hs : CodedBefore stop s) (h : readBit s = .got bit u) :
    CodedBefore stop u := by
  obtain ⟨bytes, hf⟩ := hs
  by_cases hn : s.nbits = 0
  · cases bytes with
    | nil =>
      have hcoded : codedBits s = [] := by simpa [codedBits, hn, lowBits_zero, hf, stuffed] using hstop
      obtain ⟨-, ⟨e, -⟩ | ⟨-, -, -, -, e⟩ | ⟨-, e⟩⟩ := readBit_nil hcoded <;> rw [e] at h <;> cases h
    | cons b bytes =>
      simp only [readBit, hn, if_true, fillByte_stuffed hf] at h
      obtain ⟨-, rfl⟩ := Got.got.inj h
      exact ⟨bytes, rfl⟩
  · rw [readBit_takeBit hn] at h
    obtain ⟨-, rfl⟩ := Got.got.inj h
    exact ⟨bytes, hf⟩

theorem BitsRead.codedBefore {bits : List Bool} {s w : State} (h : BitsRead bits s w) (hs : CodedBefore stop s) :
    CodedBefore stop w := by
  induction h with
  | nil => exact hs
  | cons hread _ ih => exact ih (readBit_codedBefore hstop hs hread)

/-- Reading every coded bit uses `cur` up and leaves `stop`. -/
theorem exists_allBitsRead {s : State} {bytes : List Byte} (hf : s.fifo = dataEntries (stuffed bytes) ++ stop) :
    ∃ w, BitsRead (codedBits s) s w ∧
      w = { s with cur := w.cur, nbits := 0, fifo := stop, p := s.p + (stuffed bytes).length } := by
  obtain ⟨w, hbits, hrest, hsame, hcount⟩ := exists_bitsRead (List.append_nil (codedBits s)).symm
  obtain ⟨hn, hfifo⟩ := fifo_of_codedBits_nil (hbits.codedBefore hstop ⟨bytes, hf⟩) hrest
  have hp : w.p = s.p + (stuffed bytes).length := by
    rw [hf, hfifo, List.length_append, dataEntries, List.length_map] at hcount
    omega
  rw [hn, hfifo, hp] at hsame
  exact ⟨w, hbits, hsame⟩

end

/-! One bit of the descent. -/

section
variable {t : HuffTable} (ht : t.sound) {taken : List Bool} {b : Bool} {s u : State} (hread : readBit s = .got b.toNat u)
  (fuel : Nat)
include ht hread

/-- The last bit of a code word. -/
theorem huffLoop_finds {e : Code} (he : e ∈ t.codes) (h : codeBits e = taken ++ [b]) :
    huffLoop t (fuel + 1) taken.length (bitsValue taken) s = .symbol e.sym u := by
  have hlen : taken.length + 1 = e.len := by simpa using congrArg List.length h.symm
  have hvalue : 2 * bitsValue taken + b.toNat = e.code := by rw [← bitsValue_snoc, ← h, bitsValue_codeBits (ht.fits he)]
  simp only [huffLoop, hread, hlen, hvalue, symbolOf_code ht he]

theorem huffLoop_goes_on (h : Inside t (taken ++ [b])) :
    huffLoop t (fuel + 1) taken.length (bitsValue taken) s =
      huffLoop t fuel (taken ++ [b]).length (bitsValue (taken ++ [b])) u := by
  have hnone : symbolOf t (taken ++ [b]).length (bitsValue (taken ++ [b])) = none := by
    refine symbolOf_none fun e he hcode => ?_
    obtain ⟨e', he', hprefix, hlen⟩ := h
    rw [← hcode] at hprefix hlen
    rw [code_eq_of_prefix ht he he' hprefix, length_codeBits] at hlen
    exact lt_irrefl _ hlen
  have hlive := (livePrefix_iff ht (taken ++ [b])).2 h
  rw [List.length_append, List.length_singleton, bitsValue_snoc] at hnone hlive ⊢
  simp only [huffLoop, hread, hnone, hlive, if_true]

/-- The first bit that shows that the bits begin no code word. -/
theorem huffLoop_dies (h : ∀ e ∈ t.codes, ¬ codeBits e <+: taken ++ [b] ∧ ¬ taken ++ [b] <+: codeBits e) :
    huffLoop t (fuel + 1) taken.length (bitsValue taken) s = .raised (raise .huffNoCode u) := by
  have hnone : symbolOf t (taken ++ [b]).length (bitsValue (taken ++ [b])) = none :=
    symbolOf_none fun e he hcode => (h e he).1 (hcode ▸ List.prefix_rfl)
  have hdead : ¬ livePrefix t (taken ++ [b]).length (bitsValue (taken ++ [b])) = true := by
    rw [livePrefix_iff ht]
    rintro ⟨e, he, hprefix, -⟩
    exact (h e he).2 hprefix
  rw [List.length_append, List.length_singleton, bitsValue_snoc] at hnone hdead
  simp only [huffLoop, hread, hnone, hdead, Bool.false_eq_true, if_false]

end

/-! The bits of a code word. -/

section
variable {t : HuffTable} (ht : t.sound)
include ht

/-- Bits inside a code word are all taken. -/
theorem huffLoop_inside {bits taken : List Bool} {s w : State} (hbits : BitsRead bits s w)
    (h : bits ≠ [] → Inside t (taken ++ bits)) (fuel : Nat) :
    huffLoop t (bits.length + fuel) taken.length (bitsValue taken) s =
      huffLoop t fuel (taken ++ bits).length (bitsValue (taken ++ bits)) w := by
  induction hbits generalizing taken with
  | nil s => rw [List.append_nil, List.length_nil, Nat.zero_add]
  | @cons b bits s u w hread _ ih =>
    have hall : taken ++ b :: bits = taken ++ [b] ++ bits := List.append_cons taken b bits
    have hinside : Inside t (taken ++ [b] ++ bits) := hall ▸ h (List.cons_ne_nil b bits)
    rw [List.length_cons, Nat.add_right_comm, huffLoop_goes_on ht hread _ (hinside.of_prefix (List.prefix_append _ _)),
      ih fun _ => hinside, hall]

/-- The descent reaches the last bit of a word of at most 16 bits of which all but the last are inside a code word. -/
theorem huffLoop_last {taken init tail : List Bool} {b : Bool} {s : State} (hcoded : codedBits s = init ++ b :: tail)
    (hinit : init ≠ [] → Inside t (taken ++ init)) (hlen : init.length < 16) :
    ∃ w u fuel, huffLoop t 16 taken.length (bitsValue taken) s =
        huffLoop t (fuel + 1) (taken ++ init).length (bitsValue (taken ++ init)) w ∧
      readBit w = .got b.toNat u ∧ codedBits u = tail ∧ SameButReader u s := by
  obtain ⟨w, hbits, hrest, hsame⟩ := exists_bitsRead hcoded
  obtain ⟨u, hread, htail, hsame'⟩ := readBit_cons hrest
  obtain ⟨fuel, hfuel⟩ : ∃ fuel, 16 = init.length + (fuel + 1) := ⟨15 - init.length, by omega⟩
  exact ⟨w, u, fuel, by rw [hfuel, huffLoop_inside ht hbits hinit], hread, htail, hsame'.trans hsame⟩

end

/-- The bits still to be read of a word that is not yet read whole: all but its last one, then the last. -/
theorem last_bit {taken more word tail : List Bool} (h : taken ++ more = word ++ tail) (hlen : taken.length < word.length) :
    ∃ init b, word = taken ++ init ++ [b] ∧ more = init ++ b :: tail := by
  have hword : taken <+: word := List.prefix_of_prefix_length_le (h ▸ List.prefix_append _ _) (List.prefix_append _ _) hlen.le
  obtain ⟨left, rfl⟩ := hword
  have hleft : left ≠ [] := by
    rintro rfl
    simp at hlen
  rw [List.append_assoc, List.append_cancel_left_eq] at h
  refine ⟨left.dropLast, left.getLast hleft, ?_, ?_⟩
  · rw [List.append_assoc, List.dropLast_append_getLast]
  · rw [List.append_cons, List.dropLast_append_getLast, h]

section
variable {t : HuffTable} (ht : t.sound) {taken tail : List Bool} {s : State}
include ht

/-- A code word decodes to its symbol, whatever part of it was read before, and takes no more (R104). -/
theorem huffLoop_code {e : Code} (he : e ∈ t.codes) (hcoded : taken ++ codedBits s = codeBits e ++ tail)
    (hlen : taken.length < e.len) :
    ∃ u, huffLoop t 16 taken.length (bitsValue taken) s = .symbol e.sym u ∧ codedBits u = tail ∧ SameButReader u s := by
  obtain ⟨init, b, hword, hmore⟩ := last_bit hcoded (by rwa [length_codeBits])
  have hcount : e.len = taken.length + init.length + 1 := by
    rw [← length_codeBits, hword, List.length_append, List.length_append, List.length_singleton]
  have hinside : Inside t (taken ++ init) := ⟨e, he, hword ▸ List.prefix_append _ _, by rw [List.length_append]; omega⟩
  have hbound := (len_of_mem_codes he).2
  obtain ⟨w, u, fuel, hloop, hread, htail, hsame⟩ := huffLoop_last ht hmore (fun _ => hinside) (by omega)
  exact ⟨u, hloop.trans (huffLoop_finds ht hread fuel he hword), htail, hsame⟩

/-- Bits that begin no code word raise at the first of them that shows it (R104). -/
theorem huffLoop_dead {dead : List Bool} (hdead : DeadWord t dead) (hcoded : taken ++ codedBits s = dead ++ tail)
    (hlen : taken.length < dead.length) :
    ∃ u, huffLoop t 16 taken.length (bitsValue taken) s = .raised (raise .huffNoCode u) ∧ codedBits u = tail ∧
      SameButReader u s := by
  obtain ⟨init, b, rfl, hmore⟩ := last_bit hcoded hlen
  have hbound := hdead.bounded
  rw [List.length_append, List.length_append, List.length_singleton] at hbound
  have hinside : init ≠ [] → Inside t (taken ++ init) := by
    intro hinit
    have hprefix : taken ++ init <+: taken ++ init ++ [b] := List.prefix_append _ _
    obtain ⟨e, he, hcode⟩ := hdead.live _ hprefix (by simp) (by simp [hinit])
    refine ⟨e, he, hcode, Nat.lt_of_not_le fun hle => (hdead.noCode e he).1 ?_⟩
    rwa [← hcode.eq_of_length_le (by rwa [length_codeBits])]
  obtain ⟨w, u, fuel, hloop, hread, htail, hsame⟩ := huffLoop_last ht hmore hinside (by omega)
  exact ⟨u, hloop.trans (huffLoop_dies ht hread fuel hdead.noCode), htail, hsame⟩

/-- Where the bits that are there end inside a code word, all of them are taken, and the next bit is looked for behind them. -/
theorem huffLoop_endsInside {e : Code} (he : e ∈ t.codes) (hends : EndsInside s taken e) {bytes : List Byte}
    {stop : List FifoEntry} (hf : s.fifo = dataEntries (stuffed bytes) ++ stop) (hstop : ecsBits stop = []) :
    ∃ w fuel, huffLoop t 16 taken.length (bitsValue taken) s =
        huffLoop t (fuel + 1) (taken ++ codedBits s).length (bitsValue (taken ++ codedBits s)) w ∧
      w = { s with cur := w.cur, nbits := 0, fifo := stop, p := s.p + (stuffed bytes).length } := by
  obtain ⟨hprefix, hlen⟩ := hends
  obtain ⟨w, hbits, hw⟩ := exists_allBitsRead hstop hf
  have hbound := (len_of_mem_codes he).2
  have hcount := List.length_append (as := taken) (bs := codedBits s)
  obtain ⟨fuel, hfuel⟩ : ∃ fuel, 16 = (codedBits s).length + (fuel + 1) := ⟨15 - (codedBits s).length, by omega⟩
  exact ⟨w, fuel, by rw [hfuel, huffLoop_inside ht hbits fun _ => ⟨e, he, hprefix, hlen⟩], hw⟩

end

/-! The descent ends within 16 bits. -/

/-- The loop of `huff_decode` may read a bit after `l` of them, and the 16th. -/
def Enough (l fuel : Nat) : Prop := 0 < fuel ∧ 16 ≤ l + fuel

theorem enough_sixteen (l : Nat) : Enough l 16 := ⟨by decide, Nat.le_add_left _ _⟩

/-- As long as the bits read are inside a code word, the loop may go on. -/
theorem Enough.next {t : HuffTable} {l c fuel : Nat} (h : Enough l (fuel + 1)) (hlive : livePrefix t (l + 1) c = true) :
    Enough (l + 1) fuel := by
  have hlt := livePrefix_lt hlive
  obtain ⟨-, hsum⟩ := h
  exact ⟨by omega, by omega⟩

/-- With as many coded bits ready as it may read, the loop does not wait (R104). -/
theorem huffLoop_not_waiting {t : HuffTable} {fuel l c : Nat} {s : State} (hbits : fuel ≤ (codedBits s).length)
    (hfuel : Enough l fuel) (l' c' : Nat) (w : State) : huffLoop t fuel l c s ≠ .waiting l' c' w := by
  induction fuel generalizing l c s with
  | zero => exact absurd hfuel.1 (lt_irrefl 0)
  | succ fuel ih =>
    obtain ⟨b, tail, hcoded⟩ := List.exists_cons_of_length_pos (hfuel.1.trans_le hbits)
    obtain ⟨u, hread, htail, -⟩ := readBit_cons hcoded
    rw [hcoded, List.length_cons, ← htail] at hbits
    simp only [huffLoop, hread]
    split
    · nofun
    · split_ifs with hlive
      · exact ih (Nat.le_of_succ_le_succ hbits) (hfuel.next hlive)
      · nofun

end Sys2Proof.Machine
end

section
/-! SUPPORT. The core's descent for a DC or an AC symbol (R104, R110, R111): one step takes the bits that are there, and a
descent that waits goes on where it waited when more entries come (R90, R128). -/

namespace Sys2Proof.Machine

open Sys2Proof.Spec

/-! What later entries add. -/

/-- Once the loop may read the 16th bit, more makes no difference. -/
theorem huffLoop_enough {t : HuffTable} {m n l : Nat} (hm : Enough l m) (hn : Enough l n) (c : Nat) (s : State) :
    huffLoop t m l c s = huffLoop t n l c s := by
  induction m generalizing n l c s with
  | zero => exact absurd hm.1 (lt_irrefl 0)
  | succ m ih =>
    obtain ⟨n, rfl⟩ := Nat.exists_eq_succ_of_ne_zero hn.1.ne'
    simp only [huffLoop]
    split
    · rfl
    · rfl
    · split
      · rfl
      · split_ifs with hlive
        · exact ih (hm.next hlive) (hn.next hlive) _ _
        · rfl

/-- A descent that waited goes on, with later entries, as if they had been there at once. -/
theorem huffLoop_later {t : HuffTable} {fuel l c l' c' : Nat} {s w : State} (later : List FifoEntry) (hfuel : Enough l fuel)
    (h : huffLoop t fuel l c s = .waiting l' c' w) :
    huffLoop t fuel l c (withLater s later) = huffLoop t 16 l' c' (withLater w later) ∧ w.nbits = 0 := by
  induction fuel generalizing l c s with
  | zero => exact absurd hfuel.1 (lt_irrefl 0)
  | succ fuel ih =>
    rcases readBit_cases s with e | ⟨x, e⟩ | ⟨bit, u, e, -⟩
    · simp only [huffLoop, e] at h
      cases h
      exact ⟨huffLoop_enough hfuel (enough_sixteen _) _ _, nbits_of_readBit_hold e⟩
    · simp only [huffLoop, e] at h
      cases h
    · have hmore : readBit (withLater s later) = .got bit (withLater u later) := readBit_more e later
      simp only [huffLoop, e] at h
      split at h
      · cases h
      · rename_i hnone
        split_ifs at h with hlive
        have hgoes_on : huffLoop t (fuel + 1) l c (withLater s later) =
            huffLoop t fuel (l + 1) (2 * c + bit) (withLater u later) := by
          simp only [huffLoop, hmore, hnone, hlive, if_true]
        rw [hgoes_on]
        exact ih (hfuel.next hlive) h

/-! The descent does not see at which position of the scan it is made. -/

/-- The result of the loop of `huff_decode`, its state at the scan position `q`. -/
def Huff.atPos (q : ScanPos) : Huff → Huff
  | .symbol sym s => .symbol sym (scanAt q s)
  | .waiting l c s => .waiting l c (scanAt q s)
  | .raised s => .raised s

theorem huffLoop_scanAt {s : State} {q : ScanPos} (hs : s.seq = .scan q) (q' : ScanPos) (t : HuffTable) (fuel l c : Nat) :
    huffLoop t fuel l c (scanAt q' s) = (huffLoop t fuel l c s).atPos q' := by
  induction fuel generalizing l c s with
  | zero => rfl
  | succ fuel ih =>
    simp only [huffLoop, readBit_scanAt hs]
    rcases readBit_cases s with e | ⟨x, e⟩ | ⟨bit, u, e, -, hu⟩ <;> simp only [e, Got.atPos]
    · rfl
    · rfl
    · split
      · rfl
      · split_ifs
        · exact ih (hu.seq.trans hs) _ _
        · rw [raise_scanAt (hu.seq.trans hs)]
          rfl

/-! A descent in the scan: where it waits, and where it goes on. -/

/-- What becomes of the loop of `huff_decode`: at `found` with the symbol, or waiting at `wait`. -/
def afterHuff (wait : Nat → Nat → ScanPos) (found : Byte → ScanPos) : Huff → State
  | .symbol sym s => scanAt (found sym) s
  | .waiting l c s => scanAt (wait l c) s
  | .raised s => s

theorem dcDescend_eq (fuel l c : Nat) (s : State) :
    dcDescend fuel l c s = afterHuff .dcHuff .dcSymbol (huffLoop (dcTable s) fuel l c s) := by
  unfold dcDescend
  cases huffLoop (dcTable s) fuel l c s <;> rfl

theorem acDescend_eq (fuel l c : Nat) (s : State) :
    acDescend fuel l c s = afterHuff .acHuff .acSymbol (huffLoop (acTable s) fuel l c s) := by
  unfold acDescend
  cases huffLoop (acTable s) fuel l c s <;> rfl

theorem afterHuff_scanAt {s : State} {q : ScanPos} (hs : s.seq = .scan q) (q' : ScanPos) (wait : Nat → Nat → ScanPos)
    (found : Byte → ScanPos) (t : HuffTable) (fuel l c : Nat) :
    afterHuff wait found (huffLoop t fuel l c (scanAt q' s)) = afterHuff wait found (huffLoop t fuel l c s) := by
  rw [huffLoop_scanAt hs]
  cases huffLoop t fuel l c s <;> rfl

/-- What the descents for a DC and an AC symbol have in common: they need a bit, wait only where no symbol was found, read all
the bits that are there in one step, and their table is none of the reader's or the position's. -/
structure Descent (table : State → HuffTable) (wait : Nat → Nat → ScanPos) (found : Byte → ScanPos) : Prop where
  needsBit : ∀ l c, (wait l c).needsBit = true
  found_ne : ∀ sym l c, found sym ≠ wait l c
  resumes  : ∀ (l c : Nat) (s : State), s.pace = .whole → s.seq = .scan (wait l c) → s.nbits ≠ 0 →
    coreTurn s = .next (afterHuff wait found (huffLoop (table s) 16 l c s))
  table_eq : ∀ (s : State) (seq : Seq) (cur : Byte) (nbits p : Nat) (fifo : List FifoEntry),
    table { s with seq := seq, cur := cur, nbits := nbits, p := p, fifo := fifo } = table s

/-- A turn of the core where a bit is needed and `cur` has one: no instruction is met (R108). -/
theorem coreTurn_reads {s : State} {q : ScanPos} (hs : s.seq = .scan q) (hq : q.needsBit = true) (hn : s.nbits ≠ 0) :
    coreTurn s = .next (scanStep q s) := by
  have hfetch : fetch s = none := by
    rw [fetch_scan hs]
    cases q <;> simp_all [fetchScan, ScanPos.needsBit]
  rw [coreTurn_advance hfetch]
  simp only [advance, hs]

theorem dcDescent : Descent dcTable .dcHuff .dcSymbol where
  needsBit _ _ := rfl
  found_ne := nofun
  resumes l c s hpace hs hn := by
    rw [coreTurn_reads hs rfl hn, ← dcDescend_eq, scanStep, if_neg (by simp [hn])]
    simp only [resumeFuel_whole hpace]
  table_eq _ _ _ _ _ _ := rfl

theorem acDescent : Descent acTable .acHuff .acSymbol where
  needsBit _ _ := rfl
  found_ne := nofun
  resumes l c s hpace hs hn := by
    rw [coreTurn_reads hs rfl hn, ← acDescend_eq, scanStep, if_neg (by simp [hn])]
    simp only [resumeFuel_whole hpace]
  table_eq _ _ _ _ _ _ := rfl

/-- A turn of the core where a bit is needed and `cur` is used up: no byte is there, or none may be taken, or the bit that is read
next is that of the byte taken (R101, R102). -/
theorem coreTurn_fill_cases {s : State} {q : ScanPos} (hs : s.seq = .scan q) (hq : q.needsBit = true) (hn : s.nbits = 0) :
    (coreTurn s = .next s ∧ readBit s = .hold) ∨
      (∃ c, coreTurn s = .next (raise c s) ∧ readBit s = .raised (raise c s)) ∨
      ∃ u, coreTurn s = .next u ∧ SameButReader u s ∧ u.nbits ≠ 0 ∧ readBit s = .got (takeBit u).1 (takeBit u).2 := by
  rw [coreTurn_fill hs hq hn, fillStep]
  simp only [readBit, hn, if_true]
  rcases fillByte_cases s with e | ⟨c, e⟩ | ⟨u, e, hu, hu8, -⟩ <;> rw [e]
  · exact .inl ⟨rfl, rfl⟩
  · exact .inr (.inl ⟨c, rfl, rfl⟩)
  · exact .inr (.inr ⟨u, rfl, hu, by omega, rfl⟩)

section
variable {table : State → HuffTable} {wait : Nat → Nat → ScanPos} {found : Byte → ScanPos} (hd : Descent table wait found)
include hd

theorem Descent.table_reader {s u : State} (h : SameButReader u s) : table u = table s := by
  rw [h.1]
  exact hd.table_eq s s.seq _ _ _ _

/-- Two turns of the core where a descent waits for a bit: the next byte, then the rest (R101, R104, log 3). -/
theorem Descent.coreTurns_two {l c : Nat} {s : State} (hpace : s.pace = .whole) (hs : s.seq = .scan (wait l c))
    (hn : s.nbits = 0) : coreTurns 2 s = afterHuff wait found (huffLoop (table s) 16 l c s) := by
  rcases coreTurn_fill_cases hs (hd.needsBit l c) hn with ⟨e, hread⟩ | ⟨x, e, hread⟩ | ⟨u, e, hu, hu0, hread⟩
  · have hstay : scanAt (wait l c) s = s := by rw [scanAt, ← hs]
    simp only [coreTurns, e, huffLoop, hread, afterHuff, hstay]
  · have hterm : terminal (raise x s) = true := rfl
    simp only [coreTurns, e, coreTurn_terminal hterm, huffLoop, hread, afterHuff]
  · have hpace' : u.pace = .whole := by rw [hu.1]; exact hpace
    have hs' : u.seq = .scan (wait l c) := by rw [hu.1]; exact hs
    have hsecond := hd.resumes l c u hpace' hs' hu0
    simp only [coreTurns, e, hsecond, hd.table_reader hu, huffLoop, hread, readBit_takeBit hu0]

/-- A descent that waits again: its loop has waited. -/
theorem Descent.loop_waits {t : HuffTable} {l c : Nat} {s : State}
    (h : ∃ l' c', (afterHuff wait found (huffLoop t 16 l c s)).seq = .scan (wait l' c')) :
    ∃ l' c' w, huffLoop t 16 l c s = .waiting l' c' w ∧ ReaderMoved w s := by
  obtain ⟨l', c', hseq⟩ := h
  rcases huffLoop_cases t 16 l c s with ⟨sym, u, e, -⟩ | ⟨l', c', w, e, hw⟩ | ⟨x, u, e, -⟩
  · rw [e] at hseq
    exact absurd (Seq.scan.inj hseq) (hd.found_ne sym l' c')
  · exact ⟨l', c', w, e, hw⟩
  · rw [e] at hseq
    cases hseq

/-- A descent that waits ends, two turns after later entries have come, where it would have ended had they been there at once
(R90, R128). -/
theorem Descent.resume_later {s u : State} (later : List FifoEntry) (hpace : s.pace = .whole) (hn : s.nbits ≠ 0)
    (h : coreTurn s = .next u) (hs : ∃ l c, s.seq = .scan (wait l c)) (hu : ∃ l c, u.seq = .scan (wait l c)) :
    coreTurn (withLater s later) = .next (coreTurns 2 (withLater u later)) := by
  obtain ⟨l, c, hs⟩ := hs
  rw [hd.resumes l c s hpace hs hn] at h
  obtain rfl := Host.Outcome.next.inj h
  obtain ⟨l', c', w, hw, hmoved⟩ := hd.loop_waits hu
  obtain ⟨hlater, hbits⟩ := huffLoop_later later (enough_sixteen l) hw
  have htable : table (scanAt (wait l' c') (withLater w later)) = table s := by
    rw [← hd.table_reader hmoved.same]
    exact hd.table_eq w _ _ _ _ _
  have htable' : table (withLater s later) = table s := hd.table_eq s s.seq _ _ _ _
  have hwpace : w.pace = .whole := by rw [hmoved.same.1]; exact hpace
  have hwseq : (withLater w later).seq = .scan (wait l c) := hmoved.seq.trans hs
  have htwo := hd.coreTurns_two (s := scanAt (wait l' c') (withLater w later)) hwpace rfl hbits
  have hmove : withLater (afterHuff wait found (.waiting l' c' w)) later = scanAt (wait l' c') (withLater w later) := rfl
  rw [hd.resumes l c (withLater s later) hpace hs hn, htable', hlater, hw, hmove, htwo, htable, afterHuff_scanAt hwseq]

end

/-- A step of the core where a descent has bits to read (R104, R110, R111). -/
theorem step_descent {s : State} {taken : List Bool} {t : HuffTable} {wait : Nat → Nat → ScanPos} {found : Byte → ScanPos}
    (hn : nextTurn s = .core) (hpace : s.pace = .whole) (hbits : s.nbits ≠ 0) (h : DescentAt s taken t wait found) :
    step s = .next (afterHuff wait found (huffLoop t 16 taken.length (bitsValue taken) (afterTurn s))) := by
  rw [step_core hn]
  cases h with
  | dc hs => exact dcDescent.resumes _ _ (afterTurn s) hpace hs hbits
  | ac hs => exact acDescent.resumes _ _ (afterTurn s) hpace hs hbits

/-! What stands behind the bits that are there. -/

theorem ecsBits_stop {b : Byte} (hb : b ≠ 0#8) (rest : List FifoEntry) : ecsBits (.data 0xFF#8 :: .data b :: rest) = [] := by
  simp [ecsBits, hb]

theorem ecsBits_stop_cmd {op a : Byte} {l : Half} {o : Word} {rest stop : List FifoEntry}
    (h : stop = .cmd op a l o :: rest ∨ stop = .data 0xFF#8 :: .cmd op a l o :: rest) : ecsBits stop = [] := by
  rcases h with rfl | rfl <;> rfl

theorem readBit_hold {s : State} (hn : s.nbits = 0) (h : s.fifo = [] ∨ s.fifo = [.data 0xFF#8]) : readBit s = .hold := by
  rw [readBit, if_pos hn, (fillByte_hold_iff s).2 ((bytesMissing_iff s).2 h)]

theorem readBit_raised {s u : State} (hn : s.nbits = 0) (h : fillByte s = .raised u) : readBit s = .raised u := by
  rw [readBit, if_pos hn, h]

/-- A byte of coded bits that is ready is taken, its bits still to be read (R101). -/
theorem fillByte_ready {s : State} (hn : s.nbits = 0) (h : codedBits s ≠ []) :
    ∃ u, fillByte s = .got () u ∧ SameButReader u s ∧ u.nbits = 8 ∧ codedBits u = codedBits s := by
  obtain ⟨hdata, hstuffed, -⟩ := fillByteTakesOneByteOfCodedData s
  have hcoded : codedBits s = ecsBits s.fifo := by rw [codedBits, hn, lowBits_zero, List.nil_append]
  rw [hcoded] at h ⊢
  match hf : s.fifo with
  | [] | .cmd _ _ _ _ :: _ => exact absurd (by rw [hf]; rfl) h
  | .data b :: rest =>
    by_cases hb : b = 0xFF#8
    · subst hb
      match rest with
      | [] | .cmd _ _ _ _ :: _ => exact absurd (by rw [hf]; rfl) h
      | .data b1 :: rest =>
        obtain rfl : b1 = 0#8 := by_contra fun hb1 => h (by rw [hf, ecsBits_stop hb1])
        refine ⟨_, hstuffed rest hf, ⟨rfl, ?_⟩, rfl, (ecsBits_stuffed rest).symm⟩
        rw [hf]
        simp only [List.length_cons]
        omega
    · refine ⟨_, hdata b rest hf hb, ⟨rfl, ?_⟩, rfl, (ecsBits_data rest hb).symm⟩
      rw [hf]
      simp only [List.length_cons]
      omega

/-- Settles O28: the descent goes on inside the code word's bits and finds its symbol at the last of them; where they end
before, it waits, and later entries are read as if they had been there. -/
theorem huffDecodeInvertsTheCode : Obligations.HuffDecodeInvertsTheCode := by
  refine ⟨fun t e s tail ht he hcoded => ?decodes, fun s taken t wait found e hn hpace hbits hat ht he => ⟨?found, ?waits⟩,
    fun s u later hpace hbits hturn hpos => ?later, fun s q hn hs hq hbits => ⟨?fills, ?sequence, ?holds⟩⟩
  case decodes => exact huffLoop_code ht he (taken := []) hcoded (len_of_mem_codes he).1
  case found =>
    intro tail hcoded hlen
    obtain ⟨u, hloop, htail, hsame, hcount⟩ := huffLoop_code ht (s := afterTurn s) he hcoded hlen
    refine ⟨_, step_descent hn hpace hbits hat, ?_⟩
    rw [hloop]
    refine ⟨⟨?_, hcount⟩, htail⟩
    rw [afterHuff, scanAt, hsame]
    rfl
  case waits =>
    intro bytes left hends hf hleft
    have hstop : ecsBits (dataEntries left) = [] := by rcases hleft with rfl | rfl <;> rfl
    rw [dataEntries_append] at hf
    obtain ⟨w, fuel, hloop, hw⟩ := huffLoop_endsInside ht (s := afterTurn s) he hends hf hstop
    have hhold : readBit w = .hold := by
      rw [hw]
      exact readBit_hold rfl (by rcases hleft with rfl | rfl <;> simp)
    refine ⟨w.cur, ?_⟩
    rw [step_descent hn hpace hbits hat, hloop]
    simp only [huffLoop, hhold]
    rw [afterHuff, hw]
    rfl
  case later =>
    rcases hpos with ⟨hs, hu⟩ | ⟨hs, hu⟩
    · exact dcDescent.resume_later later hpace hbits hturn hs hu
    · exact acDescent.resume_later later hpace hbits hturn hs hu
  all_goals rw [step_core hn, coreTurn_fill (s := afterTurn s) hs hq hbits, fillStep]
  case fills =>
    intro hready
    obtain ⟨u, hfill, ⟨hsame, hcount⟩, hu8, hcoded⟩ := fillByte_ready (s := afterTurn s) hbits hready
    refine ⟨u, by rw [hfill], ⟨?_, hcount⟩, hu8, hcoded⟩
    conv_lhs => rw [hsame]
    rw [← hs]
    rfl
  case sequence =>
    intro op a l o rest hf
    rw [fillByte_sequence (s := afterTurn s) hf]
    rfl
  case holds =>
    intro hf
    rw [(fillByte_hold_iff (afterTurn s)).2 ((bytesMissing_iff _).2 hf)]
    rfl

/-- A descent in the scan whose bits end inside a code word raises what the next byte raises, with the bits before it read. -/
theorem step_descent_raises {s : State} {taken : List Bool} {t : HuffTable} {wait : Nat → Nat → ScanPos}
    {found : Byte → ScanPos} (hn : nextTurn s = .core) (hpace : s.pace = .whole) (hbits : s.nbits ≠ 0)
    (hat : DescentAt s taken t wait found) (ht : t.sound) {e : Code} (he : e ∈ t.codes) (hends : EndsInside s taken e)
    {bytes : List Byte} {stop : List FifoEntry} (hf : s.fifo = dataEntries (stuffed bytes) ++ stop) (hstop : ecsBits stop = [])
    {c : Cause} (hraises : ∀ w : State, w.fifo = stop → fillByte w = .raised (raise c w)) :
    ∃ cur, step s = .next (raise c { s with
      sched := s.sched.tail, cur := cur, nbits := 0, p := s.p + (stuffed bytes).length }) := by
  obtain ⟨w, fuel, hloop, hw⟩ := huffLoop_endsInside ht (s := afterTurn s) he hends hf hstop
  have hread : readBit w = .raised (raise c w) := readBit_raised (by rw [hw]) (hraises w (by rw [hw]))
  refine ⟨w.cur, ?_⟩
  rw [step_descent hn hpace hbits hat, hloop]
  simp only [huffLoop, hread]
  rw [afterHuff, hw]
  rfl

/-- Settles O29: no code word is longer than 16 bits, and the descent raises at the first bit that leaves every code word, or
at what stands where a bit is due. -/
theorem huffDecodeEndsOrRaises : Obligations.HuffDecodeEndsOrRaises := by
  refine ⟨fun t s h l c u => huffLoop_not_waiting h (enough_sixteen 0) l c u, fun t s dead tail ht hdead hcoded => ?dead,
    fun s taken t wait found hn hpace hbits hat ht => ⟨fun dead tail hdead hcoded hlen => ?deadStep, ?stops⟩⟩
  case dead => exact huffLoop_dead ht (taken := []) hdead hcoded (List.length_pos_of_ne_nil hdead.nonempty)
  case deadStep =>
    obtain ⟨u, hloop, htail, hsame⟩ := huffLoop_dead ht (s := afterTurn s) hdead hcoded hlen
    exact ⟨u, by rw [step_descent hn hpace hbits hat, hloop]; rfl, htail, hsame⟩
  case stops =>
    intro e he hends bytes stop hf
    refine ⟨fun b rest hstop hb => ?marker, fun op a l o rest hstop => ?sequence⟩
    case marker =>
      refine step_descent_raises hn hpace hbits hat ht he hends hf (hstop ▸ ecsBits_stop hb rest) fun w hw => ?_
      obtain ⟨-, -, hmarker, -⟩ := fillByteTakesOneByteOfCodedData w
      exact hmarker b rest (hw.trans hstop) hb
    case sequence =>
      refine step_descent_raises hn hpace hbits hat ht he hends hf (ecsBits_stop_cmd hstop) fun w hw => ?_
      exact fillByte_sequence (hw ▸ hstop)

end Sys2Proof.Machine
end

section
/-! SUPPORT. What the ends of DC and AC symbols do, and the values their extra bits give (R105, R110, R111). -/

namespace Sys2Proof.Machine

/-- A DC value in range is the new predictor and `ZZ[0]` (R110). -/
theorem dcFinish_inRange {s : State} {t v : Nat} {dc : Int} (hdc : dc = s.pred[(curBlock s).j] + extend v t)
    (h : InS16 dc) :
    dcFinish t v s = { s with
      seq := .scan (.acHuff 0 0), pred := s.pred.set (curBlock s).j dc, zz := (Vector.replicate 64 0).set 0 dc, k := 1 } := by
  obtain ⟨hlo, hhi⟩ := h
  unfold dcFinish
  simp only [← hdc]
  rw [if_neg (by omega)]
  rfl

/-- A DC value out of range raises COEF_RANGE (R110). -/
theorem dcFinish_outOfRange {s : State} {t v : Nat} (h : ¬ InS16 (s.pred[(curBlock s).j] + extend v t)) :
    dcFinish t v s = raise .coefRange s := by
  unfold InS16 at h
  unfold dcFinish
  simp only
  rw [if_pos (by omega)]

/-- The AC loop goes on below coefficient 64, and ends the block there (R111). -/
theorem acNext_eq (k : Nat) (s : State) :
    acNext k s = { s with k := k, seq := if 63 < k then .scan .transform else .scan (.acHuff 0 0) } := by
  unfold acNext
  split_ifs <;> rfl

/-- In the block that a DC symbol begins every other coefficient is 0 (R111). -/
theorem ac_of_dcOnly (dc : Int) {k : Fin 64} (hk : k ≠ 0) : ((Vector.replicate 64 (0 : Int)).set 0 dc)[k] = 0 := by
  have hne : 0 ≠ k.val := fun e => hk (Fin.ext e.symm)
  simp [Vector.getElem_set_ne _ _ hne]

/-- A string of `sz` extra bits gives a value of magnitude below `2^sz` (R105). -/
theorem extend_bounds {v sz : Nat} (hv : v < 2 ^ sz) : -(2 ^ sz - 1 : Int) ≤ extend v sz ∧ extend v sz ≤ 2 ^ sz - 1 := by
  have hv' : (v : Int) < 2 ^ sz := by exact_mod_cast hv
  rcases Nat.eq_zero_or_pos sz with rfl | hsz
  · simp [extend]
  · rcases extend_range hsz v with ⟨-, e, -⟩ | ⟨-, e, -⟩ <;> omega

/-- "Every `ZZ[k]` is in -1023 to 1023" (R111): an AC symbol has at most 10 extra bits. -/
theorem extend_ac_bounds {v sz : Nat} (hsz : sz ≤ 10) (hv : v < 2 ^ sz) : -1023 ≤ extend v sz ∧ extend v sz ≤ 1023 := by
  have hpow : (2 : Int) ^ sz ≤ 2 ^ 10 := pow_le_pow_right₀ (by decide) hsz
  have := extend_bounds hv
  omega

theorem inS16_of_ac {v : Int} (h : -1023 ≤ v ∧ v ≤ 1023) : InS16 v := by
  unfold InS16
  omega

end Sys2Proof.Machine
end

section
/-! SUPPORT. PRED and ZZ keep their widths (R37, R38, R110, R111). -/

namespace Sys2Proof.Machine

/-- Where PRED and ZZ are kept, only the bits read of an AC symbol's matter. -/
theorem CoefficientsInRange.of_same {s u : State} (h : CoefficientsInRange s) (hpred : u.pred = s.pred) (hzz : u.zz = s.zz)
    (bits : AcBitsBounded u.seq) : CoefficientsInRange u where
  pred := hpred ▸ h.pred
  dc := hzz ▸ h.dc
  ac := hzz ▸ h.ac
  bits := bits

/-- The predictors reset, as at the start of a scan and at a restart (R99, R109). -/
theorem CoefficientsInRange.of_reset {s u : State} (h : CoefficientsInRange s) (hpred : u.pred = Vector.replicate 3 0)
    (hzz : u.zz = s.zz) (bits : AcBitsBounded u.seq) : CoefficientsInRange u where
  pred j := by simp [hpred, InS16]
  dc := hzz ▸ h.dc
  ac := hzz ▸ h.ac
  bits := bits

theorem CoefficientsInRange.after_reader {s u : State} {k : Nat} (h : CoefficientsInRange s)
    (hu : ReaderMoved u { s with k := k }) : CoefficientsInRange u := by
  rw [hu.same.1]
  exact h.of_same rfl rfl h.bits

/-- The range check of R110 keeps PRED and `ZZ[0]` in s16; every other coefficient is 0. -/
theorem dcFinish_coefficientsInRange {s : State} (h : CoefficientsInRange s) (t v : Nat) :
    CoefficientsInRange (dcFinish t v s) := by
  by_cases hdc : InS16 (s.pred[(curBlock s).j] + extend v t)
  · rw [dcFinish_inRange rfl hdc]
    refine ⟨fun j => ?_, by simpa using hdc, fun k hk => ?_, trivial⟩
    · by_cases hj : j = (curBlock s).j
      · simpa [hj] using hdc
      · have hne : (curBlock s).j.val ≠ j.val := fun e => hj (Fin.ext e.symm)
        simpa [Vector.getElem_set_ne _ _ hne] using h.pred j
    · simp only [ac_of_dcOnly _ hk]
      decide
  · rw [dcFinish_outOfRange hdc]
    exact h.of_same rfl rfl trivial

theorem acNext_coefficientsInRange {s : State} (h : CoefficientsInRange s) (k : Nat) : CoefficientsInRange (acNext k s) := by
  unfold acNext
  split_ifs <;> exact h.of_same rfl rfl trivial

/-- The extra bits of an AC symbol give a coefficient that fits every place of ZZ (R111). -/
theorem acFinish_coefficientsInRange {s : State} (h : CoefficientsInRange s) {sz v : Nat} (hsz : sz ≤ 10)
    (hv : v < 2 ^ sz) : CoefficientsInRange (acFinish sz v s) := by
  have hac := extend_ac_bounds hsz hv
  refine acNext_coefficientsInRange (s := { s with zz := s.zz.setIfInBounds s.k (extend v sz) })
    ⟨h.pred, ?_, fun k hk => ?_, h.bits⟩ (s.k + 1)
  · simp only [Vector.getElem_setIfInBounds]
    split_ifs
    · exact inS16_of_ac hac
    · exact h.dc
  · simp only [Fin.getElem_fin, Vector.getElem_setIfInBounds]
    split_ifs
    · exact hac
    · exact h.ac k hk

theorem transformBlock_coefficientsInRange {s : State} (h : CoefficientsInRange s) :
    CoefficientsInRange (transformBlock s) := by
  unfold transformBlock
  simp only
  split_ifs <;> exact h.of_same rfl rfl trivial

theorem commitStep_coefficientsInRange {s : State} (h : CoefficientsInRange s) (i : Nat) (c : Fin 3) :
    CoefficientsInRange (commitStep i c s) := by
  unfold commitStep memWrite nextChannel nextPixel
  split_ifs <;> exact h.of_same rfl rfl trivial

theorem mcuEndStep_coefficientsInRange {s : State} (h : CoefficientsInRange s) : CoefficientsInRange (mcuEndStep s) := by
  unfold mcuEndStep
  split_ifs <;> exact h.of_same rfl rfl trivial

/-- Reading on, down to `n'` bits still to be read, keeps the value of the bits read in bounds. -/
theorem acBitsBounded_more {sz n v n' v' : Nat} (h : AcBitsBounded (.scan (.acBits sz n v))) (hn' : n' ≤ n)
    (hv' : ∀ a, v < 2 ^ a → v' < 2 ^ (a + n - n')) : AcBitsBounded (.scan (.acBits sz n' v')) := by
  obtain ⟨hsz, hn, hv⟩ := h
  have hread := hv' (sz - n) hv
  rw [Nat.sub_add_cancel hn] at hread
  exact ⟨hsz, hn'.trans hn, hread⟩

/-- Every step of the scan program keeps the widths: the bits read of a coefficient bound its value. -/
theorem scanStep_coefficientsInRange {s t : State} {q : ScanPos} (hq : s.seq = .scan q) (h : ScanStep s q t)
    (hs : CoefficientsInRange s) : CoefficientsInRange t := by
  have hbits : AcBitsBounded (.scan q) := hq ▸ hs.bits
  cases h with
  | raised c k u hu => exact (hs.after_reader hu).of_same rfl rfl trivial
  | moved _ hu => exact hs.after_reader (k := s.k) hu
  | begins | eob => exact hs.of_same rfl rfl trivial
  | restart => exact hs.of_reset rfl rfl trivial
  | dcHuff _ _ _ _ u _ hu | dcSymbol _ _ _ u _ hu | dcBits _ _ _ u _ hu | acHuff _ _ _ _ u _ hu | acSymbol _ _ _ u _ hu =>
    exact (hs.after_reader (k := s.k) hu).of_same rfl rfl trivial
  | dcDone t v u _ hu => exact dcFinish_coefficientsInRange (hs.after_reader (k := s.k) hu) t v
  | zrl => exact acNext_coefficientsInRange hs _
  | runBits rs k sz n v u _ _ _ hsz hn hv hu => exact (hs.after_reader hu).of_same rfl rfl ⟨hsz, hn, hv⟩
  | runDone rs k sz v u _ _ _ hsz hv hu => exact acFinish_coefficientsInRange (hs.after_reader hu) hsz hv
  | acBits sz n v n' v' u e hn' hv' hu =>
    subst e
    exact (hs.after_reader (k := s.k) hu).of_same rfl rfl (acBitsBounded_more hbits hn' hv')
  | acDone sz n v v' u e hv' hu =>
    subst e
    obtain ⟨hsz, -, hread⟩ := acBitsBounded_more hbits (Nat.zero_le n) hv'
    exact acFinish_coefficientsInRange (hs.after_reader (k := s.k) hu) hsz hread
  | transform => exact transformBlock_coefficientsInRange hs
  | commit i c => exact commitStep_coefficientsInRange hs i c
  | mcuEnd => exact mcuEndStep_coefficientsInRange hs

theorem nextUnit_coefficientsInRange {s t : State} (h : NextUnit s t) (hs : CoefficientsInRange s) :
    CoefficientsInRange t := by
  cases h <;> exact hs.of_same rfl rfl trivial

theorem sofEnd_coefficientsInRange {s : State} (hs : CoefficientsInRange s) : CoefficientsInRange (sofEnd s) := by
  unfold sofEnd
  simp only
  split_ifs <;> exact hs.of_same rfl rfl trivial

theorem storeHt_coefficientsInRange {s : State} (hs : CoefficientsInRange s) (tc : TableClass) (th : Fin 4)
    (t : HuffTable) : CoefficientsInRange (storeHt tc th t s) := by
  cases tc <;> exact hs.of_same rfl rfl hs.bits

/-- A payload byte leaves PRED and ZZ as they are, or starts the scan with the predictors reset (R99). -/
theorem loadStep_coefficientsInRange {s t : State} {l : LoadPos} (h : LoadStep s l t) (hs : CoefficientsInRange s) :
    CoefficientsInRange t := by
  cases h with
  | dqtStored _ _ _ _ _ _ _ hnext => exact nextUnit_coefficientsInRange hnext (hs.of_same rfl rfl hs.bits)
  | dhtNoSymbols _ _ _ _ _ _ _ _ _ hnext => exact nextUnit_coefficientsInRange hnext (storeHt_coefficientsInRange hs _ _ _)
  | dhtStored _ _ _ _ _ _ _ _ hnext => exact nextUnit_coefficientsInRange hnext (storeHt_coefficientsInRange hs _ _ _)
  | sofEnded => exact sofEnd_coefficientsInRange (hs.of_same rfl rfl hs.bits)
  | scanStarts => exact hs.of_reset rfl rfl trivial
  | _ => exact hs.of_same rfl rfl trivial

theorem loadStart_coefficientsInRange {s t : State} (h : LoadStart s t) (hs : CoefficientsInRange s) :
    CoefficientsInRange t := by
  cases h with
  | units _ hnext => exact nextUnit_coefficientsInRange hnext hs
  | _ => exact hs.of_same rfl rfl trivial

theorem coreStep_coefficientsInRange {s t : State} (h : CoreStep s t) (hs : CoefficientsInRange s) :
    CoefficientsInRange t := by
  refine coreStep_keeps h (P := CoefficientsInRange) ?start ?raised ?byte ?scan hs
  case start => exact fun _ _ _ _ _ hu => loadStart_coefficientsInRange hu (hs.of_same rfl rfl hs.bits)
  case raised => exact fun _ _ _ _ hu => hu.of_same rfl rfl trivial
  case byte => exact fun u _ _ _ _ _ _ hu hv => loadStep_coefficientsInRange hv (hu.of_same rfl rfl hu.bits)
  case scan => exact fun q hq hstep => scanStep_coefficientsInRange hq hstep hs

theorem hostEffect_coefficientsInRange {s u : State} (h : HostEffect s u) (hs : CoefficientsInRange s) :
    CoefficientsInRange u := by
  rw [(hostEffect_changes h).same]
  exact hs.of_same rfl rfl hs.bits

theorem resetCore_coefficientsInRange (s : State) : CoefficientsInRange (resetCore s) where
  pred j := by simp [resetCore, State.reset, InS16]
  dc := by simp [resetCore, State.reset, InS16]
  ac k _ := by simp [resetCore, State.reset]
  bits := trivial

/-- Settles O53: a DC value is checked before it is stored, an AC coefficient is bounded by the number of its extra bits, and
what else writes PRED and ZZ writes 0. -/
theorem everyStepKeepsCoefficientsInRange : Obligations.EveryStepKeepsCoefficientsInRange := by
  intro s t hs h
  exact step_keeps h (P := CoefficientsInRange) (fun _ _ _ _ _ _ hu => hu.of_same rfl rfl hu.bits)
    (fun _ _ => coreStep_coefficientsInRange) (fun _ _ => hostEffect_coefficientsInRange)
    (fun u _ => resetCore_coefficientsInRange u) hs

end Sys2Proof.Machine
end

section
/-! SUPPORT. DC and AC symbols with their extra bits there, EOB and ZRL, and the symbols that no rule allows (R110, R111). -/

namespace Sys2Proof.Machine

open Sys2Proof.Spec

/-- A DC symbol with its extra bits there (R110, log 3). -/
theorem exec_dcCategory_ready {s : State} {t : Byte} (hpace : s.pace = .whole) (ht : t.toNat ≤ 11)
    (hbits : t.toNat ≤ (codedBits s).length) :
    ∃ u, exec (.dcCategory t) s = .next (dcFinish t.toNat (bitsValue ((codedBits s).take t.toNat)) u) ∧
      codedBits u = (codedBits s).drop t.toNat ∧ SameButReader u s := by
  obtain ⟨u, hu, hcoded, hsame⟩ := readBitsDeliversTheCodedBits s t.toNat hbits
  refine ⟨u, ?_, hcoded, hsame⟩
  rw [exec_dcCategory hpace ht, ← readBits, hu]
  rfl

/-- A run-size symbol with its extra bits there (R111, log 3). -/
theorem exec_acRunSize_ready {s : State} {r sz : BitVec 4} (hpace : s.pace = .whole) (hsz : sz.toNat ≤ 10)
    (hk : s.k + r.toNat ≤ 63) (hbits : sz.toNat ≤ (codedBits s).length) :
    ∃ u, exec (.acRunSize r sz) s = .next (acFinish sz.toNat (bitsValue ((codedBits s).take sz.toNat)) u) ∧
      codedBits u = (codedBits s).drop sz.toNat ∧ SameButReader u { s with k := s.k + r.toNat } := by
  obtain ⟨u, hu, hcoded, hsame⟩ := readBitsDeliversTheCodedBits { s with k := s.k + r.toNat } sz.toNat hbits
  refine ⟨u, ?_, hcoded, hsame⟩
  rw [exec_acRunSize hpace hsz hk, ← readBits, hu]
  rfl

/-- A DC value is formed from the predictor that stood before the extra bits were read. -/
theorem SameButReader.pred_curBlock {u s : State} (h : SameButReader u s) :
    u.pred[(curBlock u).j] = s.pred[(curBlock s).j] := by
  rw [h.1]
  rfl

/-- Settles O34: the bits are read, and the value is in range. -/
theorem dcCategorySetsTheCoefficient : Obligations.DcCategorySetsTheCoefficient := by
  intro s t dc hpace ht hbits hdc hrange
  obtain ⟨u, hu, hcoded, hsame⟩ := exec_dcCategory_ready hpace ht hbits
  rw [dcFinish_inRange (hsame.pred_curBlock ▸ hdc) hrange] at hu
  refine ⟨_, hu, ?_, by simp, fun k hk => ac_of_dcOnly dc hk, hcoded, hsame.2⟩
  simp only
  rw [hsame.1]
  rfl

/-- Settles O35: a category or a size too large and a run past the block raise before a bit is read, a DC value out of range
after its bits. -/
theorem illegalSymbolsRaise : Obligations.IllegalSymbolsRaise := by
  intro s
  refine ⟨fun t ht => ?category, fun t hpace ht hbits hrange => ?coefRange, fun r => rfl, fun r sz hsz => ?size,
    fun r sz hsz hk => ?run, fun hk => ?zrl⟩
  case category => rw [exec, execDcCategory, if_pos ht]
  case coefRange =>
    obtain ⟨u, hu, -, hsame⟩ := exec_dcCategory_ready hpace ht hbits
    rw [dcFinish_outOfRange (hsame.pred_curBlock ▸ hrange)] at hu
    exact ⟨u, hu, hsame⟩
  case size => rw [exec, execAcRunSize, if_pos hsz]
  case run => rw [exec, execAcRunSize, if_neg (Nat.not_lt.2 hsz), if_pos hk]
  case zrl => rw [exec, execAcZrl, if_pos hk]

/-- Settles O38: the bits are read, and the coefficient after the run is set. -/
theorem runSizeSetsTheCoefficient : Obligations.RunSizeSetsTheCoefficient := by
  intro s r sz hpace _ hsz hk hbits
  obtain ⟨u, hu, hcoded, hsame⟩ := exec_acRunSize_ready hpace hsz hk hbits
  have huk : u.k = s.k + r.toNat := by rw [hsame.1]
  have huzz : u.zz = s.zz := by rw [hsame.1]
  have hend : 63 < s.k + r.toNat + 1 ↔ s.k + r.toNat = 63 := by omega
  rw [acFinish, acNext_eq, huk, huzz] at hu
  simp only [hend] at hu
  refine ⟨_, hu, ?_, fun i => ?_, hcoded, hsame.2⟩
  · simp only
    rw [hsame.1]
  · simp only [Fin.getElem_fin, Vector.getElem_setIfInBounds, eq_comm (a := i.val)]

/-- Settles O37: EOB goes on to the transform, ZRL to the coefficient sixteen further or to the block's end. -/
theorem eobAndZrlAdvance : Obligations.EobAndZrlAdvance := by
  intro s
  refine ⟨rfl, fun hk => ?goesOn, fun hk => ?ends⟩
  case goesOn => rw [exec, execAcZrl, if_neg (by omega), acNext_eq, if_neg (by omega)]
  case ends => rw [exec, execAcZrl, if_neg (by omega), acNext_eq, hk, if_pos (by decide)]

end Sys2Proof.Machine
end

section
/-! SUPPORT. The start and the end of an MCU (R108, R109, R113, R124). -/

namespace Sys2Proof.Machine

/-- Where the scan program meets no instruction, the core's turn is the work that stands at its position (R108). -/
theorem coreTurn_scanStep {s : State} {q : ScanPos} (hs : s.seq = .scan q) (h : fetchScan q s = none) :
    coreTurn s = .next (scanStep q s) := by
  rw [coreTurn_advance ((fetch_scan hs).trans h)]
  simp only [advance, hs]

/-! What an MCU boundary meets at the FIFO's head. -/

/-- The restart markers are FF D0 to FF D7 (R72). -/
theorem isRstByte_iff (b : Byte) : isRstByte b = true ↔ 0xD0 ≤ b.toNat ∧ b.toNat ≤ 0xD7 := by
  rw [isRstByte, beq_iff_eq, ← BitVec.toNat_inj, BitVec.extractLsb'_toNat, Nat.shiftRight_eq_div_pow]
  have hb := b.isLt
  simp only [BitVec.toNat_ofNat]
  omega

/-- Data that is no restart marker begins the MCU, as the start of the first MCU does (R108, R109). -/
theorem mcuStartStep_begins {s : State}
    (h : s.m = 0 ∨ (∃ b rest, s.fifo = .data b :: rest ∧ b ≠ 0xFF#8) ∨
      ∃ b rest, s.fifo = .data 0xFF#8 :: .data b :: rest ∧ (b.toNat < 0xD0 ∨ 0xD7 < b.toNat)) :
    mcuStartStep s = beginMcu s := by
  rcases h with hm | ⟨b, rest, hf, hb⟩ | ⟨b, rest, hf, hb⟩
  · rw [mcuStartStep, if_pos hm]
  · simp [mcuStartStep, peekByte_head hf, hb]
  · have hrst : ¬ isRstByte b = true := by rw [isRstByte_iff]; omega
    simp [mcuStartStep, peekByte_head hf, peekByte_second hf, hrst]

/-- A command entry where a byte that decides is due (R90, R109). -/
theorem mcuStartStep_sequence {s : State} {op a : Byte} {l : Half} {o : Word} {rest : List FifoEntry} (hm : s.m ≠ 0)
    (h : s.fifo = .cmd op a l o :: rest ∨ s.fifo = .data 0xFF#8 :: .cmd op a l o :: rest) :
    mcuStartStep s = raise .sequence s := by
  rcases h with hf | hf <;> simp [mcuStartStep, hm, peekByte, hf, FifoEntry.isData, FifoEntry.byte]

/-- A step of the core at an MCU boundary. -/
theorem step_mcuStart {s : State} (hs : s.seq = .scan .mcuStart) (hn : nextTurn s = .core) :
    step s = .next (mcuStartStep (afterTurn s)) := by
  rw [step_core hn, coreTurn_mcuStart (s := afterTurn s) hs]

/-- Settles O32: the restart by its definition, the start of an MCU by what stands at the FIFO's head. -/
theorem restartResetsThePredictors : Obligations.RestartResetsThePredictors := by
  constructor
  · intro s n b rest hf
    refine ⟨_, rfl, ?_, fun j => ?_⟩
    · rw [takeRestart, consume, hf]
      rfl
    · simp [takeRestart, beginMcu]
  intro s hs hn
  rw [step_mcuStart hs hn]
  refine ⟨fun h => ?begins, fun hm => ⟨fun op a l o rest h => ?sequence, fun h => ?waits⟩⟩
  case begins => rw [mcuStartStep_begins (s := afterTurn s) h]; rfl
  case sequence => rw [mcuStartStep_sequence (s := afterTurn s) hm h]; rfl
  case waits => rw [mcuStartStep_waits (s := afterTurn s) hm ((bytesMissing_iff _).2 h)]; rfl

/-! The end of an MCU. -/

/-- At the end of an MCU the core counts it. -/
theorem coreTurn_mcuEnd {s : State} (h : s.seq = .scan .mcuEnd) : coreTurn s = .next (mcuEndStep s) :=
  coreTurn_scanStep h rfl

/-- The bytes of any value once the scan is complete (R50, R55). -/
theorem inSpans_indetAfterDone (s : State) (a : Nat) :
    inSpans (indetAfterDone s) a = true ↔
      inSpans s.clobbered a = true ∨ (inSpans s.indet a = true ∧ ¬ ((region s).lo ≤ a ∧ a < (region s).hi)) := by
  rw [indetAfterDone, inSpans_append, inSpans_minusSpan, Bool.or_eq_true, Bool.and_eq_true, Bool.not_eq_true',
    ← Span.has_iff, Bool.not_eq_true]

/-- Settles O50: the step at the end of an MCU, by whether it is the last. -/
theorem lastMcuCompletesTheScan : Obligations.LastMcuCompletesTheScan := by
  intro s hs hn
  rw [step_core hn, coreTurn_mcuEnd (s := afterTurn s) hs]
  refine ⟨fun hm => ?next, fun hm => ?last⟩
  case next =>
    rw [mcuEndStep, if_pos (by exact hm)]
    rfl
  case last =>
    rw [mcuEndStep, if_neg (by exact Nat.not_lt.2 hm)]
    exact ⟨_, rfl, rfl, inSpans_indetAfterDone { afterTurn s with mcuDone := s.mcuDone + 1 }⟩

end Sys2Proof.Machine
end

section
/-! SUPPORT. The blocks of an MCU in coding order (R107). -/

namespace Sys2Proof.Machine

/-- An entry of the `n`-th part of a list of parts stands behind the entries of the parts before it. -/
theorem getElem?_flatMap_part {α β : Type} {f : α → List β} {l : List α} {n i : Nat} {a : α} (ha : l[n]? = some a)
    (hi : i < (f a).length) : (l.flatMap f)[((l.take n).map (fun x => (f x).length)).sum + i]? = (f a)[i]? := by
  obtain ⟨hn, rfl⟩ := List.getElem?_eq_some_iff.1 ha
  have hdrop : (l.flatMap f).drop ((l.take n).map (fun x => (f x).length)).sum = (l.drop n).flatMap f := by
    simpa [List.flatMap_def, Function.comp_def] using List.drop_sum_flatten (l.map f) n
  rw [← List.getElem?_drop, hdrop, List.drop_eq_getElem_cons hn, List.flatMap_cons, List.getElem?_append_left hi]

/-- The components of a frame, by their index (R35). -/
theorem frameComps_eq_map (f : Frame) :
    frameComps f = ((List.finRange 3).take f.nf.toNat).map (fun j => f.comps[j]) := by
  rw [List.map_take, frameComps]
  congr 1
  refine List.ext_getElem (by simp) fun i h1 h2 => ?_
  simp

/-- A row of a component's blocks of an MCU (R107). -/
def rowBlocks (f : Frame) (j : Fin 3) (v : Nat) : List Block :=
  (List.range f.comps[j].h.toNat).map fun h => ⟨j, h, v⟩

/-- A component's blocks of an MCU, row by row (R107). -/
def compBlocks (f : Frame) (j : Fin 3) : List Block := (List.range f.comps[j].v.toNat).flatMap (rowBlocks f j)

theorem mcuBlocks_eq (f : Frame) : mcuBlocks f = ((List.finRange 3).take f.nf.toNat).flatMap (compBlocks f) := rfl

theorem rowBlocks_length (f : Frame) (j : Fin 3) (v : Nat) : (rowBlocks f j v).length = f.comps[j].h.toNat := by
  simp [rowBlocks]

theorem rowBlocks_getElem? {f : Frame} {j : Fin 3} {h : Nat} (hh : h < f.comps[j].h.toNat) (v : Nat) :
    (rowBlocks f j v)[h]? = some ⟨j, h, v⟩ := by
  rw [rowBlocks, List.getElem?_map, List.getElem?_range hh]
  rfl

theorem compBlocks_length (f : Frame) (j : Fin 3) :
    (compBlocks f j).length = f.comps[j].h.toNat * f.comps[j].v.toNat := by
  simp [compBlocks, rowBlocks_length, Nat.mul_comm]

/-- Row `v` of a component's blocks follows `v` rows of its `H` blocks. -/
theorem compBlocks_getElem? {f : Frame} {j : Fin 3} {h v : Nat} (hh : h < f.comps[j].h.toNat)
    (hv : v < f.comps[j].v.toNat) : (compBlocks f j)[v * f.comps[j].h.toNat + h]? = some ⟨j, h, v⟩ := by
  have hpart := getElem?_flatMap_part (f := rowBlocks f j) (List.getElem?_range hv) ((rowBlocks_length f j v).symm ▸ hh)
  have hrows : (((List.range f.comps[j].v.toNat).take v).map fun w => (rowBlocks f j w).length).sum =
      v * f.comps[j].h.toNat := by
    rw [List.take_range, Nat.min_eq_left hv.le]
    simp [rowBlocks_length]
  rw [hrows, rowBlocks_getElem? hh] at hpart
  exact hpart

/-- The blocks of the components before `j`. -/
theorem sum_compBlocks_length (f : Frame) (j : Nat) :
    ((((List.finRange 3).take f.nf.toNat).take j).map (fun i => (compBlocks f i).length)).sum =
      (((frameComps f).take j).map (fun c => c.h.toNat * c.v.toNat)).sum := by
  rw [frameComps_eq_map, ← List.map_take, List.map_map]
  simp only [compBlocks_length]
  rfl

theorem mcuBlocks_length (f : Frame) : (mcuBlocks f).length = blocksPerMcu f := by
  rw [mcuBlocks_eq, List.length_flatMap, blocksPerMcu, frameComps_eq_map, List.map_map]
  simp only [compBlocks_length]
  rfl

/-- Settles O41: the blocks of a component follow those of the components before it, and in them a row follows the rows before
it. -/
theorem blocksComeInCodingOrder : Obligations.BlocksComeInCodingOrder := by
  refine ⟨fun f _ => ⟨mcuBlocks_length f, fun j h v hj hh hv => ?_⟩, fun s hblk => ?_⟩
  · have hcomp := compBlocks_getElem? hh hv
    have hlen : v * f.comps[j].h.toNat + h < (compBlocks f j).length := (List.getElem?_eq_some_iff.1 hcomp).1
    have hget : ((List.finRange 3).take f.nf.toNat)[j.val]? = some j := by
      rw [List.getElem?_take_of_lt hj]
      simp
    have hpart := getElem?_flatMap_part hget hlen
    rw [sum_compBlocks_length, ← Nat.add_assoc, ← mcuBlocks_eq, hcomp] at hpart
    exact hpart
  · rw [curBlock, List.getD_eq_getElem _ _ hblk, List.getElem?_eq_getElem hblk]

end Sys2Proof.Machine
end

section
/-! SUPPORT. A finished block: dequantization (R78, R112), and the samples of the block (R38, R108, R117). -/

namespace Sys2Proof.Machine

/-- The two tables of R78 are inverse to each other. -/
theorem zigzagPos_zigzag : ∀ k : Fin 64, zigzagPos[zigzag[k]] = k := by decide

/-- `B[ZIGZAG[k]] <- ZZ[k] * QT[t][k]` (R112). -/
theorem dequant_zigzag (zz : Vector Int 64) (q : Vector Byte 64) (k : Fin 64) :
    (dequant zz q)[zigzag[k]] = zz[k] * (q[k].toNat : Int) := by
  have h := zigzagPos_zigzag k
  simp only [Fin.getElem_fin] at h ⊢
  simp [dequant, h]

/-- The product of an s16 value and a byte fits s24 (R112). -/
theorem s16_mul_byte_bounds {a : Int} (ha : InS16 a) (b : Byte) :
    -(32768 * 255) ≤ a * (b.toNat : Int) ∧ a * (b.toNat : Int) ≤ 32768 * 255 := by
  obtain ⟨hlo, hhi⟩ := ha
  have hb : (b.toNat : Int) ≤ 255 := by have := b.isLt; omega
  constructor <;> nlinarith

/-- Settles O42: the tables by evaluation, the products by their bounds. -/
theorem dequantMultipliesAndDezigzags : Obligations.DequantMultipliesAndDezigzags := by
  refine ⟨by decide, fun zz q k => ⟨dequant_zigzag zz q k, fun hk => ?_⟩⟩
  rw [dequant_zigzag]
  exact s16_mul_byte_bounds hk q[k]

/-- The samples of the block that was stored (R108). -/
theorem sampleAt_storeSamples_same (s : State) (j : Fin 3) {h v : Nat} (o : Vector Byte 64) (hh : h < 4) (hv : v < 4)
    (x y : Fin 8) : sampleAt (storeSamples ⟨j, h, v⟩ o s) j (8 * h + x.val) (8 * v + y.val) = o[8 * y.val + x.val] := by
  have hblock : 4 * ((8 * v + y.val) / 8) + (8 * h + x.val) / 8 = 4 * v + h := by omega
  have hin : 8 * ((8 * v + y.val) % 8) + (8 * h + x.val) % 8 = 8 * y.val + x.val := by omega
  have hlt : 4 * v + h < 16 := by omega
  simp only [sampleAt, hblock, hin]
  simp [storeSamples, hlt]

/-- Every other sample keeps its value (R108). -/
theorem sampleAt_storeSamples_other (s : State) {j j' : Fin 3} {h v x y : Nat} (o : Vector Byte 64) (hh : h < 4)
    (hx : x < 32) (hne : (j', x / 8, y / 8) ≠ (j, h, v)) :
    sampleAt (storeSamples ⟨j, h, v⟩ o s) j' x y = sampleAt s j' x y := by
  by_cases hj : j' = j
  · subst hj
    have hblock : 4 * v + h ≠ 4 * (y / 8) + x / 8 := by
      intro e
      exact hne (by rw [show x / 8 = h by omega, show y / 8 = v by omega])
    simp [sampleAt, storeSamples, Vector.getElem?_setIfInBounds_ne hblock]
  · have hval : j.val ≠ j'.val := fun e => hj (Fin.ext e.symm)
    simp [sampleAt, storeSamples, Vector.getElem_set_ne _ _ hval]

/-- Where a block is complete the core transforms it. -/
theorem coreTurn_transform {s : State} (h : s.seq = .scan .transform) : coreTurn s = .next (transformBlock s) :=
  coreTurn_scanStep h rfl

/-- The position after a block: the next block of the MCU, or the commit (R108). -/
def afterBlock (s : State) : ScanPos :=
  if s.blk + 1 < (mcuBlocks s.frame).length then .dcHuff 0 0 else .commit 0 0

/-- A complete block is dequantized, transformed and stored (R108). -/
theorem transformBlock_eq (s : State) :
    transformBlock s = scanAt (afterBlock s) (storeSamples (curBlock s) (idct (dequant s.zz (quantTable s)))
      { s with
        b := dequant s.zz (quantTable s), ws := idctColumns (dequant s.zz (quantTable s)), blk := s.blk + 1 }) := by
  unfold transformBlock afterBlock
  simp only
  split_ifs <;> rfl

/-- Settles O46: the block's samples are the transform's, the others are kept. -/
theorem transformStoresTheBlock : Obligations.TransformStoresTheBlock := by
  intro s j h v hs hn hcur hh hv
  have hblock : curBlock (afterTurn s) = ⟨j, h, v⟩ := hcur
  have hquant : quantTable (afterTurn s) = s.qt[(s.frame.comps[j]).tq] := by
    simp only [quantTable, hblock, afterTurn_qt, afterTurn_frame]
  rw [step_core hn, coreTurn_transform (s := afterTurn s) hs, transformBlock_eq, hblock, hquant]
  refine ⟨_, rfl, rfl, fun x y => ?_, fun j' x y hx _ hne => ?_, ?_⟩
  · exact sampleAt_storeSamples_same _ j _ hh hv x y
  · exact sampleAt_storeSamples_other _ _ hh hx hne
  · rw [scanAt_seq, afterBlock, apply_ite Seq.scan]
    rfl

end Sys2Proof.Machine
end

section
/-! SUPPORT. The MCUs of a frame cover its image, each pixel once (R106, R124). -/

namespace Sys2Proof.Machine

open Sys2Proof.Spec

/-- The MCUs of a direction reach its last pixel (R106). -/
theorem div_lt_mcuCount {n f x : Nat} (hf : 0 < f) (hx : x < n) : x / (8 * f) < mcuCount n f :=
  Nat.div_lt_of_lt_mul (hx.trans_le (mcuCount_covers (Nat.zero_lt_of_lt hx) hf).2)

/-- The MCU and the pixel of it that stand for the image pixel `(x, y)` (R106, R124). -/
def pixelPlace (f : Frame) (x y : Nat) : Nat × Nat :=
  (x / (8 * f.hmax.toNat) + f.mcux * (y / (8 * f.vmax.toNat)),
    x % (8 * f.hmax.toNat) + 8 * f.hmax.toNat * (y % (8 * f.vmax.toNat)))

/-- A pixel's place in the image, in MCUs and in pixels of the MCU (R106, R124). -/
theorem coversPixel_iff (s : State) (m i x y : Nat) :
    CoversPixel s m i x y ↔ m < s.frame.mcuTotal ∧ i < 8 * s.frame.hmax.toNat * (8 * s.frame.vmax.toNat) ∧
      8 * s.frame.hmax.toNat * (m % s.frame.mcux) + i % (8 * s.frame.hmax.toNat) = x ∧
      8 * s.frame.vmax.toNat * (m / s.frame.mcux) + i / (8 * s.frame.hmax.toNat) = y := Iff.rfl

theorem coversPixel_pixelPlace {s : State} {x y : Nat} (hf : s.frame.sound) (hx : x < s.frame.x.toNat)
    (hy : y < s.frame.y.toNat) :
    CoversPixel s (pixelPlace s.frame x y).1 (pixelPlace s.frame x y).2 x y := by
  obtain ⟨hh, hv⟩ := hf.maxima_pos
  have hcol : x / (8 * s.frame.hmax.toNat) < s.frame.mcux := hf.mcux ▸ div_lt_mcuCount hh hx
  have hrow : y / (8 * s.frame.vmax.toNat) < s.frame.mcuy := hf.mcuy ▸ div_lt_mcuCount hv hy
  have hpx : x % (8 * s.frame.hmax.toNat) < 8 * s.frame.hmax.toNat := Nat.mod_lt _ (by omega)
  have hpy : y % (8 * s.frame.vmax.toNat) < 8 * s.frame.vmax.toNat := Nat.mod_lt _ (by omega)
  obtain ⟨hmdiv, hmmod⟩ := (Nat.div_mod_unique (a := (pixelPlace s.frame x y).1) (Nat.zero_lt_of_lt hcol)).2 ⟨rfl, hcol⟩
  obtain ⟨hidiv, himod⟩ := (Nat.div_mod_unique (a := (pixelPlace s.frame x y).2) (Nat.zero_lt_of_lt hpx)).2 ⟨rfl, hpx⟩
  rw [coversPixel_iff, hmdiv, hmmod, hidiv, himod, hf.mcuTotal]
  exact ⟨Nat.add_mul_lt_mul_of_lt_of_lt hcol hrow, Nat.add_mul_lt_mul_of_lt_of_lt hpx hpy, Nat.div_add_mod _ _,
    Nat.div_add_mod _ _⟩

theorem pixelPlace_unique {s : State} {m i x y : Nat} (hf : s.frame.sound) (h : CoversPixel s m i x y) :
    (m, i) = pixelPlace s.frame x y := by
  obtain ⟨hh, hv⟩ := hf.maxima_pos
  obtain ⟨-, hi, hx, hy⟩ := (coversPixel_iff s m i x y).1 h
  have hpx : i % (8 * s.frame.hmax.toNat) < 8 * s.frame.hmax.toNat := Nat.mod_lt _ (by omega)
  have hpy : i / (8 * s.frame.hmax.toNat) < 8 * s.frame.vmax.toNat := Nat.div_lt_of_lt_mul hi
  obtain ⟨hxdiv, hxmod⟩ := (Nat.div_mod_unique (by omega)).2 ⟨(Nat.add_comm _ _).trans hx, hpx⟩
  obtain ⟨hydiv, hymod⟩ := (Nat.div_mod_unique (by omega)).2 ⟨(Nat.add_comm _ _).trans hy, hpy⟩
  rw [pixelPlace, hxdiv, hxmod, hydiv, hymod, Nat.mod_add_div, Nat.mod_add_div]

/-- Settles O48: the pixel's MCU and its place in it are quotient and remainder of its coordinates. -/
theorem eachImagePixelIsCoveredOnce : Obligations.EachImagePixelIsCoveredOnce :=
  fun _ _ _ hf hx hy => ⟨_, coversPixel_pixelPlace hf hx hy, fun _ hmi => pixelPlace_unique hf hmi⟩

end Sys2Proof.Machine
end

section
/-! SUPPORT. The inverse DCT as a linear map of its inputs (R115 to R117), and the width of its values (R118). -/

namespace Sys2Proof.Machine

open Sys2Proof.Spec

/-! The one-dimensional transform -/

theorem idct8_toList (d : Fin 8 → Int) (n : Nat) :
    (idct8 d n).toList = (descaled (idct8Values d)).map (descale · n) := rfl

/-- The sums of R116 are those of the even and the odd part, in a butterfly. -/
theorem descaled_idct8Values (d : Fin 8 → Int) :
    descaled (idct8Values d) =
      [idct8Even d 0 + idct8Odd d 0, idct8Even d 1 + idct8Odd d 1, idct8Even d 2 + idct8Odd d 2,
        idct8Even d 3 + idct8Odd d 3, idct8Even d 3 - idct8Odd d 3, idct8Even d 2 - idct8Odd d 2,
        idct8Even d 1 - idct8Odd d 1, idct8Even d 0 - idct8Odd d 0] := by
  simp only [descaled, idct8Values, idct8Even, idct8Odd, Fin.reduceEq, if_true, if_false, List.cons.injEq, and_true]
  refine ⟨?_, ?_, ?_, ?_, ?_, ?_, ?_, ?_⟩ <;> ring

theorem idct8_getElem?_low (d : Fin 8 → Int) (n : Nat) (i : Fin 4) :
    (idct8 d n)[i.val]? = some (descale (idct8Even d i + idct8Odd d i) n) := by
  rw [← Vector.getElem?_toList, idct8_toList, descaled_idct8Values]
  fin_cases i <;> rfl

theorem idct8_getElem?_high (d : Fin 8 → Int) (n : Nat) (i : Fin 4) :
    (idct8 d n)[7 - i.val]? = some (descale (idct8Even d i - idct8Odd d i) n) := by
  rw [← Vector.getElem?_toList, idct8_toList, descaled_idct8Values]
  fin_cases i <;> rfl

theorem descaled_getElem?_map (d : Fin 8 → Int) (n : Nat) (i : Fin 8) :
    (descaled (idct8Values d))[i.val]?.map (descale · n) = some (idct8 d n)[i] := by
  rw [← List.getElem?_map, ← idct8_toList, Vector.getElem?_toList]
  exact Vector.getElem?_eq_getElem i.isLt

theorem exists_descaled_eq_idct8 (d : Fin 8 → Int) (n : Nat) (i : Fin 8) :
    ∃ s ∈ descaled (idct8Values d), descale s n = (idct8 d n)[i] := by
  obtain ⟨s, hs, heq⟩ := Option.map_eq_some_iff.1 (descaled_getElem?_map d n i)
  exact ⟨s, List.mem_of_getElem? hs, heq⟩

/-! The two passes -/

theorem idctColumns_getElem_fin (b : Vector Int 64) (n : Fin 64) :
    (idctColumns b)[n] = (idct8 (column b (colOf n)) 11)[rowOf n] := by
  simp [idctColumns]

theorem clampByte_toNat (v : Int) : ((clampByte v).toNat : Int) = clamp v 0 255 := by
  have hbyte : 0 ≤ clamp v 0 255 ∧ clamp v 0 255 ≤ 255 := by
    unfold clamp
    split_ifs <;> omega
  rw [clampByte, BitVec.toNat_ofNat, Nat.mod_eq_of_lt (by omega), Int.toNat_of_nonneg hbyte.1]

theorem idct_getElem_fin (b : Vector Int 64) (n : Fin 64) :
    ((idct b)[n].toNat : Int) = clamp ((idct8 (row (idctColumns b) (rowOf n)) 18)[colOf n] + 128) 0 255 := by
  simp [idct, idctRows, clampByte_toNat]

/-- The natural index of row `y`, column `x`. -/
def natIndex (y x : Fin 8) : Fin 64 := ⟨8 * y.val + x.val, by omega⟩

theorem rowOf_natIndex (y x : Fin 8) : rowOf (natIndex y x) = y := by
  simp only [rowOf, natIndex, Fin.ext_iff]
  omega

theorem colOf_natIndex (y x : Fin 8) : colOf (natIndex y x) = x := by
  simp only [colOf, natIndex, Fin.ext_iff]
  omega

theorem idctColumns_natIndex (b : Vector Int 64) (y x : Fin 8) :
    (idctColumns b)[natIndex y x] = (idct8 (column b x) 11)[y] := by
  simp only [idctColumns_getElem_fin, rowOf_natIndex, colOf_natIndex]

theorem idct_natIndex (b : Vector Int 64) (y x : Fin 8) :
    ((idct b)[natIndex y x].toNat : Int) = clamp ((idct8 (row (idctColumns b) y) 18)[x] + 128) 0 255 := by
  simp only [idct_getElem_fin, rowOf_natIndex, colOf_natIndex]

/-! A block with only a DC coefficient -/

/-- With only a DC input, the odd part is 0 and the even part does not depend on the output. -/
theorem idct8_of_dcOnly {d : Fin 8 → Int} (h : ∀ k, k ≠ 0 → d k = 0) (n : Nat) (i : Fin 8) :
    (idct8 d n)[i] = descale (2 ^ 13 * d 0) n := by
  have heven (j : Fin 4) : idct8Even d j = 2 ^ 13 * d 0 := by
    simp [idct8Even, h]
  have hodd (j : Fin 4) : idct8Odd d j = 0 := by
    simp [idct8Odd, h]
  obtain ⟨s, hs, heq⟩ := exists_descaled_eq_idct8 d n i
  have hsum : s = 2 ^ 13 * d 0 := by simpa [descaled_idct8Values, heven, hodd] using hs
  rw [← heq, hsum]

theorem idctColumns_of_dcOnly {b : Vector Int 64} (h : ∀ n : Fin 64, n ≠ 0 → b[n] = 0) (y x : Fin 8) :
    (idctColumns b)[natIndex y x] = if x = 0 then 4 * b[0] else 0 := by
  have hcol (r : Fin 8) (hr : r ≠ 0) : column b x r = 0 :=
    h (natIndex r x) fun h0 => hr (by rw [← rowOf_natIndex r x, h0]; rfl)
  rw [idctColumns_natIndex, idct8_of_dcOnly hcol]
  split
  case isTrue hx =>
    subst hx
    show descale (2 ^ 13 * b[0]) 11 = _
    unfold descale
    omega
  case isFalse hx =>
    have hzero : column b x 0 = 0 := h (natIndex 0 x) fun h0 => hx (by rw [← colOf_natIndex 0 x, h0]; rfl)
    rw [hzero]
    rfl

theorem idct_of_dcOnly {b : Vector Int 64} (h : ∀ n : Fin 64, n ≠ 0 → b[n] = 0) (n : Fin 64) :
    ((idct b)[n].toNat : Int) = clamp ((b[0] + 4) / 8 + 128) 0 255 := by
  have hrow (c : Fin 8) : row (idctColumns b) (rowOf n) c = if c = 0 then 4 * b[0] else 0 :=
    idctColumns_of_dcOnly h (rowOf n) c
  rw [idct_getElem_fin, idct8_of_dcOnly fun c hc => by rw [hrow, if_neg hc], hrow, if_pos rfl]
  unfold descale
  congr 2
  omega

/-- Settles O43: the butterfly of R116, the two passes read at an index, and the constant rows of a DC-only block. -/
theorem idctOfDcOnlyIsUniform : Obligations.IdctOfDcOnlyIsUniform := by
  refine ⟨fun d n i => ⟨idct8_getElem?_low d n i, idct8_getElem?_high d n i⟩, fun b x y => ?_, ?_⟩
  · exact ⟨idctColumns_natIndex b y x, idct_natIndex b y x⟩
  · rintro b _ rfl h n
    exact idct_of_dcOnly h n

/-! The width of the values -/

/-- Every value of `idct8` is a linear form of the inputs, and the magnitudes of its coefficients sum to at most `2^16`. -/
theorem idct8Intermediates_abs_le {d : Fin 8 → Int} {m : Int} (h : ∀ k, |d k| ≤ m) :
    ∀ v ∈ idct8Intermediates (idct8Values d), |v| ≤ 2 ^ 16 * m := by
  have hinputs (k : Fin 8) : -m ≤ d k ∧ d k ≤ m := abs_le.1 (h k)
  have h0 := hinputs 0; have h1 := hinputs 1; have h2 := hinputs 2; have h3 := hinputs 3
  have h4 := hinputs 4; have h5 := hinputs 5; have h6 := hinputs 6; have h7 := hinputs 7
  simp only [idct8Intermediates, descaled, List.forall_mem_append, List.forall_mem_cons, List.not_mem_nil,
    false_imp_iff, implies_true, and_true, idct8Values, abs_le]
  and_intros <;> omega

theorem descaled_subset_idct8Intermediates (v : Idct8Values) : descaled v ⊆ idct8Intermediates v :=
  List.subset_append_right _ _

/-- Pass 1's DESCALE takes `2^11` off the gain of `2^16`. -/
theorem idct8_abs_le {d : Fin 8 → Int} {m : Int} (h : ∀ k, |d k| ≤ m) (i : Fin 8) : |(idct8 d 11)[i]| ≤ 2 ^ 5 * m := by
  obtain ⟨s, hs, heq⟩ := exists_descaled_eq_idct8 d 11 i
  have hbound := idct8Intermediates_abs_le h s (descaled_subset_idct8Intermediates _ hs)
  rw [← heq]
  simp only [abs_le, descale] at hbound ⊢
  omega

theorem idctColumns_abs_le {b : Vector Int 64} {m : Int} (h : ∀ n : Fin 64, |b[n]| ≤ m) (n : Fin 64) :
    |(idctColumns b)[n]| ≤ 2 ^ 5 * m := by
  rw [idctColumns_getElem_fin]
  exact idct8_abs_le (fun r => h (natIndex r (colOf n))) (rowOf n)

/-- Rounding by `2^r` costs at most one bit (R115). -/
theorem abs_add_two_pow_le {v : Int} {a r : Nat} (h : |v| ≤ 2 ^ a) (hr : r ≤ a) : |v + 2 ^ r| ≤ 2 ^ (a + 1) :=
  calc |v + 2 ^ r| ≤ |v| + |2 ^ r| := abs_add_le v _
    _ ≤ 2 ^ a + 2 ^ a := add_le_add h ((abs_of_pos (by positivity)).trans_le (pow_le_pow_right₀ one_le_two hr))
    _ = 2 ^ (a + 1) := by ring

theorem pow_lt_two_pow_of_abs_le {v : Int} {a k c : Nat} (hk : Even k) (h : |v| ≤ 2 ^ a) (hc : a * k < c) :
    v ^ k < 2 ^ c :=
  calc v ^ k = |v| ^ k := (hk.pow_abs v).symm
    _ ≤ (2 ^ a) ^ k := pow_le_pow_left₀ (abs_nonneg v) h k
    _ = 2 ^ (a * k) := (pow_mul 2 a k).symm
    _ < 2 ^ c := pow_lt_pow_right₀ one_lt_two hc

/-- Settles O44: a pass multiplies its inputs' bound by at most `2^16`, and DESCALE in pass 1 leaves `2^5` of that. -/
theorem idctFitsFortyEightBits : Obligations.IdctFitsFortyEightBits := by
  intro b hb
  have hblock (n : Fin 64) : |b[n]| ≤ 2 ^ 23 := (abs_le.2 (hb n)).trans (by norm_num)
  have hws (n : Fin 64) : |(idctColumns b)[n]| ≤ 2 ^ 28 := idctColumns_abs_le hblock n
  have hpass1 (c : Fin 8) : ∀ v ∈ idct8Intermediates (idct8Values (column b c)), |v| ≤ 2 ^ 39 :=
    idct8Intermediates_abs_le fun r => hblock (natIndex r c)
  have hpass2 (r : Fin 8) : ∀ v ∈ idct8Intermediates (idct8Values (row (idctColumns b) r)), |v| ≤ 2 ^ 44 :=
    idct8Intermediates_abs_le fun c => hws (natIndex r c)
  refine ⟨fun c => ⟨fun v hv => ?_, fun v hv => ?_⟩, fun n => ⟨?_, ?_⟩, fun r => ⟨fun v hv => ⟨?_, ?_⟩, fun v hv => ?_⟩,
    descaled_getElem?_map⟩
  · exact pow_lt_two_pow_of_abs_le even_two (hpass1 c v hv) (by decide)
  · have hround := abs_add_two_pow_le (r := 10) (hpass1 c v (descaled_subset_idct8Intermediates _ hv)) (by decide)
    exact pow_lt_two_pow_of_abs_le even_two hround (by decide)
  · exact pow_lt_two_pow_of_abs_le even_two (hws n) (by decide)
  · obtain ⟨hlo, hhi⟩ := abs_le.1 (hws n)
    omega
  · exact pow_lt_two_pow_of_abs_le (by decide) (hpass2 r v hv) (by decide)
  · obtain ⟨hlo, hhi⟩ := abs_le.1 (hpass2 r v hv)
    omega
  · have hround := abs_add_two_pow_le (r := 17) (hpass2 r v (descaled_subset_idct8Intermediates _ hv)) (by decide)
    exact pow_lt_two_pow_of_abs_le (by decide) hround (by decide)

end Sys2Proof.Machine
end

section
/-! SUPPORT. Upsampling by replication (R120) and the colour of a pixel (R121 to R123). -/

namespace Sys2Proof.Machine

/-- A position among `8 * M` divided by the factor that takes `H` to `M` (R120). -/
theorem replicated_index {M H p : Nat} (hM : 0 < M) (hdvd : H ∣ M) (hp : p < 8 * M) :
    M / H * H = M ∧ M / H * (p / (M / H)) ≤ p ∧ p < M / H * (p / (M / H) + 1) ∧ p / (M / H) < 8 * H := by
  have hfactor : M / H * H = M := Nat.div_mul_cancel hdvd
  have hpos : 0 < M / H := Nat.pos_of_mul_pos_right (hfactor.symm ▸ hM)
  refine ⟨hfactor, Nat.mul_div_le p _, Nat.lt_mul_div_succ p hpos, Nat.div_lt_of_lt_mul ?_⟩
  calc p < 8 * M := hp
    _ = M / H * (8 * H) := by rw [Nat.mul_left_comm, hfactor]

/-- A frame of one component has the maxima 1 (R97, R122). -/
theorem Frame.sound.single_maxima {f : Frame} (h : f.sound) (hn : f.nf = 1#2) :
    f.hmax.toNat = 1 ∧ f.vmax.toNat = 1 := by
  obtain ⟨hh, hv⟩ := h.single hn
  constructor
  · simp [h.hmax, maxH, frameComps_one hn, hh]
  · simp [h.vmax, maxV, frameComps_one hn, hv]

/-- One component is not replicated (R122). -/
theorem upsample_single {s : State} (hf : s.frame.sound) (hn : s.frame.nf = 1#2) (px py : Nat) :
    upsample s 0 px py = sampleAt s 0 px py := by
  obtain ⟨hmax, vmax⟩ := hf.single_maxima hn
  obtain ⟨hh, hv⟩ := hf.single hn
  simp [upsample, hmax, vmax, hh, hv]

theorem pixelAt_one {s : State} (h : s.frame.nf = 1#2) (px py : Nat) :
    pixelAt s px py = ⟨upsample s 0 px py, upsample s 0 px py, upsample s 0 px py⟩ := if_pos h

theorem pixelAt_three {s : State} (h : s.frame.nf = 3#2) (px py : Nat) :
    pixelAt s px py = ycbcrToRgb (upsample s 0 px py) (upsample s 1 px py) (upsample s 2 px py) :=
  if_neg (by rw [h]; decide)

theorem clampByte_of_byte (y : Byte) : clampByte y.toNat = y := by
  have hy := y.isLt
  have hclamp : clamp y.toNat 0 255 = y.toNat := by rw [clamp, if_neg (by omega), if_neg (by omega)]
  rw [clampByte, hclamp, Int.toNat_natCast, BitVec.ofNat_toNat, BitVec.setWidth_eq]

/-- Neutral chroma adds nothing but a half, which the shift drops (R121). -/
theorem ycbcrToRgb_neutral (y : Byte) : ycbcrToRgb y 128#8 128#8 = ⟨y, y, y⟩ := by
  simp [ycbcrToRgb, clampByte_of_byte]

/-- Settles O45: the factors of a sound frame divide its maxima, those of a single component are 1, and each channel is its
equation's clamped byte. -/
theorem upsamplingAndColourFollowTheEquations : Obligations.UpsamplingAndColourFollowTheEquations := by
  refine ⟨fun s j px py hf hj hpx hpy => ?_, fun s px py hf => ⟨fun hn => ?_, fun hn => pixelAt_three hn px py⟩,
    fun y cb cr => ⟨clampByte_toNat _, clampByte_toNat _, clampByte_toNat _, fun hcb hcr => ?_⟩⟩
  · obtain ⟨hhmax, hvmax⟩ := hf.maxima_pos
    obtain ⟨hhmod, hvmod⟩ := hf.ratios j hj
    obtain ⟨hfh, hxlo, hxhi, hx⟩ := replicated_index hhmax (Nat.dvd_of_mod_eq_zero hhmod) hpx
    obtain ⟨hfv, hylo, hyhi, hy⟩ := replicated_index hvmax (Nat.dvd_of_mod_eq_zero hvmod) hpy
    exact ⟨_, _, _, _, hfh, hfv, hxlo, hxhi, hylo, hyhi, hx, hy, rfl⟩
  · rw [pixelAt_one hn, upsample_single hf hn]
  · rw [hcb, hcr, ycbcrToRgb_neutral]

end Sys2Proof.Machine
end

section
/-! SUPPORT. The error entry (R125 to R127). -/

namespace Sys2Proof.Machine

open Sys2Proof.Spec

/-- Settles O5: by the error entry's definition, its region address by address, and the table of the causes. -/
theorem errorEntryRecordsAndFlushes : Obligations.ErrorEntryRecordsAndFlushes := by
  refine ⟨fun c s => ⟨errorIs_raise c rfl, rfl, inSpans_indetAfterAbort s⟩, by decide, fun c => ?_⟩
  cases c <;> decide

end Sys2Proof.Machine
end

section
/-! SUPPORT. Entries that the host appends later (R90, R128): no operation of a loader sees them, they stay behind what it
leaves, and an error entry flushes them (R127). -/

namespace Sys2Proof.Machine

open Sys2Proof.Spec

theorem withLater_fifo_length (later : List FifoEntry) (s : State) :
    (withLater s later).fifo.length = s.fifo.length + later.length := List.length_append

/-- The state `t` that an operation has left, had `later` stood behind all entries: an error entry has flushed them. -/
def afterLater (later : List FifoEntry) (t : State) : State :=
  match t.seq with
  | .error => t
  | _ => withLater t later

theorem afterLater_error {t : State} (h : t.seq = .error) (later : List FifoEntry) : afterLater later t = t := by
  rw [afterLater, h]

theorem afterLater_of_ne {t : State} (h : t.seq ≠ .error) (later : List FifoEntry) :
    afterLater later t = withLater t later := by
  unfold afterLater
  split
  · rename_i herror
    exact absurd herror h
  · rfl

theorem afterLater_payload {t : State} {l : LoadPos} (h : t.seq = .payload l) (later : List FifoEntry) :
    afterLater later t = withLater t later := by
  rw [afterLater, h]

theorem afterLater_seq (later : List FifoEntry) (t : State) : (afterLater later t).seq = t.seq := by
  by_cases h : t.seq = .error
  · rw [afterLater_error h]
  · rw [afterLater_of_ne h]
    rfl

theorem afterLater_fifo_length_le (later : List FifoEntry) (t : State) :
    (afterLater later t).fifo.length ≤ t.fifo.length + later.length := by
  by_cases h : t.seq = .error
  · rw [afterLater_error h]
    exact Nat.le_add_right _ _
  · rw [afterLater_of_ne h]
    exact (withLater_fifo_length later t).le

/-- The operation does not see entries behind those that are there. -/
def IgnoresLater (f : State → State) : Prop := ∀ later s, f (withLater s later) = afterLater later (f s)

theorem IgnoresLater.ite {p : State → Prop} {d : ∀ s, Decidable (p s)} {f g : State → State}
    (hf : IgnoresLater f) (hg : IgnoresLater g)
    (hp : ∀ later s, p (withLater s later) ↔ p s := by exact fun _ _ => .rfl) :
    IgnoresLater fun s => if p s then f s else g s := by
  intro later s
  by_cases h : p s
  · simpa only [if_pos h, if_pos ((hp later s).2 h)] using hf later s
  · simpa only [if_neg h, if_neg (mt (hp later s).1 h)] using hg later s

/-- After a step that keeps the FIFO and goes on. -/
theorem IgnoresLater.after {f g : State → State} (hf : IgnoresLater f)
    (hg : ∀ later s, g (withLater s later) = withLater (g s) later) : IgnoresLater fun s => f (g s) := by
  intro later s
  simp only [hg, hf later (g s)]

theorem raise_ignoresLater (c : Cause) : IgnoresLater (raise c) := fun _ _ => rfl

/-- A check that raises, before the operation goes on as `f` (R127). -/
theorem IgnoresLater.check {p : State → Prop} {d : ∀ s, Decidable (p s)} {c : Cause} {f g : State → State}
    (hf : IgnoresLater f) (hp : ∀ later s, p (withLater s later) ↔ p s := by exact fun _ _ => .rfl)
    (hg : ∀ later s, g (withLater s later) = withLater (g s) later := by exact fun _ _ => rfl) :
    IgnoresLater fun s => if p s then raise c (g s) else f s :=
  .ite ((raise_ignoresLater c).after hg) hf hp

theorem loadEnd_ignoresLater : IgnoresLater loadEnd := fun _ _ => rfl

theorem loadAt_ignoresLater (l : LoadPos) : IgnoresLater (loadAt l) := fun _ _ => rfl

theorem dqtNext_ignoresLater (rem : Nat) : IgnoresLater (dqtNext rem) := by
  unfold dqtNext
  exact .ite loadEnd_ignoresLater <| .check (loadAt_ignoresLater _)

theorem dqtId_ignoresLater (rem : Nat) (b : Byte) : IgnoresLater (dqtId rem b) := by
  unfold dqtId
  exact .check <| .check (loadAt_ignoresLater _)

theorem dqtCoef_ignoresLater (rem : Nat) (tq : Fin 4) (q : List Byte) (b : Byte) : IgnoresLater (dqtCoef rem tq q b) := by
  unfold dqtCoef
  exact .check <| .ite (loadAt_ignoresLater _) ((dqtNext_ignoresLater _).after fun _ _ => rfl)

theorem dhtNext_ignoresLater (rem : Nat) : IgnoresLater (dhtNext rem) := by
  unfold dhtNext
  exact .ite loadEnd_ignoresLater <| .check (loadAt_ignoresLater _)

theorem dhtId_ignoresLater (rem : Nat) (b : Byte) : IgnoresLater (dhtId rem b) := by
  unfold dhtId
  exact .check <| .check (loadAt_ignoresLater _)

theorem storeHt_withLater (tc : TableClass) (th : Fin 4) (t : HuffTable) (later : List FifoEntry) (s : State) :
    storeHt tc th t (withLater s later) = withLater (storeHt tc th t s) later := by
  cases tc <;> rfl

theorem dhtChecked_ignoresLater (rem : Nat) (tc : TableClass) (th : Fin 4) (bits : List Byte) :
    IgnoresLater (dhtChecked rem tc th bits) := by
  unfold dhtChecked
  exact .check <| .check <| .check <|
    .ite ((dhtNext_ignoresLater _).after (storeHt_withLater _ _ _)) (loadAt_ignoresLater _)

theorem dhtBits_ignoresLater (rem : Nat) (tc : TableClass) (th : Fin 4) (bits : List Byte) (b : Byte) :
    IgnoresLater (dhtBits rem tc th bits b) := by
  unfold dhtBits
  exact .ite (loadAt_ignoresLater _) (dhtChecked_ignoresLater _ _ _ _)

theorem dhtVals_ignoresLater (rem : Nat) (tc : TableClass) (th : Fin 4) (bits : Vector Byte 16) (vals : List Byte)
    (b : Byte) : IgnoresLater (dhtVals rem tc th bits vals b) := by
  unfold dhtVals
  exact .ite (loadAt_ignoresLater _) ((dhtNext_ignoresLater _).after (storeHt_withLater _ _ _))

theorem sofHeader_ignoresLater (len : Nat) (h : List Byte) : IgnoresLater (sofHeader len h) := by
  unfold sofHeader
  exact .check <| .check <| .check <| .check <| .check <| .check fun _ _ => rfl

theorem sofEnd_ignoresLater : IgnoresLater sofEnd := by
  unfold sofEnd
  exact .ite (fun _ _ => rfl) (fun _ _ => rfl)

theorem sofComponent_ignoresLater (j : Nat) (c hv tq : Byte) : IgnoresLater (sofComponent j c hv tq) := by
  unfold sofComponent
  exact .check <| .check <| .check <| .ite (fun _ _ => rfl) (sofEnd_ignoresLater.after fun _ _ => rfl)

theorem sosCount_ignoresLater (len : Nat) (ob : Word) (ns : Byte) : IgnoresLater (sosCount len ob ns) := by
  unfold sosCount
  exact .check <| .check <| .check (loadAt_ignoresLater _)

theorem sosComponent_ignoresLater (j : Nat) (ob : Word) (cs t : Byte) : IgnoresLater (sosComponent j ob cs t) := by
  unfold sosComponent
  exact .check <| .check <| .ite (fun _ _ => rfl) (fun _ _ => rfl)

theorem sosEnd_ignoresLater (ob : Word) (ss se a : Byte) : IgnoresLater (sosEnd ob ss se a) := by
  unfold sosEnd
  exact .check <| .check <| .check fun _ _ => rfl

/-- What a payload byte does depends on no entry behind it. -/
theorem loadByte_ignoresLater (l : LoadPos) (b : Byte) : IgnoresLater (loadByte l b) := by
  cases l with
  | dqtId rem => exact dqtId_ignoresLater rem b
  | dqtCoef rem tq q => exact dqtCoef_ignoresLater rem tq q b
  | dhtId rem => exact dhtId_ignoresLater rem b
  | dhtBits rem tc th bits => exact dhtBits_ignoresLater rem tc th bits b
  | dhtVals rem tc th bits vals => exact dhtVals_ignoresLater rem tc th bits vals b
  | sofHeader len got => exact .ite (loadAt_ignoresLater _) (sofHeader_ignoresLater len _)
  | sofComp j got => exact .ite (loadAt_ignoresLater _) (sofComponent_ignoresLater j _ _ _)
  | sosCount len ob => exact sosCount_ignoresLater len ob b
  | sosComp j ob got => exact .ite (loadAt_ignoresLater _) (sosComponent_ignoresLater j ob _ _)
  | sosTail ob got => exact .ite (loadAt_ignoresLater _) (sosEnd_ignoresLater ob _ _ _)

/-- A loader's run takes some entries, and with later entries it takes these and goes on from where it stood. -/
theorem runLoad_later (later : List FifoEntry) (fuel : Nat) (s : State) :
    ∃ taken ≤ fuel, ∀ n, runLoad (taken + n) (afterLater later s) = runLoad n (afterLater later (runLoad fuel s)) := by
  induction fuel generalizing s with
  | zero => exact ⟨0, le_rfl, fun n => by rw [Nat.zero_add]; rfl⟩
  | succ fuel ih =>
    by_cases hp : ∃ l, s.seq = .payload l
    · obtain ⟨l, hl⟩ := hp
      have hseq : (withLater s later).seq = .payload l := hl
      have hfifo : (withLater s later).fifo = s.fifo ++ later := rfl
      rcases nextPayloadByte_cases s with ⟨hf, -⟩ | ⟨b, rest, hf, -⟩ | ⟨op, a, len, o, rest, hf, -⟩
      · exact ⟨0, Nat.zero_le _, fun n => by rw [Nat.zero_add, runLoad_empty _ hf]⟩
      · obtain ⟨taken, hle, h⟩ := ih (loadByte l b { s with fifo := rest })
        rw [hf] at hfifo
        refine ⟨taken + 1, Nat.succ_le_succ hle, fun n => ?_⟩
        rw [runLoad_byte fuel hl hf, ← h, ← loadByte_ignoresLater, afterLater_payload hl, Nat.add_right_comm,
          runLoad_byte _ hseq hfifo]
        rfl
      · rw [hf] at hfifo
        refine ⟨1, Nat.succ_le_succ (Nat.zero_le _), fun n => ?_⟩
        have hended : runLoad n (raise .sequence (withLater s later)) = raise .sequence (withLater s later) :=
          runLoad_ended n fun _ => nofun
        rw [runLoad_cmd fuel hl hf, ← raise_ignoresLater, hended, afterLater_payload hl, Nat.add_comm,
          runLoad_cmd n hseq hfifo]
    · have hp' : ∀ l, s.seq ≠ .payload l := fun l h => hp ⟨l, h⟩
      exact ⟨0, Nat.zero_le _, fun n => by rw [Nat.zero_add, runLoad_ended _ hp']⟩

/-- A run that waits goes on, with later entries, as if they had been there at once. -/
theorem runLoad_resumes {s u : State} {later : List FifoEntry} {fuel n n' : Nat} (hu : runLoad fuel s = u)
    (hn : (afterLater later s).fifo.length ≤ n) (hn' : (afterLater later u).fifo.length ≤ n') :
    runLoad n (afterLater later s) = runLoad n' (afterLater later u) := by
  obtain ⟨taken, -, h⟩ := runLoad_later later fuel s
  calc runLoad n (afterLater later s)
      = runLoad (taken + (n + n')) (afterLater later s) := runLoad_enough hn (by omega)
    _ = runLoad (n + n') (afterLater later u) := by rw [h, hu]
    _ = runLoad n' (afterLater later u) := runLoad_enough (by omega) hn'

/-- A run that does not wait ends alike with later entries. -/
theorem runLoad_ends_later {s u : State} {fuel fuel' : Nat} (hu : runLoad fuel s = u) (hend : ¬ WaitsForPayload u)
    (later : List FifoEntry) (hle : fuel ≤ fuel') : runLoad fuel' (afterLater later s) = afterLater later u := by
  obtain ⟨taken, htaken, h⟩ := runLoad_later later fuel s
  obtain ⟨n, rfl⟩ := Nat.exists_eq_add_of_le (htaken.trans hle)
  rw [h, hu, runLoad_ended n fun l hl => hend ⟨l, (afterLater_seq later u).symm.trans hl⟩]

/-! A turn that runs a command or goes on with one. -/

/-- One run of a loader leaves `t`, and the run from the same state with later entries leaves `t'`. The second may take at
least as many entries as the first, and where a turn takes all that is there, all of them (93 row 27). -/
def SameRun (later : List FifoEntry) (pace : Pace) (t t' : State) : Prop :=
  ∃ s fuel fuel', fuel ≤ fuel' ∧ (pace = .whole → (afterLater later s).fifo.length ≤ fuel') ∧ runLoad fuel s = t ∧
    runLoad fuel' (afterLater later s) = t'

theorem SameRun.resumes {later : List FifoEntry} {t t' : State} {n : Nat} (h : SameRun later .whole t t')
    (hn : (afterLater later t).fifo.length ≤ n) : t' = runLoad n (afterLater later t) := by
  obtain ⟨s, fuel, fuel', -, henough, ht, rfl⟩ := h
  exact runLoad_resumes ht (henough rfl) hn

theorem SameRun.ends {later : List FifoEntry} {pace : Pace} {t t' : State} (h : SameRun later pace t t')
    (hend : ¬ WaitsForPayload t) : t' = afterLater later t := by
  obtain ⟨s, fuel, fuel', hle, -, ht, rfl⟩ := h
  exact runLoad_ends_later ht hend later hle

theorem SameRun.raised (later : List FifoEntry) (pace : Pace) (c : Cause) (s : State) :
    SameRun later pace (raise c s) (raise c (withLater s later)) :=
  ⟨raise c s, 0, 0, le_rfl, fun _ => le_rfl, rfl, rfl⟩

theorem resumeFuel_mono (s : State) {m n : Nat} (h : m ≤ n) : resumeFuel s m ≤ resumeFuel s n := by
  unfold resumeFuel
  split
  · exact h
  · exact le_rfl

theorem dispatchFuel_mono (s : State) {m n : Nat} (h : m ≤ n) : dispatchFuel s m ≤ dispatchFuel s n := by
  unfold dispatchFuel
  split
  · exact h
  · exact le_rfl

/-- What a command does after its dispatch is a loader's run, with later entries from the same state (R91). -/
def CommandRun (run : State → State) : Prop := ∀ later s, SameRun later s.pace (run s) (run (withLater s later))

theorem CommandRun.raises (c : Cause) : CommandRun (raise c) := fun _ _ => .raised _ _ c _

theorem CommandRun.loads {checked : State → State} (h : IgnoresLater checked)
    (hfifo : ∀ s, (checked s).fifo.length ≤ s.fifo.length) :
    CommandRun fun s => runLoad (dispatchFuel s s.fifo.length) (checked s) := by
  intro later s
  have hlength := withLater_fifo_length later s
  refine ⟨checked s, _, dispatchFuel s (withLater s later).fifo.length, dispatchFuel_mono s (by omega), fun hpace => ?_, rfl,
    by rw [← h]; rfl⟩
  rw [dispatchFuel_whole hpace, hlength]
  exact (afterLater_fifo_length_le later _).trans (Nat.add_le_add_right (hfifo s) _)

/-- A check at the dispatch that raises, before the command goes on as `f` (R91). -/
theorem CommandRun.check {p : State → Prop} {d : ∀ s, Decidable (p s)} {c : Cause} {f g : State → State}
    (hf : CommandRun f) (hp : ∀ later s, p (withLater s later) ↔ p s := by exact fun _ _ => .rfl)
    (hg : ∀ later s, g (withLater s later) = withLater (g s) later := by exact fun _ _ => rfl) :
    CommandRun fun s => if p s then raise c (g s) else f s := by
  intro later s
  by_cases h : p s
  · simpa only [if_pos h, if_pos ((hp later s).2 h), hg] using .raised later s.pace c (g s)
  · simpa only [if_neg h, if_neg (mt (hp later s).1 h)] using hf later s

theorem loadDqt_commandRun (len : Nat) : CommandRun (loadDqt len) := by
  unfold loadDqt
  exact .check <| .loads (dqtNext_ignoresLater len) fun s => (dqtNext_nextUnit len s).fifo_length_le

theorem loadDht_commandRun (len : Nat) : CommandRun (loadDht len) := by
  unfold loadDht
  exact .check <| .loads (dhtNext_ignoresLater len) fun s => (dhtNext_nextUnit len s).fifo_length_le

theorem loadSof_commandRun (arg : Byte) (len : Nat) : CommandRun (loadSof arg len) := by
  unfold loadSof
  cases sofKind arg with
  | variant => exact .raises _
  | notSof => exact .raises _
  | baseline => exact .check <| .check <| .loads (loadAt_ignoresLater _) fun _ => le_rfl

theorem startScan_commandRun (len : Nat) (ob : Word) : CommandRun (startScan len ob) := by
  unfold startScan
  exact .check <| .check <| .loads (fun _ _ => rfl) fun _ => le_rfl

/-- A command entry is removed, and the command run (R91). -/
theorem exec_commandRun (op arg : Byte) (len : Half) (ob : Word) :
    ∃ run, CommandRun run ∧ ∀ s, headOb s = ob → exec (decodeFields op arg len) s = .next (run (takeCommand op s)) := by
  by_cases hop : op ∈ [0x01#8, 0x02#8, 0x03#8, 0x04#8]
  · simp only [List.mem_cons, List.not_mem_nil, or_false] at hop
    rcases hop with rfl | rfl | rfl | rfl
    · exact ⟨_, loadDqt_commandRun len.toNat, fun _ _ => rfl⟩
    · exact ⟨_, loadDht_commandRun len.toNat, fun _ _ => rfl⟩
    · exact ⟨_, loadSof_commandRun arg len.toNat, fun _ _ => rfl⟩
    · exact ⟨_, startScan_commandRun len.toNat ob, fun s hob => hob ▸ rfl⟩
  · exact ⟨_, .raises .illegalCommand, fun s _ => exec_decodeFields_reserved arg len s hop⟩

/-- A turn that runs a command. -/
theorem coreTurn_command_later {s u : State} {op arg : Byte} {len : Half} {ob : Word} {rest : List FifoEntry}
    (later : List FifoEntry) (hs : s.seq = .idle) (hf : s.fifo = .cmd op arg len ob :: rest) (hu : coreTurn s = .next u) :
    ∃ u', coreTurn (withLater s later) = .next u' ∧ SameRun later s.pace u u' := by
  obtain ⟨run, hrun, hexec⟩ := exec_commandRun op arg len ob
  have hturn : ∀ {t : State} {more}, t.seq = .idle → t.fifo = .cmd op arg len ob :: more →
      coreTurn t = .next (run (takeCommand op t)) := fun ht hfifo => by
    rw [coreTurn_exec (fetch_command ht hfifo), decodeCommand_cmdWord, hexec _ (by rw [headOb, hfifo])]
  have hlater : (withLater s later).fifo = .cmd op arg len ob :: (rest ++ later) := congrArg (· ++ later) hf
  have htaken : takeCommand op (withLater s later) = withLater (takeCommand op s) later := by
    simp only [takeCommand, withLater, hf, List.cons_append, List.tail_cons]
  refine ⟨_, hturn (t := withLater s later) hs hlater, ?_⟩
  rw [hturn hs hf] at hu
  obtain rfl := Host.Outcome.next.inj hu
  rw [htaken]
  exact hrun later (takeCommand op s)

/-- A turn that runs a command or goes on with one runs the loader, and with later entries it does so from the same state. -/
theorem coreTurn_later {s u : State} (later : List FifoEntry) (hs : WaitsForPayload s ∨ (s.seq = .idle ∧ s.fifo ≠ []))
    (hu : coreTurn s = .next u) : ∃ u', coreTurn (withLater s later) = .next u' ∧ SameRun later s.pace u u' := by
  rcases hs with ⟨l, hl⟩ | ⟨hidle, hf⟩
  · rw [coreTurn_payload hl] at hu
    obtain rfl := Host.Outcome.next.inj hu
    have hlength := withLater_fifo_length later s
    have hseq : afterLater later s = withLater s later := afterLater_payload hl later
    refine ⟨_, coreTurn_payload (s := withLater s later) hl, s, _, resumeFuel s (withLater s later).fifo.length,
      resumeFuel_mono s (by omega), fun hpace => ?_, rfl, by rw [hseq]; rfl⟩
    rw [hseq, resumeFuel_whole hpace]
  · match hfifo : s.fifo with
    | [] => exact absurd hfifo hf
    | .data b :: rest =>
      rw [coreTurn_idleData hidle hfifo] at hu
      obtain rfl := Host.Outcome.next.inj hu
      have hlater : (withLater s later).fifo = .data b :: (rest ++ later) := congrArg (· ++ later) hfifo
      exact ⟨_, coreTurn_idleData (s := withLater s later) hidle hlater, .raised _ _ _ { s with curOp := 0#8 }⟩
    | .cmd op arg len ob :: rest => exact coreTurn_command_later later hidle hfifo hu

theorem coreTurn_pace {s u : State} (h : coreTurn s = .next u) : u.pace = s.pace := by
  obtain ⟨-, -, -, -, -, -, -, -, -, -, -, -, hpace, -⟩ := coreLeaves_keeps (coreStep_leaves (coreTurn_step h))
  exact hpace

/-- Settles O24: a loader's run with later entries takes the same ones first and goes on from where it stood; a turn is such a
run. -/
theorem loadersDoNotDependOnTimingOrCut : Obligations.LoadersDoNotDependOnTimingOrCut := by
  refine ⟨fun s later n n' => ?timing, fun s a b => runLoad_runLoad a b s, fun s hs => ?turn,
    fun s u later hs hu => ?later⟩
  case timing =>
    intro waited hwaited hn hn'
    have hs : s.seq ≠ .error := fun herror => hwaited <| by
      have hended : waited = s := runLoad_ended _ fun l hl => nomatch herror.symm.trans hl
      rw [hended, herror]
    rw [← afterLater_of_ne hwaited, ← afterLater_of_ne hs]
    exact (runLoad_resumes rfl ((afterLater_fifo_length_le later s).trans hn)
      ((afterLater_fifo_length_le later waited).trans hn')).symm
  case turn =>
    obtain ⟨l, hl⟩ := hs
    refine ⟨fun hpace => ?_, fun hpace => ?_⟩
    · rw [coreTurn_payload hl, resumeFuel_whole hpace]
    · rw [coreTurn_payload hl, resumeFuel, hpace]
  case later =>
    obtain ⟨u', hu', hrun⟩ := coreTurn_later later hs hu
    rw [hu']
    refine ⟨fun hwaits hpace => ?_, fun herror => ?_, fun hend hne => ?_⟩
    · obtain ⟨l, hl⟩ := hwaits
      have hupace : (withLater u later).pace = .whole := (coreTurn_pace hu).trans hpace
      rw [hpace] at hrun
      rw [coreTurn_payload (s := withLater u later) hl, resumeFuel_whole hupace, ← afterLater_payload hl, hrun.resumes le_rfl]
    · have hend : ¬ WaitsForPayload u := fun ⟨l, hl⟩ => nomatch herror.symm.trans hl
      rw [hrun.ends hend, afterLater_error herror]
    · rw [hrun.ends hend, afterLater_of_ne hne]

end Sys2Proof.Machine
end

section
/-! SUPPORT. The reset of the core (R137, R138): what the registers answer after it, what performs it, and the invariants
from which every run starts. -/

namespace Sys2Proof.Machine

/-! The state after a reset. -/

/-- The registers show only state of the core, which a reset gives its reset values. -/
theorem regRead_resetCore (o : Nat) (s : State) : regRead o (resetCore s) = regRead o State.reset := rfl

theorem regRead_reset (o : Nat) : regRead o State.reset = if o = 0 then 0x4A504547#32 else 0#32 := by
  unfold regRead
  split
  case h_14 => exact (if_neg ‹o = 0 → False›).symm
  all_goals decide

/-- The machine starts as a reset leaves it: there is no region to give up. -/
theorem resetCore_reset : resetCore State.reset = State.reset := rfl

/-- Settles O6: the registers read as in `State.reset`, whose tables and predictors are constant vectors, and a reset gives up
the region as an error does. -/
theorem resetClearsEveryRegister : Obligations.ResetClearsEveryRegister := by
  intro s o
  refine ⟨(regRead_resetCore o s).trans (regRead_reset o), rfl, rfl, rfl, rfl, rfl, rfl, rfl, fun i => ?valid, fun j => ?scan,
    rfl, rfl, rfl, rfl, rfl, rfl, rfl, rfl, resetCore_mem s, inSpans_indetAfterAbort s⟩
  case valid => simp [resetCore, State.reset]
  case scan => simp [resetCore, State.reset]

/-! What performs it. -/

/-- A hardware reset discards the host's operation that stalls (R88, R138). -/
theorem hwReset_eq (s : State) :
    hwReset s = { resetCore s with
      stalled := false, hostOps := if s.stalled = true then s.hostOps.tail else s.hostOps } := by
  unfold hwReset
  cases hstalled : s.stalled
  · simp [resetCore, hstalled]
  · simp [hostDone]

/-- A write of CTRL completes in every state (R83). -/
theorem regWrite_ctrl (v : Word) (s : State) : regWrite 0x04 v s = some (if v.getLsbD 0 then resetCore s else s) := rfl

/-- Settles O7: the hardware's turn is `hwReset`, and the host's turn completes the write of CTRL. -/
theorem bothResetSourcesResetTheCore : Obligations.BothResetSourcesResetTheCore := by
  refine fun s => ⟨fun hn => ?hardware, fun v rest hn hops => ?host⟩
  case hardware =>
    rw [step_hwReset hn, hwReset_eq]
    rfl
  case host =>
    obtain ⟨-, haccess, -⟩ := registerPortAccesses
    obtain ⟨-, hwrite⟩ := haccess s 0x04 rest hn (by decide) (by decide)
    obtain ⟨hcompletes, -⟩ := hwrite v hops
    rw [hcompletes _ (regWrite_ctrl v s)]
    split_ifs <;> rfl

/-! The invariants. -/

theorem memoryCanonical_reset : MemoryCanonical State.reset := by
  unfold MemoryCanonical
  decide

theorem isError_resetCore (s : State) : isError (resetCore s) = false := rfl

theorem terminal_resetCore (s : State) : terminal (resetCore s) = false := rfl

theorem resetCore_fifoBounded (s : State) : FifoBounded (resetCore s) := Nat.zero_le _

theorem resetCore_errorLatchAgrees (s : State) : ErrorLatchAgrees (resetCore s) := by
  refine ⟨?_, fun _ => ⟨rfl, rfl⟩⟩
  rw [isError_resetCore, resetCore_errClass]
  decide

theorem resetCore_terminalFlushed (s : State) : TerminalFlushed (resetCore s) := by
  intro h
  rw [terminal_resetCore] at h
  contradiction

theorem resetCore_frontEndCounts (s : State) : FrontEndCounts (resetCore s) := by
  unfold FrontEndCounts
  rw [resetCore_feMode, resetCore_feCount]
  decide

theorem resetCore_bitReaderBounded (s : State) : BitReaderBounded (resetCore s) := Nat.zero_le _

theorem resetCore_scanInBounds (s : State) : ScanInBounds (resetCore s) := trivial

/-- Settles O51: a reset of any state meets every invariant but that of the memory, which it keeps; the first memory is empty. -/
theorem resetStateMeetsTheInvariants : Obligations.ResetStateMeetsTheInvariants := by
  unfold Obligations.ResetStateMeetsTheInvariants
  refine ⟨memoryCanonical_reset, ?_⟩
  rw [← resetCore_reset]
  exact ⟨resetCore_fifoBounded _, resetCore_coefficientsInRange _, resetCore_errorLatchAgrees _, resetCore_terminalFlushed _,
    resetCore_frontEndCounts _, resetCore_bitReaderBounded _, resetCore_quantTables _, resetCore_huffTables _,
    resetCore_frameSound _, resetCore_scanInBounds _⟩

end Sys2Proof.Machine
end
